-- ==== Sys2Proof/Word.lean ====
section
/-! DEFINITION. The word types of the machine and their plainest arithmetic (R4, R5, R28).
-/
namespace Sys2Proof

/-- One byte of memory, of a register or of a tile. -/
abbrev Byte := BitVec 8

/-- A 64-bit register or address. -/
abbrev Word := BitVec 64

/-- One 96-bit instruction word (R45). -/
abbrev IWord := BitVec 96

/-- An integer of a field seen as a 64-bit word, wrapped. -/
def Word.ofInt (n : Int) : Word := BitVec.ofInt 64 n

/-- Sign-extension of a 32-bit immediate (R54). -/
def sext32 (b : BitVec 32) : Word := b.signExtend 64

end Sys2Proof
end

