-- ==== Sys2Proof/Config.lean ====
section
/-! DEFINITION. What an implementation fixes and the free values: constants with no body, which no proof can
evaluate, and the fixed sizes of the part (R2, R3, R24, R41, R198, R230).
-/
namespace Sys2Proof

namespace Config

/-- Counts of TIME, less one, between the last moment at which it was seen and the next, numbered n (R41 gives a rate and no
instant). A free value. DESIGN CHOICE: log 8. -/
opaque elapsed : Nat → BitVec 56

/-- What a byte of memory, written under one KEY with a plain value, reads as under another (R237, R249): by the KEY of the
write, the KEY of the read, the address and the plain value. A free value. DESIGN CHOICE: log 107. -/
opaque cipher : Nat → Nat → Nat → BitVec 8 → BitVec 8

/-- The memory channel, below 192, that homes a physical line; Dribrikan chooses the interleave (R395).
DESIGN CHOICE: log 11. -/
opaque channelOf : Nat → Fin 192

/-- The CXL port, below 4, that serves an expander line (R397). DESIGN CHOICE: log 11. -/
opaque cxlPort : Nat → Fin 4

/-- The die whose queue unit homes an expander line (R362). -/
opaque expanderDie : Nat → Fin 6

/-- The cause that a copy records for a facet table that is not valid (R237 names none). DESIGN CHOICE: log 53. -/
opaque facetCause : Fin 256

/-- Whether a signed firmware image, named by a number, verifies with ECDSA on P-521 and SHA-512 against the fused
root key (R398); the key is the part's own. DESIGN CHOICE: log 12. -/
opaque verifies : Nat → Bool

/-- The answer of the security protocol to a request on a function (R399), by the function, the request, the firmware image that
runs and the channels and ports that are disabled; the fuse configuration is the part's own, and the protocol's own documents give
the rest.
DESIGN CHOICE: log 12. -/
opaque spdmReply : Nat → Nat → Nat → List Nat → Nat

/-- The unit of 4 KiB, in the store of a level and a site, that holds unit k of a tile: by level, site, drove, handle and k (R229
leaves the banks of a tile to the part). A free value. DESIGN CHOICE: log 35. -/
opaque unitAt : Nat → Nat → Nat → Nat → Nat → Nat

/-- The unit of 4 KiB of a die's store that holds unit k of an adapter on its shelf (R396): by die, saddle, id and k. A free value.
DESIGN CHOICE: log 35. -/
opaque shelfUnit : Nat → Nat → Nat → Nat → Nat

/-- Whether a cache holds a clean copy of a line: by cache (0 for the line caches, a core's number plus 1 for its scalar L1), line and
moment. A free value. DESIGN CHOICE: log 34. -/
opaque heldClean : Nat → Nat → Nat → Bool

/-- The slice of a die's tile store that holds a byte offset, and the slice of a line cache that holds a line, as instances of the
module (R295 numbers neither). DESIGN CHOICE: log 35. -/
opaque storeSlice : Nat → Nat → Nat
opaque lineSlice : Nat → Nat

/-- The harness port, below 64, whose buffers hold a packet of a span id (R388). DESIGN CHOICE: log 35. -/
opaque portOf : Nat → Fin 64

/-- Bits that no rule fixes: how far a running operation has come (R328, R329). DESIGN CHOICE: log 10. -/
opaque freeWord : Nat → Word

end Config

/-- Bytes of local memory: 2,048 GB (R3, R6). -/
def localBytes : Nat := 2048 * 10 ^ 9
/-- Bytes of expander memory: 16 TiB (R3, R6). -/
def expanderBytes : Nat := 2 ^ 44
/-- RUNAHEAD (R41, R198). -/
def runAhead : Nat := 24
/-- Bytes of vector storage (R30). -/
def vstoreBytes : Nat := 131072
/-- The largest flat index count (R42). -/
def maxFlat : Nat := 16384
def coresPerDie : Nat := 64
def coresPerModule : Nat := 384
def diesPerModule : Nat := 6
/-- Tile-store bytes of a core, a quad and a die (R230). -/
def storeBytes : Nat → Nat
  | 1 => 2097152
  | 2 => 8388608
  | _ => 33554432
def gateCounters : Nat := 4096
def sheetRecordBytes : Nat := 187648
/-- Lines of a scalar L1: 64 KiB (R161). -/
def l1Lines : Nat := 1024
/-- Counts of TIME in a millisecond: TIME counts at 2.1 GHz (R3, R41). -/
def msCounts : Nat := 2100000

end Sys2Proof
end

