-- ==== Sys2Proof/Syntax.lean ====
section
/-! DEFINITION. The syntax: register names, element formats, modifiers, and ONE inductive of every
instruction and every event of spec/opcode_table.json (R28, R51 to R63, R68).
-/
namespace Sys2Proof

/-- `x0` to `x31` (R28). Where a TY names a float format the same field names an `f` register. -/
abbrev XReg := Fin 32
abbrev FReg := Fin 16
abbrev VReg := Fin 64
abbrev MReg := Fin 24
abbrev DReg := Fin 16
abbrev KReg := Fin 16
abbrev GReg := Fin 8
abbrev OReg := Fin 4
abbrev ZReg := Fin 8
abbrev WReg := Fin 16

/-- The element formats (R68). -/
inductive Fmt where
  | i8 | i16 | i32 | i64 | n8 | n16 | n32 | n64
  | f64 | f32 | bf16 | f16 | e4m3 | e5m2 | fp4b | ing | fct8
  deriving DecidableEq, Repr

/-- Rounding modes (R51, R73). -/
inductive Rnd where
  | rne | rtz | rdn | rup | rna
  deriving DecidableEq, Repr

/-- Conditions (R62). -/
inductive Cond where
  | eq | ne | lt | ge | le | gt | ltu | geu | leu | gtu | un | or
  deriving DecidableEq, Repr

/-- Reduce operators (R63). -/
inductive RedOp where
  | add | mul | min | max | and | or | xor | swap
  deriving DecidableEq, Repr

/-- Scopes (R2). -/
inductive Scope where
  | ln | co | qd | di | pk | pd
  deriving DecidableEq, Repr

/-- An x register, or IMM32 when I = 1 (R54). -/
inductive XSrc where
  | reg (r : XReg)
  | imm (v : BitVec 32)
  deriving DecidableEq, Repr

/-- An f register, or a binary32 pattern when I = 1 (R54). -/
inductive FSrc where
  | reg (r : FReg)
  | imm (v : BitVec 32)
  deriving DecidableEq, Repr

/-- A v group, or IMM32 when I = 1 (R54). -/
inductive VSrc where
  | reg (r : VReg)
  | imm (v : BitVec 32)
  deriving DecidableEq, Repr

/-- The mask operand: MK and MP (R51, R55). `none` is MK = 31, which has MP = 0. -/
inductive VMask where
  | none
  | by (m : MReg) (fill : Bool)
  deriving DecidableEq, Repr

/-- The modifiers of a vector instruction: TY, RND, SAT and the mask. -/
structure VMod where
  ty : Fmt
  rnd : Rnd
  sat : Bool
  mask : VMask
  deriving DecidableEq, Repr

/-- The unary functions of `amap` (R109). -/
inductive MapUn where
  | mov | abs | neg | clz | popc | fsqrt | frsqrt | fexp2 | flog2 | fabs | fneg
  deriving DecidableEq, Repr

/-- The binary functions of `amap` and `aouter` (R109, R134). -/
inductive MapBin where
  | add | sub | mul | mulh | div | rem | and | or | xor | shl | shr | sar | min | max
  | fadd | fsub | fmul | fdiv | fmin | fmax
  deriving DecidableEq, Repr

/-- An element function with its further arguments (R109). -/
inductive MapFn where
  | un (u : MapUn)
  | bin (u : MapBin) (y : DReg)
  | cmp (c : Cond) (y : DReg)
  | fcmp (c : Cond) (y : DReg)
  | fma (y z : DReg)
  | sel (y z : DReg)
  deriving DecidableEq, Repr

/-- What `asel` selects by: a limit in an x register (condition 0 gt, 1 ge, 2 lt, 3 le) or a mask array (R57, R135). -/
inductive SelBy where
  | lim (c : Fin 4) (x : XReg)
  | mask (dm : DReg)
  deriving DecidableEq, Repr

/-- The report mode of a copy (R227). -/
inductive CopyMode where
  | st (b : XReg)
  | bar (name : BitVec 10) (scp : Scope)
  | gr (b : XReg)
  deriving DecidableEq, Repr

/-- Where an uncorrectable error was found (R296). The brand is `none` when it is unreadable. -/
inductive ErrEntry where
  | cleanLine (pa : Nat)
  | dirtyLine (kind inst : Nat) (pa : Nat) (brand : Option (BitVec 12))
  | entry (kind inst : Nat) (brand : Option (BitVec 12))
  | memLine (pa : Nat)
  deriving DecidableEq, Repr

/-- The load that is performed: how many instructions ahead it stands, and how many items it reads now (R199). -/
structure LoadStep where
  ahead : Nat
  items : Nat
  deriving DecidableEq, Repr

/-- Every row of the opcode table: the instructions (with their decoded operands), then the events
(with the unit, drove, node or packet they concern). -/
inductive Instr where
  -- OPC 0x00 (R149)
  | add (d a : XReg) (b : XSrc)
  | sub (d a : XReg) (b : XSrc)
  | mul (d a : XReg) (b : XSrc)
  | mulh (ty : Fmt) (d a : XReg) (b : XSrc)
  | div (ty : Fmt) (d a : XReg) (b : XSrc)
  | rem (ty : Fmt) (d a : XReg) (b : XSrc)
  | and (d a : XReg) (b : XSrc)
  | or (d a : XReg) (b : XSrc)
  | xor (d a : XReg) (b : XSrc)
  | andn (d a : XReg) (b : XSrc)
  | shl (d a : XReg) (b : XSrc)
  | shr (d a : XReg) (b : XSrc)
  | sar (d a : XReg) (b : XSrc)
  | rol (d a : XReg) (b : XSrc)
  | ror (d a : XReg) (b : XSrc)
  | min (ty : Fmt) (d a : XReg) (b : XSrc)
  | max (ty : Fmt) (d a : XReg) (b : XSrc)
  | cmp (c : Cond) (d a : XReg) (b : XSrc)
  | clz (d a : XReg)
  | ctz (d a : XReg)
  | popc (d a : XReg)
  | bext (d a : XReg) (b : XSrc)
  | bins (d a : XReg) (b : XSrc)
  | sext (ty : Fmt) (d a : XReg)
  | zext (ty : Fmt) (d a : XReg)
  | movh (d a : XReg) (b : XSrc)
  | crcw (ty : Fmt) (d a : XReg) (b : XSrc)
  | bswap (d a : XReg)
  -- OPC 0x10 (R154)
  | fadd (ty : Fmt) (rnd : Rnd) (d a : FReg) (b : FSrc)
  | fsub (ty : Fmt) (rnd : Rnd) (d a : FReg) (b : FSrc)
  | fmul (ty : Fmt) (rnd : Rnd) (d a : FReg) (b : FSrc)
  | fdiv (ty : Fmt) (rnd : Rnd) (d a : FReg) (b : FSrc)
  | fsqrt (ty : Fmt) (rnd : Rnd) (d a : FReg)
  | frsqrt (ty : Fmt) (rnd : Rnd) (d a : FReg)
  | fexp2 (ty : Fmt) (rnd : Rnd) (d a : FReg)
  | flog2 (ty : Fmt) (rnd : Rnd) (d a : FReg)
  | fma (ty : Fmt) (rnd : Rnd) (d a : FReg) (b : FSrc) (c : FReg)
  | fmin (ty : Fmt) (d a : FReg) (b : FSrc)
  | fmax (ty : Fmt) (d a : FReg) (b : FSrc)
  | fneg (ty : Fmt) (d a : FReg)
  | fabs (ty : Fmt) (d a : FReg)
  | fcmp (c : Cond) (ty : Fmt) (d : XReg) (a : FReg) (b : FSrc)
  | fcvt (ty src : Fmt) (rnd : Rnd) (d a : FReg)
  | fcvti (ty src : Fmt) (rnd : Rnd) (sat : Bool) (d : XReg) (a : FReg)
  | fcvtf (ty src : Fmt) (rnd : Rnd) (d : FReg) (a : XReg)
  | fmvx (ty : Fmt) (d : XReg) (a : FReg)
  | fmvf (ty : Fmt) (d : FReg) (a : XReg)
  -- OPC 0x20 (R158)
  | br (c : Cond) (a b : XReg) (disp : BitVec 32)
  | jmp (disp : BitVec 32)
  | jal (d : XReg) (disp : BitVec 32)
  | jr (a : XReg)
  | jalr (d a : XReg)
  | evwait (d : XReg)
  -- OPC 0x30, 0x31 (R162)
  | ld (ty : Fmt) (d a : XReg) (disp : BitVec 32)
  | st (ty : Fmt) (b a : XReg) (disp : BitVec 32)
  | ldp (ty : Fmt) (d c a : XReg) (disp : BitVec 32)
  | stp (ty : Fmt) (b c a : XReg) (disp : BitVec 32)
  | lda (ty : Fmt) (scp : Scope) (d a : XReg) (disp : BitVec 32)
  | stl (ty : Fmt) (scp : Scope) (b a : XReg) (disp : BitVec 32)
  | amoAdd (ty : Fmt) (scp : Scope) (d b a : XReg) (disp : BitVec 32)
  | amoAnd (ty : Fmt) (scp : Scope) (d b a : XReg) (disp : BitVec 32)
  | amoOr (ty : Fmt) (scp : Scope) (d b a : XReg) (disp : BitVec 32)
  | amoXor (ty : Fmt) (scp : Scope) (d b a : XReg) (disp : BitVec 32)
  | amoMin (ty : Fmt) (scp : Scope) (d b a : XReg) (disp : BitVec 32)
  | amoMax (ty : Fmt) (scp : Scope) (d b a : XReg) (disp : BitVec 32)
  | amoSwap (ty : Fmt) (scp : Scope) (d b a : XReg) (disp : BitVec 32)
  | cas (ty : Fmt) (scp : Scope) (d c b a : XReg) (disp : BitVec 32)
  -- OPC 0x40, 0x41 (R172, R274)
  | vset (ty : Fmt) (d a b : XReg)
  | vset2d (ty : Fmt) (d a b : XReg)
  | vcfg (d a : XReg)
  | replay (a : XReg) (k : BitVec 6)
  | ostrm (ty : Fmt) (d : OReg) (a b : XReg) (disp : BitVec 32)
  | bind (d : VReg) (a : OReg)
  | unbind (a : OReg)
  -- OPC 0x50 (R178)
  | vadd (m : VMod) (d a : VReg) (b : VSrc)
  | vsub (m : VMod) (d a : VReg) (b : VSrc)
  | vmul (m : VMod) (d a : VReg) (b : VSrc)
  | vmulh (m : VMod) (d a : VReg) (b : VSrc)
  | vdiv (m : VMod) (d a : VReg) (b : VSrc)
  | vrem (m : VMod) (d a : VReg) (b : VSrc)
  | vand (m : VMod) (d a : VReg) (b : VSrc)
  | vor (m : VMod) (d a : VReg) (b : VSrc)
  | vxor (m : VMod) (d a : VReg) (b : VSrc)
  | vshl (m : VMod) (d a : VReg) (b : VSrc)
  | vshr (m : VMod) (d a : VReg) (b : VSrc)
  | vsar (m : VMod) (d a : VReg) (b : VSrc)
  | vmin (m : VMod) (d a : VReg) (b : VSrc)
  | vmax (m : VMod) (d a : VReg) (b : VSrc)
  | vabs (m : VMod) (d a : VReg)
  | vneg (m : VMod) (d a : VReg)
  | vcmp (c : Cond) (m : VMod) (d : MReg) (a : VReg) (b : VSrc)
  | vsel (m : VMod) (d a b c : VReg)
  | vmov (m : VMod) (d : VReg) (a : VSrc)
  | vclz (m : VMod) (d a : VReg)
  | vpopc (m : VMod) (d a : VReg)
  -- OPC 0x51 (R180)
  | vfadd (m : VMod) (d a : VReg) (b : VSrc)
  | vfsub (m : VMod) (d a : VReg) (b : VSrc)
  | vfmul (m : VMod) (d a : VReg) (b : VSrc)
  | vfdiv (m : VMod) (d a : VReg) (b : VSrc)
  | vfsqrt (m : VMod) (d a : VReg)
  | vfrsqrt (m : VMod) (d a : VReg)
  | vfexp2 (m : VMod) (d a : VReg)
  | vflog2 (m : VMod) (d a : VReg)
  | vfma (m : VMod) (d a : VReg) (b : VSrc) (c : VReg)
  | vfmin (m : VMod) (d a : VReg) (b : VSrc)
  | vfmax (m : VMod) (d a : VReg) (b : VSrc)
  | vfabs (m : VMod) (d a : VReg)
  | vfneg (m : VMod) (d a : VReg)
  | vfcmp (c : Cond) (m : VMod) (d : MReg) (a : VReg) (b : VSrc)
  -- OPC 0x52, 0x53 (R182, R186)
  | vcvt (m : VMod) (src : Fmt) (d a : VReg)
  | vwiden (m : VMod) (d a : VReg)
  | vnarrow (m : VMod) (d a : VReg)
  | vpack4 (m : VMod) (src : Fmt) (d a : VReg)
  | vunpack4 (m : VMod) (d a : VReg)
  | vinga (m : VMod) (d a b : VReg)
  | vingr (m : VMod) (d a : VReg)
  -- OPC 0x60 (R191)
  | mand (k : VMask) (d a b : MReg)
  | mor (k : VMask) (d a b : MReg)
  | mxor (k : VMask) (d a b : MReg)
  | mandn (k : VMask) (d a b : MReg)
  | mnot (k : VMask) (d a : MReg)
  | mpop (k : VMask) (d : XReg) (a : MReg)
  | mfirst (k : VMask) (d : XReg) (a : MReg)
  | mcopy (k : VMask) (d a : MReg)
  -- OPC 0x61, 0x62 (R192, R194)
  | vcompress (m : VMod) (d a : VReg)
  | vexpand (m : VMod) (d a : VReg)
  | vslideup (m : VMod) (d a : VReg) (b : XSrc)
  | vslidedn (m : VMod) (d a : VReg) (b : XSrc)
  | vperm (m : VMod) (d a b : VReg)
  | vbcast (m : VMod) (d : VReg) (a : XSrc)
  | vext (m : VMod) (d : XReg) (a : VReg) (b : XSrc)
  | vins (m : VMod) (d : VReg) (a : XReg) (b : XSrc)
  | viota (m : VMod) (d : VReg)
  | vred (op : RedOp) (ord : Bool) (m : VMod) (d : XReg) (a : VReg)
  | vscan (op : RedOp) (ord : Bool) (m : VMod) (d a : VReg)
  -- OPC 0x70 to 0x72 (R252, R262)
  | vld (ty : Fmt) (k : VMask) (trim : Bool) (d : VReg) (a : XReg) (disp : BitVec 32)
  | vlds (ty : Fmt) (k : VMask) (trim : Bool) (d : VReg) (a c : XReg) (disp : BitVec 32)
  | vldx (ty : Fmt) (k : VMask) (trim : Bool) (d : VReg) (a : XReg) (c : VReg) (disp : BitVec 32)
  | vwgath (ty : Fmt) (k : VMask) (d : VReg) (a : XReg) (b : MReg) (c : VReg) (disp : BitVec 32)
  | vst (ty : Fmt) (k : VMask) (d : VReg) (a : XReg) (disp : BitVec 32)
  | vsts (ty : Fmt) (k : VMask) (d : VReg) (a c : XReg) (disp : BitVec 32)
  | vstx (ty : Fmt) (k : VMask) (d : VReg) (a : XReg) (c : VReg) (disp : BitVec 32)
  | tld (ty : Fmt) (k : VMask) (trim : Bool) (d : VReg) (a : XReg) (h : BitVec 12)
  | tst (ty : Fmt) (k : VMask) (d : VReg) (a : XReg) (h : BitVec 12)
  | vamo (op : RedOp) (ty : Fmt) (rnd : Rnd) (k : VMask) (d : VReg) (a : XReg) (b : VReg) (disp : BitVec 32)
  | vassay (mode : Fin 3) (delta : Bool) (w : BitVec 6) (ty : Fmt) (d : VReg) (a b c : XReg)
  -- OPC 0x80, 0x81 (R344, R353)
  | vsegoff (ty : Fmt) (d : MReg) (a : VReg) (b : XReg)
  | vfibre (ty : Fmt) (d : MReg) (a : VReg) (b c : XReg)
  | vsred (op : RedOp) (ord : Bool) (m : VMod) (d a : VReg) (b : MReg)
  | vsscan (op : RedOp) (ord : Bool) (m : VMod) (d a : VReg) (b : MReg)
  | vmaxi (ty : Fmt) (d : XReg) (a : VReg) (b : MReg) (c : XReg)
  | vmaxiSeg (ty : Fmt) (d : MReg) (a : VReg) (b c : MReg)
  | vappend (ty : Fmt) (k : VMask) (d a b : XReg)
  | gadd (ty : Fmt) (k : VMask) (a : VReg) (b : XSrc)
  | gsnap (d : VReg) (a : XReg)
  | gslot (d a b c : XReg)
  -- OPC 0x90 to 0x92 (R98, R109, R112, R113, R122)
  | dset (d : DReg) (a : XReg) (field : Fin 20)
  | dld (d : DReg) (a : XReg) (disp : BitVec 32)
  | dst (d : DReg) (a : XReg) (disp : BitVec 32)
  | dshape (d : XReg) (a : DReg) (q : Fin 5) (axis : BitVec 3)
  | amap (f : MapFn) (d a : DReg) (xr yr : BitVec 3) (rnd : Rnd) (sat : Bool)
  | ared (op : RedOp) (d a : DReg) (xr axis : BitVec 3) (rnd : Rnd) (sat : Bool)
  | ascan (op : RedOp) (excl : Bool) (seg : Option DReg) (d a : DReg) (xr axis : BitVec 3) (rnd : Rnd) (sat : Bool)
  | agrade (dn : Bool) (d a : DReg) (xr axis : BitVec 3)
  | arotScalar (d a : DReg) (b : XReg) (xr axis : BitVec 3)
  | arotVector (d a b : DReg) (xr axis : BitVec 3)
  | atake (d a : DReg) (b : XReg) (xr axis : BitVec 3)
  | adrop (d a : DReg) (b : XReg) (xr axis : BitVec 3)
  | areshape (d a b : DReg)
  | atrans (d a : DReg) (b : XReg)
  | aouter (f : MapFn) (d a : DReg) (xr yr : BitVec 3) (rnd : Rnd) (sat : Bool)
  | asel (sel : SelBy) (d a : DReg) (c : XReg)
  | acomp (d a b : DReg) (c : XReg) (axis : BitVec 3)
  | afrom (d a b : DReg) (axis : BitVec 3)
  | acat (d a b : DReg) (axis : BitVec 3)
  | afill (d a : DReg) (b : XReg)
  | aiota (d a : DReg) (axis : BitVec 3) (rnd : Rnd) (sat : Bool)
  -- OPC 0xA0, 0xA1 (R302, R315, R340, R368)
  | mset (ty : Fmt) (d a b : XReg)
  | wld (ty : Fmt) (sp : Bool) (d : WReg) (a : DReg) (b : XReg) (c : KReg)
  | mmul (ty : Fmt) (d : ZReg) (a : VReg) (b : WReg) (c : KReg)
  | mmuls (ty : Fmt) (d : ZReg) (a : VReg) (b : WReg) (c : KReg) (lane : BitVec 6) (dens : Fin 4)
  | mmula (ty : Fmt) (d : ZReg) (a : VReg) (b : WReg) (c : KReg)
  | mmulc (d : ZReg) (a : XReg) (b : WReg) (c : KReg)
  | mzero (d : ZReg)
  | mdrainStrided (m : VMod) (d : ZReg) (a c : XReg) (disp : BitVec 32)
  | mdrainIndexed (m : VMod) (d : ZReg) (a : XReg) (c : VReg) (disp : BitVec 32)
  | mdrv (m : VMod) (d : VReg) (a : ZReg)
  | kwait (d : KReg)
  | kpoll (d : XReg) (a : KReg)
  | mgrp (ty : Fmt) (d : ZReg) (a : VReg) (c : KReg)
  | cutBand (ty : Fmt) (d a b : XReg) (c : KReg)
  | cutSquare (ty : Fmt) (d a b : XReg) (c : KReg)
  | cocut (d : WReg) (a : DReg) (b : XReg) (c : KReg)
  | cutq (d : XReg)
  -- OPC 0xB0 to 0xB3 (R227)
  | talloc (ty : Fmt) (lvl : Scope) (d a b : XReg) (h : BitVec 12)
  | tfree (h : BitVec 12)
  | tinfo (q : Fin 6) (d : XReg) (h : BitVec 12)
  | copy (mode : CopyMode) (d a : DReg) (rnd : Rnd) (sat : Bool) (eng : BitVec 2)
  | cgath (ty : Fmt) (mode : CopyMode) (d a : DReg) (c : VReg) (rnd : Rnd) (sat : Bool) (eng : BitVec 2)
  | facet (eng : BitVec 2) (a : XReg)
  | swait (d a b : XReg)
  | barexp (scp : Scope) (name : BitVec 10) (a : XReg)
  | barv (scp : Scope) (name : BitVec 10)
  | barw (scp : Scope) (name : BitVec 10) (a : XReg)
  | wmpub (a : XReg) (w : BitVec 8)
  | wmwait (a : XReg) (w : BitVec 8)
  | gnode (d a : XReg)
  -- OPC 0xC0 (R344, R373)
  | xalloc (scp : Scope) (pri : Bool) (d : XReg) (a : GReg)
  | xfree (a : GReg)
  | xall (op : RedOp) (ord : Bool) (ty : Fmt) (rnd : Rnd) (d a : VReg) (b : GReg)
  | xred (op : RedOp) (ord : Bool) (ty : Fmt) (rnd : Rnd) (d a : VReg) (b : GReg) (root : BitVec 20)
  | xgath (ty : Fmt) (d a : VReg) (b : GReg) (root : BitVec 20)
  | xscat (ty : Fmt) (d a : VReg) (b : GReg) (root : BitVec 20)
  | xbcast (ty : Fmt) (d a : VReg) (b : GReg) (root : BitVec 20)
  | xsend (ty : Fmt) (a : VReg) (b : GReg) (c : XReg)
  | xrecv (ty : Fmt) (d : VReg) (b : GReg) (c : XReg)
  -- OPC 0xD0 (R212, R213)
  | fence (before after : BitVec 6) (scp : Scope)
  | hold (set : BitVec 6)
  -- OPC 0xE0 (R284)
  | trap (code : BitVec 12)
  | srd (d : XReg) (n : BitVec 12)
  | swr (n : BitVec 12) (a : XReg)
  | swrVcfg (a : XReg)
  | swrCutst (a : XReg)
  | swrXpos (a : XReg)
  | tlbiVa (a : XReg)
  | ctxsave (full : Bool) (a : XReg)
  | ctxrest (a : XReg)
  | einj (kind : BitVec 2) (st : Fin 9) (d a b : XReg)
  -- events (spec/95): those that the agenda of the model is given first
  | copyExecute (die eng : Nat)
  | matrixOperationStart (arr : Fin 2)
  | operationFinishes (k : KReg)
  | spanPacketReceipt (n : Nat)
  | preEmption (drove : Nat) (elem : Option Nat)
  | go (sad node : Nat)
  | spanTimeout (sad id : Nat)
  | drovePlacement (sad node : Nat) (cores : List Nat)
  | bindingFill (o : OReg)
  | restore (drove : Nat) (cores : List Nat)
  | droveRetirement (drove : Nat)
  | nodeComplete (sad node : Nat)
  | copyNodeStart (sad node : Nat)
  | hostEventPost (sad node : Nat)
  | triggerNodeWrite (sad node : Nat)
  | adapterPrefetch (die sad id : Nat)
  | hostPostedWrite (sad : Nat) (va : Word) (data : List Byte)
  | lineFetch (ahead : Bool)
  | waitSatisfied (k : Nat)
  | l1Eviction (line : Nat)
  | timerExpiry (drove : Nat) (elem : Option Nat)
  | outriderIssue (n : Nat)
  | timer (sad : Nat) (v : Word)
  | adaptN (sad : Nat) (v : Word)
  | counterClear (sad off : Nat) (v : Word)
  | barRegisterWrite (sad off : Nat) (pf : Bool) (v : Word)
  | loadPerformed (p : LoadStep)
  | flitReceipt (port : Nat) (flit : BitVec 2048)
  | linkRetrain (port : Nat)
  | packetLifetimeExpiry (n : Nat)
  | uncorrectableError (e : ErrEntry)
  | correctableError (kind inst : Nat)
  | channelFailure (ch : Nat)
  | expanderRemoval (port : Nat)
  | recoveryImageWrite (img : Nat)
  | dieUp (die : Nat)
  | dieCalibrated (die : Nat)
  | tlbCapacityDrop (core : Bool) (n : Nat)
  | harnessPortFailure (port : Nat)
  | spdmRequest (fn : Nat) (msg : Nat)
  | droveRemoval (drove : Nat)
  | drrRound
  | powerOn
  | coolantOutOfRange
  | coolantRestored
  | illegalInstruction
  -- instructions without operands (R58, R158, R284)
  | nop
  | halt
  | sret
  | mret
  | tlbiSad
  | tlbiAll
  | idle
  deriving DecidableEq, Repr

end Sys2Proof
end

