-- ==== Sys2Proof/WellFormed.lean ====
section
/-! DEFINITION. Well-formedness of an instruction's operands: the field values that R52 to R57 and each
instruction's encoding table forbid whatever the machine's state (the checks of R58, cause 0x01, that a
decoded term can still break). Events are well-formed as they stand.
-/
namespace Sys2Proof

namespace Fmt

/-- The format codes of R68. -/
def code : Fmt → Nat
  | i8 => 0x01 | i16 => 0x02 | i32 => 0x03 | i64 => 0x04
  | n8 => 0x05 | n16 => 0x06 | n32 => 0x07 | n64 => 0x08
  | f64 => 0x10 | f32 => 0x11 | bf16 => 0x12 | f16 => 0x13 | e4m3 => 0x14 | e5m2 => 0x15
  | fp4b => 0x16 | ing => 0x17 | fct8 => 0x18

/-- The element width in bytes (R68). An fp4b block of 8 elements has 5 bytes; its single elements have no byte width. -/
def ew : Fmt → Nat
  | i8 => 1 | i16 => 2 | i32 => 4 | i64 => 8
  | n8 => 1 | n16 => 2 | n32 => 4 | n64 => 8
  | f64 => 8 | f32 => 4 | bf16 => 2 | f16 => 2 | e4m3 => 1 | e5m2 => 1
  | fp4b => 5 | ing => 24 | fct8 => 1

def isI : Fmt → Bool
  | i8 | i16 | i32 | i64 => true
  | _ => false
def isN : Fmt → Bool
  | n8 | n16 | n32 | n64 => true
  | _ => false
def isInt (f : Fmt) : Bool := f.isI || f.isN
/-- f64, f32, bf16, f16, e4m3 and e5m2. -/
def isFloat : Fmt → Bool
  | f64 | f32 | bf16 | f16 | e4m3 | e5m2 => true
  | _ => false
def isNum (f : Fmt) : Bool := f.isInt || f.isFloat
/-- The destinations on which a conversion accepts SAT (R77). -/
def satOk (f : Fmt) : Bool := f.isInt || f == e4m3 || f == e5m2 || f == fp4b
def is64 (f : Fmt) : Bool := f == i64 || f == n64
def isF (f : Fmt) : Bool := f == f64 || f == f32
/-- i32, i64, n32, n64 (R162, R353). -/
def isWide (f : Fmt) : Bool := f == i32 || f == i64 || f == n32 || f == n64
/-- The formats of the matrix operands: 0x11, 0x12, 0x14 to 0x16 (R302, R315). -/
def isMat (f : Fmt) : Bool := f == f32 || f == bf16 || f == e4m3 || f == e5m2 || f == fp4b
/-- The drain formats 0x11 to 0x15 (R302, R315). -/
def isDrain (f : Fmt) : Bool := f == f32 || f == bf16 || f == f16 || f == e4m3 || f == e5m2
/-- The formats with a wide partner (R184). -/
def narrow : Fmt → Bool
  | i8 | i16 | i32 | n8 | n16 | n32 | bf16 | f16 | f32 | e4m3 | e5m2 => true
  | _ => false

end Fmt

namespace Cond
/-- The codes 0 to 9 (R62). -/
def intOk : Cond → Bool
  | un | or => false
  | _ => true
/-- The codes 0 to 5, 10 and 11 (R62). -/
def floatOk : Cond → Bool
  | ltu | geu | leu | gtu => false
  | _ => true
end Cond

namespace RedOp
/-- `.and`, `.or`, `.xor` accept integer formats only (R194, R353, R373). -/
def bitwise : RedOp → Bool
  | and | or | xor => true
  | _ => false
/-- Every operator but `.swap`, with the bitwise ones on integers only. -/
def okFor (o : RedOp) (isInt : Bool) : Bool := o != swap && (isInt || !o.bitwise)
end RedOp

/-- SCP of the scalar atomics and the barriers: 1 to 4. -/
def Scope.mid : Scope → Bool
  | .co | .qd | .di | .pk => true
  | _ => false

/-- The number of barrier names of a level (R28, R227). -/
def Scope.barCount : Scope → Nat
  | .co => 1024 | .qd => 256 | .di => 64 | .pk => 16
  | _ => 0

namespace VMask
def isNone : VMask → Bool
  | none => true
  | _ => false
/-- MP = 0. -/
def keeps : VMask → Bool
  | none => true
  | .by _ fill => !fill
end VMask

namespace XSrc
def isImm : XSrc → Bool
  | imm _ => true
  | _ => false
/-- A register that must be an f register (0 to 15) when the format is a float one. -/
def okFor (ty : Fmt) : XSrc → Bool
  | reg r => !ty.isFloat || r.val < 16
  | imm _ => true
end XSrc

def VSrc.isImm : VSrc → Bool
  | .imm _ => true
  | _ => false

/-- A data register field: below 16 when the format makes it an f register. -/
def xfOk (ty : Fmt) (r : XReg) : Bool := !ty.isFloat || r.val < 16

/-- RND must be zero. -/
def Rnd.zero (r : Rnd) : Bool := r == .rne

namespace VMod
def noRnd (m : VMod) : Bool := m.rnd == .rne
def noSat (m : VMod) : Bool := !m.sat
def plain (m : VMod) : Bool := m.noRnd && m.noSat
/-- The integer elementwise rows of R178 that allow SAT. -/
def intSat (m : VMod) : Bool := m.ty.isInt && m.noRnd
def int (m : VMod) : Bool := m.ty.isInt && m.plain
/-- SAT may be 1 only when TY is e4m3, e5m2 or fp4b (R180). -/
def fsat (m : VMod) : Bool := !m.sat || m.ty == .e4m3 || m.ty == .e5m2 || m.ty == .fp4b
def flt (m : VMod) : Bool := m.ty.isFloat && m.fsat
/-- The rows that also accept fp4b with I = 0 (R180). -/
def fltB (m : VMod) (b : VSrc) : Bool := (m.ty.isFloat || (m.ty == .fp4b && !b.isImm)) && m.fsat
/-- RND is 0; a mode for fp4b (R180). -/
def rndB (m : VMod) : Bool := m.noRnd || m.ty == .fp4b
/-- Reductions: int or float, RND only for floats, SAT only for integers (R194, R353). -/
def red (m : VMod) (op : RedOp) : Bool :=
  m.ty.isNum && op.okFor m.ty.isInt && (m.ty.isFloat || m.noRnd) && (m.ty.isInt || m.noSat)
end VMod

/-- Accepted by the element function's own condition (R109). -/
def MapFn.wf : MapFn → Bool
  | .cmp c _ => c.intOk
  | .fcmp c _ => c.floatOk
  | _ => true

/-- B of a copy: an even register from 2 to 30, or a barrier name below the count of its level (R227). -/
def CopyMode.wf : CopyMode → Bool
  | .st b => b.val % 2 == 0 && 2 ≤ b.val
  | .bar n scp => scp.mid && n.toNat < scp.barCount
  | .gr _ => true

/-- Source formats of the moves by spans: 0x01 to 0x08, 0x10 to 0x17 (R373). -/
def Fmt.spanMove (f : Fmt) : Bool := f != .fct8

/-- Formats of `xall` and `xred` (R344, R373). -/
def Fmt.spanRed (f : Fmt) : Bool :=
  f.isInt || f == .f64 || f == .f32 || f == .bf16 || f == .f16 || f == .ing

def axisOk (a : BitVec 3) : Bool := a != 6#3

/-- The field checks on a decoded instruction. -/
def Instr.wf : Instr → Bool
  | .mulh ty _ _ _ | .div ty _ _ _ | .rem ty _ _ _ | .min ty _ _ _ | .max ty _ _ _ => ty.is64
  | .cmp c _ _ _ => c.intOk
  | .sext ty _ _ => ty == .i8 || ty == .i16 || ty == .i32
  | .zext ty _ _ => ty == .n8 || ty == .n16 || ty == .n32
  | .bext _ _ b | .bins _ _ b =>
    match b with
    | .imm v => v &&& ~~~(0x3F3F#32) == 0#32
    | .reg _ => true
  | .crcw ty _ _ _ => ty.isN
  | .fadd ty _ _ _ _ | .fsub ty _ _ _ _ | .fmul ty _ _ _ _ | .fdiv ty _ _ _ _ => ty.isF
  | .fsqrt ty _ _ _ | .frsqrt ty _ _ _ | .fexp2 ty _ _ _ | .flog2 ty _ _ _ => ty.isF
  | .fma ty _ _ _ _ _ => ty.isF
  | .fmin ty _ _ _ | .fmax ty _ _ _ => ty.isF
  | .fneg ty _ _ | .fabs ty _ _ => ty.isF
  | .fcmp c ty _ _ _ => c.floatOk && ty.isF
  | .fcvt ty src _ _ _ => ty.isF && src.isFloat
  | .fcvti ty src _ _ _ _ => ty.isInt && src.isF
  | .fcvtf ty src _ _ _ => ty.isF && src.isInt
  | .fmvx ty _ _ | .fmvf ty _ _ => ty.isF
  | .br c _ _ _ => c.intOk
  | .ld ty d _ _ => (ty.isInt || ty.isF) && xfOk ty d
  | .st ty b _ _ => (ty.isInt || ty.isF) && xfOk ty b
  | .ldp ty d c _ _ => (ty.is64 || ty == .f64) && xfOk ty d && xfOk ty c && d != c
  | .stp ty b c _ _ => (ty.is64 || ty == .f64) && xfOk ty b && xfOk ty c
  | .lda ty scp _ _ _ | .stl ty scp _ _ _ => ty.isInt && scp.mid
  | .amoAdd ty scp _ _ _ _ | .amoAnd ty scp _ _ _ _ | .amoOr ty scp _ _ _ _ | .amoXor ty scp _ _ _ _
  | .amoMin ty scp _ _ _ _ | .amoMax ty scp _ _ _ _ | .amoSwap ty scp _ _ _ _ => ty.isWide && scp.mid
  | .cas ty scp _ _ _ _ _ => ty.isWide && scp.mid
  | .vset ty _ _ _ | .vset2d ty _ _ _ => ty != .fct8
  | .replay _ k => 1 ≤ k.toNat && k.toNat ≤ 32
  | .ostrm ty _ _ _ _ => ty.isNum
  | .vadd m _ _ b => m.intSat || (m.ty == .ing && m.plain && !b.isImm)
  | .vsub m _ _ _ | .vmul m _ _ _ => m.intSat
  | .vmulh m _ _ _ | .vdiv m _ _ _ | .vrem m _ _ _ | .vand m _ _ _ | .vor m _ _ _ | .vxor m _ _ _
  | .vshl m _ _ _ | .vshr m _ _ _ | .vsar m _ _ _ | .vmin m _ _ _ | .vmax m _ _ _ => m.int
  | .vabs m _ _ | .vneg m _ _ => m.intSat
  | .vcmp c m _ _ _ => c.intOk && m.int
  | .vsel m _ _ _ _ => m.ty != .fp4b && m.ty != .fct8 && m.plain
  | .vmov m _ a =>
    m.ty != .fct8 && m.noSat && (!a.isImm || (m.ty != .ing && m.ty != .fp4b)) &&
      (m.noRnd || (a.isImm && m.ty.isFloat))
  | .vclz m _ _ | .vpopc m _ _ => m.int
  | .vfadd m _ _ b | .vfsub m _ _ b | .vfmul m _ _ b => m.fltB b
  | .vfdiv m _ _ _ => m.flt
  | .vfsqrt m _ _ | .vfrsqrt m _ _ | .vfexp2 m _ _ | .vflog2 m _ _ => m.flt
  | .vfma m _ _ _ _ => m.flt
  | .vfmin m _ _ b | .vfmax m _ _ b => m.fltB b && m.rndB
  | .vfabs m _ _ | .vfneg m _ _ => m.fltB (.reg 0) && m.rndB
  | .vfcmp c m _ _ _ => c.floatOk && m.flt && m.noRnd
  | .vcvt m src _ _ => m.ty.isNum && src.isNum && (!m.sat || m.ty.satOk)
  | .vwiden m _ _ => m.ty.narrow && m.plain
  | .vnarrow m _ _ => m.ty.narrow && (!m.sat || m.ty.satOk)
  | .vpack4 m src _ _ => m.ty == .fp4b && (src == .f32 || src == .bf16 || src == .f16)
  | .vunpack4 m _ _ => (m.ty == .f64 || m.ty == .f32 || m.ty == .bf16 || m.ty == .f16) && m.noSat
  | .vinga m _ _ _ => m.ty == .f32 && m.plain
  | .vingr m _ _ => (m.ty == .f32 || m.ty == .bf16) && m.noSat
  | .vcompress m _ _ => m.ty != .fct8 && m.plain && !m.mask.isNone && m.mask.keeps
  | .vexpand m _ _ => m.ty != .fct8 && m.plain && !m.mask.isNone
  | .vslideup m _ _ _ | .vslidedn m _ _ _ => m.ty != .fct8 && m.plain
  | .vperm m _ _ _ => m.ty != .fct8 && m.ty != .ing && m.plain
  | .vbcast m _ a => m.ty.isNum && m.plain && a.okFor m.ty
  | .vext m d _ _ => m.ty.isNum && m.plain && m.mask.isNone && xfOk m.ty d
  | .vins m _ a _ => m.ty.isNum && m.plain && m.mask.isNone && xfOk m.ty a
  | .viota m _ =>
    (m.ty.isInt || m.ty == .f64 || m.ty == .f32 || m.ty == .bf16 || m.ty == .f16) && (m.ty.isInt || m.noSat)
  | .vred op _ m d _ => m.red op && xfOk m.ty d
  | .vscan op _ m _ _ => m.red op
  | .vld ty _ _ _ _ _ | .vst ty _ _ _ _ | .tld ty _ _ _ _ _ | .tst ty _ _ _ _ => ty != .fct8
  | .vlds ty _ _ _ _ _ _ | .vldx ty _ _ _ _ _ _ | .vwgath ty _ _ _ _ _ _ | .vsts ty _ _ _ _ _
  | .vstx ty _ _ _ _ _ => ty.isNum
  | .vamo op ty rnd _ _ _ _ _ =>
    (ty.isWide || ty.isF) && op != .mul && (!ty.isF || !op.bitwise) && (rnd.zero || (ty.isF && op == .add))
  | .vassay mode _ w ty _ _ _ _ => ty.isInt && (mode == 2 || w == 0#6)
  | .vsegoff ty _ _ _ | .vfibre ty _ _ _ _ => ty.isWide
  | .vsred op _ m _ _ _ => m.red op && m.mask.keeps
  | .vsscan op _ m _ _ _ => m.red op
  | .vmaxi ty _ _ _ c => ty.isNum && xfOk ty c
  | .vmaxiSeg ty _ _ _ _ => ty.isNum
  | .vappend ty k _ _ _ => (ty == .n32 || ty == .n64) && k.keeps
  | .gadd ty _ _ _ => ty == .n16 || ty == .n32 || ty == .n64
  | .dshape _ _ q axis => axisOk axis && (q == 0 || axis == 0#3)
  | .amap f _ _ _ yr _ _ =>
    f.wf && match f with
      | .un _ => yr == 0#3
      | _ => true
  | .ared op _ _ _ axis _ _ => op != .swap && axisOk axis
  | .ascan op _ _ _ _ _ axis _ _ => op != .swap && axisOk axis
  | .agrade _ _ _ _ axis => axisOk axis
  | .arotScalar _ _ _ _ axis | .arotVector _ _ _ _ axis | .atake _ _ _ _ axis | .adrop _ _ _ _ axis => axisOk axis
  | .aouter f _ _ _ _ _ _ =>
    match f with
    | .bin _ _ => true
    | .cmp c _ => c.intOk
    | .fcmp c _ => c.floatOk
    | _ => false
  | .acomp _ _ _ _ axis | .afrom _ _ _ axis | .acat _ _ _ axis | .aiota _ _ axis _ _ => axisOk axis
  | .mset ty _ _ _ | .wld ty _ _ _ _ _ | .mmul ty _ _ _ _ | .mmuls ty _ _ _ _ _ _ | .mmula ty _ _ _ _
  | .mgrp ty _ _ _ => ty.isMat
  | .mmulc _ a _ _ => a.val ≤ 28
  | .mdrainStrided m _ _ _ _ | .mdrainIndexed m _ _ _ _ =>
    m.ty.isDrain && (!m.sat || m.ty.satOk) && m.mask.keeps
  | .mdrv m _ _ => m.ty.isDrain && (!m.sat || m.ty.satOk)
  | .cutBand ty d a _ _ | .cutSquare ty d a _ _ =>
    ty.isMat && ty != .fp4b && 1 ≤ d.val && d.val ≤ 28 && a.val ≤ 28
  | .cocut _ _ b _ => b.val ≤ 28
  | .cutq d => 1 ≤ d.val && d.val ≤ 28
  | .talloc ty lvl _ _ _ _ => ty != .fct8 && (lvl == .co || lvl == .qd || lvl == .di)
  | .copy mode _ _ _ _ _ => mode.wf
  | .cgath ty mode _ _ _ _ _ _ => mode.wf && ty.isInt && ty != .i8 && ty != .n8
  | .barexp scp n _ | .barv scp n | .barw scp n _ => scp.mid && n.toNat < scp.barCount
  | .xalloc scp _ _ _ => scp.mid || scp == .pd
  | .xall op _ ty rnd _ _ _ | .xred op _ ty rnd _ _ _ _ =>
    ty.spanRed && op.okFor ty.isInt && (ty != .ing || op == .add) && (ty.isFloat || rnd.zero)
  | .xgath ty _ _ _ _ | .xscat ty _ _ _ _ | .xbcast ty _ _ _ _ | .xsend ty _ _ _ | .xrecv ty _ _ _ => ty.spanMove
  | .fence b a _ => b != 0#6 && a != 0#6
  | .hold h => h != 0#6
  -- the rest have no field value left to forbid
  | .add _ _ _ | .sub _ _ _ | .mul _ _ _ | .and _ _ _ | .or _ _ _ | .xor _ _ _ | .andn _ _ _ | .shl _ _ _
  | .shr _ _ _ | .sar _ _ _ | .rol _ _ _ | .ror _ _ _ | .clz _ _ | .ctz _ _ | .popc _ _ | .movh _ _ _
  | .bswap _ _ | .nop | .jmp _ | .jal _ _ | .jr _ | .jalr _ _ | .halt | .evwait _ | .vcfg _ _ | .bind _ _
  | .unbind _ | .mand _ _ _ _ | .mor _ _ _ _ | .mxor _ _ _ _ | .mandn _ _ _ _ | .mnot _ _ _ | .mpop _ _ _
  | .mfirst _ _ _ | .mcopy _ _ _ | .gsnap _ _ | .gslot _ _ _ _ | .dset _ _ _ | .dld _ _ _ | .dst _ _ _
  | .areshape _ _ _ | .atrans _ _ _ | .asel _ _ _ _ | .afill _ _ _ | .mzero _ | .kwait _ | .kpoll _ _
  | .tfree _ | .tinfo _ _ _ | .facet _ _ | .swait _ _ _ | .wmpub _ _ | .wmwait _ _ | .gnode _ _ | .xfree _
  | .trap _ | .sret | .mret | .srd _ _ | .swrVcfg _ | .swrCutst _ | .swrXpos _ | .tlbiVa _ | .tlbiSad
  | .tlbiAll | .ctxsave _ _ | .ctxrest _ | .einj _ _ _ _ _ | .idle => true
  -- a number with a row of its own is not the plain `swr`
  | .swr n _ => n != 0x010#12 && n != 0x031#12 && n != 0x032#12
  -- events
  | .lineFetch _ | .waitSatisfied _ | .outriderIssue _ | .bindingFill _ | .loadPerformed _ | .l1Eviction _
  | .copyExecute _ _ | .matrixOperationStart _ | .operationFinishes _ | .preEmption _ _ | .restore _ _
  | .timerExpiry _ _ | .droveRetirement _ | .drovePlacement _ _ _ | .drrRound | .nodeComplete _ _
  | .copyNodeStart _ _ | .hostEventPost _ _ | .triggerNodeWrite _ _ | .go _ _ | .timer _ _ | .adaptN _ _
  | .counterClear _ _ _ | .barRegisterWrite _ _ _ _ | .adapterPrefetch _ _ _ | .spanPacketReceipt _
  | .spanTimeout _ _ | .flitReceipt _ _ | .linkRetrain _ | .packetLifetimeExpiry _ | .uncorrectableError _
  | .correctableError _ _ | .channelFailure _ | .expanderRemoval _ | .powerOn | .recoveryImageWrite _
  | .dieUp _ | .dieCalibrated _ | .coolantOutOfRange | .coolantRestored | .illegalInstruction
  | .tlbCapacityDrop _ _ | .hostPostedWrite _ _ _ | .harnessPortFailure _ | .spdmRequest _ _
  | .droveRemoval _ => true

end Sys2Proof
end

