-- ==== Sys2Proof/Decode.lean ====
section
/-! DEFINITION. The decoder, total on any 96-bit word, and the encoder (R45, R51 to R57, R61 and the encoding
tables R149, R154, R158, R162, R172, R178, R180, R182, R186, R191, R192, R194, R212, R213, R227, R252, R262,
R274, R284, R302, R315, R340, R344, R353, R368, R373, R98, R109, R112, R113, R122). A word that breaks a field
rule decodes to nothing; executing it takes trap 0x01 (R58, R61).
-/
namespace Sys2Proof

/-- The fields of the word skeleton (R51). `y` is bits [50:48]: MP, the reserved bit 49 and I (YRANK in the array
class, R57). `fl` is bits [36:32]: SCP, ORD and SAT (FLAGS in the array class). -/
structure Fields where
  opc : BitVec 8
  fn : BitVec 8
  d : BitVec 6
  a : BitVec 6
  b : BitVec 6
  c : BitVec 6
  msk : BitVec 5
  y : BitVec 3
  ty : BitVec 8
  rnd : BitVec 3
  fl : BitVec 5
  imm : BitVec 32
  deriving DecidableEq, Repr

namespace Fields

def ofWord (w : IWord) : Fields where
  opc := w.extractLsb' 88 8
  fn := w.extractLsb' 80 8
  d := w.extractLsb' 74 6
  a := w.extractLsb' 68 6
  b := w.extractLsb' 62 6
  c := w.extractLsb' 56 6
  msk := w.extractLsb' 51 5
  y := w.extractLsb' 48 3
  ty := w.extractLsb' 40 8
  rnd := w.extractLsb' 37 3
  fl := w.extractLsb' 32 5
  imm := w.extractLsb' 0 32

/-- Names of the fields a row may leave unused. -/
inductive Name where
  | d | a | b | c | mk | mp | i | ty | rnd | scp | ord | sat | imm | y | fl
  deriving DecidableEq, Repr

@[simp] def mp (f : Fields) : BitVec 1 := f.y.extractLsb' 2 1
@[simp] def i (f : Fields) : BitVec 1 := f.y.extractLsb' 0 1
@[simp] def bit49 (f : Fields) : BitVec 1 := f.y.extractLsb' 1 1
@[simp] def scp (f : Fields) : BitVec 3 := f.fl.extractLsb' 2 3
@[simp] def ord (f : Fields) : BitVec 1 := f.fl.extractLsb' 1 1
@[simp] def sat (f : Fields) : BitVec 1 := f.fl.extractLsb' 0 1

@[simp] def isZero (f : Fields) : Name → Bool
  | .d => f.d == 0 | .a => f.a == 0 | .b => f.b == 0 | .c => f.c == 0 | .mk => f.msk == 0
  | .mp => f.mp == 0 | .i => f.i == 0 | .ty => f.ty == 0 | .rnd => f.rnd == 0
  | .scp => f.scp == 0 | .ord => f.ord == 0 | .sat => f.sat == 0 | .imm => f.imm == 0
  | .y => f.y == 0 | .fl => f.fl == 0

/-- Every field the row does not use is zero (R52, R53). -/
@[simp] def unused (f : Fields) (l : List Name) : Option Unit := if l.all f.isZero then some () else none

end Fields

/-! The codes of the enumerated fields. -/

def Fmt.ofCode : Nat → Option Fmt
  | 0x01 => some .i8 | 0x02 => some .i16 | 0x03 => some .i32 | 0x04 => some .i64
  | 0x05 => some .n8 | 0x06 => some .n16 | 0x07 => some .n32 | 0x08 => some .n64
  | 0x10 => some .f64 | 0x11 => some .f32 | 0x12 => some .bf16 | 0x13 => some .f16
  | 0x14 => some .e4m3 | 0x15 => some .e5m2 | 0x16 => some .fp4b | 0x17 => some .ing | 0x18 => some .fct8
  | _ => none

def Rnd.code : Rnd → Nat
  | rne => 0 | rtz => 1 | rdn => 2 | rup => 3 | rna => 4
def Rnd.ofCode : Nat → Option Rnd
  | 0 => some .rne | 1 => some .rtz | 2 => some .rdn | 3 => some .rup | 4 => some .rna | _ => none

def Cond.code : Cond → Nat
  | eq => 0 | ne => 1 | lt => 2 | ge => 3 | le => 4 | gt => 5 | ltu => 6 | geu => 7 | leu => 8 | gtu => 9 | un => 10 | or => 11
def Cond.ofCode : Nat → Option Cond
  | 0 => some .eq | 1 => some .ne | 2 => some .lt | 3 => some .ge | 4 => some .le | 5 => some .gt
  | 6 => some .ltu | 7 => some .geu | 8 => some .leu | 9 => some .gtu | 10 => some .un | 11 => some .or | _ => none

def RedOp.code : RedOp → Nat
  | add => 0 | mul => 1 | min => 2 | max => 3 | and => 4 | or => 5 | xor => 6 | swap => 7
def RedOp.ofCode : Nat → Option RedOp
  | 0 => some .add | 1 => some .mul | 2 => some .min | 3 => some .max
  | 4 => some .and | 5 => some .or | 6 => some .xor | 7 => some .swap | _ => none

def Scope.code : Scope → Nat
  | ln => 0 | co => 1 | qd => 2 | di => 3 | pk => 4 | pd => 5
def Scope.ofCode : Nat → Option Scope
  | 0 => some .ln | 1 => some .co | 2 => some .qd | 3 => some .di | 4 => some .pk | 5 => some .pd | _ => none

/-- A register number below n, or nothing (R52). -/
def regOf (n : Nat) (b : BitVec 6) : Option (Fin n) := if h : b.toNat < n then some ⟨b.toNat, h⟩ else none

def bitOf (b : BitVec 1) : Bool := b == 1#1
def ofBit (b : Bool) : BitVec 1 := if b then 1#1 else 0#1

namespace Fields

@[simp] def fmt (f : Fields) : Option Fmt := Fmt.ofCode f.ty.toNat
@[simp] def fmtC (f : Fields) : Option Fmt := Fmt.ofCode f.c.toNat
@[simp] def mode (f : Fields) : Option Rnd := Rnd.ofCode f.rnd.toNat
@[simp] def condC (f : Fields) : Option Cond := Cond.ofCode f.c.toNat
@[simp] def opC (f : Fields) : Option RedOp := RedOp.ofCode f.c.toNat
@[simp] def scope (f : Fields) : Option Scope := Scope.ofCode f.scp.toNat
@[simp] def satB (f : Fields) : Bool := bitOf f.sat
@[simp] def ordB (f : Fields) : Bool := bitOf f.ord

/-- Operand B: the register, with IMM32 zero, or IMM32, with B zero (R54). -/
@[simp] def xsrc (f : Fields) : Option XSrc :=
  if f.i == 0 then (if f.imm == 0 then (regOf 32 f.b).map .reg else none)
  else (if f.b == 0 then some (.imm f.imm) else none)
@[simp] def fsrc (f : Fields) : Option FSrc :=
  if f.i == 0 then (if f.imm == 0 then (regOf 16 f.b).map .reg else none)
  else (if f.b == 0 then some (.imm f.imm) else none)
@[simp] def vsrc (f : Fields) : Option VSrc :=
  if f.i == 0 then (if f.imm == 0 then (regOf 64 f.b).map .reg else none)
  else (if f.b == 0 then some (.imm f.imm) else none)
/-- The same on operand A: `vbcast` and `vmov` read their one source from A, or from IMM32 with A zero. -/
@[simp] def xsrcA (f : Fields) : Option XSrc :=
  if f.i == 0 then (if f.imm == 0 then (regOf 32 f.a).map .reg else none)
  else (if f.a == 0 then some (.imm f.imm) else none)
@[simp] def vsrcA (f : Fields) : Option VSrc :=
  if f.i == 0 then (if f.imm == 0 then (regOf 64 f.a).map .reg else none)
  else (if f.a == 0 then some (.imm f.imm) else none)

/-- MK and MP (R53, R55). -/
@[simp] def mask (f : Fields) : Option VMask :=
  if f.msk == 31 then (if f.mp == 0 then some .none else none)
  else (regOf 24 (f.msk.zeroExtend 6)).map (fun m => .by m (bitOf f.mp))

@[simp] def vmod (f : Fields) : Option VMod := do
  let ty ← f.fmt
  let r ← f.mode
  let k ← f.mask
  pure ⟨ty, r, f.satB, k⟩

/-- MK = 31 with MP = 0, in a word whose class has a mask but whose instruction has none. -/
@[simp] def unmasked (f : Fields) : Option Unit := if f.msk == 31 && f.mp == 0 then some () else none

/-- The copy mode, its B operand and its barrier (R227). IMM32 holds the name in [9:0], the mode in [17:16] and the
engine in [21:20]. -/
def copyMode (f : Fields) : Option CopyMode :=
  match (f.imm.extractLsb' 16 2).toNat with
  | 0 => do
    let b ← regOf 32 f.b
    if f.scp == 0 && f.imm.extractLsb' 0 10 == 0 then pure (.st b) else none
  | 1 => do
    let s ← f.scope
    if f.b == 0 then pure (.bar (f.imm.extractLsb' 0 10) s) else none
  | 2 => do
    let b ← regOf 32 f.b
    if f.scp == 0 && f.imm.extractLsb' 0 10 == 0 then pure (.gr b) else none
  | _ => none

/-- The bits of IMM32 that the mask `m` does not cover are zero. -/
@[simp] def immOnly (f : Fields) (m : BitVec 32) : Option Unit := if f.imm &&& ~~~m == 0 then some () else none

end Fields

open Fields

/-! The shapes: one for each row form of the encoding tables. -/

section Shapes
variable (f : Fields)

/-- R149, R150: xD, xA, x or I; no TY. -/
@[simp] def shXxi (k : XReg → XReg → XSrc → Instr) : Option Instr := do
  f.unused [.c, .mk, .mp, .ty, .rnd, .fl]
  pure (k (← regOf 32 f.d) (← regOf 32 f.a) (← f.xsrc))
@[simp] def shTxxi (k : Fmt → XReg → XReg → XSrc → Instr) : Option Instr := do
  f.unused [.c, .mk, .mp, .rnd, .fl]
  pure (k (← f.fmt) (← regOf 32 f.d) (← regOf 32 f.a) (← f.xsrc))
@[simp] def shCxxi (k : Cond → XReg → XReg → XSrc → Instr) : Option Instr := do
  f.unused [.mk, .mp, .ty, .rnd, .fl]
  pure (k (← f.condC) (← regOf 32 f.d) (← regOf 32 f.a) (← f.xsrc))
@[simp] def shXx (k : XReg → XReg → Instr) : Option Instr := do
  f.unused [.b, .c, .mk, .y, .ty, .rnd, .fl, .imm]
  pure (k (← regOf 32 f.d) (← regOf 32 f.a))
@[simp] def shTxx (k : Fmt → XReg → XReg → Instr) : Option Instr := do
  f.unused [.b, .c, .mk, .y, .rnd, .fl, .imm]
  pure (k (← f.fmt) (← regOf 32 f.d) (← regOf 32 f.a))

/-- R154. -/
@[simp] def shFff (k : Fmt → Rnd → FReg → FReg → FSrc → Instr) : Option Instr := do
  f.unused [.c, .mk, .mp, .fl]
  pure (k (← f.fmt) (← f.mode) (← regOf 16 f.d) (← regOf 16 f.a) (← f.fsrc))
@[simp] def shFf (k : Fmt → Rnd → FReg → FReg → Instr) : Option Instr := do
  f.unused [.b, .c, .mk, .y, .fl, .imm]
  pure (k (← f.fmt) (← f.mode) (← regOf 16 f.d) (← regOf 16 f.a))
@[simp] def shFffz (k : Fmt → FReg → FReg → FSrc → Instr) : Option Instr := do
  f.unused [.c, .mk, .mp, .rnd, .fl]
  pure (k (← f.fmt) (← regOf 16 f.d) (← regOf 16 f.a) (← f.fsrc))
@[simp] def shFfz (k : Fmt → FReg → FReg → Instr) : Option Instr := do
  f.unused [.b, .c, .mk, .y, .rnd, .fl, .imm]
  pure (k (← f.fmt) (← regOf 16 f.d) (← regOf 16 f.a))

/-- R162: D or B data, A base, displacement. -/
@[simp] def shLoad (k : Fmt → XReg → XReg → BitVec 32 → Instr) : Option Instr := do
  f.unused [.b, .c, .mk, .y, .rnd, .fl]
  pure (k (← f.fmt) (← regOf 32 f.d) (← regOf 32 f.a) f.imm)
@[simp] def shStore (k : Fmt → XReg → XReg → BitVec 32 → Instr) : Option Instr := do
  f.unused [.d, .c, .mk, .y, .rnd, .fl]
  pure (k (← f.fmt) (← regOf 32 f.b) (← regOf 32 f.a) f.imm)
@[simp] def shAmo (k : Fmt → Scope → XReg → XReg → XReg → BitVec 32 → Instr) : Option Instr := do
  f.unused [.c, .mk, .y, .rnd, .ord, .sat]
  pure (k (← f.fmt) (← f.scope) (← regOf 32 f.d) (← regOf 32 f.b) (← regOf 32 f.a) f.imm)

/-- R178, R180: vD, vA, v or I. -/
@[simp] def shVvi (k : VMod → VReg → VReg → VSrc → Instr) : Option Instr := do
  f.unused [.c, .scp, .ord]
  pure (k (← f.vmod) (← regOf 64 f.d) (← regOf 64 f.a) (← f.vsrc))
@[simp] def shVv (k : VMod → VReg → VReg → Instr) : Option Instr := do
  f.unused [.b, .c, .i, .scp, .ord, .imm]
  pure (k (← f.vmod) (← regOf 64 f.d) (← regOf 64 f.a))
@[simp] def shVviv (k : VMod → VReg → VReg → VSrc → VReg → Instr) : Option Instr := do
  f.unused [.scp, .ord]
  pure (k (← f.vmod) (← regOf 64 f.d) (← regOf 64 f.a) (← f.vsrc) (← regOf 64 f.c))
@[simp] def shVvvv (k : VMod → VReg → VReg → VReg → VReg → Instr) : Option Instr := do
  f.unused [.i, .scp, .ord, .imm]
  pure (k (← f.vmod) (← regOf 64 f.d) (← regOf 64 f.a) (← regOf 64 f.b) (← regOf 64 f.c))
@[simp] def shVcmp (k : Cond → VMod → MReg → VReg → VSrc → Instr) : Option Instr := do
  f.unused [.scp, .ord]
  pure (k (← f.condC) (← f.vmod) (← regOf 24 f.d) (← regOf 64 f.a) (← f.vsrc))
@[simp] def shVcvt (k : VMod → Fmt → VReg → VReg → Instr) : Option Instr := do
  f.unused [.b, .i, .scp, .ord, .imm]
  pure (k (← f.vmod) (← f.fmtC) (← regOf 64 f.d) (← regOf 64 f.a))
@[simp] def shVvv (k : VMod → VReg → VReg → VReg → Instr) : Option Instr := do
  f.unused [.c, .i, .scp, .ord, .imm]
  pure (k (← f.vmod) (← regOf 64 f.d) (← regOf 64 f.a) (← regOf 64 f.b))
/-- R191. -/
@[simp] def shMmm (k : VMask → MReg → MReg → MReg → Instr) : Option Instr := do
  f.unused [.c, .i, .ty, .rnd, .fl, .imm]
  pure (k (← f.mask) (← regOf 24 f.d) (← regOf 24 f.a) (← regOf 24 f.b))
@[simp] def shMm (k : VMask → MReg → MReg → Instr) : Option Instr := do
  f.unused [.b, .c, .i, .ty, .rnd, .fl, .imm]
  pure (k (← f.mask) (← regOf 24 f.d) (← regOf 24 f.a))
@[simp] def shXm (k : VMask → XReg → MReg → Instr) : Option Instr := do
  f.unused [.b, .c, .i, .ty, .rnd, .fl, .imm]
  pure (k (← f.mask) (← regOf 32 f.d) (← regOf 24 f.a))
/-- R192: slides. -/
@[simp] def shVvx (k : VMod → VReg → VReg → XSrc → Instr) : Option Instr := do
  f.unused [.c, .scp, .ord]
  pure (k (← f.vmod) (← regOf 64 f.d) (← regOf 64 f.a) (← f.xsrc))
/-- R194. -/
@[simp] def shVred (k : RedOp → Bool → VMod → XReg → VReg → Instr) : Option Instr := do
  f.unused [.b, .i, .scp, .imm]
  pure (k (← f.opC) f.ordB (← f.vmod) (← regOf 32 f.d) (← regOf 64 f.a))
@[simp] def shVscan (k : RedOp → Bool → VMod → VReg → VReg → Instr) : Option Instr := do
  f.unused [.b, .i, .scp, .imm]
  pure (k (← f.opC) f.ordB (← f.vmod) (← regOf 64 f.d) (← regOf 64 f.a))
/-- R262. -/
@[simp] def shVld (k : Fmt → VMask → Bool → VReg → XReg → BitVec 32 → Instr) : Option Instr := do
  f.unused [.b, .c, .i, .rnd, .scp, .sat]
  pure (k (← f.fmt) (← f.mask) f.ordB (← regOf 64 f.d) (← regOf 32 f.a) f.imm)
@[simp] def shVst (k : Fmt → VMask → VReg → XReg → BitVec 32 → Instr) : Option Instr := do
  f.unused [.b, .c, .i, .rnd, .fl]
  pure (k (← f.fmt) (← f.mask) (← regOf 64 f.d) (← regOf 32 f.a) f.imm)
/-- R353. -/
@[simp] def shVsred (k : RedOp → Bool → VMod → VReg → VReg → MReg → Instr) : Option Instr := do
  f.unused [.i, .scp, .imm]
  pure (k (← f.opC) f.ordB (← f.vmod) (← regOf 64 f.d) (← regOf 64 f.a) (← regOf 24 f.b))

end Shapes

/-! The classes. -/

def decodeInt (f : Fields) : Option Instr :=
  match f.fn.toNat with
  | 0x01 => shXxi f .add | 0x02 => shXxi f .sub | 0x03 => shXxi f .mul
  | 0x04 => shTxxi f .mulh | 0x05 => shTxxi f .div | 0x06 => shTxxi f .rem
  | 0x07 => shXxi f .and | 0x08 => shXxi f .or | 0x09 => shXxi f .xor | 0x0A => shXxi f .andn
  | 0x0B => shXxi f .shl | 0x0C => shXxi f .shr | 0x0D => shXxi f .sar | 0x0E => shXxi f .rol | 0x0F => shXxi f .ror
  | 0x10 => shTxxi f .min | 0x11 => shTxxi f .max | 0x12 => shCxxi f .cmp
  | 0x13 => shXx f .clz | 0x14 => shXx f .ctz | 0x15 => shXx f .popc
  | 0x16 => shXxi f .bext | 0x17 => shXxi f .bins | 0x18 => shTxx f .sext | 0x19 => shTxx f .zext
  | 0x1A => shXxi f .movh | 0x1B => shTxxi f .crcw | 0x1C => shXx f .bswap
  | _ => none

def decodeFloat (f : Fields) : Option Instr :=
  match f.fn.toNat with
  | 0x01 => shFff f .fadd | 0x02 => shFff f .fsub | 0x03 => shFff f .fmul | 0x04 => shFff f .fdiv
  | 0x05 => shFf f .fsqrt | 0x06 => shFf f .frsqrt | 0x07 => shFf f .fexp2 | 0x08 => shFf f .flog2
  | 0x09 => do
    f.unused [.mk, .mp, .fl]
    pure (.fma (← f.fmt) (← f.mode) (← regOf 16 f.d) (← regOf 16 f.a) (← f.fsrc) (← regOf 16 f.c))
  | 0x0A => shFffz f .fmin | 0x0B => shFffz f .fmax | 0x0C => shFfz f .fneg | 0x0D => shFfz f .fabs
  | 0x0E => do
    f.unused [.mk, .mp, .rnd, .fl]
    pure (.fcmp (← f.condC) (← f.fmt) (← regOf 32 f.d) (← regOf 16 f.a) (← f.fsrc))
  | 0x0F => do
    f.unused [.b, .mk, .y, .fl, .imm]
    pure (.fcvt (← f.fmt) (← f.fmtC) (← f.mode) (← regOf 16 f.d) (← regOf 16 f.a))
  | 0x10 => do
    f.unused [.b, .mk, .y, .scp, .ord, .imm]
    pure (.fcvti (← f.fmt) (← f.fmtC) (← f.mode) f.satB (← regOf 32 f.d) (← regOf 16 f.a))
  | 0x11 => do
    f.unused [.b, .mk, .y, .fl, .imm]
    pure (.fcvtf (← f.fmt) (← f.fmtC) (← f.mode) (← regOf 16 f.d) (← regOf 32 f.a))
  | 0x12 => do
    f.unused [.b, .c, .mk, .y, .rnd, .fl, .imm]
    pure (.fmvx (← f.fmt) (← regOf 32 f.d) (← regOf 16 f.a))
  | 0x13 => do
    f.unused [.b, .c, .mk, .y, .rnd, .fl, .imm]
    pure (.fmvf (← f.fmt) (← regOf 16 f.d) (← regOf 32 f.a))
  | _ => none

def decodeControl (f : Fields) : Option Instr :=
  match f.fn.toNat with
  | 0x00 => do f.unused [.d, .a, .b, .c, .mk, .y, .ty, .rnd, .fl, .imm]; pure .nop
  | 0x01 => do
    f.unused [.d, .mk, .y, .ty, .rnd, .fl]
    pure (.br (← f.condC) (← regOf 32 f.a) (← regOf 32 f.b) f.imm)
  | 0x02 => do f.unused [.d, .a, .b, .c, .mk, .y, .ty, .rnd, .fl]; pure (.jmp f.imm)
  | 0x03 => do
    f.unused [.a, .b, .c, .mk, .y, .ty, .rnd, .fl]
    pure (.jal (← regOf 32 f.d) f.imm)
  | 0x04 => do
    f.unused [.d, .b, .c, .mk, .y, .ty, .rnd, .fl, .imm]
    pure (.jr (← regOf 32 f.a))
  | 0x05 => do
    f.unused [.b, .c, .mk, .y, .ty, .rnd, .fl, .imm]
    pure (.jalr (← regOf 32 f.d) (← regOf 32 f.a))
  | 0x06 => do f.unused [.d, .a, .b, .c, .mk, .y, .ty, .rnd, .fl, .imm]; pure .halt
  | 0x07 => do
    f.unused [.a, .b, .c, .mk, .y, .ty, .rnd, .fl, .imm]
    pure (.evwait (← regOf 32 f.d))
  | _ => none

def decodeSMem (f : Fields) : Option Instr :=
  match f.fn.toNat with
  | 0x01 => shLoad f .ld
  | 0x02 => shStore f .st
  | 0x03 => do
    f.unused [.b, .mk, .y, .rnd, .fl]
    pure (.ldp (← f.fmt) (← regOf 32 f.d) (← regOf 32 f.c) (← regOf 32 f.a) f.imm)
  | 0x04 => do
    f.unused [.d, .mk, .y, .rnd, .fl]
    pure (.stp (← f.fmt) (← regOf 32 f.b) (← regOf 32 f.c) (← regOf 32 f.a) f.imm)
  | 0x05 => do
    f.unused [.b, .c, .mk, .y, .rnd, .ord, .sat]
    pure (.lda (← f.fmt) (← f.scope) (← regOf 32 f.d) (← regOf 32 f.a) f.imm)
  | 0x06 => do
    f.unused [.d, .c, .mk, .y, .rnd, .ord, .sat]
    pure (.stl (← f.fmt) (← f.scope) (← regOf 32 f.b) (← regOf 32 f.a) f.imm)
  | _ => none

/-- DEDUCED: log 23. -/
def decodeAmo (f : Fields) : Option Instr :=
  match f.fn.toNat with
  | 0x01 => shAmo f .amoAdd | 0x02 => shAmo f .amoAnd | 0x03 => shAmo f .amoOr | 0x04 => shAmo f .amoXor
  | 0x05 => shAmo f .amoMin | 0x06 => shAmo f .amoMax | 0x07 => shAmo f .amoSwap
  | 0x08 => do
    f.unused [.mk, .y, .rnd, .ord, .sat]
    pure (.cas (← f.fmt) (← f.scope) (← regOf 32 f.d) (← regOf 32 f.c) (← regOf 32 f.b) (← regOf 32 f.a) f.imm)
  | _ => none

def decodeVConf (f : Fields) : Option Instr :=
  match f.fn.toNat with
  | 0x01 => do
    f.unused [.c, .mk, .y, .rnd, .fl, .imm]
    pure (.vset (← f.fmt) (← regOf 32 f.d) (← regOf 32 f.a) (← regOf 32 f.b))
  | 0x02 => do
    f.unused [.c, .mk, .y, .rnd, .fl, .imm]
    pure (.vset2d (← f.fmt) (← regOf 32 f.d) (← regOf 32 f.a) (← regOf 32 f.b))
  | 0x03 => shXx f .vcfg
  | 0x04 => do
    f.unused [.d, .b, .c, .mk, .y, .ty, .rnd, .fl]
    f.immOnly 0x3F#32
    pure (.replay (← regOf 32 f.a) (f.imm.extractLsb' 0 6))
  | _ => none

def decodeStream (f : Fields) : Option Instr :=
  match f.fn.toNat with
  | 0x01 => do
    f.unused [.c, .mk, .y, .rnd, .fl]
    pure (.ostrm (← f.fmt) (← regOf 4 f.d) (← regOf 32 f.a) (← regOf 32 f.b) f.imm)
  | 0x02 => do
    f.unused [.b, .c, .mk, .y, .ty, .rnd, .fl, .imm]
    pure (.bind (← regOf 64 f.d) (← regOf 4 f.a))
  | 0x03 => do
    f.unused [.d, .b, .c, .mk, .y, .ty, .rnd, .fl, .imm]
    pure (.unbind (← regOf 4 f.a))
  | _ => none

/-- DEDUCED: log 20. -/
def decodeVInt (f : Fields) : Option Instr :=
  match f.fn.toNat with
  | 0x01 => shVvi f .vadd | 0x02 => shVvi f .vsub | 0x03 => shVvi f .vmul | 0x04 => shVvi f .vmulh
  | 0x05 => shVvi f .vdiv | 0x06 => shVvi f .vrem | 0x07 => shVvi f .vand | 0x08 => shVvi f .vor
  | 0x09 => shVvi f .vxor | 0x0A => shVvi f .vshl | 0x0B => shVvi f .vshr | 0x0C => shVvi f .vsar
  | 0x0D => shVvi f .vmin | 0x0E => shVvi f .vmax | 0x0F => shVv f .vabs | 0x10 => shVv f .vneg
  | 0x11 => shVcmp f .vcmp | 0x12 => shVvvv f .vsel
  | 0x13 => do
    f.unused [.b, .c, .scp, .ord]
    pure (.vmov (← f.vmod) (← regOf 64 f.d) (← f.vsrcA))
  | 0x14 => shVv f .vclz | 0x15 => shVv f .vpopc
  | _ => none

def decodeVFloat (f : Fields) : Option Instr :=
  match f.fn.toNat with
  | 0x01 => shVvi f .vfadd | 0x02 => shVvi f .vfsub | 0x03 => shVvi f .vfmul | 0x04 => shVvi f .vfdiv
  | 0x05 => shVv f .vfsqrt | 0x06 => shVv f .vfrsqrt | 0x07 => shVv f .vfexp2 | 0x08 => shVv f .vflog2
  | 0x09 => shVviv f .vfma | 0x0A => shVvi f .vfmin | 0x0B => shVvi f .vfmax | 0x0C => shVv f .vfabs
  | 0x0D => shVv f .vfneg | 0x0E => shVcmp f .vfcmp
  | _ => none

def decodeVConv (f : Fields) : Option Instr :=
  match f.fn.toNat with
  | 0x01 => shVcvt f .vcvt | 0x02 => shVv f .vwiden | 0x03 => shVv f .vnarrow
  | 0x04 => shVcvt f .vpack4 | 0x05 => shVv f .vunpack4
  | _ => none

def decodeIngot (f : Fields) : Option Instr :=
  match f.fn.toNat with
  | 0x01 => shVvv f .vinga | 0x02 => shVv f .vingr
  | _ => none

def decodeMask (f : Fields) : Option Instr :=
  match f.fn.toNat with
  | 0x01 => shMmm f .mand | 0x02 => shMmm f .mor | 0x03 => shMmm f .mxor | 0x04 => shMmm f .mandn
  | 0x05 => shMm f .mnot | 0x06 => shXm f .mpop | 0x07 => shXm f .mfirst | 0x08 => shMm f .mcopy
  | _ => none

def decodeVMove (f : Fields) : Option Instr :=
  match f.fn.toNat with
  | 0x01 => shVv f .vcompress | 0x02 => shVv f .vexpand | 0x03 => shVvx f .vslideup | 0x04 => shVvx f .vslidedn
  | 0x05 => shVvv f .vperm
  | 0x06 => do
    f.unused [.b, .c, .scp, .ord]
    pure (.vbcast (← f.vmod) (← regOf 64 f.d) (← f.xsrcA))
  | 0x07 => do
    f.unused [.c, .scp, .ord]
    pure (.vext (← f.vmod) (← regOf 32 f.d) (← regOf 64 f.a) (← f.xsrc))
  | 0x08 => do
    f.unused [.c, .scp, .ord]
    pure (.vins (← f.vmod) (← regOf 64 f.d) (← regOf 32 f.a) (← f.xsrc))
  | 0x09 => do
    f.unused [.a, .b, .c, .i, .scp, .ord, .imm]
    pure (.viota (← f.vmod) (← regOf 64 f.d))
  | _ => none

def decodeVRed (f : Fields) : Option Instr :=
  match f.fn.toNat with
  | 0x01 => shVred f .vred | 0x02 => shVscan f .vscan
  | _ => none

def decodeVMem (f : Fields) : Option Instr :=
  match f.fn.toNat with
  | 0x01 => shVld f .vld
  | 0x02 => do
    f.unused [.b, .i, .rnd, .scp, .sat]
    pure (.vlds (← f.fmt) (← f.mask) f.ordB (← regOf 64 f.d) (← regOf 32 f.a) (← regOf 32 f.c) f.imm)
  | 0x03 => do
    f.unused [.b, .i, .rnd, .scp, .sat]
    pure (.vldx (← f.fmt) (← f.mask) f.ordB (← regOf 64 f.d) (← regOf 32 f.a) (← regOf 64 f.c) f.imm)
  | 0x04 => do
    f.unused [.i, .rnd, .fl]
    pure (.vwgath (← f.fmt) (← f.mask) (← regOf 64 f.d) (← regOf 32 f.a) (← regOf 24 f.b) (← regOf 64 f.c) f.imm)
  | 0x05 => shVst f .vst
  | 0x06 => do
    f.unused [.b, .i, .rnd, .fl]
    pure (.vsts (← f.fmt) (← f.mask) (← regOf 64 f.d) (← regOf 32 f.a) (← regOf 32 f.c) f.imm)
  | 0x07 => do
    f.unused [.b, .i, .rnd, .fl]
    pure (.vstx (← f.fmt) (← f.mask) (← regOf 64 f.d) (← regOf 32 f.a) (← regOf 64 f.c) f.imm)
  | 0x08 => do
    f.immOnly 0xFFF#32
    f.unused [.b, .c, .i, .rnd, .scp, .sat]
    pure (.tld (← f.fmt) (← f.mask) f.ordB (← regOf 64 f.d) (← regOf 32 f.a) (f.imm.extractLsb' 0 12))
  | 0x09 => do
    f.immOnly 0xFFF#32
    f.unused [.b, .c, .i, .rnd, .fl]
    pure (.tst (← f.fmt) (← f.mask) (← regOf 64 f.d) (← regOf 32 f.a) (f.imm.extractLsb' 0 12))
  | _ => none

def decodeVamo (f : Fields) : Option Instr :=
  match f.fn.toNat with
  | 0x01 => do
    f.unused [.i, .fl]
    pure (.vamo (← f.opC) (← f.fmt) (← f.mode) (← f.mask) (← regOf 64 f.d) (← regOf 32 f.a) (← regOf 64 f.b) f.imm)
  | _ => none

def decodeAssay (f : Fields) : Option Instr :=
  match f.fn.toNat with
  | 0x01 => do
    f.unmasked
    f.unused [.i, .rnd, .fl]
    f.immOnly 0x3F07#32
    let md ← regOf 3 ((f.imm.extractLsb' 0 2).zeroExtend 6)
    pure (.vassay md (bitOf (f.imm.extractLsb' 2 1)) (f.imm.extractLsb' 8 6) (← f.fmt)
      (← regOf 64 f.d) (← regOf 32 f.a) (← regOf 32 f.b) (← regOf 32 f.c))
  | _ => none

def decodeSeg (f : Fields) : Option Instr :=
  match f.fn.toNat with
  | 0x01 => do
    f.unmasked
    f.unused [.c, .i, .rnd, .fl, .imm]
    pure (.vsegoff (← f.fmt) (← regOf 24 f.d) (← regOf 64 f.a) (← regOf 32 f.b))
  | 0x02 => do
    f.unmasked
    f.unused [.i, .rnd, .fl, .imm]
    pure (.vfibre (← f.fmt) (← regOf 24 f.d) (← regOf 64 f.a) (← regOf 32 f.b) (← regOf 32 f.c))
  | 0x03 => shVsred f .vsred
  | 0x04 => shVsred f .vsscan
  | 0x05 => do
    f.unmasked
    f.unused [.i, .rnd, .fl, .imm]
    pure (.vmaxi (← f.fmt) (← regOf 32 f.d) (← regOf 64 f.a) (← regOf 24 f.b) (← regOf 32 f.c))
  | 0x06 => do
    f.unmasked
    f.unused [.i, .rnd, .fl, .imm]
    pure (.vmaxiSeg (← f.fmt) (← regOf 24 f.d) (← regOf 64 f.a) (← regOf 24 f.b) (← regOf 24 f.c))
  | 0x07 => do
    f.unused [.c, .i, .rnd, .fl, .imm]
    pure (.vappend (← f.fmt) (← f.mask) (← regOf 32 f.d) (← regOf 32 f.a) (← regOf 32 f.b))
  | _ => none

def decodeGate (f : Fields) : Option Instr :=
  match f.fn.toNat with
  | 0x01 => do
    f.unused [.d, .c, .rnd, .fl]
    pure (.gadd (← f.fmt) (← f.mask) (← regOf 64 f.a) (← f.xsrc))
  | 0x02 => do
    f.unmasked
    f.unused [.b, .c, .i, .rnd, .fl, .imm]
    if f.ty == 0x08 then pure (.gsnap (← regOf 64 f.d) (← regOf 32 f.a)) else none
  | 0x03 => do
    f.unmasked
    f.unused [.i, .rnd, .fl, .imm]
    if f.ty == 0x08 then pure (.gslot (← regOf 32 f.d) (← regOf 32 f.a) (← regOf 32 f.b) (← regOf 32 f.c)) else none
  | _ => none

/-! The array class (R57): XRANK is `mk`, YRANK is `y`, AXIS is `rnd`, FLAGS is `fl`. -/

/-- XRANK 0 to 7; 8 to 31 are illegal. -/
def xrank (f : Fields) : Option (BitVec 3) := if f.msk.toNat < 8 then some (f.msk.extractLsb' 0 3) else none
/-- XRANK fixed at 7. -/
@[simp] def xr7 (f : Fields) : Option Unit := if f.msk == 7 then some () else none
@[simp] def yr7 (f : Fields) : Option Unit := if f.y == 7 then some () else none

def decodeDesc (f : Fields) : Option Instr :=
  match f.fn.toNat with
  | 0x01 => do
    f.unused [.b, .c, .mk, .y, .ty, .rnd, .fl]
    f.immOnly 0xFF00#32
    let n := (f.imm.extractLsb' 8 8).toNat
    let fld ← if h : n < 20 then some (⟨n, h⟩ : Fin 20) else none
    pure (.dset (← regOf 16 f.d) (← regOf 32 f.a) fld)
  | 0x02 => do
    f.unused [.b, .c, .mk, .y, .ty, .rnd, .fl]
    pure (.dld (← regOf 16 f.d) (← regOf 32 f.a) f.imm)
  | 0x03 => do
    f.unused [.b, .c, .mk, .y, .ty, .rnd, .fl]
    pure (.dst (← regOf 16 f.d) (← regOf 32 f.a) f.imm)
  | 0x04 => do
    f.unused [.b, .c, .mk, .y, .ty, .fl]
    f.immOnly 0xFF00#32
    let n := (f.imm.extractLsb' 8 8).toNat
    let q ← if h : n < 5 then some (⟨n, h⟩ : Fin 5) else none
    pure (.dshape (← regOf 32 f.d) (← regOf 16 f.a) q f.rnd)
  | _ => none

/-- The element function that OP and [16] name, with its further arguments in B and C (R109). -/
def mapFn (f : Fields) : Option MapFn :=
  let un (u : MapUn) : Option MapFn := do f.unused [.b, .c]; pure (.un u)
  let bin (u : MapBin) : Option MapFn := do f.unused [.c]; pure (.bin u (← regOf 16 f.b))
  match (f.imm.extractLsb' 16 1).toNat, (f.imm.extractLsb' 8 8).toNat with
  | 0, 0x01 => bin .add | 0, 0x02 => bin .sub | 0, 0x03 => bin .mul | 0, 0x04 => bin .mulh
  | 0, 0x05 => bin .div | 0, 0x06 => bin .rem | 0, 0x07 => bin .and | 0, 0x08 => bin .or | 0, 0x09 => bin .xor
  | 0, 0x0A => bin .shl | 0, 0x0B => bin .shr | 0, 0x0C => bin .sar | 0, 0x0D => bin .min | 0, 0x0E => bin .max
  | 0, 0x0F => un .abs | 0, 0x10 => un .neg
  | 0, 0x11 => do pure (.cmp (← f.condC) (← regOf 16 f.b))
  | 0, 0x12 => do pure (.sel (← regOf 16 f.b) (← regOf 16 f.c))
  | 0, 0x13 => un .mov | 0, 0x14 => un .clz | 0, 0x15 => un .popc
  | 1, 0x01 => bin .fadd | 1, 0x02 => bin .fsub | 1, 0x03 => bin .fmul | 1, 0x04 => bin .fdiv
  | 1, 0x05 => un .fsqrt | 1, 0x06 => un .frsqrt | 1, 0x07 => un .fexp2 | 1, 0x08 => un .flog2
  | 1, 0x09 => do pure (.fma (← regOf 16 f.b) (← regOf 16 f.c))
  | 1, 0x0A => bin .fmin | 1, 0x0B => bin .fmax | 1, 0x0C => un .fabs | 1, 0x0D => un .fneg
  | 1, 0x0E => do pure (.fcmp (← f.condC) (← regOf 16 f.b))
  | _, _ => none

/-- [2:0] RND and [3] SAT of the array class. -/
def arnd (f : Fields) : Option Rnd := Rnd.ofCode (f.imm.extractLsb' 0 3).toNat
def asat (f : Fields) : Bool := bitOf (f.imm.extractLsb' 3 1)

def decodeMapRed (f : Fields) : Option Instr :=
  match f.fn.toNat with
  | 0x01 => do
    f.unused [.ty, .rnd, .fl]
    f.immOnly 0x1FF0F#32
    pure (.amap (← mapFn f) (← regOf 16 f.d) (← regOf 16 f.a) (← xrank f) f.y (← arnd f) (asat f))
  | 0x02 => do
    f.unused [.b, .c, .y, .ty, .fl]
    f.immOnly 0xFF0F#32
    pure (.ared (← RedOp.ofCode (f.imm.extractLsb' 8 8).toNat) (← regOf 16 f.d) (← regOf 16 f.a) (← xrank f) f.rnd
      (← arnd f) (asat f))
  | 0x03 => do
    f.unused [.b, .y, .ty, .scp]
    f.immOnly 0xFF0F#32
    let seg ← if f.ord == 0 then (if f.c == 0 then some none else none) else (regOf 16 f.c).map some
    pure (.ascan (← RedOp.ofCode (f.imm.extractLsb' 8 8).toNat) f.satB seg (← regOf 16 f.d) (← regOf 16 f.a)
      (← xrank f) f.rnd (← arnd f) (asat f))
  | _ => none

def decodeArray2 (f : Fields) : Option Instr :=
  match f.fn.toNat with
  | 0x01 => do
    f.unused [.b, .c, .y, .ty, .scp, .ord, .imm]
    pure (.agrade f.satB (← regOf 16 f.d) (← regOf 16 f.a) (← xrank f) f.rnd)
  | 0x02 => do
    f.unused [.c, .y, .ty, .fl]
    f.immOnly 0xFF00#32
    match (f.imm.extractLsb' 8 8).toNat with
    | 0 => pure (.arotScalar (← regOf 16 f.d) (← regOf 16 f.a) (← regOf 32 f.b) (← xrank f) f.rnd)
    | 1 => pure (.arotVector (← regOf 16 f.d) (← regOf 16 f.a) (← regOf 16 f.b) (← xrank f) f.rnd)
    | _ => none
  | 0x03 => do
    f.unused [.c, .y, .ty, .fl, .imm]
    pure (.atake (← regOf 16 f.d) (← regOf 16 f.a) (← regOf 32 f.b) (← xrank f) f.rnd)
  | 0x04 => do
    f.unused [.c, .y, .ty, .fl, .imm]
    pure (.adrop (← regOf 16 f.d) (← regOf 16 f.a) (← regOf 32 f.b) (← xrank f) f.rnd)
  | 0x05 => do
    xr7 f
    f.unused [.c, .y, .ty, .rnd, .fl, .imm]
    pure (.areshape (← regOf 16 f.d) (← regOf 16 f.a) (← regOf 16 f.b))
  | 0x06 => do
    xr7 f
    f.unused [.c, .y, .ty, .rnd, .fl, .imm]
    pure (.atrans (← regOf 16 f.d) (← regOf 16 f.a) (← regOf 32 f.b))
  | 0x07 => do
    f.unused [.ty, .rnd, .fl]
    f.immOnly 0x1FF0F#32
    pure (.aouter (← mapFn f) (← regOf 16 f.d) (← regOf 16 f.a) (← xrank f) f.y (← arnd f) (asat f))
  | 0x08 => do
    xr7 f
    yr7 f
    f.unused [.ty, .rnd, .imm]
    let n := f.fl.toNat
    let sel ← if h : n < 4 then (regOf 32 f.b).map (.lim ⟨n, h⟩)
      else if n = 4 then (regOf 16 f.b).map .mask else none
    pure (.asel sel (← regOf 16 f.d) (← regOf 16 f.a) (← regOf 32 f.c))
  | 0x09 => do
    xr7 f
    yr7 f
    f.unused [.ty, .fl, .imm]
    pure (.acomp (← regOf 16 f.d) (← regOf 16 f.a) (← regOf 16 f.b) (← regOf 32 f.c) f.rnd)
  | 0x0A => do
    xr7 f
    yr7 f
    f.unused [.c, .ty, .fl, .imm]
    pure (.afrom (← regOf 16 f.d) (← regOf 16 f.a) (← regOf 16 f.b) f.rnd)
  | 0x0B => do
    xr7 f
    yr7 f
    f.unused [.c, .ty, .fl, .imm]
    pure (.acat (← regOf 16 f.d) (← regOf 16 f.a) (← regOf 16 f.b) f.rnd)
  | 0x0C => do
    xr7 f
    f.unused [.c, .y, .ty, .rnd, .fl, .imm]
    pure (.afill (← regOf 16 f.d) (← regOf 16 f.a) (← regOf 32 f.b))
  | 0x0D => do
    xr7 f
    f.unused [.b, .c, .y, .ty, .fl]
    f.immOnly 0xF#32
    pure (.aiota (← regOf 16 f.d) (← regOf 16 f.a) f.rnd (← arnd f) (asat f))
  | _ => none

/-! The matrix class. -/

def decodeMatrix (f : Fields) : Option Instr :=
  match f.fn.toNat with
  | 0x01 => do
    f.unused [.c, .mk, .y, .rnd, .fl, .imm]
    pure (.mset (← f.fmt) (← regOf 32 f.d) (← regOf 32 f.a) (← regOf 32 f.b))
  | 0x02 => do
    f.unused [.mk, .y, .rnd, .scp, .sat, .imm]
    pure (.wld (← f.fmt) f.ordB (← regOf 16 f.d) (← regOf 16 f.a) (← regOf 32 f.b) (← regOf 16 f.c))
  | 0x03 => do
    f.unused [.mk, .y, .rnd, .fl, .imm]
    pure (.mmul (← f.fmt) (← regOf 8 f.d) (← regOf 64 f.a) (← regOf 16 f.b) (← regOf 16 f.c))
  | 0x04 => do
    f.unused [.mk, .y, .rnd, .fl]
    f.immOnly 0xFF#32
    let dens ← regOf 4 ((f.imm.extractLsb' 6 2).zeroExtend 6)
    pure (.mmuls (← f.fmt) (← regOf 8 f.d) (← regOf 64 f.a) (← regOf 16 f.b) (← regOf 16 f.c)
      (f.imm.extractLsb' 0 6) dens)
  | 0x05 => do
    f.unused [.mk, .y, .rnd, .fl, .imm]
    pure (.mmula (← f.fmt) (← regOf 8 f.d) (← regOf 64 f.a) (← regOf 16 f.b) (← regOf 16 f.c))
  | 0x06 => do
    f.unused [.mk, .y, .ty, .rnd, .fl, .imm]
    pure (.mmulc (← regOf 8 f.d) (← regOf 32 f.a) (← regOf 16 f.b) (← regOf 16 f.c))
  | 0x07 => do
    f.unused [.a, .b, .c, .mk, .y, .ty, .rnd, .fl, .imm]
    pure (.mzero (← regOf 8 f.d))
  | 0x08 => do
    f.unused [.b, .i, .scp]
    if f.ord == 0 then
      pure (.mdrainStrided (← f.vmod) (← regOf 8 f.d) (← regOf 32 f.a) (← regOf 32 f.c) f.imm)
    else
      pure (.mdrainIndexed (← f.vmod) (← regOf 8 f.d) (← regOf 32 f.a) (← regOf 64 f.c) f.imm)
  | 0x09 => do
    f.unused [.b, .c, .i, .scp, .ord, .imm]
    pure (.mdrv (← f.vmod) (← regOf 64 f.d) (← regOf 8 f.a))
  | 0x0A => do
    f.unused [.a, .b, .c, .mk, .y, .ty, .rnd, .fl, .imm]
    pure (.kwait (← regOf 16 f.d))
  | 0x0B => do
    f.unused [.b, .c, .mk, .y, .ty, .rnd, .fl, .imm]
    pure (.kpoll (← regOf 32 f.d) (← regOf 16 f.a))
  | 0x0C => do
    f.unused [.b, .mk, .y, .rnd, .fl, .imm]
    pure (.mgrp (← f.fmt) (← regOf 8 f.d) (← regOf 64 f.a) (← regOf 16 f.c))
  | _ => none

def decodeCut (f : Fields) : Option Instr :=
  match f.fn.toNat with
  | 0x01 => do
    f.unused [.mk, .y, .rnd, .fl]
    f.immOnly 1#32
    if f.imm == 0 then
      pure (.cutBand (← f.fmt) (← regOf 32 f.d) (← regOf 32 f.a) (← regOf 32 f.b) (← regOf 16 f.c))
    else
      pure (.cutSquare (← f.fmt) (← regOf 32 f.d) (← regOf 32 f.a) (← regOf 32 f.b) (← regOf 16 f.c))
  | 0x02 => do
    f.unused [.mk, .y, .ty, .rnd, .fl, .imm]
    pure (.cocut (← regOf 16 f.d) (← regOf 16 f.a) (← regOf 32 f.b) (← regOf 16 f.c))
  | 0x03 => do
    f.unused [.a, .b, .c, .mk, .y, .ty, .rnd, .fl, .imm]
    pure (.cutq (← regOf 32 f.d))
  | _ => none

/-! Tiles, copies, barriers, the graph. -/

def decodeTile (f : Fields) : Option Instr :=
  match f.fn.toNat with
  | 0x01 => do
    f.unused [.c, .mk, .y, .rnd, .ord, .sat]
    f.immOnly 0xFFF#32
    pure (.talloc (← f.fmt) (← f.scope) (← regOf 32 f.d) (← regOf 32 f.a) (← regOf 32 f.b) (f.imm.extractLsb' 0 12))
  | 0x02 => do
    f.unused [.d, .a, .b, .c, .mk, .y, .ty, .rnd, .fl]
    f.immOnly 0xFFF#32
    pure (.tfree (f.imm.extractLsb' 0 12))
  | 0x03 => do
    f.unused [.a, .b, .mk, .y, .ty, .rnd, .fl]
    f.immOnly 0xFFF#32
    pure (.tinfo (← regOf 6 f.c) (← regOf 32 f.d) (f.imm.extractLsb' 0 12))
  | _ => none

def decodeCopy (f : Fields) : Option Instr :=
  match f.fn.toNat with
  | 0x01 => do
    f.unused [.c, .mk, .y, .ty, .ord]
    f.immOnly 0x3303FF#32
    pure (.copy (← f.copyMode) (← regOf 16 f.d) (← regOf 16 f.a) (← f.mode) f.satB (f.imm.extractLsb' 20 2))
  | 0x02 => do
    f.unused [.mk, .y, .ord]
    f.immOnly 0x3303FF#32
    pure (.cgath (← f.fmt) (← f.copyMode) (← regOf 16 f.d) (← regOf 16 f.a) (← regOf 64 f.c) (← f.mode) f.satB
      (f.imm.extractLsb' 20 2))
  | 0x03 => do
    f.unused [.d, .b, .c, .mk, .y, .ty, .rnd, .fl]
    f.immOnly 0x300000#32
    pure (.facet (f.imm.extractLsb' 20 2) (← regOf 32 f.a))
  | 0x04 => do
    f.unused [.c, .mk, .y, .ty, .rnd, .fl, .imm]
    pure (.swait (← regOf 32 f.d) (← regOf 32 f.a) (← regOf 32 f.b))
  | _ => none

def decodeBar (f : Fields) : Option Instr := do
  f.unused [.d, .b, .c, .mk, .y, .ty, .rnd, .ord, .sat]
  f.immOnly 0x3FF#32
  let n := f.imm.extractLsb' 0 10
  match f.fn.toNat with
  | 0x01 => pure (.barexp (← f.scope) n (← regOf 32 f.a))
  | 0x02 => do
    f.unused [.a]
    pure (.barv (← f.scope) n)
  | 0x03 => pure (.barw (← f.scope) n (← regOf 32 f.a))
  | _ => none

/-- SCP is 4 (R227). -/
@[simp] def scp4 (f : Fields) : Option Unit := if f.scp == 4 then some () else none

def decodeGraph (f : Fields) : Option Instr :=
  match f.fn.toNat with
  | 0x01 => do
    scp4 f
    f.unused [.d, .b, .c, .mk, .y, .ty, .rnd, .ord, .sat]
    f.immOnly 0xFF#32
    pure (.wmpub (← regOf 32 f.a) (f.imm.extractLsb' 0 8))
  | 0x02 => do
    scp4 f
    f.unused [.d, .b, .c, .mk, .y, .ty, .rnd, .ord, .sat]
    f.immOnly 0xFF#32
    pure (.wmwait (← regOf 32 f.a) (f.imm.extractLsb' 0 8))
  | 0x03 => do
    f.unused [.b, .c, .mk, .y, .ty, .rnd, .fl, .imm]
    pure (.gnode (← regOf 32 f.d) (← regOf 32 f.a))
  | _ => none

/-! Spans, ordering, system. -/

@[simp] def shXmove (f : Fields) (k : Fmt → VReg → VReg → GReg → BitVec 20 → Instr) : Option Instr := do
  f.unused [.c, .mk, .y, .rnd, .fl]
  f.immOnly 0xFFFFF#32
  pure (k (← f.fmt) (← regOf 64 f.d) (← regOf 64 f.a) (← regOf 8 f.b) (f.imm.extractLsb' 0 20))

def decodeSpan (f : Fields) : Option Instr :=
  match f.fn.toNat with
  | 0x01 => do
    f.unused [.b, .c, .mk, .y, .ty, .rnd, .ord, .sat]
    f.immOnly 1#32
    pure (.xalloc (← f.scope) (bitOf (f.imm.extractLsb' 0 1)) (← regOf 32 f.d) (← regOf 8 f.a))
  | 0x02 => do
    f.unused [.d, .b, .c, .mk, .y, .ty, .rnd, .fl, .imm]
    pure (.xfree (← regOf 8 f.a))
  | 0x03 => do
    f.unused [.mk, .y, .scp, .sat, .imm]
    pure (.xall (← f.opC) f.ordB (← f.fmt) (← f.mode) (← regOf 64 f.d) (← regOf 64 f.a) (← regOf 8 f.b))
  | 0x04 => do
    f.unused [.mk, .y, .scp, .sat]
    f.immOnly 0xFFFFF#32
    pure (.xred (← f.opC) f.ordB (← f.fmt) (← f.mode) (← regOf 64 f.d) (← regOf 64 f.a) (← regOf 8 f.b)
      (f.imm.extractLsb' 0 20))
  | 0x05 => shXmove f .xgath | 0x06 => shXmove f .xscat | 0x07 => shXmove f .xbcast
  | 0x08 => do
    f.unused [.d, .mk, .y, .rnd, .fl, .imm]
    pure (.xsend (← f.fmt) (← regOf 64 f.a) (← regOf 8 f.b) (← regOf 32 f.c))
  | 0x09 => do
    f.unused [.a, .mk, .y, .rnd, .fl, .imm]
    pure (.xrecv (← f.fmt) (← regOf 64 f.d) (← regOf 8 f.b) (← regOf 32 f.c))
  | _ => none

def decodeOrder (f : Fields) : Option Instr :=
  match f.fn.toNat with
  | 0x01 => do
    f.unused [.d, .a, .b, .c, .mk, .y, .ty, .rnd, .ord, .sat]
    f.immOnly 0x3F3F#32
    pure (.fence (f.imm.extractLsb' 0 6) (f.imm.extractLsb' 8 6) (← f.scope))
  | 0x02 => do
    f.unused [.d, .a, .b, .c, .mk, .y, .ty, .rnd, .fl]
    f.immOnly 0x3F#32
    pure (.hold (f.imm.extractLsb' 0 6))
  | _ => none

def decodeSystem (f : Fields) : Option Instr := do
  f.unused [.c, .mk, .y, .ty, .rnd, .fl]
  match f.fn.toNat with
  | 0x01 => do
    f.unused [.d, .a, .b]
    f.immOnly 0xFFF#32
    pure (.trap (f.imm.extractLsb' 0 12))
  | 0x02 => do f.unused [.d, .a, .b, .imm]; pure .sret
  | 0x03 => do f.unused [.d, .a, .b, .imm]; pure .mret
  | 0x04 => do
    f.unused [.a, .b]
    f.immOnly 0xFFF#32
    pure (.srd (← regOf 32 f.d) (f.imm.extractLsb' 0 12))
  | 0x05 => do
    f.unused [.d, .b]
    f.immOnly 0xFFF#32
    let a ← regOf 32 f.a
    match (f.imm.extractLsb' 0 12).toNat with
    | 0x010 => pure (.swrVcfg a)
    | 0x031 => pure (.swrCutst a)
    | 0x032 => pure (.swrXpos a)
    | _ => pure (.swr (f.imm.extractLsb' 0 12) a)
  | 0x06 => do
    f.unused [.d, .b]
    f.immOnly 3#32
    match (f.imm.extractLsb' 0 2).toNat with
    | 0 => pure (.tlbiVa (← regOf 32 f.a))
    | 1 => do f.unused [.a]; pure .tlbiSad
    | 2 => do f.unused [.a]; pure .tlbiAll
    | _ => none
  | 0x07 => do
    f.unused [.d, .b]
    f.immOnly 1#32
    pure (.ctxsave (bitOf (f.imm.extractLsb' 0 1)) (← regOf 32 f.a))
  | 0x08 => do
    f.unused [.d, .b, .imm]
    pure (.ctxrest (← regOf 32 f.a))
  | 0x09 => do
    f.immOnly 0x3F#32
    let st ← regOf 9 ((f.imm.extractLsb' 0 4).zeroExtend 6)
    pure (.einj (f.imm.extractLsb' 4 2) st (← regOf 32 f.d) (← regOf 32 f.a) (← regOf 32 f.b))
  | 0x0A => do f.unused [.d, .a, .b, .imm]; pure .idle
  | _ => none

/-- The array class reuses bit 49; in every other class it is reserved (R53). -/
@[simp] def reserved49 (f : Fields) : Option Unit := if f.bit49 == 0 then some () else none

/-- The opcode map (R61), before the checks of `Instr.wf`. -/
def decodeOpc (f : Fields) : Option Instr :=
  match f.opc.toNat with
  | 0x00 => decodeInt f | 0x10 => decodeFloat f | 0x20 => decodeControl f
  | 0x30 => decodeSMem f | 0x31 => decodeAmo f
  | 0x40 => decodeVConf f | 0x41 => decodeStream f
  | 0x50 => decodeVInt f | 0x51 => decodeVFloat f | 0x52 => decodeVConv f | 0x53 => decodeIngot f
  | 0x60 => decodeMask f | 0x61 => decodeVMove f | 0x62 => decodeVRed f
  | 0x70 => decodeVMem f | 0x71 => decodeVamo f | 0x72 => decodeAssay f
  | 0x80 => decodeSeg f | 0x81 => decodeGate f
  | 0x90 => decodeDesc f | 0x91 => decodeMapRed f | 0x92 => decodeArray2 f
  | 0xA0 => decodeMatrix f | 0xA1 => decodeCut f
  | 0xB0 => decodeTile f | 0xB1 => decodeCopy f | 0xB2 => decodeBar f | 0xB3 => decodeGraph f
  | 0xC0 => decodeSpan f | 0xD0 => decodeOrder f | 0xE0 => decodeSystem f
  | _ => none

def decodeFields (f : Fields) : Option Instr := do
  if f.opc.extractLsb' 4 4 != 9#4 then reserved49 f
  let i ← decodeOpc f
  if i.wf then pure i else none

/-- The instruction a word encodes, or nothing for a word that traps 0x01 (R58, R61). -/
def decode (w : IWord) : Option Instr := decodeFields (Fields.ofWord w)

/-- The word of the 12 bytes of a slot, byte 0 in bits [7:0] (R45). -/
def wordOfBytes (l : List Byte) : IWord := l.foldr (fun b w => (w <<< 8) ||| b.zeroExtend 96) 0#96

def bytesOfWord (w : IWord) : List Byte := (List.range 12).map (fun i => w.extractLsb' (8 * i) 8)

/-- Decoding of a slot's bytes. -/
def decodeBytes (l : List Byte) : Option Instr := decode (wordOfBytes l)

/-- The instruction the decoder reads from bits numbered as the opcode table numbers them. -/
def decodeTableWord (nbits w : Nat) : Option Instr :=
  decodeBytes (bytesOfWord (BitVec.ofNat 96 (w % 2 ^ nbits)))

/-! The encoder. -/

def Fields.toWord (f : Fields) : IWord :=
  f.opc ++ f.fn ++ f.d ++ f.a ++ f.b ++ f.c ++ f.msk ++ f.y ++ f.ty ++ f.rnd ++ f.fl ++ f.imm

/-- The word with every field zero but OPC and FN. -/
@[simp] def Fields.base (opc fn : Nat) : Fields where
  opc := BitVec.ofNat 8 opc
  fn := BitVec.ofNat 8 fn
  d := 0
  a := 0
  b := 0
  c := 0
  msk := 0
  y := 0
  ty := 0
  rnd := 0
  fl := 0
  imm := 0

def reg6 {n : Nat} (r : Fin n) : BitVec 6 := BitVec.ofNat 6 r.val
def Fmt.bits (t : Fmt) : BitVec 8 := BitVec.ofNat 8 t.code
def Fmt.bits6 (t : Fmt) : BitVec 6 := BitVec.ofNat 6 t.code
def Rnd.bits (r : Rnd) : BitVec 3 := BitVec.ofNat 3 r.code
def Cond.bits (c : Cond) : BitVec 6 := BitVec.ofNat 6 c.code
def RedOp.bits (o : RedOp) : BitVec 6 := BitVec.ofNat 6 o.code
def Scope.bits (s : Scope) : BitVec 3 := BitVec.ofNat 3 s.code

def VMask.mkBits : VMask → BitVec 5
  | none => 31
  | .by m _ => BitVec.ofNat 5 m.val
def VMask.mpBit : VMask → BitVec 1
  | none => 0
  | .by _ fill => ofBit fill

/-- Bits [50:48] from MP and I. -/
def yBits (mp i : BitVec 1) : BitVec 3 := mp ++ 0#1 ++ i
/-- Bits [36:32] from SCP, ORD and SAT. -/
def flBits (scp : BitVec 3) (ord sat : Bool) : BitVec 5 := scp ++ ofBit ord ++ ofBit sat

namespace Fields
@[simp] def withX (f : Fields) : XSrc → Fields
  | .reg r => { f with b := reg6 r }
  | .imm v => { f with y := f.y ||| 1#3, imm := v }
@[simp] def withF (f : Fields) : FSrc → Fields
  | .reg r => { f with b := reg6 r }
  | .imm v => { f with y := f.y ||| 1#3, imm := v }
@[simp] def withV (f : Fields) : VSrc → Fields
  | .reg r => { f with b := reg6 r }
  | .imm v => { f with y := f.y ||| 1#3, imm := v }
@[simp] def withXA (f : Fields) : XSrc → Fields
  | .reg r => { f with a := reg6 r }
  | .imm v => { f with y := f.y ||| 1#3, imm := v }
@[simp] def withVA (f : Fields) : VSrc → Fields
  | .reg r => { f with a := reg6 r }
  | .imm v => { f with y := f.y ||| 1#3, imm := v }
@[simp] def withMask (f : Fields) (k : VMask) : Fields := { f with msk := k.mkBits, y := yBits k.mpBit 0 }
@[simp] def withMod (f : Fields) (m : VMod) : Fields :=
  { (f.withMask m.mask) with ty := m.ty.bits, rnd := m.rnd.bits, fl := flBits 0 false m.sat }
@[simp] def withCopy (f : Fields) (eng : BitVec 2) : CopyMode → Fields
  | .st b => { f with b := reg6 b, imm := (eng.zeroExtend 32) <<< 20 }
  | .bar n s => { f with fl := f.fl ||| flBits s.bits false false,
                         imm := ((eng.zeroExtend 32) <<< 20) ||| (1#32 <<< 16) ||| n.zeroExtend 32 }
  | .gr b => { f with b := reg6 b, imm := ((eng.zeroExtend 32) <<< 20) ||| (2#32 <<< 16) }
end Fields

def MapUn.op : MapUn → Nat × Nat
  | mov => (0, 0x13) | abs => (0, 0x0F) | neg => (0, 0x10) | clz => (0, 0x14) | popc => (0, 0x15)
  | fsqrt => (1, 0x05) | frsqrt => (1, 0x06) | fexp2 => (1, 0x07) | flog2 => (1, 0x08)
  | fabs => (1, 0x0C) | fneg => (1, 0x0D)
def MapBin.op : MapBin → Nat × Nat
  | add => (0, 0x01) | sub => (0, 0x02) | mul => (0, 0x03) | mulh => (0, 0x04) | div => (0, 0x05) | rem => (0, 0x06)
  | and => (0, 0x07) | or => (0, 0x08) | xor => (0, 0x09) | shl => (0, 0x0A) | shr => (0, 0x0B) | sar => (0, 0x0C)
  | min => (0, 0x0D) | max => (0, 0x0E)
  | fadd => (1, 0x01) | fsub => (1, 0x02) | fmul => (1, 0x03) | fdiv => (1, 0x04) | fmin => (1, 0x0A) | fmax => (1, 0x0B)
/-- OPC bit [16] and OP of an element function. -/
def MapFn.op : MapFn → Nat × Nat
  | .un u => u.op | .bin u _ => u.op | .cmp _ _ => (0, 0x11) | .fcmp _ _ => (1, 0x0E)
  | .fma _ _ => (1, 0x09) | .sel _ _ => (0, 0x12)
def MapFn.bBits : MapFn → BitVec 6
  | .un _ => 0 | .bin _ y => reg6 y | .cmp _ y => reg6 y | .fcmp _ y => reg6 y | .fma y _ => reg6 y | .sel y _ => reg6 y
def MapFn.cBits : MapFn → BitVec 6
  | .un _ => 0 | .bin _ _ => 0 | .cmp c _ => c.bits | .fcmp c _ => c.bits | .fma _ z => reg6 z | .sel _ z => reg6 z

/-- IMM32 of the array class: RND, SAT, OP and [16]. -/
def aimm (rnd : Rnd) (sat : Bool) (op : Nat × Nat) : BitVec 32 :=
  BitVec.ofNat 32 (rnd.code + (if sat then 8 else 0) + 256 * op.2 + 65536 * op.1)

section Enc
/-! Encoders of the shapes. -/
@[simp] def enXxi (o n : Nat) (d a : XReg) (b : XSrc) : Fields := ({ Fields.base o n with d := reg6 d, a := reg6 a }).withX b
@[simp] def enTxxi (o n : Nat) (ty : Fmt) (d a : XReg) (b : XSrc) : Fields :=
  ({ Fields.base o n with d := reg6 d, a := reg6 a, ty := ty.bits }).withX b
@[simp] def enXx (o n : Nat) (d a : XReg) : Fields := { Fields.base o n with d := reg6 d, a := reg6 a }
@[simp] def enTxx (o n : Nat) (ty : Fmt) (d a : XReg) : Fields := { Fields.base o n with d := reg6 d, a := reg6 a, ty := ty.bits }
@[simp] def enFff (n : Nat) (ty : Fmt) (r : Rnd) (d a : FReg) (b : FSrc) : Fields :=
  ({ Fields.base 0x10 n with d := reg6 d, a := reg6 a, ty := ty.bits, rnd := r.bits }).withF b
@[simp] def enFf (n : Nat) (ty : Fmt) (r : Rnd) (d a : FReg) : Fields :=
  { Fields.base 0x10 n with d := reg6 d, a := reg6 a, ty := ty.bits, rnd := r.bits }
@[simp] def enLoad (o n : Nat) (ty : Fmt) (d a : XReg) (v : BitVec 32) : Fields :=
  { Fields.base o n with d := reg6 d, a := reg6 a, ty := ty.bits, imm := v }
@[simp] def enStore (o n : Nat) (ty : Fmt) (b a : XReg) (v : BitVec 32) : Fields :=
  { Fields.base o n with b := reg6 b, a := reg6 a, ty := ty.bits, imm := v }
@[simp] def enAmo (n : Nat) (ty : Fmt) (s : Scope) (d b a : XReg) (v : BitVec 32) : Fields :=
  { Fields.base 0x31 n with d := reg6 d, b := reg6 b, a := reg6 a, ty := ty.bits, fl := flBits s.bits false false, imm := v }
@[simp] def enVvi (o n : Nat) (m : VMod) (d a : VReg) (b : VSrc) : Fields :=
  (({ Fields.base o n with d := reg6 d, a := reg6 a }).withMod m).withV b
@[simp] def enVv (o n : Nat) (m : VMod) (d a : VReg) : Fields :=
  ({ Fields.base o n with d := reg6 d, a := reg6 a }).withMod m
@[simp] def enVviv (o n : Nat) (m : VMod) (d a : VReg) (b : VSrc) (c : VReg) : Fields :=
  (({ Fields.base o n with d := reg6 d, a := reg6 a, c := reg6 c }).withMod m).withV b
@[simp] def enVcmp (o n : Nat) (c : Cond) (m : VMod) (d : MReg) (a : VReg) (b : VSrc) : Fields :=
  (({ Fields.base o n with d := reg6 d, a := reg6 a, c := c.bits }).withMod m).withV b
@[simp] def enVcvt (n : Nat) (m : VMod) (src : Fmt) (d a : VReg) : Fields :=
  ({ Fields.base 0x52 n with d := reg6 d, a := reg6 a, c := src.bits6 }).withMod m
@[simp] def enVvv (o n : Nat) (m : VMod) (d a b : VReg) : Fields :=
  ({ Fields.base o n with d := reg6 d, a := reg6 a, b := reg6 b }).withMod m
@[simp] def enMmm (n : Nat) (k : VMask) (d a b : MReg) : Fields :=
  ({ Fields.base 0x60 n with d := reg6 d, a := reg6 a, b := reg6 b }).withMask k
@[simp] def enMm {n₁ : Nat} (n : Nat) (k : VMask) (d : Fin n₁) (a : MReg) : Fields :=
  ({ Fields.base 0x60 n with d := reg6 d, a := reg6 a }).withMask k
@[simp] def enVvx (n : Nat) (m : VMod) (d a : VReg) (b : XSrc) : Fields :=
  (({ Fields.base 0x61 n with d := reg6 d, a := reg6 a }).withMod m).withX b
@[simp] def enRed {n₁ : Nat} (o n : Nat) (op : RedOp) (ord : Bool) (m : VMod) (d : Fin n₁) (a : VReg) : Fields :=
  { (({ Fields.base o n with d := reg6 d, a := reg6 a, c := op.bits }).withMod m) with fl := flBits 0 ord m.sat }
@[simp] def enVmem (n : Nat) (ty : Fmt) (k : VMask) (trim : Bool) (d : VReg) (a : XReg) (v : BitVec 32) : Fields :=
  { (({ Fields.base 0x70 n with d := reg6 d, a := reg6 a }).withMask k) with
    ty := ty.bits, fl := flBits 0 trim false, imm := v }
@[simp] def un31 (f : Fields) : Fields := f.withMask .none
@[simp] def enAr (n : Nat) (d a : DReg) (xr axis : BitVec 3) : Fields :=
  { Fields.base 0x92 n with d := reg6 d, a := reg6 a, msk := xr.zeroExtend 5, rnd := axis }
@[simp] def enXmove (n : Nat) (ty : Fmt) (d a : VReg) (b : GReg) (root : BitVec 20) : Fields :=
  { Fields.base 0xC0 n with d := reg6 d, a := reg6 a, b := reg6 b, ty := ty.bits, imm := root.zeroExtend 32 }
@[simp] def enMat (n : Nat) (ty : Fmt) (d : ZReg) (a : VReg) (b : WReg) (c : KReg) : Fields :=
  { Fields.base 0xA0 n with d := reg6 d, a := reg6 a, b := reg6 b, c := reg6 c, ty := ty.bits }
end Enc

/-- The fields of an instruction's word; none for an event, which has no word. -/
def Instr.fields : Instr → Option Fields
  | .add d a b => some (enXxi 0 0x01 d a b) | .sub d a b => some (enXxi 0 0x02 d a b)
  | .mul d a b => some (enXxi 0 0x03 d a b)
  | .mulh t d a b => some (enTxxi 0 0x04 t d a b) | .div t d a b => some (enTxxi 0 0x05 t d a b)
  | .rem t d a b => some (enTxxi 0 0x06 t d a b)
  | .and d a b => some (enXxi 0 0x07 d a b) | .or d a b => some (enXxi 0 0x08 d a b)
  | .xor d a b => some (enXxi 0 0x09 d a b) | .andn d a b => some (enXxi 0 0x0A d a b)
  | .shl d a b => some (enXxi 0 0x0B d a b) | .shr d a b => some (enXxi 0 0x0C d a b)
  | .sar d a b => some (enXxi 0 0x0D d a b) | .rol d a b => some (enXxi 0 0x0E d a b)
  | .ror d a b => some (enXxi 0 0x0F d a b)
  | .min t d a b => some (enTxxi 0 0x10 t d a b) | .max t d a b => some (enTxxi 0 0x11 t d a b)
  | .cmp c d a b => some { enXxi 0 0x12 d a b with c := c.bits }
  | .clz d a => some (enXx 0 0x13 d a) | .ctz d a => some (enXx 0 0x14 d a) | .popc d a => some (enXx 0 0x15 d a)
  | .bext d a b => some (enXxi 0 0x16 d a b) | .bins d a b => some (enXxi 0 0x17 d a b)
  | .sext t d a => some (enTxx 0 0x18 t d a) | .zext t d a => some (enTxx 0 0x19 t d a)
  | .movh d a b => some (enXxi 0 0x1A d a b) | .crcw t d a b => some (enTxxi 0 0x1B t d a b)
  | .bswap d a => some (enXx 0 0x1C d a)
  | .fadd t r d a b => some (enFff 0x01 t r d a b) | .fsub t r d a b => some (enFff 0x02 t r d a b)
  | .fmul t r d a b => some (enFff 0x03 t r d a b) | .fdiv t r d a b => some (enFff 0x04 t r d a b)
  | .fsqrt t r d a => some (enFf 0x05 t r d a) | .frsqrt t r d a => some (enFf 0x06 t r d a)
  | .fexp2 t r d a => some (enFf 0x07 t r d a) | .flog2 t r d a => some (enFf 0x08 t r d a)
  | .fma t r d a b c => some { enFff 0x09 t r d a b with c := reg6 c }
  | .fmin t d a b => some (enFff 0x0A t .rne d a b) | .fmax t d a b => some (enFff 0x0B t .rne d a b)
  | .fneg t d a => some (enFf 0x0C t .rne d a) | .fabs t d a => some (enFf 0x0D t .rne d a)
  | .fcmp c t d a b => some (({ Fields.base 0x10 0x0E with d := reg6 d, a := reg6 a, c := c.bits, ty := t.bits }).withF b)
  | .fcvt t s r d a => some { enFf 0x0F t r d a with c := s.bits6 }
  | .fcvti t s r sat d a =>
    some { Fields.base 0x10 0x10 with
      d := reg6 d, a := reg6 a, c := s.bits6, ty := t.bits, rnd := r.bits, fl := flBits 0 false sat }
  | .fcvtf t s r d a =>
    some { Fields.base 0x10 0x11 with d := reg6 d, a := reg6 a, c := s.bits6, ty := t.bits, rnd := r.bits }
  | .fmvx t d a => some { Fields.base 0x10 0x12 with d := reg6 d, a := reg6 a, ty := t.bits }
  | .fmvf t d a => some { Fields.base 0x10 0x13 with d := reg6 d, a := reg6 a, ty := t.bits }
  | .nop => some (Fields.base 0x20 0x00)
  | .br c a b v => some { Fields.base 0x20 0x01 with a := reg6 a, b := reg6 b, c := c.bits, imm := v }
  | .jmp v => some { Fields.base 0x20 0x02 with imm := v }
  | .jal d v => some { Fields.base 0x20 0x03 with d := reg6 d, imm := v }
  | .jr a => some { Fields.base 0x20 0x04 with a := reg6 a }
  | .jalr d a => some { Fields.base 0x20 0x05 with d := reg6 d, a := reg6 a }
  | .halt => some (Fields.base 0x20 0x06)
  | .evwait d => some { Fields.base 0x20 0x07 with d := reg6 d }
  | .ld t d a v => some (enLoad 0x30 0x01 t d a v) | .st t b a v => some (enStore 0x30 0x02 t b a v)
  | .ldp t d c a v => some { enLoad 0x30 0x03 t d a v with c := reg6 c }
  | .stp t b c a v => some { enStore 0x30 0x04 t b a v with c := reg6 c }
  | .lda t s d a v => some { enLoad 0x30 0x05 t d a v with fl := flBits s.bits false false }
  | .stl t s b a v => some { enStore 0x30 0x06 t b a v with fl := flBits s.bits false false }
  | .amoAdd t s d b a v => some (enAmo 0x01 t s d b a v) | .amoAnd t s d b a v => some (enAmo 0x02 t s d b a v)
  | .amoOr t s d b a v => some (enAmo 0x03 t s d b a v) | .amoXor t s d b a v => some (enAmo 0x04 t s d b a v)
  | .amoMin t s d b a v => some (enAmo 0x05 t s d b a v) | .amoMax t s d b a v => some (enAmo 0x06 t s d b a v)
  | .amoSwap t s d b a v => some (enAmo 0x07 t s d b a v)
  | .cas t s d c b a v => some { enAmo 0x08 t s d b a v with c := reg6 c }
  | .vset t d a b => some { Fields.base 0x40 0x01 with d := reg6 d, a := reg6 a, b := reg6 b, ty := t.bits }
  | .vset2d t d a b => some { Fields.base 0x40 0x02 with d := reg6 d, a := reg6 a, b := reg6 b, ty := t.bits }
  | .vcfg d a => some (enXx 0x40 0x03 d a)
  | .replay a k => some { Fields.base 0x40 0x04 with a := reg6 a, imm := k.zeroExtend 32 }
  | .ostrm t d a b v => some { Fields.base 0x41 0x01 with d := reg6 d, a := reg6 a, b := reg6 b, ty := t.bits, imm := v }
  | .bind d a => some { Fields.base 0x41 0x02 with d := reg6 d, a := reg6 a }
  | .unbind a => some { Fields.base 0x41 0x03 with a := reg6 a }
  | .vadd m d a b => some (enVvi 0x50 0x01 m d a b) | .vsub m d a b => some (enVvi 0x50 0x02 m d a b)
  | .vmul m d a b => some (enVvi 0x50 0x03 m d a b) | .vmulh m d a b => some (enVvi 0x50 0x04 m d a b)
  | .vdiv m d a b => some (enVvi 0x50 0x05 m d a b) | .vrem m d a b => some (enVvi 0x50 0x06 m d a b)
  | .vand m d a b => some (enVvi 0x50 0x07 m d a b) | .vor m d a b => some (enVvi 0x50 0x08 m d a b)
  | .vxor m d a b => some (enVvi 0x50 0x09 m d a b) | .vshl m d a b => some (enVvi 0x50 0x0A m d a b)
  | .vshr m d a b => some (enVvi 0x50 0x0B m d a b) | .vsar m d a b => some (enVvi 0x50 0x0C m d a b)
  | .vmin m d a b => some (enVvi 0x50 0x0D m d a b) | .vmax m d a b => some (enVvi 0x50 0x0E m d a b)
  | .vabs m d a => some (enVv 0x50 0x0F m d a) | .vneg m d a => some (enVv 0x50 0x10 m d a)
  | .vcmp c m d a b => some (enVcmp 0x50 0x11 c m d a b)
  | .vsel m d a b c => some (enVviv 0x50 0x12 m d a (.reg b) c)
  | .vmov m d a => some ((({ Fields.base 0x50 0x13 with d := reg6 d }).withMod m).withVA a)
  | .vclz m d a => some (enVv 0x50 0x14 m d a) | .vpopc m d a => some (enVv 0x50 0x15 m d a)
  | .vfadd m d a b => some (enVvi 0x51 0x01 m d a b) | .vfsub m d a b => some (enVvi 0x51 0x02 m d a b)
  | .vfmul m d a b => some (enVvi 0x51 0x03 m d a b) | .vfdiv m d a b => some (enVvi 0x51 0x04 m d a b)
  | .vfsqrt m d a => some (enVv 0x51 0x05 m d a) | .vfrsqrt m d a => some (enVv 0x51 0x06 m d a)
  | .vfexp2 m d a => some (enVv 0x51 0x07 m d a) | .vflog2 m d a => some (enVv 0x51 0x08 m d a)
  | .vfma m d a b c => some (enVviv 0x51 0x09 m d a b c)
  | .vfmin m d a b => some (enVvi 0x51 0x0A m d a b) | .vfmax m d a b => some (enVvi 0x51 0x0B m d a b)
  | .vfabs m d a => some (enVv 0x51 0x0C m d a) | .vfneg m d a => some (enVv 0x51 0x0D m d a)
  | .vfcmp c m d a b => some (enVcmp 0x51 0x0E c m d a b)
  | .vcvt m s d a => some (enVcvt 0x01 m s d a) | .vwiden m d a => some (enVv 0x52 0x02 m d a)
  | .vnarrow m d a => some (enVv 0x52 0x03 m d a) | .vpack4 m s d a => some (enVcvt 0x04 m s d a)
  | .vunpack4 m d a => some (enVv 0x52 0x05 m d a)
  | .vinga m d a b => some (enVvv 0x53 0x01 m d a b) | .vingr m d a => some (enVv 0x53 0x02 m d a)
  | .mand k d a b => some (enMmm 0x01 k d a b) | .mor k d a b => some (enMmm 0x02 k d a b)
  | .mxor k d a b => some (enMmm 0x03 k d a b) | .mandn k d a b => some (enMmm 0x04 k d a b)
  | .mnot k d a => some (enMm 0x05 k d a) | .mpop k d a => some (enMm 0x06 k d a)
  | .mfirst k d a => some (enMm 0x07 k d a) | .mcopy k d a => some (enMm 0x08 k d a)
  | .vcompress m d a => some (enVv 0x61 0x01 m d a) | .vexpand m d a => some (enVv 0x61 0x02 m d a)
  | .vslideup m d a b => some (enVvx 0x03 m d a b) | .vslidedn m d a b => some (enVvx 0x04 m d a b)
  | .vperm m d a b => some (enVvv 0x61 0x05 m d a b)
  | .vbcast m d a => some ((({ Fields.base 0x61 0x06 with d := reg6 d }).withMod m).withXA a)
  | .vext m d a b => some ((({ Fields.base 0x61 0x07 with d := reg6 d, a := reg6 a }).withMod m).withX b)
  | .vins m d a b => some ((({ Fields.base 0x61 0x08 with d := reg6 d, a := reg6 a }).withMod m).withX b)
  | .viota m d => some (({ Fields.base 0x61 0x09 with d := reg6 d }).withMod m)
  | .vred op o m d a => some (enRed 0x62 0x01 op o m d a) | .vscan op o m d a => some (enRed 0x62 0x02 op o m d a)
  | .vld t k tr d a v => some (enVmem 0x01 t k tr d a v)
  | .vlds t k tr d a c v => some { enVmem 0x02 t k tr d a v with c := reg6 c }
  | .vldx t k tr d a c v => some { enVmem 0x03 t k tr d a v with c := reg6 c }
  | .vwgath t k d a b c v => some { enVmem 0x04 t k false d a v with b := reg6 b, c := reg6 c }
  | .vst t k d a v => some (enVmem 0x05 t k false d a v)
  | .vsts t k d a c v => some { enVmem 0x06 t k false d a v with c := reg6 c }
  | .vstx t k d a c v => some { enVmem 0x07 t k false d a v with c := reg6 c }
  | .tld t k tr d a h => some (enVmem 0x08 t k tr d a (h.zeroExtend 32))
  | .tst t k d a h => some (enVmem 0x09 t k false d a (h.zeroExtend 32))
  | .vamo op t r k d a b v =>
    some { (({ Fields.base 0x71 0x01 with d := reg6 d, a := reg6 a, b := reg6 b, c := op.bits }).withMask k) with
      ty := t.bits, rnd := r.bits, imm := v }
  | .vassay md dl w t d a b c =>
    some { un31 { Fields.base 0x72 0x01 with d := reg6 d, a := reg6 a, b := reg6 b, c := reg6 c } with
      ty := t.bits
      imm := BitVec.ofNat 32 md.val ||| ((ofBit dl).zeroExtend 32 <<< 2) ||| (w.zeroExtend 32 <<< 8) }
  | .vsegoff t d a b =>
    some { un31 { Fields.base 0x80 0x01 with d := reg6 d, a := reg6 a, b := reg6 b } with ty := t.bits }
  | .vfibre t d a b c =>
    some { un31 { Fields.base 0x80 0x02 with d := reg6 d, a := reg6 a, b := reg6 b, c := reg6 c } with ty := t.bits }
  | .vsred op o m d a b => some { enRed 0x80 0x03 op o m d a with b := reg6 b }
  | .vsscan op o m d a b => some { enRed 0x80 0x04 op o m d a with b := reg6 b }
  | .vmaxi t d a b c =>
    some { un31 { Fields.base 0x80 0x05 with d := reg6 d, a := reg6 a, b := reg6 b, c := reg6 c } with ty := t.bits }
  | .vmaxiSeg t d a b c =>
    some { un31 { Fields.base 0x80 0x06 with d := reg6 d, a := reg6 a, b := reg6 b, c := reg6 c } with ty := t.bits }
  | .vappend t k d a b =>
    some { (({ Fields.base 0x80 0x07 with d := reg6 d, a := reg6 a, b := reg6 b }).withMask k) with ty := t.bits }
  | .gadd t k a b => some { (({ Fields.base 0x81 0x01 with a := reg6 a }).withMask k).withX b with ty := t.bits }
  | .gsnap d a => some { un31 { Fields.base 0x81 0x02 with d := reg6 d, a := reg6 a } with ty := 0x08 }
  | .gslot d a b c =>
    some { un31 { Fields.base 0x81 0x03 with d := reg6 d, a := reg6 a, b := reg6 b, c := reg6 c } with ty := 0x08 }
  | .dset d a n => some { Fields.base 0x90 0x01 with d := reg6 d, a := reg6 a, imm := BitVec.ofNat 32 (256 * n.val) }
  | .dld d a v => some { Fields.base 0x90 0x02 with d := reg6 d, a := reg6 a, imm := v }
  | .dst d a v => some { Fields.base 0x90 0x03 with d := reg6 d, a := reg6 a, imm := v }
  | .dshape d a q ax =>
    some { Fields.base 0x90 0x04 with d := reg6 d, a := reg6 a, rnd := ax, imm := BitVec.ofNat 32 (256 * q.val) }
  | .amap g d a xr yr r s =>
    some { Fields.base 0x91 0x01 with
      d := reg6 d, a := reg6 a, b := g.bBits, c := g.cBits, msk := xr.zeroExtend 5, y := yr, imm := aimm r s g.op }
  | .ared op d a xr ax r s =>
    some { Fields.base 0x91 0x02 with
      d := reg6 d, a := reg6 a, msk := xr.zeroExtend 5, rnd := ax, imm := aimm r s (0, op.code) }
  | .ascan op ex sg d a xr ax r s =>
    some { Fields.base 0x91 0x03 with
      d := reg6 d
      a := reg6 a
      c := match sg with
        | some z => reg6 z
        | none => 0
      msk := xr.zeroExtend 5
      rnd := ax
      fl := flBits 0 sg.isSome ex
      imm := aimm r s (0, op.code) }
  | .agrade dn d a xr ax => some { enAr 0x01 d a xr ax with fl := flBits 0 false dn }
  | .arotScalar d a b xr ax => some { enAr 0x02 d a xr ax with b := reg6 b }
  | .arotVector d a b xr ax => some { enAr 0x02 d a xr ax with b := reg6 b, imm := 0x100#32 }
  | .atake d a b xr ax => some { enAr 0x03 d a xr ax with b := reg6 b }
  | .adrop d a b xr ax => some { enAr 0x04 d a xr ax with b := reg6 b }
  | .areshape d a b => some { enAr 0x05 d a 7 0 with b := reg6 b }
  | .atrans d a b => some { enAr 0x06 d a 7 0 with b := reg6 b }
  | .aouter g d a xr yr r s =>
    some { enAr 0x07 d a xr 0 with b := g.bBits, c := g.cBits, y := yr, imm := aimm r s g.op }
  | .asel sel d a c =>
    match sel with
    | .lim k x => some { enAr 0x08 d a 7 0 with b := reg6 x, c := reg6 c, y := 7, fl := BitVec.ofNat 5 k.val }
    | .mask m => some { enAr 0x08 d a 7 0 with b := reg6 m, c := reg6 c, y := 7, fl := 4 }
  | .acomp d a b c ax => some { enAr 0x09 d a 7 ax with b := reg6 b, c := reg6 c, y := 7 }
  | .afrom d a b ax => some { enAr 0x0A d a 7 ax with b := reg6 b, y := 7 }
  | .acat d a b ax => some { enAr 0x0B d a 7 ax with b := reg6 b, y := 7 }
  | .afill d a b => some { enAr 0x0C d a 7 0 with b := reg6 b }
  | .aiota d a ax r s => some { enAr 0x0D d a 7 ax with imm := aimm r s (0, 0) }
  | .mset t d a b => some { Fields.base 0xA0 0x01 with d := reg6 d, a := reg6 a, b := reg6 b, ty := t.bits }
  | .wld t sp d a b c =>
    some { Fields.base 0xA0 0x02 with
      d := reg6 d, a := reg6 a, b := reg6 b, c := reg6 c, ty := t.bits, fl := flBits 0 sp false }
  | .mmul t d a b c => some (enMat 0x03 t d a b c)
  | .mmuls t d a b c ln dn =>
    some { enMat 0x04 t d a b c with imm := ln.zeroExtend 32 ||| (BitVec.ofNat 32 dn.val <<< 6) }
  | .mmula t d a b c => some (enMat 0x05 t d a b c)
  | .mmulc d a b c => some { Fields.base 0xA0 0x06 with d := reg6 d, a := reg6 a, b := reg6 b, c := reg6 c }
  | .mzero d => some { Fields.base 0xA0 0x07 with d := reg6 d }
  | .mdrainStrided m d a c v =>
    some { (({ Fields.base 0xA0 0x08 with d := reg6 d, a := reg6 a, c := reg6 c }).withMod m) with imm := v }
  | .mdrainIndexed m d a c v =>
    some { (({ Fields.base 0xA0 0x08 with d := reg6 d, a := reg6 a, c := reg6 c }).withMod m) with
      fl := flBits 0 true m.sat, imm := v }
  | .mdrv m d a => some (({ Fields.base 0xA0 0x09 with d := reg6 d, a := reg6 a }).withMod m)
  | .kwait d => some { Fields.base 0xA0 0x0A with d := reg6 d }
  | .kpoll d a => some { Fields.base 0xA0 0x0B with d := reg6 d, a := reg6 a }
  | .mgrp t d a c => some { Fields.base 0xA0 0x0C with d := reg6 d, a := reg6 a, c := reg6 c, ty := t.bits }
  | .cutBand t d a b c =>
    some { Fields.base 0xA1 0x01 with d := reg6 d, a := reg6 a, b := reg6 b, c := reg6 c, ty := t.bits }
  | .cutSquare t d a b c =>
    some { Fields.base 0xA1 0x01 with d := reg6 d, a := reg6 a, b := reg6 b, c := reg6 c, ty := t.bits, imm := 1 }
  | .cocut d a b c => some { Fields.base 0xA1 0x02 with d := reg6 d, a := reg6 a, b := reg6 b, c := reg6 c }
  | .cutq d => some { Fields.base 0xA1 0x03 with d := reg6 d }
  | .talloc t l d a b h =>
    some { Fields.base 0xB0 0x01 with
      d := reg6 d, a := reg6 a, b := reg6 b, ty := t.bits, fl := flBits l.bits false false, imm := h.zeroExtend 32 }
  | .tfree h => some { Fields.base 0xB0 0x02 with imm := h.zeroExtend 32 }
  | .tinfo q d h => some { Fields.base 0xB0 0x03 with d := reg6 d, c := reg6 q, imm := h.zeroExtend 32 }
  | .copy md d a r s e =>
    some (({ Fields.base 0xB1 0x01 with d := reg6 d, a := reg6 a, rnd := r.bits, fl := flBits 0 false s }).withCopy e md)
  | .cgath t md d a c r s e =>
    some (({ Fields.base 0xB1 0x02 with
      d := reg6 d, a := reg6 a, c := reg6 c, ty := t.bits, rnd := r.bits, fl := flBits 0 false s }).withCopy e md)
  | .facet e a => some { Fields.base 0xB1 0x03 with a := reg6 a, imm := e.zeroExtend 32 <<< 20 }
  | .swait d a b => some { Fields.base 0xB1 0x04 with d := reg6 d, a := reg6 a, b := reg6 b }
  | .barexp s n a => some { Fields.base 0xB2 0x01 with a := reg6 a, fl := flBits s.bits false false, imm := n.zeroExtend 32 }
  | .barv s n => some { Fields.base 0xB2 0x02 with fl := flBits s.bits false false, imm := n.zeroExtend 32 }
  | .barw s n a => some { Fields.base 0xB2 0x03 with a := reg6 a, fl := flBits s.bits false false, imm := n.zeroExtend 32 }
  | .wmpub a w => some { Fields.base 0xB3 0x01 with a := reg6 a, fl := flBits 4 false false, imm := w.zeroExtend 32 }
  | .wmwait a w => some { Fields.base 0xB3 0x02 with a := reg6 a, fl := flBits 4 false false, imm := w.zeroExtend 32 }
  | .gnode d a => some { Fields.base 0xB3 0x03 with d := reg6 d, a := reg6 a }
  | .xalloc s p d a =>
    some { Fields.base 0xC0 0x01 with
      d := reg6 d, a := reg6 a, fl := flBits s.bits false false, imm := (ofBit p).zeroExtend 32 }
  | .xfree a => some { Fields.base 0xC0 0x02 with a := reg6 a }
  | .xall op o t r d a b =>
    some { Fields.base 0xC0 0x03 with
      d := reg6 d, a := reg6 a, b := reg6 b, c := op.bits, ty := t.bits, rnd := r.bits, fl := flBits 0 o false }
  | .xred op o t r d a b root =>
    some { Fields.base 0xC0 0x04 with
      d := reg6 d, a := reg6 a, b := reg6 b, c := op.bits, ty := t.bits, rnd := r.bits, fl := flBits 0 o false
      imm := root.zeroExtend 32 }
  | .xgath t d a b root => some (enXmove 0x05 t d a b root)
  | .xscat t d a b root => some (enXmove 0x06 t d a b root)
  | .xbcast t d a b root => some (enXmove 0x07 t d a b root)
  | .xsend t a b c => some { Fields.base 0xC0 0x08 with a := reg6 a, b := reg6 b, c := reg6 c, ty := t.bits }
  | .xrecv t d b c => some { Fields.base 0xC0 0x09 with d := reg6 d, b := reg6 b, c := reg6 c, ty := t.bits }
  | .fence b a s =>
    some { Fields.base 0xD0 0x01 with fl := flBits s.bits false false, imm := b.zeroExtend 32 ||| (a.zeroExtend 32 <<< 8) }
  | .hold h => some { Fields.base 0xD0 0x02 with imm := h.zeroExtend 32 }
  | .trap c => some { Fields.base 0xE0 0x01 with imm := c.zeroExtend 32 }
  | .sret => some (Fields.base 0xE0 0x02)
  | .mret => some (Fields.base 0xE0 0x03)
  | .srd d n => some { Fields.base 0xE0 0x04 with d := reg6 d, imm := n.zeroExtend 32 }
  | .swr n a => some { Fields.base 0xE0 0x05 with a := reg6 a, imm := n.zeroExtend 32 }
  | .swrVcfg a => some { Fields.base 0xE0 0x05 with a := reg6 a, imm := 0x010#32 }
  | .swrCutst a => some { Fields.base 0xE0 0x05 with a := reg6 a, imm := 0x031#32 }
  | .swrXpos a => some { Fields.base 0xE0 0x05 with a := reg6 a, imm := 0x032#32 }
  | .tlbiVa a => some { Fields.base 0xE0 0x06 with a := reg6 a }
  | .tlbiSad => some { Fields.base 0xE0 0x06 with imm := 1 }
  | .tlbiAll => some { Fields.base 0xE0 0x06 with imm := 2 }
  | .ctxsave f a => some { Fields.base 0xE0 0x07 with a := reg6 a, imm := (ofBit f).zeroExtend 32 }
  | .ctxrest a => some { Fields.base 0xE0 0x08 with a := reg6 a }
  | .einj kd site d a b =>
    some { Fields.base 0xE0 0x09 with
      d := reg6 d, a := reg6 a, b := reg6 b, imm := BitVec.ofNat 32 site.val ||| (kd.zeroExtend 32 <<< 4) }
  | .idle => some (Fields.base 0xE0 0x0A)
  | .lineFetch _ | .waitSatisfied _ | .outriderIssue _ | .bindingFill _ | .loadPerformed _ | .l1Eviction _
  | .copyExecute _ _ | .matrixOperationStart _ | .operationFinishes _ | .preEmption _ _ | .restore _ _
  | .timerExpiry _ _ | .droveRetirement _ | .drovePlacement _ _ _ | .drrRound | .nodeComplete _ _
  | .copyNodeStart _ _ | .hostEventPost _ _ | .triggerNodeWrite _ _ | .go _ _ | .timer _ _ | .adaptN _ _
  | .counterClear _ _ _ | .barRegisterWrite _ _ _ _ | .adapterPrefetch _ _ _ | .spanPacketReceipt _
  | .spanTimeout _ _ | .flitReceipt _ _ | .linkRetrain _ | .packetLifetimeExpiry _ | .uncorrectableError _
  | .correctableError _ _ | .channelFailure _ | .expanderRemoval _ | .powerOn | .recoveryImageWrite _
  | .dieUp _ | .dieCalibrated _ | .coolantOutOfRange | .coolantRestored | .illegalInstruction
  | .tlbCapacityDrop _ _ | .hostPostedWrite _ _ _ | .harnessPortFailure _ | .spdmRequest _ _
  | .droveRemoval _ => none

/-- The word of an instruction; none for an event. -/
def encode (i : Instr) : Option IWord := i.fields.map Fields.toWord

end Sys2Proof
end

