-- ==== Sys2Proof/Machine/State.lean ====
section
/-! DEFINITION. The state of the module as plain data, what stops a step, and the state after reset.

The module is held whole. One sheet is in focus (`sh`, on the core `core`); the other placed sheets and their cores
stand in `rest` and `cores`. The agenda says which agent acts next: it is the environment's schedule, as data.
-/
namespace Sys2Proof
namespace Machine

/-- Bytes by address: addresses rising, and no entry zero, which is what an unlisted address reads as. -/
abbrev Memory := List Host.Cell

/-- One fetched line, or a line expanded from a packed image: its address, its 64 bytes, and for a packed line the
record offset of each slot (R47, R50, R66). -/
structure Line where
  addr : Nat
  bytes : List Byte
  recs : List Nat
  deriving DecidableEq, Repr

inductive TokSt where
  | idle | pending | complete
  deriving DecidableEq, Repr

/-- A completion token with its held flags and recorded fault (R289, R314). -/
structure Tok where
  st : TokSt
  flags : BitVec 6
  cause : BitVec 8
  faddr : Word
  deriving DecidableEq, Repr

/-- The event queue of a sheet: at most 8 words, oldest first, the place of the oldest, and the mark of a discard (R160). -/
structure EvQ where
  words : List Word
  head : Fin 8
  lost : Bool
  deriving DecidableEq, Repr

/-- The special registers that hold state of their own (R36). SADDLE, OSTAT, MPOS, RUNAHEAD and TIME are computed. -/
structure Spr where
  status : Word
  brand : Word
  sheetid : Word
  drove : Word
  vcfg : Word
  aec : Word
  vl : Word
  epos : Word
  grpl : Word
  fstat : Word
  rpst : Word
  prog0 : Word
  prog1 : Word
  prog2 : Word
  ebrk : Word
  cutst : Word
  xpos : Word
  mshape : Word
  tcause : Word
  tval : Word
  tpc : Word
  tstatus : Word
  tvec : Word
  faddr : Word
  waves : Word
  deriving DecidableEq, Repr

/-- What a load got for one element: its bits, the fault recorded for it, or poison on a page whose POIS is 1, which kills
the drove when the element is consumed (R249, R260, R266). -/
inductive ElemRes where
  | val (bits : Nat)
  | flt (cause : Nat) (addr : Word)
  | kill (addr : Word) (line : Nat)
  deriving DecidableEq, Repr

/-- A run-ahead load: how many instructions ahead it stands, the configuration it was issued under, the addresses of its
elements, the fabric slots it holds, and what it has read of each element so far (R198, R259, R260, R267, R272). -/
structure Ahead where
  dist : Nat
  vcfg : Word
  aec : Word
  vl : Word
  addrs : List (Option Nat)
  tile : Option (BitVec 12)
  slots : Nat
  got : List (Option ElemRes)
  deriving DecidableEq, Repr

/-- A filled binding slot (R276): the stream index of its first element, the AEC of the read, what was read, and whether a reader has
taken its fault (R277). -/
structure BSlot where
  start : Nat
  count : Nat
  elems : List ElemRes
  taken : Bool
  deriving DecidableEq, Repr

/-- What stops a sheet asynchronously at the next stop point: a timer trap, or a pre-emption (R282, R286). -/
inductive Irq where
  | timer | preempt
  deriving DecidableEq, Repr

/-- Whether a sheet runs, waits at its PC (R22), or has halted (R26). `off` is a sheet no drove holds. -/
inductive Run where
  | off | ready | waiting | halted
  deriving DecidableEq, Repr

/-- The translation of one page (R249): the page number's base and size exponent, and the attributes. -/
structure Xlate where
  sad : Nat
  vbase : Nat
  bits : Nat
  entry : Word
  deriving DecidableEq, Repr

/-- Where an element of stream V goes: bytes at physical keys, of an uncacheable page or not; bytes of a tile of the sheet's
drove from an offset on; or an increment of a counter in the drove's window on a logical die (R343, R345). -/
inductive VTo where
  | mem (uc : Bool) (kvs : List (Nat × Byte))
  | tile (h : BitVec 12) (off : Nat) (bytes : List Byte)
  | gate (die ix : Nat) (inc : Word)
  deriving DecidableEq, Repr

/-- An element handed to stream V and not yet performed (R202, R203), with the range of virtual addresses, least and greatest,
that its instruction holds against later A-loads (R207). -/
structure VStore where
  to_ : VTo
  lock : Option (Nat × Nat)
  deriving DecidableEq, Repr

/-- A sheet (R28, R36), with its fetch unit, Outrider work, stores in flight, binding slots, TLB and place. -/
structure Sheet where
  pc : Word
  x : Vector Word 32
  f : Vector Word 16
  vstore : Memory
  bvm : BitVec 26624
  m : Vector (BitVec 16384) 24
  d : Vector (BitVec 1024) 16
  k : Vector Tok 16
  g : Vector (BitVec 128) 8
  o : Vector (BitVec 256) 4
  vdirty : BitVec 64
  vtouch : Vector Nat 64
  mdirty : BitVec 24
  mtouch : Vector Nat 24
  spr : Spr
  evq : EvQ
  lines : List Line
  rbuf : List IWord
  ahead : List Ahead
  bslots : Vector (List BSlot) 4
  /-- The stores of stream V in flight, oldest first (R202, R203). -/
  vq : List VStore
  /-- How many elements of stream V have been performed: the model's own. -/
  vdone : Nat
  irq : Option (Irq × Option Nat)
  /-- A pre-emption waits behind the timer trap that `irq` holds (R282). -/
  preAfter : Bool
  /-- The tokens that a `cut` or a `cocut` was issued into (R339). -/
  ctok : BitVec 16
  run : Run
  place : Nat
  droveId : Nat
  tlb : List Xlate
  deriving DecidableEq, Repr

/-- A dirty byte of a scalar L1: its physical key, its value, the sheet positions in the core that stored it since it was last
written back, and the brand of the last (R161, R212, R294). DEDUCED: log 99. -/
structure Dirty where
  key : Nat
  byte : Byte
  owners : BitVec 4
  brand : BitVec 12
  deriving DecidableEq, Repr

/-- An accumulator tile: 64 rows of 64 binary32 patterns, row-major bytes, and the VALID bits (R317, R324). -/
structure Acc where
  cells : Memory
  valid : BitVec 64
  deriving DecidableEq, Repr

/-- A weight slot: KW, NW, WF (0 for none), the four band scales, and W[k][j] as stored: element (k, j) at
k * 64 + j, its bits; for fp4b its code in [3:0] and its block's scale in [11:4], 0xFF for an invalid block (R317). -/
structure WSlot where
  kw : Nat
  nw : Nat
  wf : Option Fmt
  band : Vector (BitVec 16) 4
  data : List (Nat × Nat)
  deriving DecidableEq, Repr

/-- A packed entry of a sparse buffer (R333): row offset, column offset, value bits in the cut's format. -/
structure SpEnt where
  row : Nat
  col : Nat
  val : Nat
  deriving DecidableEq, Repr

/-- A sparse buffer: the format and the entries of the last cut that packed into it (R333). -/
structure SBuf where
  fmt : Option Fmt
  ents : List SpEnt
  deriving DecidableEq, Repr

/-- The cut record of a sheet position (R338), with the format of the cut (R306). -/
structure CutRec where
  arr : Fin 2
  ty : Fmt
  row0 : Word
  row1 : Word
  col0 : Word
  col1 : Word
  slot : Fin 16
  deriving DecidableEq, Repr

/-- The progress of an operation (R328): the steps made, the flags they hold, and for each row of an `mmula` the binary32 sums t[q] of
its down steps, of which u[q] is the rounding to bf16 (R323). -/
structure OpProg where
  steps : Nat
  flags : BitVec 6
  ts : List (List Nat)
  deriving DecidableEq, Repr

/-- One queued operation of a gallop array with its staged operands (R319, R327, R368, R370: a row's pass and slot). -/
inductive MatKind where
  | mmul (w : WReg)
  | mmuls (w : WReg) (kept : List (List Nat))
  | mmula (w : WReg) (ids : List Int) (koff noff : Nat)
  | mmulc (w : WReg) (row0 : Nat)
  | mgrp (rows : List (Option (Nat × WReg)))
  | pack (ents : List SpEnt)
  deriving DecidableEq, Repr

/-- An operation of a gallop array: its accumulator, shape, staged rows (an element of fp4b with its scale in [11:4], 0xFF for an
invalid block), the waves it takes, who waits for it; its progress, once it has begun (R328). -/
structure MatOp where
  kind : MatKind
  ty : Fmt
  z : ZReg
  mm : Nat
  mn : Nat
  kk : Nat
  rows : List (List Nat)
  waves : Nat
  sheet : Fin 4
  tok : KReg
  prog : Option OpProg
  deriving DecidableEq, Repr

/-- A weight load in flight (`wld`, `cocut`; R306, R318): its source, or nothing left to read once `got` holds the slot's data;
a fault met while it read is kept in `cause` and `addr`. -/
structure WLoad where
  w : WReg
  ty : Fmt
  tile : Option (BitVec 12)
  base : Word
  s0 : Int
  s1 : Int
  ks : Nat
  nw : Nat
  metas : List Nat
  sheet : Fin 4
  tok : KReg
  got : Option (List (Nat × Nat))
  cause : Nat
  addr : Word
  deriving DecidableEq, Repr

/-- Who holds a resource in use: the sheet position and the token (R304). -/
abbrev Use := Option (Fin 4 × KReg)

/-- What the sheets of a core share (R24, R28). -/
structure Core where
  place : Nat
  l1 : List Dirty
  z : Vector Acc 8
  w : Vector WSlot 16
  sbuf : Vector SBuf 2
  queue : Vector (List MatOp) 2
  wloads : List WLoad
  cut : Vector CutRec 4
  zuse : Vector Use 8
  wuse : Vector Use 16
  suse : Vector Use 2
  tlb : List Xlate
  deriving DecidableEq, Repr

/-- An allocated tile (R229, R230): the drove, the logical die, the handle, the level 1 to 3 and the logical number of
the core, quad or die it belongs to. DESIGN CHOICE: log 97. -/
structure Tile where
  drove : Nat
  die : Nat
  handle : BitVec 12
  level : Nat
  inst : Nat
  rows : Nat
  rb : Nat
  fmt : Fmt
  brand : BitVec 12
  data : Memory
  deriving DecidableEq, Repr

/-- A named barrier that is not at its entry value (R244): its drove, level, logical instance and name. -/
structure Barrier where
  drove : Nat
  level : Nat
  inst : Nat
  name : Nat
  phase : Bool
  arrived : Nat
  pend : Word
  deriving DecidableEq, Repr

/-- How a copy reports (R238). -/
inductive Report where
  | stamp (va : Word) (seq : BitVec 48)
  | bar (level inst name : Nat)
  | graph (node : Nat)
  | node (node : Nat)
  deriving DecidableEq, Repr

/-- The accesses that stand before a copy in its sheet's program (R210): how many elements of stream V have been performed when all
of them have, and the tokens of the weight loads whose reads are still to be made. -/
structure Before where
  stores : Nat
  loads : List KReg
  deriving DecidableEq, Repr

/-- What the payload of a copy came to: the flags, the items done, the cause and address of a fault. -/
structure Ended where
  flags : BitVec 6
  done : Nat
  fault : Option (Nat × Word)
  deriving DecidableEq, Repr

/-- A copy command with all it captured at issue (R235, R241): `pages` are the translations of its destination pages, `bad` the cause
and address of the first that failed; `ended` once only the report is to come (R238). -/
structure Cmd where
  sad : Nat
  brand : BitVec 12
  drove : Nat
  priv : BitVec 2
  flat : Nat
  die : Nat
  src : BitVec 1024
  dst : BitVec 1024
  idx : Option (List Int)
  width : Nat
  rnd : Rnd
  sat : Bool
  report : Report
  owned : List Nat
  ownedTile : List (BitVec 12 × Nat)
  pages : List Xlate
  bad : Option (Nat × Word)
  before : Before
  ended : Option Ended
  deriving DecidableEq, Repr

/-- A copy engine: its queue, oldest first, its facet table with the brand that loaded it, and the codes whose entries fail
parity (R235, R242). -/
structure Engine where
  queue : List Cmd
  facet : Option (BitVec 12 × BitVec 4096)
  badCodes : List Nat
  deriving DecidableEq, Repr

/-- A packet of a collective (R375): its tag, the sheet that sent it, the operation, its items, and TIME when it was sent; `pair`
holds sender and receiver of an `xsend`, whose `seq` is the number of the pair (R379). A lost packet never arrives (R387). -/
structure Packet where
  sad : Nat
  id : Nat
  gen : Nat
  seq : Nat
  chunk : Nat
  member : Nat
  pair : Option (Nat × Nat)
  from_ : Nat
  brand : BitVec 12
  sig : List Nat
  elems : List (Nat × Bool)
  lost : Bool
  born : Nat
  deriving DecidableEq, Repr

/-- What the span unit keeps of one chunk (R377, R380, R383): the operation its first part carried, the members' items in order
of arrival, and the combined result with its flags. -/
structure Chunk where
  pair : Option (Nat × Nat)
  seq : Nat
  chunk : Nat
  sig : List Nat
  parts : List (Nat × List (Nat × Bool))
  result : Option (List (Nat × Bool))
  flags : BitVec 6
  deriving DecidableEq, Repr

/-- A live span (R347, R372). Members are sheets of one drove by FLAT index, in rank order. `sigs` holds the operation of a
rank at a SEQ, or at the number of a pair, `waiters` the ranks that wait in a collective with their PC, `hits` those that waited
when the span aborted, `repeats` the ranks that began a collective again with the next chunk to send again (R382); `sent` and `got`
count the pairs completed by sender and receiver (R379), and `clock` the counts of TIME of R383. DEDUCED: log 59. -/
structure Span where
  sad : Nat
  id : Nat
  gen : Nat
  scope : Scope
  pri : Bool
  drove : Nat
  brand : BitVec 12
  members : List Nat
  freed : List Nat
  abort : Option Nat
  sigs : List (Nat × Option (Nat × Nat) × Nat × List Nat)
  chunks : List Chunk
  waiters : List (Nat × Word)
  hits : List Nat
  repeats : List (Nat × Nat)
  sent : List (Nat × Nat × Nat)
  got : List (Nat × Nat × Nat)
  clock : Nat
  deriving DecidableEq, Repr

/-- One `xalloc` of the sheets of a scope instance (R347): the id and generation the first of them chose, none for busy;
who has arrived, and who has taken the answer. -/
structure XWait where
  drove : Nat
  scope : Scope
  inst : Nat
  choice : Option (Nat × Nat)
  arrived : List Nat
  taken : List Nat
  deriving DecidableEq, Repr

/-- The counter window of a drove on one logical die (R343): base, length and the counters that are not zero. -/
structure Window where
  drove : Nat
  die : Nat
  pdie : Nat
  base : Nat
  len : Nat
  ctr : List (Nat × Word)
  deriving DecidableEq, Repr

/-- A reservation record of a queue unit (R362, R363): the header's home, the range, and whether it is complete. -/
structure Reserve where
  unit : Nat
  hdr : Nat
  old : Nat
  n : Nat
  done : Bool
  deriving DecidableEq, Repr

/-- A graph node as the Wrangler copied it (R390, R392). -/
structure Node where
  sad : Nat
  num : Nat
  body : BitVec 512
  st : Nat
  pred : Nat
  seqno : Nat
  deriving DecidableEq, Repr

inductive DSt where
  | resident | saved
  deriving DecidableEq, Repr

/-- A live drove (R23 to R26): its node, shape, class, place, timer state; `since` orders placements, saves and ready nodes.
DESIGN CHOICE: log 97. -/
structure Drove where
  id : Nat
  sad : Nat
  slot : Nat
  node : Nat
  shape : Word
  cls : Nat
  lvl : Nat
  cwin : Nat
  cores : List Nat
  st : DSt
  since : Nat
  timer : Bool
  missed : Bool
  deriving DecidableEq, Repr

/-- A sheet record of an image (R288, R289): STOP, and the sheet whose state it holds. `Record.bytes` lays it out. -/
structure Record where
  stop : BitVec 8
  sheet : Sheet
  deriving DecidableEq, Repr

/-- A pre-emption image (R288): the sheet records and the cores of the drove, the cores by logical number. It lies in memory of
brand 0x000, apart from all that a saddle's pages reach. -/
structure Image where
  drove : Nat
  recs : List Record
  cores : List Core
  deriving DecidableEq, Repr

/-- An adapter held on a die's shelf (R396): the saddle, id, and the bits of Dn and Up with their extents. -/
structure Adapter where
  die : Nat
  sad : Nat
  id : Int
  rank : Nat
  kh : Nat
  nh : Nat
  dn : List Nat
  up : List Nat
  size : Nat
  stale : Bool
  deriving DecidableEq, Repr

/-- A saddle's registers (R389), watermarks (R246), event count (R395), span generations (R372), and its deficit and share of
R393, in cores times counts of TIME (the share, for one round). -/
structure Saddle where
  graphBase : Word
  graphN : Word
  devBase : Word
  ptRoot : Word
  tvecDef : Word
  weight : Word
  timer : Word
  spanTmo : Word
  shelf : Word
  evqBase : Word
  evqLen : Word
  evqHead : Word
  evqTail : Word
  adaptBase : Word
  adaptN : Word
  stale : Word
  dup : Word
  brandc : Word
  lost : Word
  errs : Word
  events : Word
  marks : List (Nat × Word)
  gens : List (Nat × Nat × Nat)
  deficit : Int
  share : Nat
  deriving DecidableEq, Repr

/-- A harness port (R387): disabled or not, the next flit number, the flits in a row whose CRC failed (the first is no replay), and
whether the link has retrained for the flit it expects. -/
structure Port where
  failed : Bool
  seq : BitVec 32
  fails : Nat
  retrained : Bool
  deriving DecidableEq, Repr

/-- Firmware (R398): unpowered, waiting for a recovery image, or running. -/
inductive Fw where
  | off | recovery | running
  deriving DecidableEq, Repr

/-- An error planted by `einj` and not yet met (R298): kind, structure, location, word. -/
structure Planted where
  kind : BitVec 2
  site : Fin 9
  loc : Word
  bits : Word
  deriving DecidableEq, Repr

/-- Signals to the outside: an MSI-X message of a function, an answer of the security protocol. -/
inductive Out where
  | msix (fn : Nat)
  | spdm (fn : Nat) (msg : Nat)
  deriving DecidableEq, Repr

/-- One packed image held by Dribrikan: its code origin and stream (R64). -/
structure Packed where
  origin : Nat
  stream : List Byte
  deriving DecidableEq, Repr

/-- One turn of the schedule: a sheet steps, an agent acts, the oldest n stores in flight of a sheet are performed (R203), a line
leaves its line cache, or a packet's lifetime ends (R387). DESIGN CHOICE: log 4. -/
inductive Turn where
  | run (place : Nat)
  | ev (i : Instr)
  | stores (place n : Nat)
  | lineOut (line : Nat)
  | expire (n : Nat)
  deriving DecidableEq, Repr

/-- A write of the device or of a copy's report that waits for a line which a copy engine owns (R209): in whose name, where, what; for
a copy's stamp, the drove and the sheet that issued the copy (R203). -/
structure Posted where
  sad : Nat
  brand : BitVec 12
  priv : Nat
  va : Word
  bytes : List Byte
  issuer : Option (Nat × Nat)
  deriving DecidableEq, Repr

/-- A line with the brand that last wrote it (R294). DESIGN CHOICE: log 35. -/
structure CachedLine where
  line : Nat
  brand : BitVec 12
  deriving DecidableEq, Repr

/-- The module. DESIGN CHOICE: log 7, 9. -/
structure State where
  sh : Sheet
  core : Core
  rest : List Sheet
  cores : List Core
  /-- Physical memory: local lines at their address, expander lines at 2^52 plus theirs (HOME, R249). -/
  mem : Memory
  /-- The KEY under which the byte at an address was written (R249). -/
  seals : Memory
  /-- The dirty lines of the line caches: written at their homes and not yet in memory, lines rising. -/
  lcache : List CachedLine
  /-- The brand that last wrote each line at its home, lines rising (R294). -/
  lineBrands : List CachedLine
  /-- Poisoned lines, by key divided by 64 (R296, R297). -/
  poison : List Nat
  deadChannels : List (Fin 192)
  deadPorts : List (Fin 4)
  planted : List Planted
  corrected : List (Nat × Nat × Nat)
  tiles : List Tile
  bars : List Barrier
  engines : Vector Engine 24
  packets : List Packet
  spans : List Span
  xwaits : List XWait
  windows : List Window
  reserves : List Reserve
  nodes : List Node
  droves : List Drove
  saved : List Image
  adapters : List Adapter
  saddles : Vector Saddle 64
  ports : Vector Port 64
  fw : Fw
  up : BitVec 6
  cal : BitVec 6
  coolantOk : Bool
  time : Word
  timeOn : Bool
  /-- TIME when the round of R393 in progress began. -/
  roundAt : Word
  packed : List Packed
  /-- Writes that wait for an engine's line, oldest first. -/
  posted : List Posted
  /-- The firmware image that runs (R398, R399). -/
  image : Nat
  out : List Out
  /-- How many free values the run has used: the model's own. -/
  free : Nat
  /-- The schedule: the model's own. -/
  agenda : List Turn
  /-- Numbers the droves and the nodes as they appear: the model's own. -/
  ids : Nat
  deriving DecidableEq, Repr

/-- What stops the model with a fault: nothing. Every stop the spec describes is a trap, a wait or the death of a drove, and all
three are next states. -/
inductive Fault where
  deriving DecidableEq, Repr

/-- What the model refuses. -/
inductive Refusal where
  /-- The instruction of that mnemonic has no meaning yet. Raised by `exec`; safe. -/
  | notModelled (mnemonic : String)
  deriving DecidableEq, Repr

/-- What a step answers. -/
abbrev Out3 := Host.Outcome State Fault Refusal

def Tok.idle : Tok := ⟨.idle, 0, 0, 0⟩

def Spr.reset : Spr where
  status := 0
  brand := 0
  sheetid := 0
  drove := 0
  vcfg := 0
  aec := 0
  vl := 0
  epos := 0
  grpl := 0
  fstat := 0
  rpst := 0
  prog0 := 0
  prog1 := 0
  prog2 := 0
  ebrk := 0
  cutst := 0
  xpos := 0
  mshape := 0
  tcause := 0
  tval := 0
  tpc := 0
  tstatus := 0
  tvec := 0
  faddr := 0
  waves := 0

/-- The state of a sheet at entry to a drove, but for what the launch sets (R9, R29, R36). DESIGN CHOICE: log 2. -/
def Sheet.reset : Sheet where
  pc := 0
  x := Vector.replicate 32 0
  f := Vector.replicate 16 0
  vstore := []
  bvm := BitVec.allOnes 26624
  m := Vector.replicate 24 0
  d := Vector.replicate 16 0
  k := Vector.replicate 16 Tok.idle
  g := Vector.replicate 8 0
  o := Vector.replicate 4 0
  vdirty := 0
  vtouch := Vector.replicate 64 0
  mdirty := 0
  mtouch := Vector.replicate 24 0
  spr := Spr.reset
  evq := ⟨[], 0, false⟩
  lines := []
  rbuf := []
  ahead := []
  bslots := Vector.replicate 4 []
  vq := []
  vdone := 0
  irq := none
  preAfter := false
  ctok := 0
  run := .off
  place := 0
  droveId := 0
  tlb := []

def CutRec.reset : CutRec := ⟨0, .f32, 0, 0, 0, 0, 0⟩

/-- The state of a core at entry to a drove (R317, R324). -/
def Core.reset : Core where
  place := 0
  l1 := []
  z := Vector.replicate 8 ⟨[], BitVec.allOnes 64⟩
  w := Vector.replicate 16 ⟨0, 0, none, Vector.replicate 4 0, []⟩
  sbuf := Vector.replicate 2 ⟨none, []⟩
  queue := Vector.replicate 2 []
  wloads := []
  cut := Vector.replicate 4 CutRec.reset
  zuse := Vector.replicate 8 none
  wuse := Vector.replicate 16 none
  suse := Vector.replicate 2 none
  tlb := []

def Saddle.reset : Saddle where
  graphBase := 0
  graphN := 0
  devBase := 0
  ptRoot := 0
  tvecDef := 0
  weight := 1
  timer := 0
  spanTmo := 0
  shelf := 0
  evqBase := 0
  evqLen := 0
  evqHead := 0
  evqTail := 0
  adaptBase := 0
  adaptN := 0
  stale := 0
  dup := 0
  brandc := 0
  lost := 0
  errs := 0
  events := 0
  marks := []
  gens := []
  deficit := 0
  share := 0

/-- The module before power-on (R389, R398). No drove is placed; the sheet in focus holds the values of drove entry.
DESIGN CHOICE: log 2. -/
def State.reset : State where
  sh := Sheet.reset
  core := Core.reset
  rest := []
  cores := []
  mem := []
  seals := []
  lcache := []
  lineBrands := []
  poison := []
  deadChannels := []
  deadPorts := []
  planted := []
  corrected := []
  tiles := []
  bars := []
  engines := Vector.replicate 24 ⟨[], none, []⟩
  packets := []
  spans := []
  xwaits := []
  windows := []
  reserves := []
  nodes := []
  droves := []
  saved := []
  adapters := []
  saddles := Vector.replicate 64 Saddle.reset
  ports := Vector.replicate 64 ⟨false, 0, 0, false⟩
  fw := .off
  up := 0
  cal := 0
  coolantOk := true
  time := 0
  timeOn := false
  roundAt := 0
  packed := []
  posted := []
  image := 0
  out := []
  free := 0
  agenda := []
  ids := 0

end Machine
end Sys2Proof
end

