-- ==== Sys2Proof/Machine/Memory.lean ====
section
/-! DEFINITION. Bytes by address in one canonical form, little-endian values (R5), and bit fields.
-/
namespace Sys2Proof
namespace Machine

/-- The byte at an address; an unlisted address reads as zero. DESIGN CHOICE: log 1. -/
def Memory.byte : Memory → Nat → Byte
  | [], _ => 0
  | (a, b) :: m, k => if a = k then b else if k < a then 0 else Memory.byte m k

/-- Sets a byte, in canonical form. DESIGN CHOICE: log 1. -/
def Memory.setByte : Memory → Nat → Byte → Memory
  | [], k, v => if v = 0 then [] else [(k, v)]
  | (a, b) :: m, k, v =>
    if a < k then (a, b) :: Memory.setByte m k v
    else if a = k then (if v = 0 then m else (k, v) :: m)
    else (if v = 0 then (a, b) :: m else (k, v) :: (a, b) :: m)

/-- Every address is at least lo, addresses rise, and no byte is zero. -/
def Memory.wfFrom : Nat → Memory → Bool
  | _, [] => true
  | lo, (a, b) :: m => lo ≤ a && b != 0 && Memory.wfFrom (a + 1) m

/-- The canonical form. -/
def Memory.wf (m : Memory) : Bool := Memory.wfFrom 0 m

def Memory.bytes (m : Memory) (a : Nat) : Nat → List Byte
  | 0 => []
  | n + 1 => m.byte a :: Memory.bytes m (a + 1) n

def Memory.setBytes (m : Memory) (a : Nat) : List Byte → Memory
  | [] => m
  | b :: l => Memory.setBytes (m.setByte a b) (a + 1) l

/-- The number that bytes hold, lowest first (R5). -/
def leNat : List Byte → Nat
  | [] => 0
  | b :: l => b.toNat + 256 * leNat l

/-- The n lowest bytes of a number, lowest first (R5). -/
def leBytes : Nat → Nat → List Byte
  | 0, _ => []
  | n + 1, v => BitVec.ofNat 8 v :: leBytes n (v / 256)

def Memory.nat (m : Memory) (a n : Nat) : Nat := leNat (m.bytes a n)
def Memory.setNat (m : Memory) (a n v : Nat) : Memory := m.setBytes a (leBytes n v)

/-- Values by key: keys rising and no value zero. -/
def sparseGet : List (Nat × Word) → Nat → Word
  | [], _ => 0
  | (a, b) :: m, k => if a = k then b else if k < a then 0 else sparseGet m k

def sparseSet : List (Nat × Word) → Nat → Word → List (Nat × Word)
  | [], k, v => if v = 0 then [] else [(k, v)]
  | (a, b) :: m, k, v =>
    if a < k then (a, b) :: sparseSet m k v
    else if a = k then (if v = 0 then m else (k, v) :: m)
    else (if v = 0 then (a, b) :: m else (k, v) :: (a, b) :: m)

/-! ### Keys: an address of memory, expander lines from 2^52 up, with the KEY of its page from bit 53 up (R249) -/

/-- The address of a key, as memory is laid out. -/
def addrOf (key : Nat) : Nat := key % 2 ^ 53
/-- The KEY under which the byte is read or written; 0 is none. -/
def sealOf (key : Nat) : Nat := key / 2 ^ 53 % 256
/-- The 64-byte line of a key. -/
def lineOf (key : Nat) : Nat := addrOf key / 64
/-- What a plain byte of an address, written under one KEY, reads as under another. -/
def decipher (under as addr : Nat) (b : Byte) : Byte := if under = as then b else Config.cipher under as addr b

/-- Numbers in increasing order without repeats. -/
def insertNat (k : Nat) : List Nat → List Nat
  | [] => [k]
  | a :: l => if a < k then a :: insertNat k l else if a = k then a :: l else k :: a :: l

/-- Bits [lo + n - 1 : lo] of a number. -/
def bitsAt (v lo n : Nat) : Nat := v / 2 ^ lo % 2 ^ n

/-- A field of a word, as a number. -/
def fld (w : Word) (lo n : Nat) : Nat := bitsAt w.toNat lo n

/-- A word with one field replaced. -/
def setFld (w : Word) (lo n v : Nat) : Word :=
  (w &&& ~~~(BitVec.ofNat 64 ((2 ^ n - 1) * 2 ^ lo))) ||| BitVec.ofNat 64 (v % 2 ^ n * 2 ^ lo)

/-- A field of a wider register. -/
def wfld {n : Nat} (w : BitVec n) (lo k : Nat) : Nat := bitsAt w.toNat lo k

def wsetFld {n : Nat} (w : BitVec n) (lo k v : Nat) : BitVec n :=
  (w &&& ~~~(BitVec.ofNat n ((2 ^ k - 1) * 2 ^ lo))) ||| BitVec.ofNat n (v % 2 ^ k * 2 ^ lo)

/-- The value a w-bit pattern has as a signed number. -/
def toSigned (w v : Nat) : Int := if v % 2 ^ w < 2 ^ (w - 1) then (v % 2 ^ w : Nat) else (v % 2 ^ w : Nat) - (2 ^ w : Nat)

/-- The w-bit pattern of a number, wrapped. -/
def wrapTo (w : Nat) (n : Int) : Nat := (n % (2 ^ w : Nat)).toNat

def ceilDiv (a b : Nat) : Nat := (a + b - 1) / b
def roundUp (a b : Nat) : Nat := ceilDiv a b * b

/-- The least i below n with p i, if any. -/
def findNat (p : Nat → Bool) (n : Nat) : Option Nat := (List.range n).find? p

end Machine
end Sys2Proof
end

