-- ==== Sys2Proof/Machine/Packed.lean ====
section
/-! DEFINITION. Code lines and their seals (R45 to R47, R50), and packed images (R64 to R66).
-/
namespace Sys2Proof
namespace Machine

/-! ### CRC-32C (R46, R153) -/

/-- One bit of the reflected polynomial. -/
def crcBit (c : BitVec 32) : BitVec 32 := if c.getLsbD 0 then (c >>> 1) ^^^ 0x82F63B78#32 else c >>> 1

def crcByte (c : BitVec 32) (b : Byte) : BitVec 32 := Nat.repeat crcBit 8 (c ^^^ b.zeroExtend 32)

def crcBytes (c : BitVec 32) (l : List Byte) : BitVec 32 := l.foldl crcByte c

/-- The CRC-32C of bytes (R46). -/
def crc32c (l : List Byte) : BitVec 32 := ~~~(crcBytes (BitVec.allOnes 32) l)

/-! ### Lines -/

def lineAddr (pc : Word) : Word := pc &&& ~~~(63#64)
def slotOf (pc : Word) : Nat := fld pc 0 6 / 12

/-- The 12 bytes of a slot. -/
def Line.slot (l : Line) (n : Nat) : List Byte := (l.bytes.drop (12 * n)).take 12
def Line.word (l : Line) (n : Nat) : IWord := wordOfBytes (l.slot n)

/-- The fetched line that holds the PC. -/
def Sheet.lineAt (h : Sheet) (pc : Word) : Option Line := h.lines.find? fun l => l.addr = (lineAddr pc).toNat

/-- The line is the one of a PC, or the one after it. -/
def Line.near (pc : Word) (l : Line) : Bool := l.addr = (lineAddr pc).toNat || l.addr = (lineAddr pc + 64).toNat

/-- A line joins the fetched ones: the current line and the next are kept (R50). -/
def Sheet.keepLine (h : Sheet) (l : Line) : Sheet :=
  { h with lines := l :: h.lines.filter fun k => k.near h.pc && k.addr ≠ l.addr }

/-! ### Packed images -/

def nopWord : IWord := 0x20#96 <<< 88

/-- The bytes of a line made of words, sealed (R45, R46). -/
def sealLine (ws : List IWord) : List Byte :=
  let b := ws.flatMap bytesOfWord
  b ++ leBytes 4 (crc32c b).toNat

/-- Pads the current line with NOPs. -/
def padLine (cur : List (IWord × Nat)) (off : Nat) : List (IWord × Nat) :=
  cur ++ List.replicate (5 - cur.length) (nopWord, off)

/-- Adds a word to the current line, closing it at slot 4 (R65). -/
def addWord (cur : List (IWord × Nat)) (done : List (List (IWord × Nat))) (w : IWord × Nat) :
    List (IWord × Nat) × List (List (IWord × Nat)) :=
  if cur.length = 4 then ([], done ++ [cur ++ [w]]) else (cur ++ [w], done)

/-- Expansion of a stream (R64 to R66): the closed lines, each word with its record's offset, and the offset of the record
that failed, if one did. -/
def expand : Nat → List Byte → Nat → Option IWord → List (IWord × Nat) → List (List (IWord × Nat)) →
    List (List (IWord × Nat)) × Option Nat
  | 0, _, off, _, cur, done => (if cur.isEmpty then done else done ++ [padLine cur off], none)
  | _ + 1, [], off, _, cur, done => (if cur.isEmpty then done else done ++ [padLine cur off], none)
  | fuel + 1, b :: rest, off, prev, cur, done =>
    if b.extractLsb' 0 6 != 0#6 then (done, some off)
    else match (b.extractLsb' 6 2).toNat with
      | 0 =>
        if rest.length < 12 then (done, some off)
        else
          let w := wordOfBytes (rest.take 12)
          let (cur, done) := addWord cur done (w, off)
          expand fuel (rest.drop 12) (off + 13) (some w) cur done
      | 1 =>
        match prev with
        | none => (done, some off)
        | some p =>
          if rest.length < 4 then (done, some off)
          else
            let w := (p &&& ~~~(0xFFFFFFFF#96)) ||| BitVec.ofNat 96 (leNat (rest.take 4))
            let (cur, done) := addWord cur done (w, off)
            expand fuel (rest.drop 4) (off + 5) (some w) cur done
      | 2 =>
        match prev with
        | none => (done, some off)
        | some p =>
          if rest.length < 8 then (done, some off)
          else
            let w := (p &&& 0xFFFFFFFF#96) ||| BitVec.ofNat 96 (leNat (rest.take 8) * 2 ^ 32)
            let (cur, done) := addWord cur done (w, off)
            expand fuel (rest.drop 8) (off + 9) (some w) cur done
      | _ => expand fuel rest (off + 1) prev [] (if cur.isEmpty then done else done ++ [padLine cur off])

/-- What a packed image gives for a line address: nothing, a line, or an expansion fault at an offset, for the line that a failing
record would fill and every later one (R66). Past the last line of a stream without a failing record it gives nothing, and the
slot is fetched from memory: DESIGN CHOICE, log 109. DEDUCED: log 27. -/
def Packed.line (p : Packed) (a : Nat) : Option (Except Nat Line) :=
  if a < p.origin then none
  else
    let (ls, bad) := expand (p.stream.length + 1) p.stream 0 none [] []
    match ls[(a - p.origin) / 64]? with
    | some ws => some (.ok ⟨a, sealLine (ws.map Prod.fst), ws.map Prod.snd⟩)
    | none => bad.map .error

end Machine
end Sys2Proof
end

