-- ==== Sys2Proof/Machine/Ops.lean ====
section
/-! DEFINITION. Named operations: registers, slots and the PC, taking a trap and returning from one, completing an
instruction, and moving the focus between sheets.
-/
namespace Sys2Proof
namespace Machine

/-! ### Registers -/

/-- `x0` reads zero (R28). -/
def Sheet.xr (h : Sheet) (r : XReg) : Word := if r = 0 then 0 else h.x[r.val]
/-- `x0` ignores writes (R28). -/
def Sheet.setX (h : Sheet) (r : XReg) (v : Word) : Sheet := if r = 0 then h else { h with x := h.x.set r.val v }
def Sheet.fr (h : Sheet) (r : FReg) : Word := h.f[r.val]
def Sheet.setF (h : Sheet) (r : FReg) (v : Word) : Sheet := { h with f := h.f.set r.val v }

def State.xr (s : State) (r : XReg) : Word := s.sh.xr r
def State.setX (s : State) (r : XReg) (v : Word) : State := { s with sh := s.sh.setX r v }
def State.fr (s : State) (r : FReg) : Word := s.sh.fr r
def State.setF (s : State) (r : FReg) (v : Word) : State := { s with sh := s.sh.setF r v }
/-- Writes special registers. -/
def State.mapSpr (s : State) (g : Spr → Spr) : State := { s with sh := { s.sh with spr := g s.sh.spr } }
/-- The x register numbered n; numbers above 31 do not occur in a checked instruction. -/
def xreg (n : Nat) : XReg := Fin.ofNat 32 n
def freg (n : Nat) : FReg := Fin.ofNat 16 n

/-- The IMM32 of an integer instruction, sign-extended (R54). -/
def State.xsrc (s : State) : XSrc → Word
  | .reg r => s.xr r
  | .imm v => sext32 v

/-- The level of the sheet: STATUS.PRIV (R27, R37). -/
def Spr.priv (p : Spr) : Nat := fld p.status 0 2
def State.priv (s : State) : Nat := s.sh.spr.priv
/-- S or M (R59). -/
def State.isS (s : State) : Bool := s.priv != 0
def State.isM (s : State) : Bool := s.priv == 3
/-- The saddle of the sheet's brand (R40). -/
def Spr.sad (p : Spr) : Nat := fld p.brand 6 6
def Spr.brand12 (p : Spr) : BitVec 12 := p.brand.extractLsb' 0 12
def sadOf (n : Nat) : Fin 64 := Fin.ofNat 64 n
def State.sad (s : State) : Saddle := s.saddles[(sadOf s.sh.spr.sad).val]
def State.setSad (s : State) (n : Nat) (g : Saddle → Saddle) : State :=
  { s with saddles := s.saddles.set (sadOf n).val (g s.saddles[(sadOf n).val]) }

/-- The service class (R398). -/
def State.svc (s : State) : Nat := if s.cal = BitVec.allOnes 6 then 2 else if s.up = 0 then 0 else 1

/-- FSTAT takes the flags of an instruction (R79). -/
def State.orFlags (s : State) (fl : BitVec 6) : State :=
  s.mapSpr fun p => { p with fstat := p.fstat ||| fl.zeroExtend 64 }

/-! ### Vector configuration (R30, R38) -/

def Spr.nreg (p : Spr) : Nat := 8 * 2 ^ fld p.vcfg 0 2
def Spr.rc (p : Spr) : Nat := 2 ^ fld p.vcfg 5 3
def Spr.tail (p : Spr) : Bool := fld p.vcfg 4 1 = 1
/-- S, the bytes of a register. -/
def Spr.rbytes (p : Spr) : Nat := vstoreBytes / p.nreg
def Spr.vln (p : Spr) : Nat := p.vl.toNat
def Spr.aecn (p : Spr) : Nat := p.aec.toNat
/-- RC × VL, the flat indices of a group (R31). -/
def Spr.flat (p : Spr) : Nat := p.rc * p.vln
/-- VLMAX of a format (R42). -/
def vlmax (sb : Nat) (t : Fmt) : Nat := if t = .fp4b then 8 * (sb / 5) else sb / t.ew
/-- VCFG's own validity (R38). -/
def vcfgOk (v : Word) : Bool := v &&& ~~~(0xF3#64) == 0 && fld v 5 3 != 7 && fld v 5 3 ≤ fld v 0 2 + 3
/-- The relations of R42. -/
def vlAecOk (rc vl aec : Nat) : Bool := vl ≤ maxFlat / rc && aec ≤ maxFlat && aec ≤ rc * vl

/-! ### Slots and the PC (R45, R48, R49) -/

def canonical (a : Word) : Bool := (a.extractLsb' 54 10 == 0#10) || (a.extractLsb' 54 10 == 0x3FF#10)
/-- A slot start: its line offset is a multiple of 12 below 60. -/
def slotStart (a : Word) : Bool := (fld a 0 6) % 12 == 0 && fld a 0 6 < 60
def slotIndex (pc : Word) : Int := 5 * (pc.toInt / 64) + (fld pc 0 6 / 12 : Nat)
def pcOfSlot (t : Int) : Int := t / 5 * 64 + 12 * (t % 5)
/-- The slot that follows (R48). -/
def nextPc (pc : Word) : Word := if fld pc 0 6 = 48 then pc + 16 else pc + 12

/-- What the packed image nearest below a line gives for it: Dribrikan's own sheets alone run them. DEDUCED: log 27. -/
def State.packedLine (s : State) (a : Word) : Option (Except Nat Line) :=
  if s.sh.spr.brand12 = 0 then
    ((s.packed.filter fun p => p.origin ≤ a.toNat).foldl (fun (b : Option Packed) p => match b with
      | some q => if q.origin ≤ p.origin then some p else some q
      | none => some p) none).bind fun p => p.line a.toNat
  else none

/-- The offset of the record that emitted the word at a slot; 0 for a word of no packed image (R66). -/
def State.recOff (s : State) (pc : Word) : Nat :=
  match s.sh.lineAt pc with
  | some l => l.recs.getD (slotOf pc) 0
  | none => match s.packedLine (lineAddr pc) with
    | some (.ok l) => l.recs.getD (slotOf pc) 0
    | _ => 0

/-! ### What an instruction's effect comes to -/

/-- Why an effect does not complete: a trap at a state, a wait (R22) with the progress made, or the consumption of
poison on a page whose POIS is 1 (R249), which kills the drove. -/
inductive Stop where
  | trap (cause : Nat) (tval faddr : Word) (s : State)
  | wait (s : State)
  | pois (va : Word) (line : Nat) (s : State)
  deriving DecidableEq, Repr

abbrev Eff := Except Stop State

/-- A trap that changes nothing else. -/
def trapE {α : Type} (s : State) (cause : Nat) (tval : Word := 0) (faddr : Word := 0) : Except Stop α :=
  .error (.trap cause tval faddr s)

/-- Cause 0x01 with TVAL 0. -/
def illegal {α : Type} (s : State) : Except Stop α := trapE s 0x01

/-- Traps 0x01 unless the condition holds. -/
def need (s : State) (b : Bool) : Except Stop Unit := if b then .ok () else illegal s

/-- Waits until the condition holds (R22). -/
def await (s : State) (b : Bool) : Except Stop Unit := if b then .ok () else .error (.wait s)

/-! ### Traps (R281, R282, R285) -/

/-- An asynchronous stop that fell inside the instruction is taken after it (R286). -/
def settleIrq : Option (Irq × Option Nat) → Option (Irq × Option Nat)
  | some (q, _) => some (q, none)
  | none => none


/-- RPST fields (R176). -/
def rpLen (r : Word) : Nat := fld r 0 6
def rpSusp (r : Word) : Bool := fld r 6 1 = 1
def rpAct (r : Word) : Bool := fld r 7 1 = 1
def rpReg (r : Word) : Nat := fld r 8 5
def rpPos (r : Word) : Nat := fld r 16 5
/-- The loop takes the sheet's instructions as its body. -/
def rpDrives (r : Word) : Bool := rpAct r && !rpSusp r
def mkRpst (len reg pos : Nat) (act susp : Bool) : Word :=
  BitVec.ofNat 64 (len % 64 + (if susp then 64 else 0) + (if act then 128 else 0) + reg % 32 * 256 + pos % 32 * 65536)

/-- STATUS as software reads it, with the service class as it stands (R37). -/
def State.status (s : State) : Word := setFld s.sh.spr.status 2 2 s.svc

/-- The binding slots that a trap and a return keep: a head slot whose fault a reader has taken (R260, R277). -/
def Sheet.heldSlots (h : Sheet) : Vector (List BSlot) 4 := h.bslots.map fun l => (l.take 1).filter BSlot.taken

/-- Trap entry on the sheet in focus, with the slot to resume at (R281). FADDR of cause 0x01 is the record's offset for a word of a
packed image (R66). Run-ahead work is discarded, fills of bound streams included (R260), and the lines already fetched are let go
(R50); a pre-emption behind a timer trap comes next (R282). -/
def State.takeTrap (s : State) (cause : Nat) (tval faddr resume : Word) : State :=
  let p := s.sh.spr
  let p' := { p with
    tcause := BitVec.ofNat 64 (cause % 256)
    tval := tval
    faddr := if cause = 0x01 then BitVec.ofNat 64 (s.recOff s.sh.pc) else faddr
    tpc := resume
    tstatus := setFld s.status 5 1 (if rpSusp p.rpst then 1 else 0)
    status := if p.priv = 0 then setFld p.status 0 2 1 else p.status
    rpst := if rpAct p.rpst then p.rpst ||| 64 else p.rpst }
  { s with sh := { s.sh with
      spr := p', pc := p.tvec, run := .ready, lines := [], rbuf := [], ahead := [], bslots := s.sh.heldSlots
      irq := if cause = 0x32 then (if s.sh.preAfter then some (.preempt, none) else none) else settleIrq s.sh.irq
      preAfter := s.sh.preAfter && cause != 0x32 } }

/-- `sret` and `mret` (R285); `maxPriv` is the highest PRIV the return accepts. -/
def State.doReturn (s : State) (maxPriv : Nat) : Eff :=
  let p := s.sh.spr
  let pv := fld p.tstatus 0 2
  if pv > maxPriv || pv = 2 then illegal s
  else if !(canonical p.tpc && slotStart p.tpc) then trapE s 0x04 p.tpc
  else
    let p' := { p with
      status := setFld p.status 0 2 pv
      rpst := setFld p.rpst 6 1 (fld p.tstatus 5 1) }
    .ok { s with sh := { s.sh with
      spr := p', pc := p.tpc, lines := [], rbuf := [], ahead := [], bslots := s.sh.heldSlots, irq := settleIrq s.sh.irq
      run := .ready } }

/-! ### Completion -/

/-- Run-ahead loads come one instruction nearer; those passed are gone (R198). -/
def agedAhead (n : Nat) (l : List Ahead) : List Ahead :=
  (l.filter fun a => n ≤ a.dist).map fun a => { a with dist := a.dist - n }

/-- The PC and the replay state after n body or plain instructions complete at the PC (R48, R175). -/
def advance (p : Spr) (x : XReg → Word) (pc : Word) (n : Nat) : Word × Word :=
  let step := fun (q : Word) => nextPc q
  let plain := Nat.repeat step n pc
  if rpDrives p.rpst then
    let r := p.rpst
    let pos := rpPos r + n
    if pos < rpLen r then (plain, setFld r 16 5 pos)
    else if (x (xreg (rpReg r))).toInt > 0 then
      (Word.ofInt (pcOfSlot (slotIndex pc - (rpPos r : Nat))), setFld r 16 5 0)
    else (plain, 0)
  else (plain, p.rpst)

/-- n instructions at the PC complete. -/
def State.finishN (s : State) (n : Nat) : State :=
  let q := advance s.sh.spr s.sh.xr s.sh.pc n
  { s with sh := { s.sh with
      pc := q.1
      spr := { s.sh.spr with rpst := q.2 }
      ahead := agedAhead n s.sh.ahead
      irq := settleIrq s.sh.irq
      run := .ready } }

def State.finish (s : State) : State := s.finishN 1

/-- A taken control transfer: the lines already fetched are let go (R50). -/
def State.jumpTo (s : State) (pc : Word) : State :=
  { s with sh := { s.sh with
      pc := pc, lines := [], ahead := agedAhead 1 s.sh.ahead, irq := settleIrq s.sh.irq, run := .ready } }

def State.setRun (s : State) (r : Run) : State := { s with sh := { s.sh with run := r } }

/-! ### Sheets, cores, places (R2, R24, R39) -/

/-- The core of a sheet position, and the position in it. -/
def coreOf (place : Nat) : Nat := place / 4
def posOf (place : Nat) : Fin 4 := Fin.ofNat 4 place
/-- The physical die of a core number. -/
def dieOfCore (c : Nat) : Nat := c / coresPerDie
def State.pos (s : State) : Fin 4 := posOf s.sh.place
def State.pdie (s : State) : Nat := dieOfCore (coreOf s.sh.place)

/-- The placed sheets of the module. -/
def State.sheets (s : State) : List Sheet := if s.sh.run = .off then s.rest else s.sh :: s.rest

/-- Applies a function to every placed sheet. -/
def State.eachSheet (s : State) (g : Sheet → Sheet) : State :=
  { s with sh := if s.sh.run = .off then s.sh else g s.sh, rest := s.rest.map g }

/-- Applies a function to every held core. -/
def State.eachCore (s : State) (g : Core → Core) : State :=
  { s with core := g s.core, cores := s.cores.map g }

/-- Applies a function to the core of a number. -/
def State.onCore (s : State) (c : Nat) (g : Core → Core) : State :=
  s.eachCore fun k => if k.place = c then g k else k

/-- Applies a function to the sheet at a place. -/
def State.onSheet (s : State) (p : Nat) (g : Sheet → Sheet) : State :=
  s.eachSheet fun h => if h.place = p then g h else h

def State.sheetAt (s : State) (p : Nat) : Option Sheet := s.sheets.find? fun h => h.place = p
def State.coreAt (s : State) (c : Nat) : Option Core :=
  if s.core.place = c then some s.core else s.cores.find? fun k => k.place = c

/-- Turns the focus to the sheet at a place. DESIGN CHOICE: log 5, 96. -/
def State.focus (s : State) (p : Nat) : Option State :=
  if s.sh.place = p ∧ s.sh.run ≠ .off then some s
  else match s.rest.find? fun h => h.place = p with
    | none => none
    | some h =>
      let rest := s.rest.filter fun k => k.place ≠ p
      let rest := if s.sh.run = .off then rest else s.sh :: rest
      let s := { s with sh := h, rest := rest }
      if s.core.place = coreOf p then some s
      else match s.cores.find? fun k => k.place = coreOf p with
        | none => some s
        | some k =>
          let cores := s.cores.filter fun j => j.place ≠ coreOf p
          let keep := s.sheets.any fun j => coreOf j.place = s.core.place
          some { s with core := k, cores := if keep then s.core :: cores else cores }

/-! ### Logical coordinates (R39) -/

def Spr.lSheet (p : Spr) : Nat := fld p.sheetid 0 2
def Spr.lCore (p : Spr) : Nat := fld p.sheetid 2 2
def Spr.lQuad (p : Spr) : Nat := fld p.sheetid 4 4
def Spr.lDie (p : Spr) : Nat := fld p.sheetid 8 3
def Spr.lPkg (p : Spr) : Nat := fld p.sheetid 16 9
def Spr.flatIx (p : Spr) : Nat := fld p.sheetid 32 20
def nSheets (shape : Word) : Nat := fld shape 0 2 + 1
def nCores (shape : Word) : Nat := fld shape 2 2 + 1
def nQuads (shape : Word) : Nat := fld shape 4 4 + 1
def nDies (shape : Word) : Nat := fld shape 8 3 + 1
def nPkgs (shape : Word) : Nat := fld shape 16 9 + 1

def Spr.gDie (p : Spr) : Nat := p.lPkg * nDies p.drove + p.lDie
def Spr.gQuad (p : Spr) : Nat := p.gDie * nQuads p.drove + p.lQuad
def Spr.gCore (p : Spr) : Nat := p.gQuad * nCores p.drove + p.lCore

/-- The number of the sheet's instance of a level (R2): 0 the lane, 1 its core, 2 its quad, 3 its die, 4 its package, else
the pod. -/
def Spr.instOf (p : Spr) : Nat → Nat
  | 0 => p.flatIx
  | 1 => p.gCore
  | 2 => p.gQuad
  | 3 => p.gDie
  | 4 => p.lPkg
  | _ => 0

/-- The sheets of a drove within one instance of a level (R244). -/
def participants (shape : Word) : Nat → Nat
  | 0 => 1
  | 1 => nSheets shape
  | 2 => nSheets shape * nCores shape
  | 3 => nSheets shape * nCores shape * nQuads shape
  | 4 => nSheets shape * nCores shape * nQuads shape * nDies shape
  | _ => nSheets shape * nCores shape * nQuads shape * nDies shape * nPkgs shape

def State.drove? (s : State) (id : Nat) : Option Drove := s.droves.find? fun d => d.id = id

/-! ### Time (R41, R393) -/

/-- A rank of a span waits in a collective on a sheet that is placed (R383). -/
def State.waitsIn (s : State) (sp : Span) (w : Nat × Word) : Bool :=
  s.sheets.any fun h => h.droveId = sp.drove && h.run = .waiting && h.pc = w.2 && some h.spr.flatIx = sp.members[w.1]?

/-- The clock of a span runs: a resident member waits (R383). -/
def State.spanRuns (s : State) (sp : Span) : Bool := sp.abort.isNone && sp.waiters.any (s.waitsIn sp)

/-- TIME passes: the deficit of a saddle falls by the cores its resident droves hold, and the clocks of the spans that run grow.
DESIGN CHOICE: log 9; DEDUCED: log 85. -/
def State.tick (s : State) (dt : Nat) : State :=
  let s := { s with
    time := s.time + BitVec.ofNat 64 dt
    spans := s.spans.map fun sp => if s.spanRuns sp then { sp with clock := sp.clock + dt } else sp }
  (s.droves.filter fun d => d.st = .resident).foldl
    (fun s d => s.setSad d.sad fun g => { g with deficit := g.deficit - d.cores.length * dt }) s

/-- A free length of time passes, at least one count, once TIME runs. DESIGN CHOICE: log 8. -/
def State.elapse (s : State) : State :=
  if s.timeOn then ({ s with free := s.free + 1 } : State).tick ((Config.elapsed s.free).toNat + 1) else s

end Machine
end Sys2Proof
end

