-- ==== Sys2Proof/Machine/Access.lean ====
section
/-! DEFINITION. Translation and protection (R248 to R250), the scalar L1 and the homes (R161, R204), lines that a copy
engine owns (R209), poison (R296, R297), and the accesses of streams S, A and V.
-/
namespace Sys2Proof
namespace Machine

/-- In whose name an access is made: saddle, brand, level. -/
structure Who where
  sad : Nat
  brand : BitVec 12
  priv : Nat
  deriving DecidableEq, Repr

/-- PRESUMED: log 100. -/
def State.who (s : State) : Who := ⟨s.sh.spr.sad, s.sh.spr.brand12, s.priv⟩
/-- The saddle's own runtime: slot 63 (R40). PRESUMED: log 100. -/
def runtimeWho (sad : Nat) : Who := ⟨sad, BitVec.ofNat 12 (sad % 64 * 64 + 63), 1⟩

/-! ### Page entries (R249) -/

def peV (e : Word) : Bool := fld e 0 1 = 1
def peLeaf (e : Word) : Bool := fld e 1 1 = 1
def peR (e : Word) : Bool := fld e 2 1 = 1
def peW (e : Word) : Bool := fld e 3 1 = 1
def peX (e : Word) : Bool := fld e 4 1 = 1
def peUc (e : Word) : Bool := fld e 5 1 = 1
def peHome (e : Word) : Bool := fld e 6 1 = 1
def pePois (e : Word) : Bool := fld e 7 1 = 1
def peBrand (e : Word) : BitVec 12 := e.extractLsb' 52 12
/-- The physical base an entry names. -/
def peFrame (e : Word) : Nat := fld e 16 36 * 65536

/-- A non-leaf entry uses only V, LEAF and FRAME. DESIGN CHOICE: log 13. -/
def peTableOk (e : Word) : Bool := e &&& ~~~(0x000FFFFFFFFF0003#64) == 0
/-- The FRAME bits below the page size are zero. -/
def peAligned (e : Word) (bits : Nat) : Bool := peFrame e % 2 ^ bits == 0

/-- A page brand matches a context (R250). -/
def brandOk (e : Word) (w : Who) : Bool :=
  if peBrand e = 0 then w.priv = 3
  else peBrand e = w.brand || (wfld (peBrand e) 0 6 = 63 && wfld (peBrand e) 6 6 = w.sad)

/-- A copy engine owns the line (R209). -/
def State.owned (s : State) (line : Nat) : Bool :=
  s.engines.toList.any fun e => e.queue.any fun c => line ∈ c.owned

/-! ### Homes (R204, R237, R249) -/

/-- A byte at its home as a reader under a page's KEY finds it. -/
def State.homeByte (s : State) (key : Nat) : Byte :=
  decipher (s.seals.byte (addrOf key)).toNat (sealOf key) (addrOf key) (s.mem.byte (addrOf key))

/-- A byte reaches its home, sealed under the KEY of its page. -/
def State.setHome (s : State) (kv : Nat × Byte) : State :=
  { s with
    mem := s.mem.setByte (addrOf kv.1) kv.2
    seals := s.seals.setByte (addrOf kv.1) (BitVec.ofNat 8 (sealOf kv.1)) }

/-- A line has been written in a brand's name. -/
def cacheLine (q : CachedLine) : List CachedLine → List CachedLine
  | [] => [q]
  | a :: l => if a.line < q.line then a :: cacheLine q l else if a.line = q.line then q :: l else q :: a :: l

/-- Bytes reach their homes in a brand's name: through the line caches, or past them on an uncacheable page (R237). -/
def State.poke (s : State) (brand : BitVec 12) (uc : Bool) (kvs : List (Nat × Byte)) : State :=
  let t := kvs.foldl State.setHome s
  let mark := fun l => (kvs.map fun q => lineOf q.1).dedup.foldl (fun l n => cacheLine ⟨n, brand⟩ l) l
  { t with lineBrands := mark t.lineBrands, lcache := if uc then t.lcache else mark t.lcache }

/-- What a lookup of a translation comes to: the page size exponent and the leaf entry; none; or a wait, when the walker would
read an entry in a line that a copy engine owns (R209). -/
inductive Page where
  | leaf (bits : Nat) (e : Word)
  | none
  | busy
  deriving DecidableEq, Repr

/-- A leaf entry, its FRAME aligned to the page size. -/
def Page.ofLeaf (bits : Nat) (e : Word) : Page := if peAligned e bits then .leaf bits e else .none

/-- A table entry at its home; none while a copy engine owns its line. -/
def State.entryAt (s : State) (base ix : Nat) : Option Word :=
  if s.owned (lineOf (base + 8 * ix)) then none else some (BitVec.ofNat 64 (s.mem.nat (base + 8 * ix) 8))

/-- The walk from the saddle's table root (R248, R250). The walker reads entries at their home.
DESIGN CHOICE: log 13; DEDUCED: log 15. -/
def State.walk (s : State) (sad : Nat) (va : Word) : Page :=
  match s.entryAt s.saddles[(sadOf sad).val].ptRoot.toNat (fld va 42 13) with
  | none => .busy
  | some e0 =>
    if !peV e0 then .none
    else if peLeaf e0 then Page.ofLeaf 42 e0
    else if !peTableOk e0 then .none
    else match s.entryAt (peFrame e0) (fld va 29 13) with
      | none => .busy
      | some e1 =>
        if !peV e1 then .none
        else if peLeaf e1 then Page.ofLeaf 29 e1
        else if !peTableOk e1 then .none
        else match s.entryAt (peFrame e1) (fld va 16 13) with
          | none => .busy
          | some e2 => if peV e2 && peLeaf e2 then .leaf 16 e2 else .none

/-- An entry of a TLB that maps an address. DEDUCED: log 14. -/
def tlbFind (l : List Xlate) (sad : Nat) (va : Word) : Option (Nat × Word) :=
  (l.find? fun t => t.sad = sad ∧ t.vbase = va.toNat / 2 ^ t.bits).map fun t => (t.bits, t.entry)

/-- The page of an address for the sheet in focus: its TLBs first, then the walk. -/
def State.page (s : State) (sad : Nat) (va : Word) : Page :=
  if !canonical va then .none
  else match tlbFind s.sh.tlb sad va with
    | some r => .leaf r.1 r.2
    | none => match tlbFind s.core.tlb sad va with
      | some r => .leaf r.1 r.2
      | none => s.walk sad va

/-- The page for an agent that keeps no translation of its own. -/
def State.pageOf (s : State) (sad : Nat) (va : Word) : Page :=
  if canonical va then s.walk sad va else .none

/-- The physical key of an address in a page. -/
def keyOf (bits : Nat) (e : Word) (va : Word) : Nat :=
  peFrame e + va.toNat % 2 ^ bits + (if peHome e then 2 ^ 52 else 0) + fld e 8 8 * 2 ^ 53

/-- The module has memory at a key (R3): all 2,048 GB of local memory, and 16 TiB of expanders, as many as can be attached. An address
past it translates to nothing. DESIGN CHOICE: log 108. -/
def installed (key : Nat) : Bool :=
  if addrOf key < 2 ^ 52 then addrOf key < localBytes else addrOf key < 2 ^ 52 + expanderBytes

/-- Kinds of access. -/
inductive Acc1 where
  | load | store | rmw | fetch
  deriving DecidableEq, Repr

/-- What stands for a cause where a walk waits for a line that a copy engine owns: no trap, a wait (R209). -/
def walkWaits : Nat := 0

/-- The cause of a missing translation. -/
def Acc1.cause : Acc1 → Nat
  | .load => 0x10
  | .store => 0x11
  | .rmw => 0x11
  | .fetch => 0x12

def Acc1.permits (a : Acc1) (e : Word) : Bool :=
  match a with
  | .load => peR e
  | .store => peW e
  | .rmw => peR e && peW e
  | .fetch => peX e

/-- What a checked translation gives: the physical key and the page's entry. -/
structure Phys where
  key : Nat
  entry : Word
  deriving DecidableEq, Repr

/-- Translation, permission and brand, in that order (R163, R250); a page without execute permission is a fetch
translation fault (R58). -/
def checkPage (a : Acc1) (w : Who) (va : Word) : Page → Except Nat Phys
  | .busy => .error walkWaits
  | .none => .error a.cause
  | .leaf bits e =>
    if !installed (keyOf bits e va) then .error a.cause
    else if !a.permits e then .error (if a = .fetch then 0x12 else 0x14)
    else if !brandOk e w then .error 0x13
    else .ok ⟨keyOf bits e va, e⟩

def State.xlate (s : State) (a : Acc1) (va : Word) : Except Nat Phys :=
  checkPage a s.who va (s.page s.sh.spr.sad va)

/-- The same for an agent that walks afresh. -/
def State.xlateAs (s : State) (w : Who) (a : Acc1) (va : Word) : Except Nat Phys :=
  checkPage a w va (s.pageOf w.sad va)

/-- A walk that succeeds leaves its translation in the sheet's and the core's TLB, the oldest leaving a full one (R250).
DEDUCED: log 14. -/
def State.fill (s : State) (va : Word) : State :=
  if !canonical va then s
  else match tlbFind s.sh.tlb s.sh.spr.sad va with
    | some _ => s
    | none => match tlbFind s.core.tlb s.sh.spr.sad va with
      | some (b, e) =>
        { s with sh := { s.sh with tlb := (⟨s.sh.spr.sad, va.toNat / 2 ^ b, b, e⟩ :: s.sh.tlb).take 64 } }
      | none => match s.walk s.sh.spr.sad va with
        | .none => s
        | .busy => s
        | .leaf b e =>
          let t : Xlate := ⟨s.sh.spr.sad, va.toNat / 2 ^ b, b, e⟩
          { s with
            sh := { s.sh with tlb := (t :: s.sh.tlb).take 64 }
            core := { s.core with tlb := (t :: s.core.tlb).take 1024 } }

def State.fillAll (s : State) (l : List Word) : State := l.foldl State.fill s

/-! ### Lines -/

/-- A line that reads as poisoned: its own bit, a failed channel, a removed expander (R296, R297, R397). -/
def State.poisoned (s : State) (line : Nat) : Bool :=
  line ∈ s.poison ||
    (if line < 2 ^ 46 then !s.deadChannels.isEmpty && Config.channelOf line ∈ s.deadChannels
     else !s.deadPorts.isEmpty && Config.cxlPort line ∈ s.deadPorts)

/-- A copy engine owns the 64-byte unit of a tile of a drove on a logical die (R209). -/
def State.tileOwned (s : State) (drove die : Nat) (h : BitVec 12) (u : Nat) : Bool :=
  s.engines.toList.any fun e => e.queue.any fun c => c.drove = drove && c.die = die && (h, u) ∈ c.ownedTile

/-! ### The scalar L1 (R161) -/

/-- Dirty bytes are written back to their homes. -/
def State.writeBack (s : State) (l : List Dirty) : State := l.foldr (fun d s => s.poke d.brand false [(d.key, d.byte)]) s

/-- The core in focus writes back the dirty bytes that p selects. -/
def State.flushHere (s : State) (p : Dirty → Bool) : State :=
  { s.writeBack (s.core.l1.filter p) with core := { s.core with l1 := s.core.l1.filter fun d => !p d } }

/-- Every other core writes back the dirty bytes that p selects. -/
def State.flushOthers (s : State) (p : Dirty → Bool) : State :=
  { s.cores.foldl (fun s c => s.writeBack (c.l1.filter p)) s with
    cores := s.cores.map fun c => { c with l1 := c.l1.filter fun d => !p d } }

def inLines (ls : List Nat) (d : Dirty) : Bool := ls.contains (lineOf d.key)

/-- The dirty bytes of lines are recalled from every core but the one in focus. DEDUCED: log 99. -/
def State.recallOthers (s : State) (ls : List Nat) : State := s.flushOthers (inLines ls)
/-- The dirty bytes of lines are recalled from every core. -/
def State.recallAll (s : State) (ls : List Nat) : State := (s.flushOthers (inLines ls)).flushHere (inLines ls)

/-- The sheet position stored the byte. -/
def Dirty.of (d : Dirty) (pos : Fin 4) : Bool := d.owners.getLsbD pos.val

/-- Every dirty byte of a line that holds a byte the sheet in focus stored is written back (R212). -/
def State.flushOwn (s : State) : State :=
  s.recallAll ((s.core.l1.filter fun d => d.of s.pos).map fun d => lineOf d.key)

def keysFrom (key n : Nat) : List Nat := (List.range n).map fun i => key + i
def linesOf (keys : List Nat) : List Nat := (keys.map lineOf).dedup

/-- What the core in focus reads at a key through its L1. -/
def State.l1Byte (s : State) (key : Nat) : Byte :=
  match s.core.l1.find? fun d => addrOf d.key = addrOf key with
  | some d => decipher (sealOf d.key) (sealOf key) (addrOf key) d.byte
  | none => s.homeByte key

/-- A read of stream S at keys (R161). -/
def State.sRead (s : State) (uc : Bool) (keys : List Nat) : List Byte × State :=
  let s := if uc then s.recallAll (linesOf keys) else s.recallOthers (linesOf keys)
  (keys.map s.l1Byte, s)

/-- A byte becomes dirty in an L1, the latest first. -/
def putL1 (pos : Fin 4) (brand : BitVec 12) (l : List Dirty) (kv : Nat × Byte) : List Dirty :=
  let was := (l.find? fun d => addrOf d.key = addrOf kv.1).elim 0 Dirty.owners
  ⟨kv.1, kv.2, was ||| BitVec.ofNat 4 (2 ^ pos.val), brand⟩ :: l.filter fun d => addrOf d.key ≠ addrOf kv.1

/-- The core in focus holds no more dirty lines than its L1 has; those stored to longest ago leave. DESIGN CHOICE: log 113. -/
def State.trimL1 (s : State) : State :=
  let ls := ((s.core.l1.map fun d => lineOf d.key).eraseDups).drop l1Lines
  if ls.isEmpty then s else s.flushHere (inLines ls)

/-- A store of stream S: held dirty in the L1, or at the home on an uncacheable page (R161). -/
def State.sWrite (s : State) (uc : Bool) (kvs : List (Nat × Byte)) : State :=
  let ls := linesOf (kvs.map Prod.fst)
  if uc then (s.recallAll ls).poke s.sh.spr.brand12 true kvs
  else
    let s := s.recallOthers ls
    ({ s with core := { s.core with l1 := kvs.foldl (putL1 s.pos s.sh.spr.brand12) s.core.l1 } } : State).trimL1

/-- A read of stream V: it recalls dirty bytes everywhere (R161). -/
def State.vRead (s : State) (keys : List Nat) : List Byte × State :=
  let s := s.recallAll (linesOf keys)
  (keys.map s.homeByte, s)

/-- A write of any party but a core's own stream S, in a brand's name: dirty bytes are first written back everywhere (R161). -/
def State.vWrite (s : State) (brand : BitVec 12) (uc : Bool) (kvs : List (Nat × Byte)) : State :=
  (s.recallAll (linesOf (kvs.map Prod.fst))).poke brand uc kvs

/-- A read of the home without recall: stream A, engines, fetch, the host. -/
def State.aRead (s : State) (keys : List Nat) : List Byte := keys.map s.homeByte

/-! ### Checked byte ranges -/

/-- The keys of n bytes at va, checked byte by byte: the first that fails gives its cause and address. -/
def rangeKeys (x : Word → Except Nat Phys) (va : Word) : Nat → Except (Nat × Word) (List Phys)
  | 0 => .ok []
  | n + 1 =>
    match x va with
    | .error c => .error (c, va)
    | .ok p =>
      match rangeKeys x (va + 1) n with
      | .error e => .error e
      | .ok l => .ok (p :: l)

/-- The pages that n bytes at va touch, as the addresses of their first touched bytes: R248's least page is 64 KiB. -/
def pageStarts (va : Word) (n : Nat) : List Word :=
  if n = 0 then [] else if (va.toNat % 65536) + n ≤ 65536 then [va]
  else va :: ((List.range ((va.toNat % 65536 + n - 1) / 65536)).map fun i =>
    BitVec.ofNat 64 ((va.toNat / 65536 + 1 + i) * 65536))

/-- The first page of a list on which a check fails with cause c. -/
def firstCause (x : Word → Except Nat Phys) (c : Nat) (l : List Word) : Option (Nat × Word) :=
  (l.find? fun p => match x p with
    | .error e => e == c
    | .ok _ => false).map fun p => (c, p)

/-- The first failing check over pages: translation of every page, then permission, then brand (R163, R164); before them a walk
that waits. -/
def pagesFail (a : Acc1) (x : Word → Except Nat Phys) (l : List Word) : Option (Nat × Word) :=
  [walkWaits, a.cause, 0x14, 0x13].findSome? fun c => firstCause x c l

/-- The keys of n bytes at va under a translation, checked page by page. -/
def rangeOf (a : Acc1) (x : Word → Except Nat Phys) (va : Word) (n : Nat) : Except (Nat × Word) (List Phys) :=
  match pagesFail a x (pageStarts va n) with
  | some e => .error e
  | none => rangeKeys x va n

def State.range (s : State) (a : Acc1) (va : Word) (n : Nat) : Except (Nat × Word) (List Phys) :=
  rangeOf a (s.xlate a) va n

def physKeys (l : List Phys) : List Nat := l.map Phys.key
def physUc (l : List Phys) : Bool := l.any fun p => peUc p.entry

/-- The first byte of a range that lies in a poisoned line, with its offset. -/
def State.firstPoison (s : State) (l : List Phys) : Option (Nat × Phys) :=
  ((List.range l.length).zip l).find? fun q => s.poisoned (lineOf q.2.key)

/-- A line's address as its reader sees it. -/
def lineVa (va : Word) : Word := va &&& ~~~(63#64)

/-- The stop for a byte at va that reads poison: a trap 0x60, or a kill where the page's POIS is 1, which names the address of the
access (R249, R280, R395). DEDUCED: log 101. -/
def poisonStop (s : State) (acc va tval : Word) (p : Phys) : Stop :=
  if pePois p.entry then .pois acc (lineOf p.key) s else .trap 0x60 tval (lineVa va) s

/-- A check that failed with a cause: the trap, or the wait of a walk. -/
def faultE {α : Type} (s : State) (cause : Nat) (tval faddr : Word) : Except Stop α :=
  if cause = walkWaits then .error (.wait s) else trapE s cause tval faddr

/-! ### The scalar access checks (R163) -/

/-- R163's checks on n bytes at va with the alignment al: the physical bytes, and the state with the translations kept. An access that
reaches a line which a copy engine owns waits before it could meet poison there (R209). DEDUCED: log 101. -/
def State.scalar (s : State) (a : Acc1) (va : Word) (n al : Nat) : Except Stop (List Phys × State) := do
  if va.toNat % al != 0 then trapE s 0x04 va va
  match s.range a va n with
  | .error (c, f) => faultE s c va f
  | .ok l =>
    await s (!(linesOf (physKeys l)).any s.owned)
    if a ≠ .store then
      match s.firstPoison l with
      | some (i, p) => .error (poisonStop s va (va + BitVec.ofNat 64 i) va p)
      | none => pure ()
    pure (l, s.fillAll (pageStarts va n))

/-- A scalar load of n bytes (R163): the bytes and the state after. -/
def State.sLoad (s : State) (va : Word) (n al : Nat) : Except Stop (List Byte × State) := do
  let (l, s) ← s.scalar .load va n al
  pure (s.sRead (physUc l) (physKeys l))

end Machine
end Sys2Proof
end

