-- ==== Sys2Proof/Machine/Contain.lean ====
section
/-! DEFINITION. The event ring (R395), kills and what they free (R26, R296, R372), and the end of an instruction's
effect in a next state.
-/
namespace Sys2Proof
namespace Machine

/-- A counter that saturates at 2^64 − 1 (R389). -/
def satInc (w : Word) : Word := if w = BitVec.allOnes 64 then w else w + 1

/-- What a write of an agent comes to: it fails its checks, it waits for a line that a copy engine owns, or it is done (R209). -/
def State.tryWrite (s : State) (w : Who) (va : Word) (bytes : List Byte) : Except Nat (Option State) :=
  match rangeOf .store (s.xlateAs w .store) va bytes.length with
  | .error (c, _) => if c = walkWaits then .ok none else .error c
  | .ok l =>
    if (linesOf (physKeys l)).any s.owned then .ok none
    else .ok (some (s.vWrite w.brand (physUc l) ((physKeys l).zip bytes)))

/-- Posted writes to a saddle's memory, at the home; one that meets a line which a copy engine owns waits in order with those behind it
(R209, R391, R395). `issuer` is the sheet whose copy the write reports. DEDUCED: log 29. -/
def State.post (s : State) (issuer : Option (Nat × Nat)) (w : Who) (va : Word) (bytes : List Byte) : Option State :=
  let wait := { s with posted := s.posted ++ [⟨w.sad, w.brand, w.priv, va, bytes, issuer⟩] }
  match s.tryWrite w va bytes with
  | .error _ => none
  | .ok none => some wait
  | .ok (some t) => some (if s.posted.isEmpty then t else wait)

/-- A posted write of the device. -/
def State.writeAs (s : State) (w : Who) (va : Word) (bytes : List Byte) : Option State := s.post none w va bytes

/-- The posted writes that waited are performed in order, up to one that waits still. -/
def State.runPosted (s : State) : List Posted → State
  | [] => { s with posted := [] }
  | p :: l => match s.tryWrite ⟨p.sad, p.brand, p.priv⟩ p.va p.bytes with
    | .error _ => s.runPosted l
    | .ok none => { s with posted := p :: l }
    | .ok (some t) => t.runPosted l

/-- A read of an agent meets a line that a copy engine owns, or a walk that does (R209). -/
def State.readBusy (s : State) (w : Who) (va : Word) (n : Nat) : Bool :=
  match rangeOf .load (s.xlateAs w .load) va n with
  | .error (c, _) => c = walkWaits
  | .ok l => (linesOf (physKeys l)).any s.owned

/-- Reads of the Wrangler from a saddle's memory, at the home, where they do not wait. -/
def State.readAs (s : State) (w : Who) (va : Word) (n : Nat) : Option (List Byte) :=
  match rangeOf .load (s.xlateAs w .load) va n with
  | .error _ => none
  | .ok l => some (s.aRead (physKeys l))

/-- The bytes of an event record (R395). DESIGN CHOICE: log 82. -/
def eventBytes (type cause brand info : Nat) (addr : Word) (count seq : Nat) : List Byte :=
  leBytes 1 type ++ leBytes 1 cause ++ leBytes 2 brand ++ leBytes 4 info ++ leBytes 8 addr.toNat ++ leBytes 8 count ++
    leBytes 8 seq

/-- Posts an event to a saddle's ring, or drops it (R395). DEDUCED: log 29. -/
def State.postEvent (s : State) (sad type cause : Nat) (brand : BitVec 12) (info : Nat) (addr : Word) (count : Nat) : State :=
  let s := s.setSad sad fun d => { d with events := d.events + 1 }
  let d := s.saddles[(sadOf sad).val]
  let drop := s.setSad sad fun d => { d with lost := satInc d.lost }
  if d.evqLen = 0 ∨ d.evqTail - d.evqHead = d.evqLen then drop
  else
    let at_ := d.evqBase + BitVec.ofNat 64 (32 * (d.evqTail.toNat % d.evqLen.toNat))
    match s.writeAs (runtimeWho sad) at_ (eventBytes type cause brand.toNat info addr count d.events.toNat) with
    | none => drop
    | some s =>
      let s := s.setSad sad fun d => { d with evqTail := d.evqTail + 1 }
      { s with out := s.out ++ [.msix (sad % 64)] }

/-- Posts one event to every saddle. -/
def State.postAll (s : State) (type info : Nat) : State :=
  (List.range 64).foldl (fun s n => s.postEvent n type 0 0 info 0 0) s

/-- A span leaves the table; its generation is recorded as freed now (R372). Its packets stay in the fabric. -/
def State.freeSpan (s : State) (sp : Span) : State :=
  let s := { s with spans := s.spans.filter fun q => !(q.sad = sp.sad && q.id = sp.id) }
  s.setSad sp.sad fun d =>
    { d with gens := (sp.id, sp.gen, s.time.toNat) :: d.gens.filter fun g => !(g.1 = sp.id && g.2.1 = sp.gen) }

def State.freeSpansOf (s : State) (id : Nat) : State :=
  (s.spans.filter fun q => q.drove = id).foldl State.freeSpan s

/-- Takes a drove's sheets away and releases its cores (R24, R26). The focus goes empty when it was on the drove. -/
def State.clearSheets (s : State) (id : Nat) : State :=
  let gone := s.sh.droveId = id ∧ s.sh.run ≠ .off
  let rest := s.rest.filter fun h => h.droveId ≠ id
  let stays := fun (k : Core) => rest.any fun h => coreOf h.place = k.place
  if gone then
    { s with
      sh := { Sheet.reset with place := 1536 }
      core := { Core.reset with place := coresPerModule }
      rest := rest
      cores := (s.core :: s.cores).filter stays }
  else
    { s with rest := rest, cores := s.cores.filter stays }

/-- Frees what a drove holds besides its sheets: tiles, barriers, windows, spans, reservations (R26, R343). -/
def State.freeHoldings (s : State) (id : Nat) : State :=
  let s := s.freeSpansOf id
  { s with
    tiles := s.tiles.filter fun t => t.drove ≠ id
    bars := s.bars.filter fun b => b.drove ≠ id
    windows := s.windows.filter fun w => w.drove ≠ id
    xwaits := s.xwaits.filter fun w => w.drove ≠ id
    saved := s.saved.filter fun i => i.drove ≠ id
    droves := s.droves.filter fun d => d.id ≠ id }

/-- Ends a drove (R296): its sheets stop and their state is discarded, what it holds is freed, its copies are abandoned
without a report. DEDUCED: log 28, 31. -/
def State.endDrove (s : State) (id : Nat) (brand : BitVec 12) : State :=
  let s := s.clearSheets id
  let s := s.freeHoldings id
  let s := { s with
    engines := s.engines.map fun (e : Engine) => ({ e with queue := e.queue.filter fun c => c.drove ≠ id } : Engine)
    packets := s.packets.filter fun p => p.brand ≠ brand }
  s.runPosted s.posted

/-- The paddock kinds in the order of R295, with 7 for a line-cache slice: it is a paddock of its own, of the same kind as a
die-store slice (R295, R395). -/
def lineSliceKind : Nat := 7
def paddockKind (k : Nat) : Nat := if k = lineSliceKind then 3 else k

/-- A kill (R296): the drove ends and its saddle receives a kill event. DEDUCED: log 31. -/
def State.kill (s : State) (id : Nat) (brand : BitVec 12) (paddock inst reason : Nat) (addr : Word) : State :=
  let s := s.endDrove id brand
  s.postEvent (wfld brand 6 6) 2 0 brand (paddockKind paddock % 256 + inst % 65536 * 256 + reason % 256 * 2 ^ 24) addr 0

/-- Ends every drove of a brand: the drove of a slot, or every drove of the saddle for slot 63; nothing for brand zero,
which Dribrikan repairs (R296). -/
def State.killBrand (s : State) (brand : BitVec 12) (paddock inst reason : Nat) (addr : Word) : State :=
  if brand = 0 then s
  else
    let hit := s.droves.filter fun d =>
      d.sad = wfld brand 6 6 && (wfld brand 0 6 = 63 || d.slot = wfld brand 0 6)
    hit.foldl (fun s d => s.kill d.id (BitVec.ofNat 12 (d.sad * 64 + d.slot)) paddock inst reason addr) s

/-- The number of the memory channel of a line as a kill event gives it; 0 for a line of an expander, which has none (R395).
DESIGN CHOICE: log 124. -/
def channelNo (line : Nat) : Nat := if line < 2 ^ 46 then (Config.channelOf line).val else 0

/-- What a stop comes to: a trap at the sheet's PC, a wait, or a kill for poison (R22, R249, R281). -/
def Stop.take : Stop → State
  | .trap c tv fa s => s.takeTrap c tv fa s.sh.pc
  | .wait s => { s with sh := { s.sh with run := .waiting, irq := settleIrq s.sh.irq } }
  | .pois va line s =>
    s.kill s.sh.droveId s.sh.spr.brand12 4 (channelNo line) 3 va

/-- The next state of an instruction that completes or stops. -/
def runEff (e : Eff) : Out3 :=
  match e with
  | .ok s => .next s.finish
  | .error st => .next st.take

/-- The same for an instruction whose effect sets the PC itself. -/
def runJump (e : Eff) : Out3 :=
  match e with
  | .ok s => .next s
  | .error st => .next st.take

end Machine
end Sys2Proof
end

