-- ==== Sys2Proof/Machine/Fetch.lean ====
section
/-! DEFINITION. Fetching code lines (R47, R50, R58, R66).
-/
namespace Sys2Proof
namespace Machine

/-! ### Fetching -/

/-- Fetches the line of an address for an instruction at pc: translation, a copy engine's line waits (R209), poison, then the expansion of a packed image or the
seal (R47, R58, R66). DEDUCED: log 26. -/
def State.fetchLine (s : State) (a pc : Word) : Except Stop (Line × State) := do
  match s.xlate .fetch (lineAddr a) with
  | .error c => faultE s c pc pc
  | .ok p =>
    await s (!s.owned (lineOf p.key))
    if s.poisoned (lineOf p.key) then .error (poisonStop s pc (lineAddr a) pc p)
    match s.packedLine (lineAddr a) with
    | some (.error off) => trapE s 0x05 0 (BitVec.ofNat 64 off)
    | some (.ok l) => pure (l, s.fill (lineAddr a))
    | none =>
      let b := s.aRead (keysFrom p.key 64)
      let crc := crc32c (b.take 60)
      if leNat (b.drop 60) ≠ crc.toNat then trapE s 0x03 (crc.zeroExtend 64) (lineAddr a)
      pure (⟨(lineAddr a).toNat, b, []⟩, s.fill (lineAddr a))

/-- What a stop that the fetch of a slot met comes to: a fetch fault of the slot at TVEC kills the drove and posts a trap-loop event
(R281). DEDUCED: log 28. -/
def Stop.takeFetch (slot : Word) : Stop → State
  | .trap c tv fa s =>
    if slot = s.sh.spr.tvec ∧ (c = 0x03 ∨ c = 0x05 ∨ c = 0x12 ∨ c = 0x60) then
      let s' := s.endDrove s.sh.droveId s.sh.spr.brand12
      s'.postEvent s.sh.spr.sad 4 c s.sh.spr.brand12 s.sh.spr.flatIx 0 s.sh.spr.tvec.toNat
    else s.takeTrap c tv fa s.sh.pc
  | st => st.take

/-- LINE_FETCH: the line of the PC, or the one after it (R47, R50). A fault of the next line has no effect.
DEDUCED: log 26. -/
def execLineFetch (ahead : Bool) (s : State) : Out3 :=
  let a := if ahead then lineAddr s.sh.pc + 64 else s.sh.pc
  if s.sh.run = .off ∨ (s.sh.lineAt a).isSome then .next s
  else match s.fetchLine a s.sh.pc with
    | .ok (l, s') => .next { s' with sh := s'.sh.keepLine l }
    | .error st => if ahead then .next s else .next (st.takeFetch s.sh.pc)

/-- A line that has been fetched is kept when it is the PC's or the next one (R50). -/
def State.keepNear (s : State) (l : Line) : State :=
  if l.near s.sh.pc then { s with sh := s.sh.keepLine l } else s

/-- The word of a slot, from the fetched lines or from memory. -/
def State.slotWord (s : State) (pc : Word) : Except Stop (IWord × State) :=
  match s.sh.lineAt pc with
  | some l => .ok (l.word (slotOf pc), s)
  | none => (s.fetchLine pc pc).map fun r => (r.1.word (slotOf pc), r.2.keepNear r.1)

/-- The words of n slots from a slot index on, or the slot whose fetch stops and the stop (R175). -/
def State.slotWords (s : State) (t : Int) : Nat → Except (Word × Stop) (List IWord × State)
  | 0 => .ok ([], s)
  | n + 1 =>
    let pc := Word.ofInt (pcOfSlot t)
    match s.slotWord pc with
    | .error st => .error (pc, st)
    | .ok (w, s) => (s.slotWords (t + 1) n).map fun r => (w :: r.1, r.2)

/-- The word the sheet in focus runs next: from the replay buffer while a loop drives it, else from its lines. -/
def State.nextWord (s : State) : Option IWord :=
  if rpDrives s.sh.spr.rpst then s.sh.rbuf[rpPos s.sh.spr.rpst]?
  else (s.sh.lineAt s.sh.pc).map fun l => l.word (slotOf s.sh.pc)

/-- Fetches what `nextWord` lacks: the loop's body after a resumption (R177), or the line of the PC. -/
def State.supply (s : State) : Out3 :=
  if rpDrives s.sh.spr.rpst then
    match s.slotWords (slotIndex s.sh.pc - (rpPos s.sh.spr.rpst : Nat)) (rpLen s.sh.spr.rpst) with
    | .ok (l, s) => .next { s with sh := { s.sh with rbuf := l } }
    | .error (slot, st) => .next (st.takeFetch slot)
  else execLineFetch false s

/-- ILLEGAL_INSTRUCTION: trap 0x01 (R58, R61, R66). -/
def execIllegalInstruction (s : State) : Out3 :=
  if s.sh.run = .off ∨ (s.nextWord.bind decode).isSome then .next s
  else .next (s.takeTrap 0x01 0 0 s.sh.pc)

end Machine
end Sys2Proof
end

