-- ==== Sys2Proof/Machine/Float.lean ====
section
/-! DEFINITION. Exact values, rounding and conversion (R68 to R77, R87 to R89, R410), the special functions, and the
blocks of FP4 (R80 to R85).
-/
namespace Sys2Proof

/-! ### Formats (R68, R70, R71) -/

/-- Exponent bits, fraction bits and bias. -/
def Fmt.layout : Fmt → Nat × Nat × Nat
  | .f64 => (11, 52, 1023)
  | .f32 => (8, 23, 127)
  | .bf16 => (8, 7, 127)
  | .f16 => (5, 10, 15)
  | .e4m3 => (4, 3, 7)
  | .e5m2 => (5, 2, 15)
  | _ => (0, 0, 0)

/-- The pattern of the greatest finite value. -/
def Fmt.maxPat : Fmt → Nat
  | .f64 => 0x7FEFFFFFFFFFFFFF
  | .f32 => 0x7F7FFFFF
  | .bf16 => 0x7F7F
  | .f16 => 0x7BFF
  | .e4m3 => 0x7E
  | .e5m2 => 0x7B
  | _ => 0

/-- The pattern of +∞; E4M3 has none. -/
def Fmt.infPat (t : Fmt) : Nat := t.maxPat + 1

/-- The invalid ingot (R87). -/
def ingInvalid : Nat := 2 ^ 191

/-- The canonical NaN, and the invalid ingot. -/
def Fmt.nanPat : Fmt → Nat
  | .f64 => 0x7FF8000000000000
  | .f32 => 0x7FC00000
  | .bf16 => 0x7FC0
  | .f16 => 0x7E00
  | .e4m3 => 0x7F
  | .e5m2 => 0x7E
  | .ing => ingInvalid
  | _ => 0

/-- Bits of one element. -/
def Fmt.width (t : Fmt) : Nat := 8 * t.ew


end Sys2Proof

namespace Sys2Proof
namespace Machine

/-- Flags in the order of FSTAT (R78). -/
abbrev Flags := BitVec 6
def flNV : Flags := 1
def flDZ : Flags := 2
def flOF : Flags := 4
def flUF : Flags := 8
def flNX : Flags := 16
def flING : Flags := 32

/-- An exact value: NaN, an infinity, or sign, m and e for m × 2^e. A result that is not exact carries a lowest bit of 1
that stands for what lies below it. -/
inductive FVal where
  | nan
  | inf (neg : Bool)
  | fin (neg : Bool) (m : Nat) (e : Int)
  deriving DecidableEq, Repr

/-- m × 2^k for k of either sign, rounded down. -/
def shiftN (m : Nat) (k : Int) : Nat := if 0 ≤ k then m * 2 ^ k.toNat else m / 2 ^ (-k).toNat

def FVal.ofInt (n : Int) : FVal := .fin (n < 0) n.natAbs 0
def FVal.zero (neg : Bool) : FVal := .fin neg 0 0
def FVal.one : FVal := .fin false 1 0
def FVal.isNan : FVal → Bool
  | .nan => true
  | _ => false
def FVal.isZero : FVal → Bool
  | .fin _ 0 _ => true
  | _ => false
def FVal.isInf : FVal → Bool
  | .inf _ => true
  | _ => false
def FVal.neg : FVal → FVal
  | .nan => .nan
  | .inf n => .inf (!n)
  | .fin n m e => .fin (!n) m e
def FVal.abs : FVal → FVal
  | .nan => .nan
  | .inf _ => .inf false
  | .fin _ m e => .fin false m e
def FVal.sign : FVal → Bool
  | .nan => false
  | .inf n => n
  | .fin n _ _ => n

/-- The integer an integer pattern stands for. -/
def ival (t : Fmt) (v : Nat) : Int := if t.isI then toSigned t.width v else (v % 2 ^ t.width : Nat)

def intMin (t : Fmt) : Int := if t.isI then -(2 ^ (t.width - 1) : Nat) else 0
def intMax (t : Fmt) : Int := if t.isI then (2 ^ (t.width - 1) : Nat) - 1 else (2 ^ t.width : Nat) - 1

/-- An integer result: wrapped, or clamped under SAT (R69). -/
def ifit (t : Fmt) (sat : Bool) (n : Int) : Nat :=
  if sat then wrapTo t.width (max (intMin t) (min n (intMax t))) else wrapTo t.width n

/-- The exact value of a pattern of any element format but fp4b and fct8. -/
def fdecode (t : Fmt) (raw : Nat) : FVal :=
  if t.isInt then FVal.ofInt (ival t raw)
  else if t = .ing then
    (if raw % 2 ^ 192 = ingInvalid then .nan
     else let n := toSigned 192 raw; .fin (n < 0) n.natAbs (-128))
  else
    let (eb, fb, bias) := t.layout
    let neg := bitsAt raw (eb + fb) 1 = 1
    let be := bitsAt raw fb eb
    let fr := bitsAt raw 0 fb
    if be = 2 ^ eb - 1 ∧ (t ≠ .e4m3 ∨ fr = 2 ^ fb - 1) then
      (if t ≠ .e4m3 ∧ fr = 0 then .inf neg else .nan)
    else if be = 0 then .fin neg fr (1 - (bias : Int) - fb)
    else .fin neg (2 ^ fb + fr) ((be : Int) - bias - fb)

/-! ### Rounding (R73) -/

/-- m × 2^k rounded to an integer in a mode, and whether that changed it. -/
def rint (r : Rnd) (neg : Bool) (m : Nat) (k : Int) : Nat × Bool :=
  if 0 ≤ k then (m * 2 ^ k.toNat, false)
  else
    let d := 2 ^ (-k).toNat
    let n := m / d
    let rem := m % d
    if rem = 0 then (n, false)
    else
      let up := match r with
        | .rne => 2 * rem > d || (2 * rem == d && n % 2 == 1)
        | .rna => 2 * rem ≥ d
        | .rtz => false
        | .rdn => neg
        | .rup => !neg
      (if up then n + 1 else n, true)

/-- The exponent of the leading bit of m × 2^e. -/
def topExp (m : Nat) (e : Int) : Int := (Nat.log2 m : Int) + e

/-- The sign bit of a pattern. -/
def signBit (t : Fmt) (neg : Bool) : Nat := if neg then 2 ^ (t.width - 1) else 0

/-- What an overflow gives (R75). -/
def overflowPat (t : Fmt) (r : Rnd) (sat neg : Bool) : Nat :=
  if sat then signBit t neg + t.maxPat
  else if t = .e4m3 then t.nanPat
  else
    let toInf := match r with
      | .rne => true
      | .rna => true
      | .rtz => false
      | .rdn => neg
      | .rup => !neg
    signBit t neg + (if toInf then t.infPat else t.maxPat)

/-- Rounding of a finite non-zero value to a binary format (R73, R75). Tininess is judged on the result rounded with an
unbounded exponent range. DEDUCED: log 17. -/
def froundFin (t : Fmt) (r : Rnd) (sat neg : Bool) (m : Nat) (e : Int) : Nat × Flags :=
  let (_, fb, bias) := t.layout
  let emin : Int := 1 - (bias : Int)
  let top := topExp m e
  let lsb := max top emin - fb
  let (n, inexact) := rint r neg m (e - lsb)
  let pat := n + ((max top emin - emin).toNat) * 2 ^ fb
  if pat > t.maxPat then (overflowPat t r sat neg, flOF ||| flNX)
  else
    let tiny :=
      if top < emin then
        let (u, _) := rint r neg m (e - (top - fb))
        topExp u (top - fb) < emin
      else false
    (signBit t neg + pat, if inexact then (if tiny then flNX ||| flUF else flNX) else 0)

/-- Rounding to a binary floating format (R72, R75). An exact infinity, an operand's or that of a division by zero alike,
becomes NaN or the greatest magnitude, with NV, where the format is e4m3 or SAT is 1. DEDUCED: log 18. -/
def froundF (t : Fmt) (r : Rnd) (sat : Bool) : FVal → Nat × Flags
  | .nan => (t.nanPat, 0)
  | .inf neg =>
    if t = .e4m3 then (if sat then signBit t neg + t.maxPat else t.nanPat, flNV)
    else if sat then (signBit t neg + t.maxPat, flNV)
    else (signBit t neg + t.infPat, 0)
  | .fin neg 0 _ => (signBit t neg, 0)
  | .fin neg m e => froundFin t r sat neg m e

/-- Rounding to an integer format (R76). -/
def froundI (t : Fmt) (r : Rnd) (sat : Bool) (v : FVal) : Nat × Flags :=
  let indef := if t.isI then 2 ^ (t.width - 1) else 2 ^ t.width - 1
  match v with
  | .nan => (if sat then 0 else indef, flNV)
  | .inf neg => (if sat then wrapTo t.width (if neg then intMin t else intMax t) else indef, flNV)
  | .fin neg m e =>
    let (n, inexact) := rint r neg m e
    let i : Int := if neg then -(n : Int) else n
    if i > intMax t then (if sat then wrapTo t.width (intMax t) else indef, flNV)
    else if i < intMin t then (if sat then wrapTo t.width (intMin t) else indef, flNV)
    else (wrapTo t.width i, if inexact then flNX else 0)

/-- An ingot's integer N, saturated (R88, R410). -/
def ingClamp (n : Int) : Nat × Flags :=
  if n.natAbs ≥ 2 ^ 191 then (wrapTo 192 (if n < 0 then -(2 ^ 191 - 1) else 2 ^ 191 - 1), flING)
  else (wrapTo 192 n, 0)

/-- Rounding to the ingot grid (R410). -/
def froundIng (r : Rnd) : FVal → Nat × Flags
  | .nan => (ingInvalid, flNV)
  | .inf _ => (ingInvalid, flNV)
  | .fin neg m e =>
    let (n, inexact) := rint r neg m (e + 128)
    let (p, f) := ingClamp (if neg then -(n : Int) else n)
    (p, if inexact then f ||| flNX else f)

/-- Round(v, t, r), with SAT (R8). -/
def fround (t : Fmt) (r : Rnd) (sat : Bool) (v : FVal) : Nat × Flags :=
  if t.isInt then froundI t r sat v
  else if t = .ing then froundIng r v
  else froundF t r sat v

/-- Conversion of an element between formats (R69, R75, R76, R89): integers between themselves wrap or clamp, an invalid
ingot leaving its format sets NV. -/
def convert (src dst : Fmt) (r : Rnd) (sat : Bool) (raw : Nat) : Nat × Flags :=
  if src.isInt && dst.isInt then (ifit dst sat (ival src raw), 0)
  else if src = .ing then
    (if dst = .ing then (raw, 0)
     else if raw % 2 ^ 192 = ingInvalid then ((fround dst r sat .nan).1, flNV)
     else fround dst r sat (fdecode src raw))
  else fround dst r sat (fdecode src raw)

/-! ### Exact operations (R72, R74) -/

/-- A sum of two finite values as an integer multiple of 2^k. -/
def addFin (n1 : Bool) (m1 : Nat) (e1 : Int) (n2 : Bool) (m2 : Nat) (e2 : Int) : Int × Int :=
  let k := min e1 e2
  let a : Int := (m1 * 2 ^ (e1 - k).toNat : Nat)
  let b : Int := (m2 * 2 ^ (e2 - k).toNat : Nat)
  ((if n1 then -a else a) + (if n2 then -b else b), k)

def fAdd (r : Rnd) : FVal → FVal → FVal × Flags
  | .nan, _ => (.nan, 0)
  | _, .nan => (.nan, 0)
  | .inf a, .inf b => if a = b then (.inf a, 0) else (.nan, flNV)
  | .inf a, .fin .. => (.inf a, 0)
  | .fin .., .inf b => (.inf b, 0)
  | .fin n1 m1 e1, .fin n2 m2 e2 =>
    let (s, k) := addFin n1 m1 e1 n2 m2 e2
    if s = 0 then
      (if m1 = 0 ∧ m2 = 0 ∧ n1 = n2 then (.zero n1, 0) else (.zero (r = .rdn), 0))
    else (.fin (s < 0) s.natAbs k, 0)

/-- a - b is a + (-b): R72's zeros of the same sign are those of a and -b. DEDUCED: log 115. -/
def fSub (r : Rnd) (a b : FVal) : FVal × Flags := fAdd r a b.neg

def fMul : FVal → FVal → FVal × Flags
  | .nan, _ => (.nan, 0)
  | _, .nan => (.nan, 0)
  | .inf a, .inf b => (.inf (a != b), 0)
  | .inf a, .fin b m _ => if m = 0 then (.nan, flNV) else (.inf (a != b), 0)
  | .fin a m _, .inf b => if m = 0 then (.nan, flNV) else (.inf (a != b), 0)
  | .fin a m1 e1, .fin b m2 e2 => (.fin (a != b) (m1 * m2) (e1 + e2), 0)

/-- A fused multiply-add: the exact product, then the exact sum. A product 0 × ∞ sets NV whatever the addend (R72). -/
def fFma (r : Rnd) (a b c : FVal) : FVal × Flags :=
  let (p, f) := fMul a b
  let (s, g) := fAdd r p c
  (s, f ||| g)

/-- m with a lowest bit that stands for a non-zero rest. -/
def stick (m : Nat) (rest : Bool) : Nat := 2 * m + (if rest then 1 else 0)

/-- m × 2^e with a non-zero rest below it: the bit that stands for the rest weighs less than half of the ingot grid (R410). -/
def inexactly (neg : Bool) (m : Nat) (e : Int) : FVal :=
  let k := max 1 (e + 131).toNat
  .fin neg (m * 2 ^ k + 1) (e - k)

/-- m × 2^e, exact or with a non-zero rest below it. -/
def withRest (neg : Bool) (m : Nat) (e : Int) (rest : Bool) : FVal := if rest then inexactly neg m e else .fin neg m e

def fDiv : FVal → FVal → FVal × Flags
  | .nan, _ => (.nan, 0)
  | _, .nan => (.nan, 0)
  | .inf _, .inf _ => (.nan, flNV)
  | .inf a, .fin b _ _ => (.inf (a != b), 0)
  | .fin a _ _, .inf b => (.zero (a != b), 0)
  | .fin a m1 e1, .fin b m2 e2 =>
    if m2 = 0 then (if m1 = 0 then (.nan, flNV) else (.inf (a != b), flDZ))
    else
      let j := max 128 (e1 - e2 + 130).toNat
      let num := m1 * 2 ^ j
      (withRest (a != b) (num / m2) (e1 - e2 - j) (num % m2 ≠ 0), 0)

/-- The integer square root, bit by bit from bit k − 1. -/
def isqrt : Nat → Nat → Nat → Nat
  | 0, _, r => r
  | k + 1, n, r => if (r + 2 ^ k) * (r + 2 ^ k) ≤ n then isqrt k n (r + 2 ^ k) else isqrt k n r

/-- A value with an even exponent. -/
def evenExp (m : Nat) (e : Int) : Nat × Int := if e % 2 = 0 then (m, e) else (2 * m, e - 1)

def fSqrt : FVal → FVal × Flags
  | .nan => (.nan, 0)
  | .inf true => (.nan, flNV)
  | .inf false => (.inf false, 0)
  | .fin n m e =>
    if m = 0 then (.zero n, 0)
    else if n then (.nan, flNV)
    else
      let (m, e) := evenExp m e
      let j := max 128 (e / 2 + 130).toNat
      let big := m * 2 ^ (2 * j)
      let r := isqrt (Nat.log2 big / 2 + 1) big 0
      (withRest false r (e / 2 - j) (r * r ≠ big), 0)

def fRsqrt : FVal → FVal × Flags
  | .nan => (.nan, 0)
  | .inf true => (.nan, flNV)
  | .inf false => (.zero false, 0)
  | .fin n m e =>
    if m = 0 then (.inf n, flDZ)
    else if n then (.nan, flNV)
    else
      let (m, e) := evenExp m e
      let j := max 160 (130 - e / 2).toNat
      let r := isqrt (j + 1) (2 ^ (2 * j) / m) 0
      (withRest false r (-(e / 2) - j) (r * r * m ≠ 2 ^ (2 * j)), 0)

/-! Fixed point with 320 fraction bits for exp2 and log2. -/

def fxBits : Nat := 320

/-- The sum of z^(2j+1) / (2j+1) from the term t = z^(2k+1) on. -/
def atanhSum (zz : Nat) : Nat → Nat → Nat → Nat
  | 0, _, _ => 0
  | fuel + 1, t, k => t / (2 * k + 1) + atanhSum zz fuel (t * zz / 2 ^ fxBits) (k + 1)

def fxAtanh (z : Nat) : Nat := atanhSum (z * z / 2 ^ fxBits) 110 z 0

def fxLn2 : Nat := 2 * fxAtanh (2 ^ fxBits / 3)

/-- The sum of y^k / k! from the term t = y^k / k! on. -/
def expSum (y : Nat) : Nat → Nat → Nat → Nat
  | 0, _, _ => 0
  | fuel + 1, t, k => t + expSum y fuel (t * y / 2 ^ fxBits / (k + 1)) (k + 1)

/-- 2^f for a fraction f, with the low bits that the series does not vouch for dropped. -/
def fxExp2 (f : Nat) : Nat := expSum (f * fxLn2 / 2 ^ fxBits) 90 (2 ^ fxBits) 0 / 2 ^ 64

def fExp2 : FVal → FVal × Flags
  | .nan => (.nan, 0)
  | .inf true => (.zero false, 0)
  | .inf false => (.inf false, 0)
  | .fin n m e =>
    if m = 0 then (.one, 0)
    else if topExp m e ≥ 15 then
      let whole := decide (0 ≤ e) || m % 2 ^ (-e).toNat == 0
      (withRest false 1 (if n then -40000 else 40000) (!whole), 0)
    else
      let x : Int := if n then -(m : Int) else m
      if 0 ≤ e then (.fin false 1 (x * 2 ^ e.toNat), 0)
      else
        let d : Int := (2 ^ (-e).toNat : Nat)
        let ip := x / d
        let rest := (x % d).toNat
        if rest = 0 then (.fin false 1 ip, 0)
        else (inexactly false (fxExp2 (shiftN rest (e + fxBits))) (ip - 256), 0)

def fLog2 : FVal → FVal × Flags
  | .nan => (.nan, 0)
  | .inf true => (.nan, flNV)
  | .inf false => (.inf false, 0)
  | .fin n m e =>
    if m = 0 then (.inf true, flDZ)
    else if n then (.nan, flNV)
    else
      let k := Nat.log2 m
      let ex : Int := e + k
      if m = 2 ^ k then (FVal.ofInt ex, 0)
      else
        let z := (m - 2 ^ k) * 2 ^ fxBits / (m + 2 ^ k)
        let l := 2 * fxAtanh z * 2 ^ fxBits / fxLn2
        let v : Int := ex * (2 ^ fxBits : Nat) + l
        (inexactly (v < 0) (v.natAbs / 2 ^ 64) (-256), 0)

/-! ### Order -/

/-- Exact comparison of two values that are not NaN: −0 and +0 equal. -/
def fLess : FVal → FVal → Bool
  | .inf a, .inf b => a && !b
  | .inf a, .fin .. => a
  | .fin .., .inf b => !b
  | .fin n1 m1 e1, .fin n2 m2 e2 => (addFin n1 m1 e1 (!n2) m2 e2).1 < 0
  | _, _ => false

def fEq (a b : FVal) : Bool := !fLess a b && !fLess b a

/-- A float condition (R62, R72). -/
def fCond (c : Cond) (a b : FVal) : Bool :=
  if a.isNan || b.isNan then c == .ne || c == .un
  else match c with
    | .eq => fEq a b
    | .ne => !fEq a b
    | .lt => fLess a b
    | .ge => !fLess a b
    | .le => !fLess b a
    | .gt => fLess b a
    | .or => true
    | _ => false

/-- The lesser (or greater) by R72: −0 below +0, one NaN gives the other operand. -/
def fMinMax (isMax : Bool) (a b : FVal) : FVal :=
  if a.isNan then b
  else if b.isNan then a
  else
    let aLess := fLess a b || (fEq a b && a.sign && !b.sign)
    if aLess != isMax then a else b

/-- An integer condition between values of a format (R62); codes 6 to 9 compare the patterns as unsigned. -/
def iCond (c : Cond) (sa sb : Int) (ua ub : Nat) : Bool :=
  match c with
  | .eq => sa == sb
  | .ne => sa != sb
  | .lt => sa < sb
  | .ge => sa ≥ sb
  | .le => sa ≤ sb
  | .gt => sa > sb
  | .ltu => ua < ub
  | .geu => ua ≥ ub
  | .leu => ua ≤ ub
  | .gtu => ua > ub
  | .un => false
  | .or => true

/-! ### Ingots (R88) -/

def ingAdd (a b : Nat) : Nat × Flags :=
  if a % 2 ^ 192 = ingInvalid ∨ b % 2 ^ 192 = ingInvalid then (ingInvalid, 0)
  else ingClamp (toSigned 192 a + toSigned 192 b)

/-- g plus the product of two values. -/
def ingAcc (g : Nat) (a b : FVal) : Nat × Flags :=
  if g % 2 ^ 192 = ingInvalid then (ingInvalid, 0)
  else match a, b with
    | .fin n1 m1 e1, .fin n2 m2 e2 =>
      let neg := n1 != n2
      let (p, inexact) := rint .rne neg (m1 * m2) (e1 + e2 + 128)
      let (t, f) := ingClamp (toSigned 192 g + (if neg then -(p : Int) else p))
      (t, if inexact then f ||| flNX else f)
    | _, _ => (ingInvalid, flNV)

/-! ### Blocked FP4 (R80 to R84) -/

/-- Magnitude codes in halves. -/
def e2m1Half : Nat → Nat
  | 0 => 0
  | 1 => 1
  | 2 => 2
  | 3 => 3
  | 4 => 4
  | 5 => 6
  | 6 => 8
  | _ => 12

/-- The value of an element code. -/
def e2m1 (c : Nat) : FVal := .fin (bitsAt c 3 1 = 1) (e2m1Half (c % 8)) (-1)

/-- An E3M5 scale as m × 2^e (R81). -/
def scaleOf (c : Nat) : Nat × Int :=
  if c / 32 = 0 then (c % 32, -7) else (32 + c % 32, (c / 32 : Nat) - 8)

/-- The values of the eight elements of a 5-byte block held as a number, when its scale is valid. -/
def fp4Vals (blk : Nat) : List FVal :=
  let (sm, se) := scaleOf (blk % 256)
  (List.range 8).map fun j =>
    let c := bitsAt blk (8 + 4 * j) 4
    .fin (bitsAt c 3 1 = 1) (e2m1Half (c % 8) * sm) (se - 1)

/-- The bits of an invalid block: scale 0xFF and four zero bytes. -/
def fp4Invalid : Nat := 0xFF

/-- The greater magnitude of two finite values. -/
def maxMag (a b : Nat × Int) : Nat × Int :=
  if (addFin false a.1 a.2 true b.1 b.2).1 < 0 then b else a

/-- Rounding of a quotient to E2M1 (R83): the code without its sign, whether inexact. -/
def roundE2m1 (r : Rnd) (neg : Bool) (m : Nat) (e : Int) : Nat × Bool :=
  if m = 0 then (0, false)
  else
    let top := max (topExp m e) 0
    let (n, inexact) := rint r neg m (e - (top - 1))
    (min 7 (n + 2 * top.toNat), inexact)

/-- Eight values to a block (R83): the block's bits, flags, and whether it is valid. -/
def fp4Pack (r : Rnd) (sat : Bool) (vals : List FVal) : Nat × Flags × Bool :=
  if vals.any fun v => v.isNan || v.isInf then (fp4Invalid, flNV, false)
  else
    let mags := vals.map fun v => match v with
      | .fin _ m e => (m, e)
      | _ => (0, 0)
    let big := mags.foldl maxMag (0, 0)
    let code := fun (v : FVal) => if v.sign then 8 else 0
    let join := fun (l : List Nat) => (l.foldr (fun c a => c + 16 * a) 0) * 256
    if big.1 = 0 then (join (vals.map code), 0, true)
    else
      let fits := fun c =>
        let (sm, se) := scaleOf c
        (addFin false (6 * sm) se true big.1 big.2).1 ≥ 0
      let found := findNat (fun c => c ≠ 0 && c ≠ 255 && fits c) 255
      match found, sat with
      | none, false => (fp4Invalid, flOF ||| flNX, false)
      | o, _ =>
        let sc := o.getD 254
        let f0 : Flags := if o.isNone then flOF ||| flNX else 0
        let (sm, se) := scaleOf sc
        let els := vals.map fun v => match v with
          | .fin n m e =>
            let num := m * 2 ^ 64
            let (c, inexact) := roundE2m1 r n (stick (num / sm) (num % sm ≠ 0)) (e - se - 65)
            let f : Flags := if inexact then (if c = 0 then flNX ||| flUF else flNX) else 0
            ((if n then 8 else 0) + c, f)
          | _ => (0, 0)
        (sc + join (els.map Prod.fst), els.foldl (fun a q => a ||| q.2) f0, true)

/-- A binary32 immediate converted to an element format without SAT (R54). DEDUCED: log 22. -/
def immFloat (t : Fmt) (r : Rnd) (v : BitVec 32) : Nat := (convert .f32 t r false v.toNat).1

end Machine
end Sys2Proof
end

