-- ==== Sys2Proof/Machine/Flags.lean ====
section
/-! DEFINITION. Element arithmetic: the bits and the flags of one element of every operation of the scalar, vector, array
and span classes (R69, R72 to R76, R78, R79, R88, R150 to R157, R179, R181), and the two orders of a reduction (R90, R108).
-/
namespace Sys2Proof

/-- The function gives one of its operands, or an operand with another sign bit: nothing is rounded and no flag is set, so
SAT does not concern it (R72, R155, R181). -/
def MapBin.picks : MapBin → Bool
  | .fmin => true
  | .fmax => true
  | _ => false
def MapUn.picks : MapUn → Bool
  | .fabs => true
  | .fneg => true
  | _ => false

namespace Machine

/-! ### Integers -/

/-- Leading zeros, trailing zeros and ones of a w-bit pattern (R150, R179). -/
def clzN (w v : Nat) : Nat := if v % 2 ^ w = 0 then w else w - 1 - Nat.log2 (v % 2 ^ w)
def ctzN (w v : Nat) : Nat := (findNat (fun i => v.testBit i) w).getD w
def popN (w v : Nat) : Nat := ((List.range w).filter fun i => v.testBit i).length

/-- The integer functions of two operands on patterns of a format (R69, R151, R179). DEDUCED: log 21. -/
def iBin (u : MapBin) (t : Fmt) (sat : Bool) (a b : Nat) : Nat :=
  let x := ival t a
  let y := ival t b
  let w := t.width
  let k := b % 2 ^ w % w
  match u with
  | .add => ifit t sat (x + y)
  | .sub => ifit t sat (x - y)
  | .mul => ifit t sat (x * y)
  | .mulh => wrapTo w (x * y / (2 ^ w : Nat))
  | .div => if y = 0 then 2 ^ w - 1 else wrapTo w (Int.tdiv x y)
  | .rem => if y = 0 then a % 2 ^ w else wrapTo w (Int.tmod x y)
  | .and => (a &&& b) % 2 ^ w
  | .or => (a ||| b) % 2 ^ w
  | .xor => (a ^^^ b) % 2 ^ w
  | .shl => a * 2 ^ k % 2 ^ w
  | .shr => a % 2 ^ w / 2 ^ k
  | .sar => wrapTo w (toSigned w a / (2 ^ k : Nat))
  | .min => wrapTo w (min x y)
  | .max => wrapTo w (max x y)
  | _ => 0

/-- The integer functions of one operand (R179). -/
def iUn (u : MapUn) (t : Fmt) (sat : Bool) (a : Nat) : Nat :=
  match u with
  | .mov => a % 2 ^ t.width
  | .abs => ifit t sat (ival t a).natAbs
  | .neg => ifit t sat (-ival t a)
  | .clz => clzN t.width a
  | .popc => popN t.width a
  | _ => 0

/-- An integer condition between two patterns (R62). -/
def iCondP (c : Cond) (t : Fmt) (a b : Nat) : Bool :=
  iCond c (ival t a) (ival t b) (a % 2 ^ t.width) (b % 2 ^ t.width)

/-! ### Floats -/

/-- Rounds what an exact operation gave, with the flags of both. -/
def fDone (t : Fmt) (r : Rnd) (sat : Bool) (q : FVal × Flags) : Nat × Flags :=
  let p := fround t r sat q.1
  (p.1, q.2 ||| p.2)

/-- The exact float function of two values. -/
def fExact (u : MapBin) (r : Rnd) (a b : FVal) : FVal × Flags :=
  match u with
  | .fadd => fAdd r a b
  | .fsub => fSub r a b
  | .fmul => fMul a b
  | .fdiv => fDiv a b
  | .fmin => (fMinMax false a b, 0)
  | .fmax => (fMinMax true a b, 0)
  | _ => (.nan, 0)

/-- The exact float function of one value. -/
def fExactUn (u : MapUn) (a : FVal) : FVal × Flags :=
  match u with
  | .mov => (a, 0)
  | .fsqrt => fSqrt a
  | .frsqrt => fRsqrt a
  | .fexp2 => fExp2 a
  | .flog2 => fLog2 a
  | .fabs => (a.abs, 0)
  | .fneg => (a.neg, 0)
  | _ => (.nan, 0)

/-- A float function of two patterns of a format, rounded once to it (R73, R155, R181). -/
def fBin (u : MapBin) (t : Fmt) (r : Rnd) (sat : Bool) (a b : Nat) : Nat × Flags :=
  fDone t r (sat && !u.picks) (fExact u r (fdecode t a) (fdecode t b))
def fUn (u : MapUn) (t : Fmt) (r : Rnd) (sat : Bool) (a : Nat) : Nat × Flags :=
  fDone t r (sat && !u.picks) (fExactUn u (fdecode t a))
def fFmaP (t : Fmt) (r : Rnd) (sat : Bool) (a b c : Nat) : Nat × Flags :=
  fDone t r sat (fFma r (fdecode t a) (fdecode t b) (fdecode t c))
def fCondP (c : Cond) (t : Fmt) (a b : Nat) : Bool := fCond c (fdecode t a) (fdecode t b)

/-- The order of keys (R126): a NaN of any sign lies above every number, and −0 equals +0. -/
def keyLess (t : Fmt) (a b : Nat) : Bool :=
  if t.isInt then ival t a < ival t b
  else
    let x := fdecode t a
    let y := fdecode t b
    if x.isNan then false else y.isNan || fLess x y

/-! ### Reductions -/

/-- One combining step of a reduce operator in a format (R69, R72, R88). -/
def redStep (o : RedOp) (t : Fmt) (r : Rnd) (sat : Bool) (a b : Nat) : Nat × Flags :=
  if t = .ing then ingAdd a b
  else if t.isInt then
    (match o with
      | .add => iBin .add t sat a b
      | .mul => iBin .mul t sat a b
      | .min => iBin .min t sat a b
      | .max => iBin .max t sat a b
      | .and => iBin .and t sat a b
      | .or => iBin .or t sat a b
      | .xor => iBin .xor t sat a b
      | .swap => b, 0)
  else match o with
    | .add => fBin .fadd t r sat a b
    | .mul => fBin .fmul t r sat a b
    | .min => fBin .fmin t r sat a b
    | .max => fBin .fmax t r sat a b
    | _ => (b, 0)

/-- The identity of an operator in a format; none where R108 has a trap. -/
def redIdent (o : RedOp) (t : Fmt) : Option Nat :=
  if t = .ing then (if o = .add then some 0 else none)
  else if t.isInt then
    match o with
    | .add => some 0
    | .mul => some 1
    | .min => some (wrapTo t.width (intMax t))
    | .max => some (wrapTo t.width (intMin t))
    | .and => some (2 ^ t.width - 1)
    | .or => some 0
    | .xor => some 0
    | .swap => none
  else match o with
    | .add => some 0
    | .mul => some (fround t .rne false .one).1
    | .min => some (if t = .e4m3 then 0x7E else t.infPat)
    | .max => some (if t = .e4m3 then 0xFE else signBit t true + t.infPat)
    | _ => none

/-- A left fold in index order (R90). -/
def redOrdered (f : Nat → Nat → Nat × Flags) : Nat → Flags → List Nat → Nat × Flags
  | acc, fl, [] => (acc, fl)
  | acc, fl, a :: l =>
    let q := f acc a
    redOrdered f q.1 (fl ||| q.2) l

/-- One level of the tree: adjacent pairs combine, an odd last one stays (R90). -/
def redLevel (f : Nat → Nat → Nat × Flags) : List Nat → List Nat × Flags
  | a :: b :: l =>
    let q := f a b
    let rest := redLevel f l
    (q.1 :: rest.1, q.2 ||| rest.2)
  | l => (l, 0)

/-- The tree; the fuel is at least the number of operands. -/
def redTree (f : Nat → Nat → Nat × Flags) : Nat → Flags → List Nat → Nat × Flags
  | 0, fl, l => (l.headD 0, fl)
  | _ + 1, fl, [] => (0, fl)
  | _ + 1, fl, [a] => (a, fl)
  | n + 1, fl, l =>
    let q := redLevel f l
    redTree f n (fl ||| q.2) q.1

/-- The reduction of a list that is not empty, in tree order or ordered (R90). -/
def reduceL (f : Nat → Nat → Nat × Flags) (ord : Bool) (l : List Nat) : Nat × Flags :=
  if ord then redOrdered f (l.headD 0) 0 l.tail else redTree f l.length 0 l

end Machine
end Sys2Proof
end

