-- ==== Sys2Proof/Machine/Scalar.lean ====
section
/-! DEFINITION. The scalar integer class (R147 to R153) and the scalar float class (R154 to R157).
-/
namespace Sys2Proof
namespace Machine

/-- The instruction completes with xD := v. -/
def State.putX (s : State) (d : XReg) (v : Word) : Out3 := .next (s.setX d v).finish
/-- The instruction completes with fD := the pattern, and its flags in FSTAT (R79, R155). -/
def State.putF (s : State) (d : FReg) (q : Nat × Flags) : Out3 :=
  .next ((s.orFlags q.2).setF d (BitVec.ofNat 64 q.1)).finish

/-! ### Integers (R150) -/

def mulHigh (ty : Fmt) (a b : Word) : Word :=
  if ty = .i64 then BitVec.ofInt 64 (a.toInt * b.toInt / 2 ^ 64) else BitVec.ofNat 64 (a.toNat * b.toNat / 2 ^ 64)

/-- Division toward zero; by zero all ones; −2^63 by −1 wraps (R151). -/
def divWord (ty : Fmt) (a b : Word) : Word :=
  if b = 0 then BitVec.allOnes 64
  else if ty = .i64 then BitVec.ofInt 64 (Int.tdiv a.toInt b.toInt) else BitVec.ofNat 64 (a.toNat / b.toNat)
def remWord (ty : Fmt) (a b : Word) : Word :=
  if b = 0 then a
  else if ty = .i64 then BitVec.ofInt 64 (Int.tmod a.toInt b.toInt) else BitVec.ofNat 64 (a.toNat % b.toNat)

def lessWord (ty : Fmt) (a b : Word) : Bool := if ty = .i64 then a.slt b else a.ult b

/-- A condition between two words (R62). -/
def condWord (c : Cond) (a b : Word) : Bool := iCond c a.toInt b.toInt a.toNat b.toNat

/-- Position and width of a bit field; a width field of 0 means 64 (R152). -/
def fieldPos (b : Word) : Nat := fld b 0 6
def fieldWidth (b : Word) : Nat := if fld b 8 6 = 0 then 64 else fld b 8 6
def bextWord (a b : Word) : Word := BitVec.ofNat 64 (a.toNat / 2 ^ fieldPos b % 2 ^ fieldWidth b)
def binsWord (d a b : Word) : Word :=
  let mask := BitVec.ofNat 64 ((2 ^ fieldWidth b - 1) * 2 ^ fieldPos b)
  (d &&& ~~~mask) ||| ((a <<< fieldPos b) &&& mask)

def extWord (ty : Fmt) (a : Word) : Word := Word.ofInt (ival ty a.toNat)

def execAdd (d a : XReg) (b : XSrc) (s : State) : Out3 := s.putX d (s.xr a + s.xsrc b)
def execSub (d a : XReg) (b : XSrc) (s : State) : Out3 := s.putX d (s.xr a - s.xsrc b)
def execMul (d a : XReg) (b : XSrc) (s : State) : Out3 := s.putX d (s.xr a * s.xsrc b)
def execMulh (ty : Fmt) (d a : XReg) (b : XSrc) (s : State) : Out3 := s.putX d (mulHigh ty (s.xr a) (s.xsrc b))
def execDiv (ty : Fmt) (d a : XReg) (b : XSrc) (s : State) : Out3 := s.putX d (divWord ty (s.xr a) (s.xsrc b))
def execRem (ty : Fmt) (d a : XReg) (b : XSrc) (s : State) : Out3 := s.putX d (remWord ty (s.xr a) (s.xsrc b))
def execAnd (d a : XReg) (b : XSrc) (s : State) : Out3 := s.putX d (s.xr a &&& s.xsrc b)
def execOr (d a : XReg) (b : XSrc) (s : State) : Out3 := s.putX d (s.xr a ||| s.xsrc b)
def execXor (d a : XReg) (b : XSrc) (s : State) : Out3 := s.putX d (s.xr a ^^^ s.xsrc b)
def execAndn (d a : XReg) (b : XSrc) (s : State) : Out3 := s.putX d (s.xr a &&& ~~~(s.xsrc b))
def execShl (d a : XReg) (b : XSrc) (s : State) : Out3 := s.putX d (s.xr a <<< fld (s.xsrc b) 0 6)
def execShr (d a : XReg) (b : XSrc) (s : State) : Out3 := s.putX d (s.xr a >>> fld (s.xsrc b) 0 6)
/-- DEDUCED: log 21. -/
def execSar (d a : XReg) (b : XSrc) (s : State) : Out3 := s.putX d ((s.xr a).sshiftRight (fld (s.xsrc b) 0 6))
def execRol (d a : XReg) (b : XSrc) (s : State) : Out3 := s.putX d ((s.xr a).rotateLeft (fld (s.xsrc b) 0 6))
def execRor (d a : XReg) (b : XSrc) (s : State) : Out3 := s.putX d ((s.xr a).rotateRight (fld (s.xsrc b) 0 6))
def execMin (ty : Fmt) (d a : XReg) (b : XSrc) (s : State) : Out3 :=
  s.putX d (if lessWord ty (s.xsrc b) (s.xr a) then s.xsrc b else s.xr a)
def execMax (ty : Fmt) (d a : XReg) (b : XSrc) (s : State) : Out3 :=
  s.putX d (if lessWord ty (s.xr a) (s.xsrc b) then s.xsrc b else s.xr a)
def execCmp (c : Cond) (d a : XReg) (b : XSrc) (s : State) : Out3 :=
  s.putX d (if condWord c (s.xr a) (s.xsrc b) then 1 else 0)
def execClz (d a : XReg) (s : State) : Out3 := s.putX d (BitVec.ofNat 64 (clzN 64 (s.xr a).toNat))
def execCtz (d a : XReg) (s : State) : Out3 := s.putX d (BitVec.ofNat 64 (ctzN 64 (s.xr a).toNat))
def execPopc (d a : XReg) (s : State) : Out3 := s.putX d (BitVec.ofNat 64 (popN 64 (s.xr a).toNat))
def execBext (d a : XReg) (b : XSrc) (s : State) : Out3 := s.putX d (bextWord (s.xr a) (s.xsrc b))
def execBins (d a : XReg) (b : XSrc) (s : State) : Out3 := s.putX d (binsWord (s.xr d) (s.xr a) (s.xsrc b))
def execSext (ty : Fmt) (d a : XReg) (s : State) : Out3 := s.putX d (extWord ty (s.xr a))
def execZext (ty : Fmt) (d a : XReg) (s : State) : Out3 := s.putX d (extWord ty (s.xr a))
def execMovh (d a : XReg) (b : XSrc) (s : State) : Out3 :=
  s.putX d ((s.xsrc b).extractLsb' 0 32 ++ (s.xr a).extractLsb' 0 32)
/-- R153. -/
def execCrcw (ty : Fmt) (d a : XReg) (b : XSrc) (s : State) : Out3 :=
  s.putX d ((crcBytes ((s.xr a).extractLsb' 0 32) (leBytes ty.ew (s.xsrc b).toNat)).zeroExtend 64)
def execBswap (d a : XReg) (s : State) : Out3 :=
  s.putX d (BitVec.ofNat 64 (leNat (leBytes 8 (s.xr a).toNat).reverse))

/-! ### Floats (R155 to R157) -/

/-- Operand B of the float class: the f register, or the binary32 pattern, widened for f64 (R54). -/
def State.fsrc (s : State) (ty : Fmt) : FSrc → Nat
  | .reg r => (s.fr r).toNat
  | .imm v => if ty = .f64 then immFloat .f64 .rne v else v.toNat

def execFadd (ty : Fmt) (rnd : Rnd) (d a : FReg) (b : FSrc) (s : State) : Out3 :=
  s.putF d (fBin .fadd ty rnd false (s.fr a).toNat (s.fsrc ty b))
def execFsub (ty : Fmt) (rnd : Rnd) (d a : FReg) (b : FSrc) (s : State) : Out3 :=
  s.putF d (fBin .fsub ty rnd false (s.fr a).toNat (s.fsrc ty b))
def execFmul (ty : Fmt) (rnd : Rnd) (d a : FReg) (b : FSrc) (s : State) : Out3 :=
  s.putF d (fBin .fmul ty rnd false (s.fr a).toNat (s.fsrc ty b))
def execFdiv (ty : Fmt) (rnd : Rnd) (d a : FReg) (b : FSrc) (s : State) : Out3 :=
  s.putF d (fBin .fdiv ty rnd false (s.fr a).toNat (s.fsrc ty b))
def execFsqrt (ty : Fmt) (rnd : Rnd) (d a : FReg) (s : State) : Out3 :=
  s.putF d (fUn .fsqrt ty rnd false (s.fr a).toNat)
def execFrsqrt (ty : Fmt) (rnd : Rnd) (d a : FReg) (s : State) : Out3 :=
  s.putF d (fUn .frsqrt ty rnd false (s.fr a).toNat)
def execFexp2 (ty : Fmt) (rnd : Rnd) (d a : FReg) (s : State) : Out3 :=
  s.putF d (fUn .fexp2 ty rnd false (s.fr a).toNat)
def execFlog2 (ty : Fmt) (rnd : Rnd) (d a : FReg) (s : State) : Out3 :=
  s.putF d (fUn .flog2 ty rnd false (s.fr a).toNat)
def execFma (ty : Fmt) (rnd : Rnd) (d a : FReg) (b : FSrc) (c : FReg) (s : State) : Out3 :=
  s.putF d (fFmaP ty rnd false (s.fr a).toNat (s.fsrc ty b) (s.fr c).toNat)
def execFmin (ty : Fmt) (d a : FReg) (b : FSrc) (s : State) : Out3 :=
  s.putF d (fBin .fmin ty .rne false (s.fr a).toNat (s.fsrc ty b))
def execFmax (ty : Fmt) (d a : FReg) (b : FSrc) (s : State) : Out3 :=
  s.putF d (fBin .fmax ty .rne false (s.fr a).toNat (s.fsrc ty b))
def execFneg (ty : Fmt) (d a : FReg) (s : State) : Out3 := s.putF d (fUn .fneg ty .rne false (s.fr a).toNat)
def execFabs (ty : Fmt) (d a : FReg) (s : State) : Out3 := s.putF d (fUn .fabs ty .rne false (s.fr a).toNat)
def execFcmp (c : Cond) (ty : Fmt) (d : XReg) (a : FReg) (b : FSrc) (s : State) : Out3 :=
  s.putX d (if fCondP c ty (s.fr a).toNat (s.fsrc ty b) then 1 else 0)
def execFcvt (ty src : Fmt) (rnd : Rnd) (d a : FReg) (s : State) : Out3 :=
  s.putF d (convert src ty rnd false (s.fr a).toNat)
def execFcvti (ty src : Fmt) (rnd : Rnd) (sat : Bool) (d : XReg) (a : FReg) (s : State) : Out3 :=
  let q := convert src ty rnd sat (s.fr a).toNat
  (s.orFlags q.2).putX d (Word.ofInt (ival ty q.1))
def execFcvtf (ty src : Fmt) (rnd : Rnd) (d : FReg) (a : XReg) (s : State) : Out3 :=
  s.putF d (convert src ty rnd false (s.xr a).toNat)
def execFmvx (ty : Fmt) (d : XReg) (a : FReg) (s : State) : Out3 :=
  s.putX d (BitVec.ofNat 64 ((s.fr a).toNat % 2 ^ ty.width))
def execFmvf (ty : Fmt) (d : FReg) (a : XReg) (s : State) : Out3 := s.putF d ((s.xr a).toNat % 2 ^ ty.width, 0)

end Machine
end Sys2Proof
end

