-- ==== Sys2Proof/Machine/Control.lean ====
section
/-! DEFINITION. The control class (R26, R48, R49, R158 to R160).
-/
namespace Sys2Proof
namespace Machine

/-- The target of a slot displacement (R49). -/
def target (pc : Word) (disp : BitVec 32) : Word := Word.ofInt (pcOfSlot (slotIndex pc + disp.toInt))

/-- A transfer to a target, checked canonical first and then a slot start; the link register is written only when the
transfer is made (R159). -/
def State.transfer (s : State) (t : Word) (link : XReg) : Out3 :=
  if !canonical t then .next (s.takeTrap 0x12 t t s.sh.pc)
  else if !slotStart t then .next (s.takeTrap 0x04 t 0 s.sh.pc)
  else .next ((s.setX link (nextPc s.sh.pc)).jumpTo t)

def execNop (s : State) : Out3 := .next s.finish
def execBr (c : Cond) (a b : XReg) (disp : BitVec 32) (s : State) : Out3 :=
  if condWord c (s.xr a) (s.xr b) then s.transfer (target s.sh.pc disp) 0 else .next s.finish
def execJmp (disp : BitVec 32) (s : State) : Out3 := s.transfer (target s.sh.pc disp) 0
def execJal (d : XReg) (disp : BitVec 32) (s : State) : Out3 := s.transfer (target s.sh.pc disp) d
def execJr (a : XReg) (s : State) : Out3 := s.transfer (s.xr a) 0
def execJalr (d a : XReg) (s : State) : Out3 := s.transfer (s.xr a) d

/-- The sheet stops issuing and keeps its state (R26); a timer or a pre-emption no longer concerns it. DEDUCED: log 25. -/
def execHalt (s : State) : Out3 :=
  .next { s with sh := { s.sh with run := .halted, ahead := [] } }

/-- R160: the oldest word leaves the queue; bit 63 says that posts were discarded. -/
def execEvwait (d : XReg) (s : State) : Out3 :=
  match s.sh.evq.words with
  | [] => runEff (.error (.wait s))
  | w :: l =>
    let v := setFld w 63 1 (if s.sh.evq.lost then 1 else 0)
    let s := s.setX d v
    .next ({ s with sh := { s.sh with evq := ⟨l, s.sh.evq.head + 1, false⟩ } } : State).finish

end Machine
end Sys2Proof
end

