-- ==== Sys2Proof/Machine/ScalarMem.lean ====
section
/-! DEFINITION. Scalar loads (R161 to R164, R167), and `lda` (R165).
-/
namespace Sys2Proof
namespace Machine

/-- The virtual address of a scalar access (R163). -/
def State.va (s : State) (a : XReg) (disp : BitVec 32) : Word := s.xr a + sext32 disp

/-- A loaded pattern goes to the x or the f register that the format names (R163). -/
def State.putData (s : State) (ty : Fmt) (r : XReg) (v : Nat) : State :=
  if ty.isFloat then s.setF (freg r.val) (BitVec.ofNat 64 v) else s.setX r (Word.ofInt (ival ty v))

/-- The low ew bytes of a data register. -/
def State.getData (s : State) (ty : Fmt) (r : XReg) : List Byte :=
  leBytes ty.ew (if ty.isFloat then (s.fr (freg r.val)).toNat else (s.xr r).toNat)

def execLd (ty : Fmt) (d a : XReg) (disp : BitVec 32) (s : State) : Out3 :=
  runEff do
    let (b, s') ← s.sLoad (s.va a disp) ty.ew ty.ew
    pure (s'.putData ty d (leNat b))

def execLdp (ty : Fmt) (d c a : XReg) (disp : BitVec 32) (s : State) : Out3 :=
  runEff do
    let (b, s') ← s.sLoad (s.va a disp) 16 8
    pure ((s'.putData ty d (leNat (b.take 8))).putData ty c (leNat (b.drop 8)))

/-- The load is performed as an `ld`; the Outrider issues no later load before it (R165, `Instr.holdsA`). It writes no dirty byte back:
R161 does not name it. DEDUCED: log 118. -/
def execLda (ty : Fmt) (scp : Scope) (d a : XReg) (disp : BitVec 32) (s : State) : Out3 :=
  let _ := scp
  runEff do
    let (b, s') ← s.sLoad (s.va a disp) ty.ew ty.ew
    pure (s'.putData ty d (leNat b))

end Machine
end Sys2Proof
end

