-- ==== Sys2Proof/Machine/Operands.lean ====
section
/-! DEFINITION. Vector operands: groups, masks, policies, blocks, the writes with their tags (R30 to R35, R42, R168 to
R171), and the reads of bound groups (R273 to R277).
-/
namespace Sys2Proof

/-- The groups that operand B reads. -/
def VSrc.regs : VSrc → List VReg
  | .reg b => [b]
  | .imm _ => []

namespace Machine

/-! ### Elements -/

/-- The VSTORE offset of element i of the group at register b, ew bytes wide (R31, R168). -/
def Spr.elemOff (p : Spr) (b ew i : Nat) : Nat := (b + i / p.vln) * p.rbytes + i % p.vln * ew
/-- The VSTORE offset of block j of a group (R82). -/
def Spr.blkOff (p : Spr) (b j : Nat) : Nat := (b + 8 * j / p.vln) * p.rbytes + 8 * j % p.vln / 8 * 5
/-- Where a policy or a store finds element i of a group, with its size: a whole block for fp4b. -/
def Spr.itemOff (p : Spr) (b : Nat) (t : Fmt) (i : Nat) : Nat := if t = .fp4b then p.blkOff b i else p.elemOff b t.ew i
/-- The number of items of a group: flat indices, or blocks for fp4b. -/
def Spr.items (p : Spr) (t : Fmt) : Nat := if t = .fp4b then p.flat / 8 else p.flat
/-- The flat index that governs an item (R170). -/
def govern (t : Fmt) (i : Nat) : Nat := if t = .fp4b then 8 * i else i

/-- The bits of element i of a group. -/
def Sheet.elem (h : Sheet) (b : VReg) (t : Fmt) (i : Nat) : Nat := h.vstore.nat (h.spr.elemOff b.val t.ew i) t.ew
/-- The bits of block j of a group. -/
def Sheet.blk (h : Sheet) (b : VReg) (j : Nat) : Nat := h.vstore.nat (h.spr.blkOff b.val j) 5
/-- The place in the BVM of the block at a VSTORE offset (R34, R289). -/
def Spr.bvmIx (p : Spr) (off : Nat) : Nat := off / p.rbytes * (p.rbytes / 5) + off % p.rbytes / 5
/-- The validity of block j of a group. -/
def Sheet.blkOk (h : Sheet) (b : VReg) (j : Nat) : Bool := h.bvm.getLsbD (h.spr.bvmIx (h.spr.blkOff b.val j))

/-! ### Masks and policies -/

def Sheet.mbit (h : Sheet) (m : MReg) (i : Nat) : Bool := h.m[m.val].getLsbD i
def Sheet.maskBit (h : Sheet) : VMask → Nat → Bool
  | .none, _ => true
  | .by m _, i => h.mbit m i
/-- R33. -/
def Sheet.active (h : Sheet) (k : VMask) (i : Nat) : Bool := i < h.spr.aecn && h.maskBit k i

/-- What becomes of an element (R33, R168). -/
inductive ElAct where
  | compute | fill | keep
  deriving DecidableEq, Repr

def fillOr (b : Bool) : ElAct := if b then .fill else .keep

def Sheet.act (h : Sheet) (k : VMask) (i : Nat) : ElAct :=
  if i < h.spr.aecn then (if h.maskBit k i then .compute else fillOr (!k.keeps)) else fillOr h.spr.tail

/-! ### Writes (R34, R35) -/

/-- Bytes to write at a VSTORE offset; the validity of the block written, for fp4b. -/
structure VWrite where
  off : Nat
  bytes : List Byte
  valid : Option Bool

def setBit {n : Nat} (v : BitVec n) (i : Nat) (b : Bool) : BitVec n :=
  if b then v ||| BitVec.ofNat n (2 ^ i) else v &&& ~~~(BitVec.ofNat n (2 ^ i))

/-- The blocks of a register that n bytes at an offset overlap, as offsets. -/
def blocksAt (sb off n : Nat) : List Nat :=
  let o := off % sb
  ((List.range ((o + n - 1) / 5 + 1 - o / 5)).map fun k => o / 5 + k).filterMap fun j =>
    if j < sb / 5 then some (off - o + 5 * j) else none

/-- The BVM after a write, given the bytes after it. -/
def bvmWrite (p : Spr) (vs : Memory) (b : BitVec 26624) (w : VWrite) : BitVec 26624 :=
  match w.valid with
  | some v => setBit b (p.bvmIx w.off) v
  | none => (blocksAt p.rbytes w.off w.bytes.length).foldl (fun b o => setBit b (p.bvmIx o) (vs.byte o != 0xFF#8)) b

def touchMax (sb : Nat) (t : Vector Nat 64) (w : VWrite) : Vector Nat 64 :=
  t.setIfInBounds (w.off / sb) (max (t[w.off / sb]?.getD 0) (w.off % sb + w.bytes.length))

/-- Writes to VSTORE, with the BVM, the dirty bits and the touched lengths. -/
def Sheet.putV (h : Sheet) (l : List VWrite) : Sheet :=
  let vs := l.foldl (fun m w => m.setBytes w.off w.bytes) h.vstore
  { h with
    vstore := vs
    bvm := l.foldl (bvmWrite h.spr vs) h.bvm
    vdirty := l.foldl (fun b w => setBit b (w.off / h.spr.rbytes) true) h.vdirty
    vtouch := l.foldl (touchMax h.spr.rbytes) h.vtouch }

/-- Bits to write to a mask register. -/
def Sheet.putM (h : Sheet) (d : MReg) (l : List (Nat × Bool)) : Sheet :=
  { h with
    m := h.m.set d.val (l.foldl (fun v q => setBit v q.1 q.2) h.m[d.val])
    mdirty := if l.isEmpty then h.mdirty else setBit h.mdirty d.val true
    mtouch := h.mtouch.set d.val (l.foldl (fun n q => max n (q.1 / 8 + 1)) h.mtouch[d.val]) }

/-- The write of an item: its bits, and its validity for fp4b. -/
def Sheet.item (h : Sheet) (d : VReg) (t : Fmt) (i bits : Nat) (ok : Bool) : VWrite :=
  ⟨h.spr.itemOff d.val t i, leBytes t.ew bits, if t = .fp4b then some ok else none⟩
/-- The fill of an item: every byte 0xFF (R33, R170). -/
def Sheet.fillItem (h : Sheet) (d : VReg) (t : Fmt) (i : Nat) : VWrite :=
  ⟨h.spr.itemOff d.val t i, List.replicate t.ew 0xFF, if t = .fp4b then some false else none⟩

/-- The numbers from lo below hi. -/
def span (lo hi : Nat) : List Nat := (List.range (hi - lo)).map fun k => lo + k

/-- The items that the tail policy or the mask policy may still fill, from lo: none above AEC under keep. -/
def Spr.reach (p : Spr) (t : Fmt) : Nat :=
  if p.tail then p.items t else min (p.items t) (if t = .fp4b then ceilDiv p.aecn 8 else p.aecn)

/-- The writes of the items from lo below hi whose computed bits `el` gives (R33, R168, R170). -/
def Sheet.sweepW (h : Sheet) (d : VReg) (t : Fmt) (k : VMask) (lo hi : Nat) (el : Nat → Nat × Bool) : List VWrite :=
  (span lo hi).filterMap fun i =>
    match h.act k (govern t i) with
    | .compute => some (h.item d t i (el i).1 (el i).2)
    | .fill => some (h.fillItem d t i)
    | .keep => none

/-- The OR of the flags of the computed items. -/
def Sheet.sweepF (h : Sheet) (t : Fmt) (k : VMask) (lo hi : Nat) (fl : Nat → Flags) : Flags :=
  ((span lo hi).filter fun i => h.act k (govern t i) = .compute).foldl (fun a i => a ||| fl i) 0

/-- The bits of a mask destination (R171). -/
def Sheet.sweepM (h : Sheet) (k : VMask) (lo hi : Nat) (el : Nat → Bool) : List (Nat × Bool) :=
  (span lo hi).filterMap fun i =>
    match h.act k i with
    | .compute => some (i, el i)
    | .fill => some (i, true)
    | .keep => none

/-! ### Checks of a group (R30, R31, R42, R275) -/

/-- The number of a group is one that a field may hold, a check of decoding (R52, R58). -/
def Sheet.fieldOk (h : Sheet) (b : VReg) : Bool := b.val < h.spr.nreg && b.val % h.spr.rc = 0

/-- DEDUCED: log 19. -/
def Sheet.groupOk (h : Sheet) (b : VReg) (t : Fmt) : Bool :=
  h.fieldOk b && h.spr.vln ≤ vlmax h.spr.rbytes t && (t != .fp4b || h.spr.vln % 8 = 0)

def Sheet.overlap (h : Sheet) (a b : VReg) : Bool := a.val < b.val + h.spr.rc && b.val < a.val + h.spr.rc

/-- Stream descriptor fields (R273). -/
def osBase (o : BitVec 256) : Word := o.extractLsb' 0 64
def osStride (o : BitVec 256) : Word := o.extractLsb' 64 64
def osFmt (o : BitVec 256) : Option Fmt := Fmt.ofCode (wfld o 128 8)
def osReg (o : BitVec 256) : Nat := wfld o 136 6
def osBound (o : BitVec 256) : Bool := wfld o 143 1 = 1
def osNext (o : BitVec 256) : Nat := wfld o 192 48

/-- The bound group of a stream holds a register of the group at b. -/
def Sheet.touchesBound (h : Sheet) (b : VReg) (o : BitVec 256) : Bool :=
  osBound o && osReg o < b.val + h.spr.rc && b.val < osReg o + h.spr.rc

/-- Writing any register of a bound group is forbidden. DEDUCED: log 19. -/
def Sheet.writeOk (h : Sheet) (b : VReg) : Bool := !h.o.toList.any (h.touchesBound b)

/-- A group that contains the register of a bound stream is read only at its base, and then R42 holds in the stream's
format. -/
def Sheet.readOk (h : Sheet) (b : VReg) : Bool :=
  h.o.toList.all fun o =>
    !(osBound o && b.val ≤ osReg o && osReg o < b.val + h.spr.rc) ||
      (osReg o = b.val && match osFmt o with
        | some t => h.spr.vln ≤ vlmax h.spr.rbytes t
        | none => false)

/-- The checks of a group that is read, and of one that is written. -/
def Sheet.srcOk (h : Sheet) (b : VReg) (t : Fmt) : Bool := h.groupOk b t && h.readOk b
def Sheet.dstOk (h : Sheet) (b : VReg) (t : Fmt) : Bool := h.groupOk b t && h.writeOk b

/-- Operand B of a vector instruction as a function of the element (R54). DEDUCED: log 22. -/
def immBits (t : Fmt) (r : Rnd) (v : BitVec 32) : Nat :=
  if t.isInt then (if t.isI then wrapTo t.width v.toInt else v.toNat % 2 ^ t.width) else immFloat t r v
def Sheet.vsrc (h : Sheet) (t : Fmt) (r : Rnd) : VSrc → Nat → Nat
  | .reg b, i => h.elem b t i
  | .imm v, _ => immBits t r v
def Sheet.vsrcOk (h : Sheet) (t : Fmt) : VSrc → Bool
  | .reg b => h.srcOk b t
  | .imm _ => true

/-! ### Bound reads (R275 to R277) -/

/-- The streams bound to a group of a list, each once. -/
def Sheet.boundAt (h : Sheet) (regs : List VReg) : List (Fin 4) :=
  (List.finRange 4).filter fun n => osBound h.o[n.val] && regs.any fun r => r.val = osReg h.o[n.val]

/-- The writes of the elements a slot holds, from 0 below hi, in the stream's format, with the tail once the slot is read
whole. -/
def Sheet.slotW (h : Sheet) (o : BitVec 256) (sl : BSlot) (hi : Nat) : List VWrite :=
  match osFmt o with
  | none => []
  | some t =>
    let b : VReg := Fin.ofNat 64 (osReg o)
    (((span 0 (min hi sl.elems.length)).zip sl.elems).filterMap fun q =>
      match q.2 with
      | .val v => some (h.item b t q.1 v true)
      | _ => none) ++
    (if hi ≥ sl.count && h.spr.tail then (span sl.count h.spr.flat).map fun i => h.fillItem b t i else [])

/-- The first element of a slot that holds no value. -/
def BSlot.bad (sl : BSlot) : Option (Nat × ElemRes) :=
  ((List.range sl.elems.length).zip sl.elems).find? fun q => match q.2 with
    | .val _ => false
    | _ => true

/-- A slot serves a read at the stream's place in program order, once every element has come, unless its fault was taken before:
its elements are then fetched again (R277). -/
def Sheet.slotFits (h : Sheet) (o : BitVec 256) (sl : BSlot) : Bool :=
  sl.start = osNext o && sl.count = h.spr.aecn && (sl.elems.length = sl.count || sl.bad.isSome) && !sl.taken

/-- The head slot that a read of stream n takes, if it is filled. -/
def Sheet.headSlot (h : Sheet) (n : Fin 4) : Option BSlot :=
  match h.bslots[n.val] with
  | [] => none
  | sl :: _ => if h.slotFits h.o[n.val] sl then some sl else none

/-- The read takes its slot: the elements below e are in the group, NEXT grows, the slot is gone. -/
def Sheet.takeSlot (e : Nat) (h : Sheet) (n : Fin 4) : Sheet :=
  match h.headSlot n with
  | none => h
  | some sl =>
    let h := h.putV (h.slotW h.o[n.val] sl (min e sl.count))
    { h with
      o := h.o.set n.val (wsetFld h.o[n.val] 192 48 (osNext h.o[n.val] + sl.count))
      bslots := h.bslots.set n.val h.bslots[n.val].tail }

/-- The reads of the groups of a list, elements below e. -/
def Sheet.takeReads (h : Sheet) (e : Nat) (regs : List VReg) : Sheet := (h.boundAt regs).foldl (Sheet.takeSlot e) h

/-- The lesser of two recorded faults, the first at a tie. -/
def lesser : Option (Nat × ElemRes) → Option (Nat × ElemRes) → Option (Nat × ElemRes)
  | none, b => b
  | a, none => a
  | some a, some b => if b.1 < a.1 then some b else some a

/-- What the reads of some instructions, one after another, meet: nothing when one must wait, else the least recorded
fault, if any (R189). -/
def Sheet.scanReads : Sheet → List (List VReg) → Option (Option (Nat × ElemRes))
  | _, [] => some none
  | h, regs :: l =>
    let ns := h.boundAt regs
    if ns.any fun n => (h.headSlot n).isNone then none
    else
      let bad := ns.foldl (fun q n => lesser q ((h.headSlot n).bind BSlot.bad)) none
      (Sheet.scanReads (h.takeReads maxFlat regs) l).map (lesser bad)

/-- A slot of an instruction that a recorded fault of element e stops keeps the elements below e: the rest is fetched again
(R277). -/
def BSlot.cut (e : Nat) (sl : BSlot) : BSlot := { sl with elems := sl.elems.take e, taken := true }

/-- The streams as they stood: a read that a recorded fault of element e stops has consumed nothing. Its own slots stay at the head of
their bindings with their elements below e, and all other fills are discarded with the run-ahead work (R260, R276, R277). DEDUCED: log
30. -/
def Sheet.keepSlots (h : Sheet) (was : Sheet) (e : Nat) (regs : List VReg) : Sheet :=
  { h with
    o := was.o
    bslots := Vector.ofFn fun n : Fin 4 =>
      if was.boundAt regs |>.contains n then (was.bslots[n.val].take 1).map (BSlot.cut e) else [] }

/-- What a recorded fault of element e comes to, the sheet's EPOS and GRPL already set. DEDUCED: log 38. -/
def elemStop (s : State) (e : Nat) : ElemRes → Stop
  | .flt c a => .trap c (BitVec.ofNat 64 e) a s
  | .kill va line => .pois va line s
  | .val _ => .wait s

/-- EPOS and GRPL. -/
def State.setEpos (s : State) (e g : Nat) : State :=
  s.mapSpr fun p => { p with epos := BitVec.ofNat 64 e, grpl := BitVec.ofNat 64 g }

/-- EPOS := 0 and GRPL := 0 (R168, R190). -/
def State.clearEpos (s : State) : State := s.setEpos 0 0

def State.withSheet (s : State) (h : Sheet) : State := { s with sh := h }

/-- The read of the groups of a list by an instruction on its own: the least faulted element stops it with EPOS at it and
GRPL = 1 (R190, R277), and an unfilled slot makes it wait (R276). -/
def State.consume (s : State) (regs : List VReg) : Eff :=
  match s.sh.scanReads [regs] with
  | none => .error (.wait s)
  | some none => .ok (s.withSheet (s.sh.takeReads maxFlat regs))
  | some (some q) =>
    .error (elemStop ((s.withSheet ((s.sh.takeReads q.1 regs).keepSlots s.sh q.1 regs)).setEpos q.1 1) q.1 q.2)

/-- The same for a class that R190 does not name: EPOS and GRPL end at zero only when a slot was taken. -/
def State.consumeC (s : State) (regs : List VReg) : Eff := do
  let s' ← s.consume regs
  pure (if (s.sh.boundAt regs).isEmpty then s' else s'.clearEpos)

/-- A stop after the reads has consumed nothing: a wait leaves their slots in place, and a trap discards them with the other
run-ahead work, to be fetched again (R260). DEDUCED: log 30. -/
def Stop.keepSlots (was : Sheet) : Stop → Stop
  | .trap c tv fa s => .trap c tv fa (s.withSheet { s.sh with o := was.o, bslots := was.bslots })
  | .wait s => .wait (s.withSheet { s.sh with o := was.o, bslots := was.bslots })
  | .pois va line s => .pois va line s

/-- Bound reads, then an effect that completes or leaves the slots in place; EPOS and GRPL end at zero. -/
def State.vecBody (s : State) (regs : List VReg) (f : State → Eff) : Eff := do
  let s' ← s.consume regs
  match f s' with
  | .ok s'' => pure s''.clearEpos
  | .error st => .error (st.keepSlots s.sh)

/-- The same for a load or a store, whose elements below a recorded fault are done before it is taken (R190, R277). `f` is told
below which flat index to work. The fault of a bound index group leaves GRPL 1 in a gather too (DEDUCED: log 121), and it is taken
where a trimmed load has lowered AEC to an element before it (DEDUCED: log 122). -/
def State.memBody (s : State) (regs : List VReg) (f : Nat → State → Eff) : Eff :=
  match s.sh.scanReads [regs] with
  | some (some q) =>
    match f q.1 (s.withSheet (s.sh.takeReads q.1 regs)) with
    | .ok s' => .error (elemStop ((s'.withSheet (s'.sh.keepSlots s.sh q.1 regs)).setEpos q.1 1) q.1 q.2)
    | .error st => .error (st.keepSlots s.sh)
  | _ => s.vecBody regs (f maxFlat)

/-- The checks, then `memBody`. DEDUCED: log 43. -/
def State.memDo (s : State) (ok : Bool) (regs : List VReg) (f : Nat → State → Eff) : Out3 :=
  runEff do
    need s ok
    s.memBody regs f

/-- The checks, then `vecBody`. DEDUCED: log 43. -/
def State.vecDo (s : State) (ok : Bool) (regs : List VReg) (f : State → Eff) : Out3 :=
  runEff do
    need s ok
    s.vecBody regs f

end Machine
end Sys2Proof
end

