-- ==== Sys2Proof/Machine/Vec.lean ====
section
/-! DEFINITION. The elementwise vector instructions as descriptions that run over a range of elements, and the run of a
chain group of them (R168 to R190).
-/
namespace Sys2Proof

/-- The wide partner of a format (R184). -/
def Fmt.wide : Fmt → Fmt
  | .i8 => .i16
  | .i16 => .i32
  | .i32 => .i64
  | .n8 => .n16
  | .n16 => .n32
  | .n32 => .n64
  | .f32 => .f64
  | .e4m3 => .f16
  | .e5m2 => .f16
  | _ => .f32

namespace Machine

/-- The destination of an elementwise instruction. -/
inductive VDst where
  | grp (d : VReg)
  | mask (d : MReg)
  deriving DecidableEq, Repr

/-- An elementwise instruction: the groups it reads, its checks, and its effect on the elements from lo below hi. -/
structure VecOp where
  reads : List VReg
  ok : Sheet → Bool
  run : Sheet → Nat → Nat → Sheet × Flags
  dst : VDst
  mask : VMask
  /-- It may stand in a chain group (R187). -/
  joins : Bool

/-- One result per element. -/
def VecOp.map (d : VReg) (t : Fmt) (k : VMask) (reads : List VReg) (ok : Sheet → Bool)
    (el : Sheet → Nat → Nat × Flags) : VecOp where
  reads := reads
  ok := fun h => h.dstOk d t && ok h
  run := fun h lo hi =>
    let hi := min hi (h.spr.reach t)
    (h.putV (h.sweepW d t k lo hi fun i => ((el h i).1, true)), h.sweepF t k lo hi fun i => (el h i).2)
  dst := .grp d
  mask := k
  joins := true

/-- One result per block of fp4b: its bits, flags and validity (R170). A stop or a resumption at an element inside a block leaves
the block uncomputed at the stop and computes it whole at the resumption. DESIGN CHOICE: log 110. -/
def VecOp.blocks (d : VReg) (k : VMask) (reads : List VReg) (ok : Sheet → Bool)
    (el : Sheet → Nat → Nat × Flags × Bool) : VecOp where
  reads := reads
  ok := fun h => h.dstOk d .fp4b && ok h
  run := fun h lo hi =>
    let lo := lo / 8
    let hi := min (hi / 8) (h.spr.reach .fp4b)
    (h.putV (h.sweepW d .fp4b k lo hi fun j => ((el h j).1, (el h j).2.2)), h.sweepF .fp4b k lo hi fun j => (el h j).2.1)
  dst := .grp d
  mask := k
  joins := false

/-- One mask bit per element (R171). -/
def VecOp.bits (d : MReg) (k : VMask) (reads : List VReg) (ok : Sheet → Bool) (el : Sheet → Nat → Bool) : VecOp where
  reads := reads
  ok := ok
  run := fun h lo hi => (h.putM d (h.sweepM k lo (min hi h.spr.flat) (el h)), 0)
  dst := .mask d
  mask := k
  joins := true

/-! ### The descriptions -/

def vBin (u : MapBin) (m : VMod) (d a : VReg) (b : VSrc) : VecOp :=
  .map d m.ty m.mask (a :: b.regs) (fun h => h.srcOk a m.ty && h.vsrcOk m.ty b) fun h i =>
    if m.ty = .ing then ingAdd (h.elem a .ing i) (h.vsrc .ing .rne b i)
    else (iBin u m.ty m.sat (h.elem a m.ty i) (h.vsrc m.ty .rne b i), 0)

def vUn (u : MapUn) (m : VMod) (d a : VReg) : VecOp :=
  .map d m.ty m.mask [a] (fun h => h.srcOk a m.ty) fun h i => (iUn u m.ty m.sat (h.elem a m.ty i), 0)

def vCmp (c : Cond) (m : VMod) (d : MReg) (a : VReg) (b : VSrc) : VecOp :=
  .bits d m.mask (a :: b.regs) (fun h => h.srcOk a m.ty && h.vsrcOk m.ty b) fun h i =>
    iCondP c m.ty (h.elem a m.ty i) (h.vsrc m.ty .rne b i)

def vFcmp (c : Cond) (m : VMod) (d : MReg) (a : VReg) (b : VSrc) : VecOp :=
  .bits d m.mask (a :: b.regs) (fun h => h.srcOk a m.ty && h.vsrcOk m.ty b) fun h i =>
    fCondP c m.ty (h.elem a m.ty i) (h.vsrc m.ty .rne b i)

def vSel (m : VMod) (d a b c : VReg) : VecOp :=
  .map d m.ty m.mask [a, b, c] (fun h => h.srcOk a m.ty && h.srcOk b m.ty && h.srcOk c m.ty) fun h i =>
    (if h.elem c m.ty i ≠ 0 then h.elem a m.ty i else h.elem b m.ty i, 0)

def vMov (m : VMod) (d : VReg) (a : VSrc) : VecOp :=
  if m.ty = .fp4b then
    match a with
    | .reg r => .blocks d m.mask [r] (fun h => h.srcOk r .fp4b) fun h j => (h.blk r j, 0, h.blkOk r j)
    | .imm _ => .blocks d m.mask [] (fun _ => false) fun _ _ => (0, 0, true)
  else .map d m.ty m.mask a.regs (fun h => h.vsrcOk m.ty a) fun h i => (h.vsrc m.ty m.rnd a i, 0)

/-- The values of a source block: zeros for an invalid one (R84). -/
def Sheet.blkVals (h : Sheet) (a : VReg) (j : Nat) : List FVal :=
  if h.blkOk a j then fp4Vals (h.blk a j) else List.replicate 8 (.zero false)

/-- The eight values of a computed block: +0 where an element is not active (R170). -/
def Sheet.packIn (h : Sheet) (k : VMask) (j : Nat) (val : Nat → FVal) : List FVal :=
  (List.range 8).map fun q => if h.active k (8 * j + q) then val q else .zero false

/-- A block computed from source blocks: invalid, with NV alone, when one of them is (R84, R181). -/
def Sheet.fp4Result (h : Sheet) (m : VMod) (srcs : List VReg) (j : Nat) (val : Nat → FVal) : Nat × Flags × Bool :=
  if srcs.all fun a => h.blkOk a j then fp4Pack m.rnd m.sat (h.packIn m.mask j val) else (fp4Invalid, flNV, false)

def vFbin (u : MapBin) (m : VMod) (d a : VReg) (b : VSrc) : VecOp :=
  if m.ty = .fp4b then
    match b with
    | .reg r => .blocks d m.mask [a, r] (fun h => h.srcOk a .fp4b && h.srcOk r .fp4b) fun h j =>
        h.fp4Result m [a, r] j fun q =>
          (fExact u m.rnd ((h.blkVals a j).getD q .nan) ((h.blkVals r j).getD q .nan)).1
    | .imm _ => .blocks d m.mask [] (fun _ => false) fun _ _ => (0, 0, true)
  else .map d m.ty m.mask (a :: b.regs) (fun h => h.srcOk a m.ty && h.vsrcOk m.ty b) fun h i =>
    fBin u m.ty m.rnd m.sat (h.elem a m.ty i) (h.vsrc m.ty m.rnd b i)

def vFun (u : MapUn) (m : VMod) (d a : VReg) : VecOp :=
  if m.ty = .fp4b then
    .blocks d m.mask [a] (fun h => h.srcOk a .fp4b) fun h j =>
      h.fp4Result m [a] j fun q => (fExactUn u ((h.blkVals a j).getD q .nan)).1
  else .map d m.ty m.mask [a] (fun h => h.srcOk a m.ty) fun h i => fUn u m.ty m.rnd m.sat (h.elem a m.ty i)

def vFma (m : VMod) (d a : VReg) (b : VSrc) (c : VReg) : VecOp :=
  .map d m.ty m.mask (a :: c :: b.regs) (fun h => h.srcOk a m.ty && h.vsrcOk m.ty b && h.srcOk c m.ty) fun h i =>
    fFmaP m.ty m.rnd m.sat (h.elem a m.ty i) (h.vsrc m.ty m.rnd b i) (h.elem c m.ty i)

/-- A conversion between formats; groups of different widths do not overlap (R169). -/
def vConv (m : VMod) (src dst : Fmt) (d a : VReg) : VecOp :=
  .map d dst m.mask [a] (fun h => h.srcOk a src && (src.ew = dst.ew || !h.overlap d a)) fun h i =>
    convert src dst m.rnd m.sat (h.elem a src i)

def vPack (m : VMod) (src : Fmt) (d a : VReg) : VecOp :=
  .blocks d m.mask [a] (fun h => h.srcOk a src && !h.overlap d a) fun h j =>
    fp4Pack m.rnd m.sat (h.packIn m.mask j fun q => fdecode src (h.elem a src (8 * j + q)))

def vUnpack (m : VMod) (d a : VReg) : VecOp :=
  .map d m.ty m.mask [a] (fun h => h.srcOk a .fp4b && !h.overlap d a) fun h i =>
    if h.blkOk a (i / 8) then fround m.ty m.rnd false ((fp4Vals (h.blk a (i / 8))).getD (i % 8) .nan)
    else (m.ty.nanPat, flNV)

/-- R88. -/
def vInga (m : VMod) (d a b : VReg) : VecOp :=
  .map d .ing m.mask [a, b] (fun h => h.srcOk a .f32 && h.srcOk b .f32 && !h.overlap d a && !h.overlap d b) fun h i =>
    ingAcc (h.elem d .ing i) (fdecode .f32 (h.elem a .f32 i)) (fdecode .f32 (h.elem b .f32 i))

/-! ### Running a group (R187, R189, R190) -/

/-- The members one after another on the elements from lo below hi; reads take the elements below e of their slots. A follower that
reads the producer's group under another element width takes the bytes as they stand, those of a chain stopped mid-tile partly
written. DEDUCED: log 119. -/
def runOps (lo hi e : Nat) (h : Sheet) (ops : List VecOp) : Sheet × Flags :=
  ops.foldl (fun q op => let r := op.run (q.1.takeReads e op.reads) lo hi; (r.1, q.2 ||| r.2)) (h, 0)

/-- A chain group, or one instruction: from EPOS on, complete, waiting, or stopped at the least faulted element with GRPL the number
of members. A member that its own checks turn away ends what runs now: those before it complete as a group, and it traps when it is
the head. DEDUCED: log 42, 43. -/
def State.runChain (s : State) (ops : List VecOp) : Out3 :=
  let lo := fld s.sh.spr.epos 0 15
  let good := ops.takeWhile fun op => op.ok s.sh
  if good.isEmpty then .next (s.takeTrap 0x01 0 0 s.sh.pc)
  else match s.sh.scanReads (good.map VecOp.reads) with
    | none => .next (Stop.wait (s.setEpos lo ops.length)).take
    | some none =>
      let q := runOps lo s.sh.spr.flat maxFlat s.sh good
      .next (((s.withSheet q.1).orFlags q.2).clearEpos.finishN good.length)
    | some (some f) =>
      let q := runOps lo f.1 f.1 s.sh good
      .next (elemStop (((s.withSheet (q.1.keepSlots s.sh f.1 (good.flatMap VecOp.reads))).orFlags q.2).setEpos f.1 ops.length)
        f.1 f.2).take

/-! ### The instructions -/

def execVadd (m : VMod) (d a : VReg) (b : VSrc) (s : State) : Out3 := s.runChain [vBin .add m d a b]
def execVsub (m : VMod) (d a : VReg) (b : VSrc) (s : State) : Out3 := s.runChain [vBin .sub m d a b]
def execVmul (m : VMod) (d a : VReg) (b : VSrc) (s : State) : Out3 := s.runChain [vBin .mul m d a b]
def execVmulh (m : VMod) (d a : VReg) (b : VSrc) (s : State) : Out3 := s.runChain [vBin .mulh m d a b]
def execVdiv (m : VMod) (d a : VReg) (b : VSrc) (s : State) : Out3 := s.runChain [vBin .div m d a b]
def execVrem (m : VMod) (d a : VReg) (b : VSrc) (s : State) : Out3 := s.runChain [vBin .rem m d a b]
def execVand (m : VMod) (d a : VReg) (b : VSrc) (s : State) : Out3 := s.runChain [vBin .and m d a b]
def execVor (m : VMod) (d a : VReg) (b : VSrc) (s : State) : Out3 := s.runChain [vBin .or m d a b]
def execVxor (m : VMod) (d a : VReg) (b : VSrc) (s : State) : Out3 := s.runChain [vBin .xor m d a b]
def execVshl (m : VMod) (d a : VReg) (b : VSrc) (s : State) : Out3 := s.runChain [vBin .shl m d a b]
def execVshr (m : VMod) (d a : VReg) (b : VSrc) (s : State) : Out3 := s.runChain [vBin .shr m d a b]
def execVsar (m : VMod) (d a : VReg) (b : VSrc) (s : State) : Out3 := s.runChain [vBin .sar m d a b]
def execVmin (m : VMod) (d a : VReg) (b : VSrc) (s : State) : Out3 := s.runChain [vBin .min m d a b]
def execVmax (m : VMod) (d a : VReg) (b : VSrc) (s : State) : Out3 := s.runChain [vBin .max m d a b]
def execVabs (m : VMod) (d a : VReg) (s : State) : Out3 := s.runChain [vUn .abs m d a]
def execVneg (m : VMod) (d a : VReg) (s : State) : Out3 := s.runChain [vUn .neg m d a]
def execVcmp (c : Cond) (m : VMod) (d : MReg) (a : VReg) (b : VSrc) (s : State) : Out3 := s.runChain [vCmp c m d a b]
def execVsel (m : VMod) (d a b c : VReg) (s : State) : Out3 := s.runChain [vSel m d a b c]
def execVmov (m : VMod) (d : VReg) (a : VSrc) (s : State) : Out3 := s.runChain [vMov m d a]
def execVclz (m : VMod) (d a : VReg) (s : State) : Out3 := s.runChain [vUn .clz m d a]
def execVpopc (m : VMod) (d a : VReg) (s : State) : Out3 := s.runChain [vUn .popc m d a]
def execVfadd (m : VMod) (d a : VReg) (b : VSrc) (s : State) : Out3 := s.runChain [vFbin .fadd m d a b]
def execVfsub (m : VMod) (d a : VReg) (b : VSrc) (s : State) : Out3 := s.runChain [vFbin .fsub m d a b]
def execVfmul (m : VMod) (d a : VReg) (b : VSrc) (s : State) : Out3 := s.runChain [vFbin .fmul m d a b]
def execVfdiv (m : VMod) (d a : VReg) (b : VSrc) (s : State) : Out3 := s.runChain [vFbin .fdiv m d a b]
def execVfsqrt (m : VMod) (d a : VReg) (s : State) : Out3 := s.runChain [vFun .fsqrt m d a]
def execVfrsqrt (m : VMod) (d a : VReg) (s : State) : Out3 := s.runChain [vFun .frsqrt m d a]
def execVfexp2 (m : VMod) (d a : VReg) (s : State) : Out3 := s.runChain [vFun .fexp2 m d a]
def execVflog2 (m : VMod) (d a : VReg) (s : State) : Out3 := s.runChain [vFun .flog2 m d a]
def execVfma (m : VMod) (d a : VReg) (b : VSrc) (c : VReg) (s : State) : Out3 := s.runChain [vFma m d a b c]
def execVfmin (m : VMod) (d a : VReg) (b : VSrc) (s : State) : Out3 := s.runChain [vFbin .fmin m d a b]
def execVfmax (m : VMod) (d a : VReg) (b : VSrc) (s : State) : Out3 := s.runChain [vFbin .fmax m d a b]
def execVfabs (m : VMod) (d a : VReg) (s : State) : Out3 := s.runChain [vFun .fabs m d a]
def execVfneg (m : VMod) (d a : VReg) (s : State) : Out3 := s.runChain [vFun .fneg m d a]
def execVfcmp (c : Cond) (m : VMod) (d : MReg) (a : VReg) (b : VSrc) (s : State) : Out3 := s.runChain [vFcmp c m d a b]
def execVcvt (m : VMod) (src : Fmt) (d a : VReg) (s : State) : Out3 := s.runChain [vConv m src m.ty d a]
def vWiden (m : VMod) (d a : VReg) : VecOp :=
  .map d m.ty.wide m.mask [a] (fun h => h.srcOk a m.ty && !h.overlap d a) fun h i =>
    convert m.ty m.ty.wide .rne false (h.elem a m.ty i)
def execVwiden (m : VMod) (d a : VReg) (s : State) : Out3 := s.runChain [vWiden m d a]
def execVnarrow (m : VMod) (d a : VReg) (s : State) : Out3 := s.runChain [vConv m m.ty.wide m.ty d a]
def execVpack4 (m : VMod) (src : Fmt) (d a : VReg) (s : State) : Out3 := s.runChain [vPack m src d a]
def execVunpack4 (m : VMod) (d a : VReg) (s : State) : Out3 := s.runChain [vUnpack m d a]
def execVinga (m : VMod) (d a b : VReg) (s : State) : Out3 := s.runChain [vInga m d a b]
def vIngr (m : VMod) (d a : VReg) : VecOp :=
  .map d m.ty m.mask [a] (fun h => h.srcOk a .ing && !h.overlap d a) fun h i =>
    convert .ing m.ty m.rnd m.sat (h.elem a .ing i)
def execVingr (m : VMod) (d a : VReg) (s : State) : Out3 := s.runChain [vIngr m d a]

/-- The description of an elementwise instruction; none for any other. -/
def vecOp : Instr → Option VecOp
  | .vadd m d a b => some (vBin .add m d a b)
  | .vsub m d a b => some (vBin .sub m d a b)
  | .vmul m d a b => some (vBin .mul m d a b)
  | .vmulh m d a b => some (vBin .mulh m d a b)
  | .vdiv m d a b => some (vBin .div m d a b)
  | .vrem m d a b => some (vBin .rem m d a b)
  | .vand m d a b => some (vBin .and m d a b)
  | .vor m d a b => some (vBin .or m d a b)
  | .vxor m d a b => some (vBin .xor m d a b)
  | .vshl m d a b => some (vBin .shl m d a b)
  | .vshr m d a b => some (vBin .shr m d a b)
  | .vsar m d a b => some (vBin .sar m d a b)
  | .vmin m d a b => some (vBin .min m d a b)
  | .vmax m d a b => some (vBin .max m d a b)
  | .vabs m d a => some (vUn .abs m d a)
  | .vneg m d a => some (vUn .neg m d a)
  | .vcmp c m d a b => some (vCmp c m d a b)
  | .vsel m d a b c => some (vSel m d a b c)
  | .vmov m d a => some (vMov m d a)
  | .vclz m d a => some (vUn .clz m d a)
  | .vpopc m d a => some (vUn .popc m d a)
  | .vfadd m d a b => some (vFbin .fadd m d a b)
  | .vfsub m d a b => some (vFbin .fsub m d a b)
  | .vfmul m d a b => some (vFbin .fmul m d a b)
  | .vfdiv m d a b => some (vFbin .fdiv m d a b)
  | .vfsqrt m d a => some (vFun .fsqrt m d a)
  | .vfrsqrt m d a => some (vFun .frsqrt m d a)
  | .vfexp2 m d a => some (vFun .fexp2 m d a)
  | .vflog2 m d a => some (vFun .flog2 m d a)
  | .vfma m d a b c => some (vFma m d a b c)
  | .vfmin m d a b => some (vFbin .fmin m d a b)
  | .vfmax m d a b => some (vFbin .fmax m d a b)
  | .vfabs m d a => some (vFun .fabs m d a)
  | .vfneg m d a => some (vFun .fneg m d a)
  | .vfcmp c m d a b => some (vFcmp c m d a b)
  | .vcvt m src d a => some (vConv m src m.ty d a)
  | .vwiden m d a => some (vWiden m d a)
  | .vnarrow m d a => some (vConv m m.ty.wide m.ty d a)
  | .vpack4 m src d a => some (vPack m src d a)
  | .vunpack4 m d a => some (vUnpack m d a)
  | .vinga m d a b => some (vInga m d a b)
  | .vingr m d a => some (vIngr m d a)
  | _ => none

/-- A member reads the destination of the one before it (R187). -/
def VecOp.follows (b a : VecOp) : Bool :=
  a.joins && b.joins && match a.dst with
    | .grp d => d ∈ b.reads
    | .mask d => match b.mask with
      | .by m _ => m = d
      | .none => false

end Machine
end Sys2Proof
end

