-- ==== Sys2Proof/Machine/VecConfig.lean ====
section
/-! DEFINITION. Vector configuration, replay loops and stream descriptors (R38, R43, R172 to R177, R273, R274).
-/
namespace Sys2Proof
namespace Machine

/-- Completion at a PC that the instruction chooses without a control transfer (R175). -/
def State.goTo (s : State) (pc : Word) : State :=
  { s with sh := { s.sh with
      pc := pc, ahead := agedAhead 1 s.sh.ahead, irq := settleIrq s.sh.irq, run := .ready } }

/-- The BVM of VSTORE under a layout: each bit from byte 0 of its block (R34). -/
def bvmOf (p : Spr) (vs : Memory) : BitVec 26624 :=
  vs.foldl (fun b c =>
    if c.2 = 0xFF#8 ∧ c.1 % p.rbytes % 5 = 0 ∧ c.1 % p.rbytes / 5 < p.rbytes / 5 then setBit b (p.bvmIx c.1) false
    else b) (BitVec.allOnes 26624)

/-- A write of VCFG that passed its checks: VL and AEC go to zero, and a change of NREG renews the BVM and the tags of the
vector registers (R34, R35, R38). -/
def Sheet.setVcfg (h : Sheet) (v : Word) : Sheet :=
  let p := { h.spr with vcfg := v, vl := 0, aec := 0 }
  if p.nreg = h.spr.nreg then { h with spr := p }
  else
    { h with
      spr := p
      bvm := bvmOf p h.vstore
      vdirty := BitVec.ofNat 64 (2 ^ p.nreg - 1)
      vtouch := (Vector.range 64).map fun i => if i < p.nreg then p.rbytes else 0 }

/-- The lengths that `vset` and `vset.2d` grant, given the row cap and what is to be covered (R43, R173). -/
def setLen (p : Spr) (ty : Fmt) (cap : Nat) (cover : Nat → Nat) : Nat × Nat :=
  let vl := min (min cap (vlmax p.rbytes ty)) (maxFlat / p.rc)
  let vl := if ty = .fp4b then vl - vl % 8 else vl
  (vl, cover vl)

/-- VL, AEC and xD := AEC, with EPOS and GRPL zero (R173, R190). -/
def State.setStrip (s : State) (d : XReg) (q : Nat × Nat) : Out3 :=
  let s := s.mapSpr fun p => { p with vl := BitVec.ofNat 64 q.1, aec := BitVec.ofNat 64 q.2 }
  s.clearEpos.putX d (BitVec.ofNat 64 q.2)

def execVset (ty : Fmt) (d a b : XReg) (s : State) : Out3 :=
  let p := s.sh.spr
  let c := (s.xr b).toNat
  s.setStrip d (setLen p ty (if c = 0 then vlmax p.rbytes ty else c) fun vl => min (s.xr a).toNat (p.rc * vl))

def execVset2d (ty : Fmt) (d a b : XReg) (s : State) : Out3 :=
  let p := s.sh.spr
  s.setStrip d (setLen p ty (s.xr b).toNat fun vl => min (s.xr a).toNat p.rc * vl)

/-- R174. -/
def execVcfg (d a : XReg) (s : State) : Out3 :=
  if vcfgOk (s.xr a) then
    (s.withSheet (s.sh.setVcfg (s.xr a))).clearEpos.putX d s.sh.spr.vcfg
  else .next (s.takeTrap 0x01 0 0 s.sh.pc)

/-- A word that may not stand in a loop's body: class 0x2 but for nop, class 0xE, or a replay (R175). DEDUCED: log 24. -/
def bodyBad (w : IWord) : Bool :=
  let opc := (w.extractLsb' 88 8).toNat
  let fn := (w.extractLsb' 80 8).toNat
  (opc / 16 = 2 && w != nopWord) || opc / 16 = 0xE || (opc = 0x40 && fn = 4)

/-- R175. The body's lines are fetched first, the next line kept (R50), then its words are checked in order. DEDUCED: log 24. -/
def State.replayDo (s : State) (a : XReg) (k : BitVec 6) : Eff :=
  let n := k.toNat
  let t := slotIndex s.sh.pc
  do
    need s (!rpAct s.sh.spr.rpst)
    let (ws, s) ← (s.slotWords (t + 1) n).mapError Prod.snd
    match (List.range n).find? fun j => bodyBad (ws.getD j 0) with
    | some j => trapE s 0x01 (BitVec.ofNat 64 (j + 1))
    | none => pure ()
    if (s.xr a).toInt ≤ 0 then pure (s.clearEpos.goTo (Word.ofInt (pcOfSlot (t + 1 + n))))
    else
      let s' := s.mapSpr fun p => { p with rpst := mkRpst n a.val 0 true false }
      pure ((s'.withSheet { s'.sh with rbuf := ws }).clearEpos.goTo (Word.ofInt (pcOfSlot (t + 1))))

def execReplay (a : XReg) (k : BitVec 6) (s : State) : Out3 := runJump (s.replayDo a k)

/-- R274. DEDUCED: log 40. -/
def State.ostrmDo (s : State) (ty : Fmt) (d : OReg) (base stride : Word) : Eff :=
  do
    need s (!osBound s.sh.o[d.val])
    if base.toNat % min ty.ew 8 != 0 || stride.toNat % min ty.ew 8 != 0 then trapE s 0x04 base
    let o := wsetFld (wsetFld (wsetFld (wsetFld s.sh.o[d.val] 0 64 base.toNat) 64 64 stride.toNat) 128 8 ty.code) 192 48 0
    pure (s.withSheet { s.sh with o := s.sh.o.set d.val o }).clearEpos

def execOstrm (ty : Fmt) (d : OReg) (a b : XReg) (disp : BitVec 32) (s : State) : Out3 :=
  runEff (s.ostrmDo ty d (s.xr a + sext32 disp) (s.xr b))

def State.bindDo (s : State) (d : VReg) (a : OReg) : Eff :=
  let o := s.sh.o[a.val]
  do
    need s (wfld o 128 8 != 0 && !osBound o && d.val < s.sh.spr.nreg &&
      !(s.sh.o.toList.any fun q => osBound q && osReg q = d.val))
    let o := wsetFld (wsetFld o 136 6 d.val) 143 1 1
    pure (s.withSheet { s.sh with o := s.sh.o.set a.val o, bslots := s.sh.bslots.set a.val [] }).clearEpos

def execBind (d : VReg) (a : OReg) (s : State) : Out3 := runEff (s.bindDo d a)

def State.unbindDo (s : State) (a : OReg) : State :=
  (s.withSheet { s.sh with
    o := s.sh.o.set a.val (wsetFld s.sh.o[a.val] 143 1 0)
    bslots := s.sh.bslots.set a.val [] }).clearEpos

def execUnbind (a : OReg) (s : State) : Out3 := runEff (.ok (s.unbindDo a))

end Machine
end Sys2Proof
end

