-- ==== Sys2Proof/Machine/VecMove.lean ====
section
/-! DEFINITION. Mask logic (R191), moves and permutes (R192, R193), reductions and scans (R194 to R196). These classes never
resume (R190).
-/
namespace Sys2Proof
namespace Machine

/-! ### Masks (R191) -/

def State.maskDo (s : State) (k : VMask) (d : MReg) (el : Nat → Bool) : Out3 :=
  .next ((s.withSheet (s.sh.putM d (s.sh.sweepM k 0 s.sh.spr.flat el))).clearEpos).finish

def execMand (k : VMask) (d a b : MReg) (s : State) : Out3 := s.maskDo k d fun i => s.sh.mbit a i && s.sh.mbit b i
def execMor (k : VMask) (d a b : MReg) (s : State) : Out3 := s.maskDo k d fun i => s.sh.mbit a i || s.sh.mbit b i
def execMxor (k : VMask) (d a b : MReg) (s : State) : Out3 := s.maskDo k d fun i => s.sh.mbit a i != s.sh.mbit b i
def execMandn (k : VMask) (d a b : MReg) (s : State) : Out3 := s.maskDo k d fun i => s.sh.mbit a i && !s.sh.mbit b i
def execMnot (k : VMask) (d a : MReg) (s : State) : Out3 := s.maskDo k d fun i => !s.sh.mbit a i
def execMcopy (k : VMask) (d a : MReg) (s : State) : Out3 := s.maskDo k d fun i => s.sh.mbit a i

/-- The active indices at which a mask bit is set. -/
def Sheet.setIn (h : Sheet) (k : VMask) (a : MReg) : List Nat :=
  (span 0 h.spr.aecn).filter fun i => h.active k i && h.mbit a i

def execMpop (k : VMask) (d : XReg) (a : MReg) (s : State) : Out3 :=
  s.clearEpos.putX d (BitVec.ofNat 64 (s.sh.setIn k a).length)
def execMfirst (k : VMask) (d : XReg) (a : MReg) (s : State) : Out3 :=
  s.clearEpos.putX d (match s.sh.setIn k a with
    | [] => BitVec.allOnes 64
    | i :: _ => BitVec.ofNat 64 i)

/-! ### Moves (R192, R193) -/

/-- An item of a group as it stands: an element, or a block with its validity. -/
def Sheet.getItem (h : Sheet) (a : VReg) (t : Fmt) (i : Nat) : Nat × Bool :=
  if t = .fp4b then (h.blk a i, h.blkOk a i) else (h.elem a t i, true)

/-- The items below AEC (R193). -/
def Spr.below (p : Spr) (t : Fmt) : Nat := if t = .fp4b then ceilDiv p.aecn 8 else p.aecn

def State.putW (s : State) (l : List VWrite) : State := s.withSheet (s.sh.putV l)

/-- The checks of a move from a to d: no overlap. -/
def Sheet.moveOk (h : Sheet) (t : Fmt) (d a : VReg) : Bool := h.dstOk d t && h.srcOk a t && !h.overlap d a

/-- A move that computes each active item. -/
def State.moveDo (s : State) (m : VMod) (d : VReg) (ok : Bool) (regs : List VReg) (el : Sheet → Nat → Nat × Bool) : Out3 :=
  s.vecDo ok regs fun s => .ok (s.putW (s.sh.sweepW d m.ty m.mask 0 (s.sh.spr.reach m.ty) (el s.sh)))

def execVcompress (m : VMod) (d a : VReg) (s : State) : Out3 :=
  s.vecDo (s.sh.moveOk m.ty d a) [a] fun s =>
    let h := s.sh
    let sel := (span 0 (h.spr.below m.ty)).filter fun i => h.maskBit m.mask (govern m.ty i)
    let moved := (sel.zipIdx).map fun q => h.item d m.ty q.2 (h.getItem a m.ty q.1).1 (h.getItem a m.ty q.1).2
    let rest := if h.spr.tail then (span sel.length (h.spr.items m.ty)).map fun i => h.fillItem d m.ty i else []
    .ok (s.putW (moved ++ rest))

def execVexpand (m : VMod) (d a : VReg) (s : State) : Out3 :=
  s.moveDo m d (s.sh.moveOk m.ty d a) [a] fun h i =>
    h.getItem a m.ty (((span 0 i).filter fun j => h.maskBit m.mask (govern m.ty j)).length)

/-- Active items below the amount are unchanged. -/
def execVslideup (m : VMod) (d a : VReg) (b : XSrc) (s : State) : Out3 :=
  let n := (s.xsrc b).toNat
  s.vecDo (s.sh.moveOk m.ty d a) [a] fun s =>
    let h := s.sh
    let top := h.spr.reach m.ty
    let low := (span 0 (min n top)).filterMap fun i =>
      if h.act m.mask (govern m.ty i) = .fill then some (h.fillItem d m.ty i) else none
    .ok (s.putW (low ++ h.sweepW d m.ty m.mask (min n top) top fun i => h.getItem a m.ty (i - n)))

def execVslidedn (m : VMod) (d a : VReg) (b : XSrc) (s : State) : Out3 :=
  let n := (s.xsrc b).toNat
  s.moveDo m d (s.sh.moveOk m.ty d a) [a] fun h i =>
    if i + n < h.spr.below m.ty then h.getItem a m.ty (i + n) else (0, true)

def execVperm (m : VMod) (d a b : VReg) (s : State) : Out3 :=
  let ix := if m.ty = .fp4b then .n16 else m.ty
  s.moveDo m d (s.sh.moveOk m.ty d a && s.sh.srcOk b ix && !s.sh.overlap d b) [a, b] fun h i =>
    let j := h.elem b ix i
    if j < h.spr.below m.ty then h.getItem a m.ty j else (0, true)

/-- The bits of a scalar operand in an element format (R192). -/
def State.scalarBits (s : State) (t : Fmt) (r : XReg) : Nat :=
  (if t.isFloat then (s.fr (freg r.val)).toNat else (s.xr r).toNat) % 2 ^ t.width

def execVbcast (m : VMod) (d : VReg) (a : XSrc) (s : State) : Out3 :=
  let v := match a with
    | .reg r => s.scalarBits m.ty r
    | .imm v => immBits m.ty .rne v
  s.moveDo m d (s.sh.dstOk d m.ty) [] fun _ _ => (v, true)

/-- A scalar result in the format (R192, R195). -/
def State.putScalar (s : State) (t : Fmt) (d : XReg) (v : Nat) : State := s.putData t d v

def execVext (m : VMod) (d : XReg) (a : VReg) (b : XSrc) (s : State) : Out3 :=
  let i := (s.xsrc b).toNat
  s.vecDo (s.sh.srcOk a m.ty) [a] fun s =>
    .ok (s.putScalar m.ty d (if i < s.sh.spr.flat then s.sh.elem a m.ty i else 0))

def execVins (m : VMod) (d : VReg) (a : XReg) (b : XSrc) (s : State) : Out3 :=
  let i := (s.xsrc b).toNat
  s.vecDo (s.sh.dstOk d m.ty) [] fun s =>
    .ok (if i < s.sh.spr.flat then s.putW [s.sh.item d m.ty i (s.scalarBits m.ty a) true] else s)

/-- The index rounded to the format, with its flags. -/
def iotaBits (t : Fmt) (r : Rnd) (sat : Bool) (i : Nat) : Nat × Flags :=
  if t.isInt then (ifit t sat i, 0) else fround t r sat (FVal.ofInt i)

def execViota (m : VMod) (d : VReg) (s : State) : Out3 :=
  s.vecDo (s.sh.dstOk d m.ty) [] fun s =>
    let n := s.sh.spr.reach m.ty
    .ok ((s.putW (s.sh.sweepW d m.ty m.mask 0 n fun i => ((iotaBits m.ty m.rnd m.sat i).1, true))).orFlags
      (s.sh.sweepF m.ty m.mask 0 n fun i => (iotaBits m.ty m.rnd m.sat i).2))

/-! ### Reductions and scans (R195, R196) -/

/-- The active elements of a group below an index, in order. -/
def Sheet.actives (h : Sheet) (k : VMask) (a : VReg) (t : Fmt) (n : Nat) : List Nat :=
  ((span 0 n).filter fun i => h.active k i).map fun i => h.elem a t i

/-- The reduction of a list, the identity when it is empty (R195). -/
def redOr (op : RedOp) (ord : Bool) (t : Fmt) (r : Rnd) (sat : Bool) (l : List Nat) : Nat × Flags :=
  if l.isEmpty then ((redIdent op t).getD 0, 0) else reduceL (redStep op t r sat) ord l

def execVred (op : RedOp) (ord : Bool) (m : VMod) (d : XReg) (a : VReg) (s : State) : Out3 :=
  s.vecDo (s.sh.srcOk a m.ty) [a] fun s =>
    let q := redOr op ord m.ty m.rnd m.sat (s.sh.actives m.mask a m.ty s.sh.spr.aecn)
    .ok ((s.orFlags q.2).putScalar m.ty d q.1)

def execVscan (op : RedOp) (ord : Bool) (m : VMod) (d a : VReg) (s : State) : Out3 :=
  s.vecDo (s.sh.moveOk m.ty d a) [a] fun s =>
    let q := fun i => redOr op ord m.ty m.rnd m.sat (s.sh.actives m.mask a m.ty (i + 1))
    let n := s.sh.spr.reach m.ty
    .ok ((s.putW (s.sh.sweepW d m.ty m.mask 0 n fun i => ((q i).1, true))).orFlags
      (s.sh.sweepF m.ty m.mask 0 n fun i => (q i).2))

end Machine
end Sys2Proof
end

