-- ==== Sys2Proof/Machine/VecMem.lean ====
section
/-! DEFINITION. Tiles as the sheet sees them (R229, R233), the vector loads (R252 to R255, R264 to R268), the stores and
their probe windows (R269, R270), vector atomics (R271) and the Assay unit (R278, R279).
-/
namespace Sys2Proof

/-- The alignment of an element (R264). -/
def Fmt.align (t : Fmt) : Nat := if t = .fp4b then 1 else min t.ew 8

namespace Machine

/-! ### Tiles -/

/-- The entry of a handle on a sheet's logical die. -/
def State.tileOf (s : State) (k : Sheet) (h : BitVec 12) : Option Tile :=
  s.tiles.find? fun t => t.drove = k.droveId && t.die = k.spr.gDie && t.handle = h
def State.tile? (s : State) (h : BitVec 12) : Option Tile := s.tileOf s.sh h

/-- The sheet lies inside the tile's instance. -/
def Spr.inTile (p : Spr) (t : Tile) : Bool := p.instOf t.level = t.inst

/-- R229. -/
def State.resolve (s : State) (h : BitVec 12) : Except Stop Tile :=
  match s.tile? h with
  | none => trapE s 0x24 (BitVec.ofNat 64 (h.toNat + 65536))
  | some t => if s.sh.spr.inTile t then .ok t else trapE s 0x23 (h.zeroExtend 64)

/-- The bytes a tile spans (R233). -/
def Tile.size (t : Tile) : Nat := t.rows * t.rb

def Tile.same (a b : Tile) : Bool := a.drove = b.drove && a.die = b.die && a.handle = b.handle

/-- A tile with new contents. -/
def State.setTile (s : State) (t : Tile) (data : Memory) : State :=
  { s with tiles := s.tiles.map fun q => if q.same t then { q with data := data } else q }

/-- A copy engine owns a 64-byte unit of n bytes at a tile offset. -/
def State.tileBusy (s : State) (t : Tile) (off n : Nat) : Bool :=
  (List.range ((off + n - 1) / 64 + 1 - off / 64)).any fun k => s.tileOwned t.drove t.die t.handle (off / 64 + k)

/-! ### Stream V (R202, R203, R205 to R208) -/

/-- The counters of a drove's window on a logical die change. -/
def State.setWindow (s : State) (drove die : Nat) (g : List (Nat × Word) → List (Nat × Word)) : State :=
  { s with windows := s.windows.map fun w => if w.drove = drove && w.die = die then { w with ctr := g w.ctr } else w }

/-- The element at the head of a sheet's stream V is performed: its bytes are at the home or in the tile bank, its increment at the
counter unit (R343). Nothing while a copy engine owns where it goes (R209). -/
def State.performOne (s : State) (k : Sheet) (v : VStore) : Option State :=
  match v.to_ with
  | .mem uc kvs =>
    if (linesOf (kvs.map Prod.fst)).any s.owned then none else some (s.vWrite k.spr.brand12 uc kvs)
  | .tile h off bytes => match s.tileOf k h with
    | none => some s
    | some t => if s.tileBusy t off bytes.length then none else some (s.setTile t (t.data.setBytes off bytes))
  | .gate die ix inc => some (s.setWindow k.droveId die fun c => sparseSet c ix (sparseGet c ix + inc))

/-- The oldest n elements in flight are performed in order; it waits at one that cannot be yet. -/
def State.performV (s : State) : Nat → Eff
  | 0 => .ok s
  | n + 1 => match s.sh.vq with
    | [] => .ok s
    | v :: l => match s.performOne s.sh v with
      | none => .error (.wait s)
      | some t => State.performV { t with sh := { t.sh with vq := l, vdone := t.sh.vdone + 1 } } n

/-- Every store in flight is performed. -/
def State.settleV (s : State) : Eff := s.performV s.sh.vq.length

/-- A sheet's stores in flight are performed in order up to one that must wait; those left. -/
def State.drainOf (k : Sheet) : List VStore → State → State × List VStore
  | [], s => (s, [])
  | v :: l, s => match s.performOne k v with
    | none => (s, v :: l)
    | some t => State.drainOf k l t

/-- A sheet whose stores in flight are those given, the others performed. -/
def Sheet.drained (k : Sheet) (l : List VStore) : Sheet := { k with vq := l, vdone := k.vdone + (k.vq.length - l.length) }

/-- The stores in flight of a list of sheets, each in its order. -/
def State.drainSheets : List Sheet → State → State × List Sheet
  | [], s => (s, [])
  | k :: l, s =>
    let q := State.drainOf k k.vq s
    let r := State.drainSheets l q.1
    (r.1, k.drained q.2 :: r.2)

/-- The stores in flight of every sheet are performed, as far as they do not wait. -/
def State.drainAll (s : State) : State :=
  let q := State.drainOf s.sh s.sh.vq s
  let r := State.drainSheets s.rest q.1
  { r.1 with sh := s.sh.drained q.2, rest := r.2 }

/-- Elements are handed to stream V. -/
def State.handV (s : State) (l : List VStore) : State := { s with sh := { s.sh with vq := s.sh.vq ++ l } }

/-- What an A-load may touch: a tile, or ranges of virtual addresses, each from its least byte to its greatest. -/
inductive Touch where
  | tile (h : BitVec 12)
  | mem (ranges : List (Nat × Nat))

/-- A store in flight holds back an A-load: the same handle, or an interlocking store whose range overlaps (R206, R207). -/
def VStore.holds (v : VStore) : Touch → Bool
  | .tile h => match v.to_ with
    | .tile k _ _ => k = h
    | .mem _ _ => false
    | .gate _ _ _ => false
  | .mem l => match v.lock with
    | some (a, b) => l.any fun r => r.1 ≤ b && a ≤ r.2
    | none => false

/-- How many of the oldest stores in flight must be performed before an A-load. -/
def Sheet.holding (h : Sheet) (t : Touch) : Nat :=
  ((h.vq.zipIdx).filter fun q => q.1.holds t).foldl (fun n q => max n (q.2 + 1)) 0

/-- An A-load waits for the stores that hold it back: they are performed first. -/
def State.interlock (s : State) (t : Touch) : Eff := s.performV (s.sh.holding t)

/-- From the least byte to the greatest of n bytes at each address. -/
def rangeOfAddrs (n : Nat) : List Nat → Option (Nat × Nat)
  | [] => none
  | a :: l => some (l.foldl (fun r b => (min r.1 b, max r.2 (b + n - 1))) (a, a + n - 1))

/-! ### Reads of stream A -/

/-- What a read of n bytes at an address by stream A gives: its bits, or the fault of the element (R266). FADDR is the
element's address, or the address of the poisoned line; a kill names the element's address (R395). DEDUCED: log 38. -/
def State.readElem (s : State) (va : Word) (n : Nat) : ElemRes :=
  match s.range .load va n with
  | .error (c, _) => .flt c va
  | .ok l =>
    match s.firstPoison l with
    | some (i, p) => if pePois p.entry then .kill va (lineOf p.key) else .flt 0x60 (lineVa (va + BitVec.ofNat 64 i))
    | none => .val (leNat (s.aRead (physKeys l)))

/-- The bytes of an element lie on a line that a copy engine owns, or their walk waits for one. -/
def State.elemBusy (s : State) (va : Word) (n : Nat) : Bool :=
  match s.range .load va n with
  | .error (c, _) => c = walkWaits
  | .ok l => (linesOf (physKeys l)).any s.owned

/-- The same of a tile: beyond its span the element faults (R233). DEDUCED: log 39. -/
def Tile.readElem (t : Tile) (off n : Nat) : ElemRes :=
  if off + n ≤ t.size then .val (t.data.nat off n) else .flt 0x14 0

/-- The addresses of the items below AEC that a load reads: none for an item that is not active or not read. -/
def Sheet.addrsOf (h : Sheet) (t : Fmt) (k : VMask) (f : Nat → Option Word) : List (Option Nat) :=
  (span 0 (h.spr.below t)).map fun i => if h.maskBit k (govern t i) then (f i).map BitVec.toNat else none

/-- The item addresses of each load (R253, R254, R265). -/
def Sheet.vldAt (_ : Sheet) (t : Fmt) (base : Word) (i : Nat) : Option Word := some (base + BitVec.ofNat 64 (t.ew * i))
def Sheet.vldsAt (_ : Sheet) (base stride : Word) (i : Nat) : Option Word := some (base + BitVec.ofNat 64 i * stride)
def Sheet.vldxAt (h : Sheet) (t : Fmt) (base : Word) (c : VReg) (i : Nat) : Option Word :=
  some (base + BitVec.ofNat 64 (h.elem c t i))
def Sheet.vwgathAt (h : Sheet) (t : Fmt) (base : Word) (c : VReg) (i : Nat) : Option Word :=
  if h.elem c t i < h.spr.flat then some (base + BitVec.ofNat 64 (t.ew * h.elem c t i)) else none

/-- The base address of a vector access. -/
def Sheet.vbase (h : Sheet) (a : XReg) (disp : BitVec 32) : Word := h.xr a + sext32 disp

/-- What the run-ahead load that serves the instruction at the PC has read: one issued under the configuration and with the addresses
that stand now (R44, R260, R267). -/
def Sheet.snapshot (h : Sheet) (addrs : List (Option Nat)) (tile : Option (BitVec 12)) : List (Option ElemRes) :=
  ((h.ahead.find? fun a => a.dist = 0 && a.vcfg = h.spr.vcfg && a.aec = h.spr.aec && a.vl = h.spr.vl && a.addrs = addrs &&
    a.tile = tile).map Ahead.got).getD []

/-- Every element that is to be read has been. -/
def allRead (addrs : List (Option Nat)) (got : List (Option ElemRes)) : Bool :=
  (addrs.zipIdx).all fun q => q.1.isNone || (got.getD q.2 none).isSome

/-- A load performed now leaves no later load of its stream performed before it (R202). -/
def Sheet.dropAhead (h : Sheet) : Sheet := { h with ahead := h.ahead.map fun a => { a with got := [] } }

/-- The fabric slots of 4,096 bytes that n elements of a format need, at least one (R259). -/
def slotsFor (t : Fmt) (n : Nat) : Nat := max 1 (ceilDiv (if t = .fp4b then 5 * ceilDiv n 8 else n * t.ew) 4096)

/-- What a load of items of a format at addresses touches. -/
def touchOf (t : Fmt) (gather : Bool) (addrs : List (Option Nat)) (tile : Option (BitVec 12)) : Touch :=
  match tile with
  | some h => .tile h
  | none =>
    let l := addrs.filterMap id
    .mem (if gather then l.map fun a => (a, a + t.ew - 1) else (rangeOfAddrs t.ew l).toList)

/-- The result of one address. -/
def State.readAt (s : State) (t : Fmt) (tile : Option Tile) (a : Nat) : ElemRes :=
  match tile with
  | some q => q.readElem a t.ew
  | none => if a % t.align ≠ 0 then .flt 0x04 (BitVec.ofNat 64 a) else s.readElem (BitVec.ofNat 64 a) t.ew
def State.busyAt (s : State) (t : Fmt) (tile : Option Tile) (a : Nat) : Bool :=
  match tile with
  | some q => s.tileBusy q a t.ew
  | none => s.elemBusy (BitVec.ofNat 64 a) t.ew

/-- The results of a load's items: what the Outrider brought, and for the others what stands at the home now. -/
def State.loadRes (s : State) (t : Fmt) (addrs : List (Option Nat)) (tile : Option Tile) (got : List (Option ElemRes)) :
    List (Option ElemRes) :=
  (addrs.zipIdx).map fun q => q.1.map fun a => (got.getD q.2 none).getD (s.readAt t tile a)

/-! ### Weight loads (R306, R318)

A weight load reads its source as stream A at some time before it completes, and before any later load of the stream. -/

/-- Element (r, c) of the source of a weight load. -/
def State.wElem (s : State) (w : WLoad) (r c : Nat) : ElemRes :=
  let e : Int := r * w.s0 + c * w.s1
  let a := w.base + Word.ofInt (if w.ty = .fp4b then e / 8 * 5 else e * w.ty.ew)
  let q := match w.tile with
    | some h => match s.tile? h with
      | some t => t.readElem a.toNat w.ty.ew
      | none => .flt 0x24 0
    | none => s.readElem a w.ty.ew
  match q with
  | .val v =>
    if w.ty = .fp4b then .val (bitsAt v (8 + 4 * (e % 8).toNat) 4 + 16 * (v % 256)) else .val v
  | r => r

def State.wBusy (s : State) (w : WLoad) (r c : Nat) : Bool :=
  let e : Int := r * w.s0 + c * w.s1
  let a := w.base + Word.ofInt (if w.ty = .fp4b then e / 8 * 5 else e * w.ty.ew)
  match w.tile with
  | some h => match s.tile? h with
    | some t => s.tileBusy t a.toNat w.ty.ew
    | none => false
  | none => s.elemBusy a w.ty.ew

/-- The indices below 32 of the bits set in a mask. -/
def bitIxs (m : Nat) : List Nat := (List.range 32).filter fun b => m.testBit b

/-- The row of W that source row r of column c gives (R318). -/
def WLoad.row (w : WLoad) (r c : Nat) : Nat :=
  if w.metas.isEmpty then r else 32 * (r / 16) + (bitIxs (w.metas.getD (r / 16 * w.nw + c) 0)).getD (r % 16) 0

/-- Reads the elements of a list in order: those that are not zero by their place in W, or what stopped the read.
DESIGN CHOICE: log 67. -/
def State.wRead (s : State) (w : WLoad) : List (Nat × Nat) → List (Nat × Nat) → List (Nat × Nat) × Option ElemRes
  | [], acc => (acc.reverse, none)
  | (r, c) :: l, acc =>
    match s.wElem w r c with
    | .val v => s.wRead w l (if v = 0 then acc else (w.row r c * 64 + c, v) :: acc)
    | q => (acc.reverse, some q)

/-- What a weight load reads, as stream A sees it. -/
def WLoad.touch (w : WLoad) : Touch :=
  match w.tile with
  | some h => .tile h
  | none =>
    let at_ := fun (r c : Nat) =>
      let e : Int := r * w.s0 + c * w.s1
      (w.base + Word.ofInt (if w.ty = .fp4b then e / 8 * 5 else e * w.ty.ew)).toNat
    .mem (rangeOfAddrs w.ty.ew ((List.range w.ks).flatMap fun r => (List.range w.nw).map (at_ r))).toList

/-- The reads of a weight load: it waits for the stores that hold it back and for owned lines, records poison, and kills where the
page says so (R206, R207, R209, R318). -/
def State.wDo (s : State) (w : WLoad) : Except Stop (WLoad × State) := do
  let s ← s.interlock w.touch
  let ix := (List.range w.ks).flatMap fun r => (List.range w.nw).map fun c => (r, c)
  await s (!ix.any fun q => s.wBusy w q.1 q.2)
  match s.wRead w ix [] with
  | (l, none) => pure ({ w with got := some l }, s)
  | (_, some (.flt c a)) => pure ({ w with got := some [], cause := c, addr := a }, s)
  | (_, some (.kill a line)) => .error (.pois a line s)
  | (_, some (.val _)) => pure (w, s)

/-- The reads of a list of weight loads, of which those of the sheet in focus that are still to be made and that p selects are made in
order. -/
def State.readLoads (s : State) (p : WLoad → Bool) : List WLoad → Except Stop (List WLoad × State)
  | [] => .ok ([], s)
  | w :: l => do
    let q ← if w.sheet = s.pos && w.got.isNone && p w then s.wDo w else pure (w, s)
    let r ← q.2.readLoads p l
    pure (q.1 :: r.1, r.2)

/-- The reads of the sheet's weight loads that p selects and that have not been made, in order. -/
def State.settleLoads (s : State) (p : WLoad → Bool) : Eff := do
  let q ← s.readLoads p s.core.wloads
  pure { q.2 with core := { q.2.core with wloads := q.1 } }

/-- The reads of the sheet's weight loads that have not been made, as a later load of stream A must find them (R202).
DESIGN CHOICE: log 67. -/
def State.settleW (s : State) : Eff := s.settleLoads fun _ => true

/-- The physical addresses that a weight load from memory reads, as they translate now. -/
def State.wKeys (s : State) (w : WLoad) : List Nat :=
  (List.range w.ks).flatMap fun r => (List.range w.nw).flatMap fun c =>
    let e : Int := r * w.s0 + c * w.s1
    match s.range .load (w.base + Word.ofInt (if w.ty = .fp4b then e / 8 * 5 else e * w.ty.ew)) w.ty.ew with
    | .error _ => []
    | .ok l => (physKeys l).map addrOf

/-- A weight load reads a byte that a store writes. -/
def State.readsTo (s : State) (w : WLoad) : VTo → Bool
  | .mem _ kvs => w.tile.isNone && (s.wKeys w).any fun k => kvs.any fun q => addrOf q.1 = k
  | .tile h _ _ => w.tile = some h
  | .gate _ _ _ => false

/-- Before a store of the sheet: where one of its weight loads has yet to read a byte that is written, the loads are read first
(R208). DESIGN CHOICE: log 67. -/
def State.settleFor (s : State) (l : List VTo) : Eff :=
  if s.core.wloads.any fun w => w.sheet = s.pos && w.got.isNone && l.any (s.readsTo w) then s.settleW else .ok s

/-- Elements are handed to stream V after the reads of the sheet that they could change. -/
def State.handAfter (s : State) (l : List VStore) : Eff := do
  let s ← s.settleFor (l.map VStore.to_)
  pure (s.handV l)

/-- A scalar store (R163), after the reads of the sheet's weight loads that it could change (R208). -/
def State.sStore (s : State) (va : Word) (al : Nat) (bytes : List Byte) : Eff := do
  let (l, s) ← s.scalar .store va bytes.length al
  let s ← s.settleFor [.mem (physUc l) ((physKeys l).zip bytes)]
  pure (s.sWrite (physUc l) ((physKeys l).zip bytes))

/-- A release (R210): the accesses of streams S, A and V that the sheet has issued are performed before it, the loads of stream A
before the stores that follow them (R208). -/
def State.release (s : State) : Eff := do
  let s ← s.settleW
  s.flushOwn.settleV

/-- The read met a walk that waits for a line which a copy engine owns (R209): no fault. -/
def ElemRes.waits : ElemRes → Bool
  | .flt c _ => c = walkWaits
  | _ => false

/-- The first item, from lo, whose read faulted. -/
def firstFlt (lo : Nat) (l : List (Option ElemRes)) : Option (Nat × ElemRes) :=
  (((List.range l.length).zip l).drop lo).findSome? fun q => match q.2 with
    | some (.val _) => none
    | some r => some (q.1, r)
    | none => none

/-- The writes of the items of a load from lo below hi (R168, R266, R268). -/
def Sheet.loadW (h : Sheet) (d : VReg) (t : Fmt) (k : VMask) (lo hi : Nat) (res : List (Option ElemRes)) : List VWrite :=
  (span lo hi).filterMap fun i =>
    match h.act k (govern t i) with
    | .compute => match res.getD i none with
      | some (.val v) => some (h.item d t i v (v % 256 ≠ 255))
      | _ => none
    | .fill => some (h.fillItem d t i)
    | .keep => none

/-- The bits of the outstanding mask from lo below hi (R253). -/
def Sheet.outBits (h : Sheet) (k : VMask) (lo hi : Nat) (res : List (Option ElemRes)) : List (Nat × Bool) :=
  (span lo hi).map fun i => (i, h.active k i && (res.getD i none).isNone)

/-- The result of the mask output, if the load has one. -/
def Sheet.putOut (h : Sheet) (out : Option MReg) (l : List (Nat × Bool)) : Sheet :=
  match out with
  | some m => h.putM m l
  | none => h

/-- The items, from lo below hi, that a load must still read and that wait for a copy engine. -/
def State.loadBusy (s : State) (t : Fmt) (addrs : List (Option Nat)) (tile : Option Tile) (got : List (Option ElemRes))
    (lo hi : Nat) : Bool :=
  (addrs.zipIdx).any fun q => lo ≤ q.2 && q.2 < hi && (got.getD q.2 none).isNone && match q.1 with
    | some a => s.busyAt t tile a
    | none => false

/-- What is still to be read of a load is read as stream A does: after the weight loads that stand earlier and the stores that hold it
back, and with no later load before it (R202, R206, R207); the translations used are kept. -/
def State.aheadOf (s : State) (t : Fmt) (gather : Bool) (addrs : List (Option Nat)) (tile : Option Tile) : Eff := do
  let s ← s.settleW
  let s ← s.interlock (touchOf t gather addrs (tile.map Tile.handle))
  let s := if tile.isSome then s else s.fillAll (addrs.filterMap fun o => o.map fun a => BitVec.ofNat 64 a)
  pure (s.withSheet s.sh.dropAhead)

/-- A load (R266, R267) of the items below the flat index `lim`: `addrs` are its items' addresses; `tval` is TVAL for a fault of an
item. -/
def State.loadDo (s : State) (t : Fmt) (k : VMask) (trim gather : Bool) (d : VReg) (addrs : List (Option Nat))
    (tile : Option Tile) (out : Option MReg) (tval : Nat → Nat → Word) (lim : Nat) : Eff := do
  let per := if t = .fp4b then 8 else 1
  let lo := s.sh.spr.epos.toNat / per
  let addrs := addrs.take (lim / per)
  let got := s.sh.snapshot addrs (tile.map Tile.handle)
  let s ← if allRead addrs got then pure s else s.aheadOf t gather addrs tile
  let tile := tile.map fun q => (s.tile? q.handle).getD q
  let res := s.loadRes t addrs tile got
  let f := firstFlt lo res
  await s (!s.loadBusy t addrs tile got lo (match f with
    | some e => e.1 + 1
    | none => addrs.length) && !f.any fun e => e.2.waits)
  let h := s.sh
  match f with
  | none =>
    pure (s.withSheet ((h.putV (h.loadW d t k lo (min (lim / per) (h.spr.reach t)) res)).putOut out
      (h.outBits k lo (min lim h.spr.flat) res)))
  | some (e, r) =>
    let g := govern t e
    let s' := s.withSheet ((h.putV (h.loadW d t k lo e res)).putOut out (h.outBits k lo e res))
    if trim && (span 0 e).any fun i => h.active k (govern t i) then
      let s' := if h.spr.tail then s'.putW ((span e (h.spr.items t)).map fun i => h.fillItem d t i) else s'
      pure (s'.mapSpr fun p => { p with aec := BitVec.ofNat 64 g })
    else
      let s' := s'.setEpos g 0
      .error (match r with
        | .flt c a => .trap c (tval c e) a s'
        | .kill va line => .pois va line s'
        | .val _ => .wait s')

/-- TVAL of an element fault: its index. -/
def tvalIx (t : Fmt) (_ e : Nat) : Word := BitVec.ofNat 64 (govern t e)

/-- The alignment check of a base and a stride (R264); `fa` is FADDR. -/
def alignedE (s : State) (t : Fmt) (base stride fa : Word) : Except Stop Unit :=
  if base.toNat % t.align != 0 || stride.toNat % t.align != 0 then trapE s 0x04 base fa else .ok ()

def execVld (ty : Fmt) (k : VMask) (trim : Bool) (d : VReg) (a : XReg) (disp : BitVec 32) (s : State) : Out3 :=
  let base := s.sh.vbase a disp
  runEff do
    need s (s.sh.dstOk d ty)
    alignedE s ty base 0 base
    s.vecBody [] fun s => s.loadDo ty k trim false d (s.sh.addrsOf ty k (s.sh.vldAt ty base)) none none (tvalIx ty) maxFlat

def execVlds (ty : Fmt) (k : VMask) (trim : Bool) (d : VReg) (a c : XReg) (disp : BitVec 32) (s : State) : Out3 :=
  let base := s.sh.vbase a disp
  runEff do
    need s (s.sh.dstOk d ty)
    alignedE s ty base (s.xr c) base
    s.vecBody [] fun s =>
      s.loadDo ty k trim false d (s.sh.addrsOf ty k (s.sh.vldsAt base (s.xr c))) none none (tvalIx ty) maxFlat

def execVldx (ty : Fmt) (k : VMask) (trim : Bool) (d : VReg) (a : XReg) (c : VReg) (disp : BitVec 32) (s : State) : Out3 :=
  let base := s.sh.vbase a disp
  s.memDo (s.sh.dstOk d ty && s.sh.srcOk c ty) [c] fun lim s =>
    s.loadDo ty k trim true d (s.sh.addrsOf ty k (s.sh.vldxAt ty base c)) none none (tvalIx ty) lim

def execVwgath (ty : Fmt) (k : VMask) (d : VReg) (a : XReg) (b : MReg) (c : VReg) (disp : BitVec 32) (s : State) : Out3 :=
  let base := s.sh.vbase a disp
  s.memDo (s.sh.dstOk d ty && s.sh.srcOk c ty) [c] fun lim s =>
    s.loadDo ty k false true d (s.sh.addrsOf ty k (s.sh.vwgathAt ty base c)) none (some b) (tvalIx ty) lim

/-- R266 with the tile's own TVAL for an element beyond its span (R233). DEDUCED: log 39. -/
def execTld (ty : Fmt) (k : VMask) (trim : Bool) (d : VReg) (a : XReg) (h : BitVec 12) (s : State) : Out3 :=
  let base := s.xr a
  runEff do
    need s (s.sh.dstOk d ty)
    alignedE s ty base 0 0
    let t ← s.resolve h
    s.vecBody [] fun s => s.loadDo ty k trim false d (s.sh.addrsOf ty k (s.sh.vldAt ty base)) (some t) none
      (fun c e => if c = 0x14 then base + BitVec.ofNat 64 (ty.ew * e) else tvalIx ty c e) maxFlat

/-! ### Stores (R269) -/

/-- One active element of a store or `vamo`: its flat index, its address and its bytes. -/
structure SElem where
  ix : Nat
  va : Word
  bytes : List Byte

/-- The elements of a store from EPOS on, below the flat index lim; a block that is not valid is written as an invalid one (R84). -/
def Sheet.storeElems (h : Sheet) (t : Fmt) (k : VMask) (d : VReg) (lim : Nat) (at_ : Nat → Word) : List SElem :=
  let per := if t = .fp4b then 8 else 1
  (span (h.spr.epos.toNat / per) (min (lim / per) (h.spr.below t))).filterMap fun i =>
    if h.maskBit k (govern t i) then
      let q := h.getItem d t i
      some ⟨govern t i, at_ i, leBytes t.ew (if q.2 then q.1 else fp4Invalid)⟩
    else none

/-- The page that holds a byte, by its size; a byte without a translation counts by its 64 KiB region. -/
def State.pageId (s : State) (va : Word) : Nat × Nat :=
  match s.page s.sh.spr.sad va with
  | .leaf b _ => (b, va.toNat / 2 ^ b)
  | _ => (16, va.toNat / 2 ^ 16)

def State.elemPages (s : State) (e : SElem) : List (Nat × Nat) :=
  ((pageStarts e.va e.bytes.length).map s.pageId).dedup

/-- The elements of one window, and the rest. -/
def State.window (s : State) : List (Nat × Nat) → List SElem → List SElem × List SElem
  | _, [] => ([], [])
  | pages, e :: l =>
    let pages' := (pages ++ s.elemPages e).dedup
    if pages'.length > 64 && !pages.isEmpty then ([], e :: l)
    else
      let q := s.window pages' l
      (e :: q.1, q.2)

/-- The probe of an element: its physical bytes, or the stop that it causes with EPOS at the window. -/
def State.probe (s : State) (a : Acc1) (t : Fmt) (i0 : Nat) (e : SElem) : Except Stop (List Phys) :=
  let s' := s.setEpos i0 0
  let tv : Word := BitVec.ofNat 64 e.ix
  if e.va.toNat % t.align ≠ 0 then .error (.trap 0x04 tv e.va s')
  else match s.range a e.va e.bytes.length with
    | .error (c, _) => faultE s' c tv e.va
    | .ok l =>
      if a = .rmw && !(linesOf (physKeys l)).any s.owned then
        match s.firstPoison l with
        | some (i, p) => .error (poisonStop s' e.va (e.va + BitVec.ofNat 64 i) tv p)
        | none => .ok l
      else .ok l

/-- The probes of a window, in order. -/
def State.probes (s : State) (a : Acc1) (t : Fmt) (i0 : Nat) : List SElem → Except Stop (List (SElem × List Phys))
  | [] => .ok []
  | e :: l => do
    let p ← s.probe a t i0 e
    let r ← s.probes a t i0 l
    pure ((e, p) :: r)

/-- The windows one after another; `put` hands on the elements of a window that covers the flat range given. A window is written
before the next is probed (R269, R270). -/
def storeWins (a : Acc1) (t : Fmt) (lim : Nat) (put : State → Nat → Nat → List (SElem × List Phys) → Eff) :
    Nat → State → Nat → List SElem → Eff
  | 0, s, _, _ => .ok s
  | fuel + 1, s, i0, els => do
    let w := s.window [] els
    let ps ← s.probes a t i0 w.1
    let i1 := match w.2, w.1.getLast? with
      | _ :: _, some e => e.ix + 1
      | _, _ => min lim s.sh.spr.flat
    let s' ← put (s.fillAll (w.1.map SElem.va)) i0 i1 ps
    if w.2.isEmpty then pure s'
    else
      let s' ← s'.settleV
      storeWins a t lim put fuel s' i1 w.2

/-- An element before the first that fails lies on an owned line: the store waits before it writes anything (R209, R270).
DEDUCED: log 41. -/
def State.storeBusy (s : State) (a : Acc1) (t : Fmt) : List SElem → Bool
  | [] => false
  | e :: l => match s.probe a t 0 e with
    | .error (.wait _) => true
    | .error _ => false
    | .ok p => (linesOf (physKeys p)).any s.owned || s.storeBusy a t l

/-- The elements of a window are handed to stream V in order (R199, R203). -/
def putStore (lock : Option (Nat × Nat)) (s : State) (_ _ : Nat) (l : List (SElem × List Phys)) : Eff :=
  .ok (s.handV (l.map fun q => ⟨.mem (physUc q.2) ((physKeys q.2).zip q.1.bytes), lock⟩))

/-- The range of a store, from its least byte to its greatest (R207). -/
def storeLock (t : Fmt) (els : List SElem) : Option (Nat × Nat) := rangeOfAddrs t.ew (els.map fun e => e.va.toNat)

/-- Where the elements that pass their probes go. -/
def State.storeTos (s : State) (a : Acc1) (t : Fmt) (els : List SElem) : List VTo :=
  els.filterMap fun e => match s.probe a t 0 e with
    | .ok p => some (.mem (physUc p) ((physKeys p).zip e.bytes))
    | .error _ => none

/-- An effect that a wait leaves undone whole. -/
def State.atOnce (s : State) (e : Eff) : Eff :=
  match e with
  | .error (.wait _) => .error (.wait s)
  | r => r

/-- R269. What one step writes is probed and, but for the stores still in flight, written whole: all that it could wait for comes before
its first window, so that no stop falls between two windows (R270, R286). DEDUCED: log 16, 41, 98. -/
def State.storeDo (s : State) (a : Acc1) (t : Fmt) (lim : Nat) (els : List SElem)
    (put : State → Nat → Nat → List (SElem × List Phys) → Eff) : Eff := do
  let s ← if (s.window [] els).2.isEmpty then pure s else s.settleV
  await s (!s.storeBusy a t els)
  let s ← s.settleFor (s.storeTos a t els)
  s.atOnce (storeWins a t lim put (els.length + 1) s s.sh.spr.epos.toNat els)

/-- A plain store, of a kind that holds back later A-loads of its range or of one that does not (R207). -/
def State.plainStore (s : State) (t : Fmt) (lim : Nat) (els : List SElem) (locks : Bool) : Eff :=
  s.storeDo .store t lim els (putStore (if locks then storeLock t els else none))

def execVst (ty : Fmt) (k : VMask) (d : VReg) (a : XReg) (disp : BitVec 32) (s : State) : Out3 :=
  let base := s.sh.vbase a disp
  runEff do
    need s (s.sh.srcOk d ty)
    alignedE s ty base 0 base
    s.memBody [d] fun lim s =>
      s.plainStore ty lim (s.sh.storeElems ty k d lim fun i => base + BitVec.ofNat 64 (ty.ew * i)) true

def execVsts (ty : Fmt) (k : VMask) (d : VReg) (a c : XReg) (disp : BitVec 32) (s : State) : Out3 :=
  let base := s.sh.vbase a disp
  runEff do
    need s (s.sh.srcOk d ty)
    alignedE s ty base (s.xr c) base
    s.memBody [d] fun lim s =>
      s.plainStore ty lim (s.sh.storeElems ty k d lim fun i => base + BitVec.ofNat 64 i * s.xr c) true

def execVstx (ty : Fmt) (k : VMask) (d : VReg) (a : XReg) (c : VReg) (disp : BitVec 32) (s : State) : Out3 :=
  let base := s.sh.vbase a disp
  s.memDo (s.sh.srcOk d ty && s.sh.srcOk c ty) [d, c] fun lim s =>
    s.plainStore ty lim (s.sh.storeElems ty k d lim fun i => base + BitVec.ofNat 64 (s.sh.elem c ty i)) false

/-- A store to a tile is one window: it is probed whole, then handed to stream V (R203, R233, R269). -/
def execTst (ty : Fmt) (k : VMask) (d : VReg) (a : XReg) (h : BitVec 12) (s : State) : Out3 :=
  let base := s.xr a
  runEff do
    need s (s.sh.srcOk d ty)
    alignedE s ty base 0 0
    let t ← s.resolve h
    s.memBody [d] fun lim s => do
      let els := s.sh.storeElems ty k d lim fun i => base + BitVec.ofNat 64 (ty.ew * i)
      match els.find? fun e => e.va.toNat + e.bytes.length > t.size with
      | some e => trapE (s.setEpos s.sh.spr.epos.toNat 0) 0x14 e.va
      | none => pure ()
      await s (!els.any fun e => s.tileBusy t e.va.toNat e.bytes.length)
      s.handAfter (els.map fun e => ⟨.tile h e.va.toNat e.bytes, none⟩)

/-! ### Vector atomics (R271) -/

/-- The new value of an element and its flags. -/
def vamoNew (op : RedOp) (t : Fmt) (r : Rnd) (old d : Nat) : Nat × Flags :=
  if op = .swap then (d, 0) else redStep op t r false old d

/-- One element of a window at its home. A line that has become poisoned since the probe kills the drove. -/
def vamoOne (op : RedOp) (t : Fmt) (r : Rnd) (d : VReg) (s : State) (q : SElem × List Phys) : Eff :=
  match s.firstPoison q.2 with
  | some (_, p) => .error (.pois q.1.va (lineOf p.key) s)
  | none =>
    let rd := s.vRead (physKeys q.2)
    let old := leNat rd.1
    let n := vamoNew op t r old (leNat q.1.bytes)
    let s := rd.2.vWrite s.sh.spr.brand12 (physUc q.2) ((physKeys q.2).zip (leBytes t.ew n.1))
    .ok ((s.putW [s.sh.item d t q.1.ix old true]).orFlags n.2)

/-- The window's elements in order, then the policies of the indices it covers. DEDUCED: log 98. -/
def putVamo (op : RedOp) (t : Fmt) (r : Rnd) (k : VMask) (d : VReg) (s : State) (i0 i1 : Nat)
    (l : List (SElem × List Phys)) : Eff := do
  let s ← l.foldlM (vamoOne op t r d) s
  let fills := (span i0 (min i1 (s.sh.spr.reach t))).filterMap fun i =>
    if s.sh.act k i = .fill then some (s.sh.fillItem d t i) else none
  pure (s.putW fills)

def execVamo (op : RedOp) (ty : Fmt) (rnd : Rnd) (k : VMask) (d : VReg) (a : XReg) (b : VReg) (disp : BitVec 32)
    (s : State) : Out3 :=
  let base := s.sh.vbase a disp
  s.memDo (s.sh.dstOk d ty && s.sh.srcOk b ty && !s.sh.overlap d b) [b] fun lim s => do
    let s ← s.settleV
    s.storeDo .rmw ty lim (s.sh.storeElems ty k d lim fun i => base + BitVec.ofNat 64 (s.sh.elem b ty i))
      (putVamo op ty rnd k d)

/-! ### The Assay unit (R278, R279) -/

/-- One varint from a byte position: its value and the next position, or the fault of a byte it consumes. -/
def varint (byte : Nat → ElemRes) : Nat → Nat → Nat → Nat → Except (ElemRes) (Nat × Nat)
  | 0, pos, _, acc => .ok (acc % 2 ^ 64, pos)
  | n + 1, pos, sh, acc =>
    match byte pos with
    | .val b =>
      let acc := acc + b % 128 * 2 ^ sh
      if b < 128 then .ok (acc % 2 ^ 64, pos + 1) else varint byte n (pos + 1) (sh + 7) acc
    | r => .error r

/-- The bytes from p below q as a number, or the first fault. -/
def packBytes (byte : Nat → ElemRes) (p : Nat) : Nat → Except ElemRes Nat
  | 0 => .ok 0
  | n + 1 => do
    let lo ← match byte p with
      | .val b => .ok b
      | r => .error r
    let hi ← packBytes byte (p + 1) n
    pure (lo + 256 * hi)

/-- The next coded value at a position (bytes, or bits for pack). -/
def coded (mode : Fin 3) (w : Nat) (byte : Nat → ElemRes) (pos : Nat) : Except ElemRes (Nat × Nat) :=
  if mode = 2 then do
    let v ← packBytes byte (pos / 8) (ceilDiv (pos + w) 8 - pos / 8)
    pure (v / 2 ^ (pos % 8) % 2 ^ w, pos + w)
  else do
    let r ← varint byte 10 pos 0 0
    pure (if mode = 1 then ((r.1 / 2) ^^^ (if r.1 % 2 = 1 then 2 ^ 64 - 1 else 0), r.2) else r)

/-- The values of the elements in order, the position after them, and the fault that ended them, if one did. -/
def assay (mode : Fin 3) (delta : Bool) (w : Nat) (byte : Nat → ElemRes) :
    Nat → Nat → Nat → List Nat × Nat × Option ElemRes
  | 0, pos, _ => ([], pos, none)
  | n + 1, pos, run =>
    match coded mode w byte pos with
    | .error r => ([], pos, some r)
    | .ok (v, pos') =>
      let v := if delta then (run + v) % 2 ^ 64 else v
      let q := assay mode delta w byte n pos' v
      (v :: q.1, q.2)

/-- The number of bytes a decode may read. -/
def assayBytes (mode : Fin 3) (w aec : Nat) : Nat := if mode = 2 then ceilDiv (aec * w) 8 else 10 * aec
/-- A width field of 0 means 64. -/
def assayW (w : BitVec 6) : Nat := if w = 0 then 64 else w.toNat
def assayAddrs (base : Word) (n : Nat) : List (Option Nat) :=
  (List.range n).map fun j => some (base + BitVec.ofNat 64 j).toNat

/-- A read of one byte, or a wait for the copy engine that owns its line (R209, R260). -/
def State.readOpen (s : State) (va : Word) : ElemRes := if s.elemBusy va 1 then .flt walkWaits 0 else s.readElem va 1

def execVassay (mode : Fin 3) (delta : Bool) (w : BitVec 6) (ty : Fmt) (d : VReg) (a b c : XReg) (s : State) : Out3 :=
  let base := s.xr a
  let h := s.sh
  s.vecDo (h.dstOk d ty) [] fun s => do
    let n := h.spr.aecn
    let addrs := assayAddrs base (assayBytes mode (assayW w) n)
    let got := h.snapshot addrs none
    let s ← if allRead addrs got then pure s else do
      let s ← s.settleW
      s.interlock (touchOf .n8 false addrs none)
    let byte := fun j => (got.getD j none).getD (s.readOpen (base + BitVec.ofNat 64 j))
    let q := assay mode delta (assayW w) byte n 0 (s.xr b).toNat
    let used := if mode = 2 then ceilDiv q.2.1 8 else q.2.1
    await s (!q.2.2.any ElemRes.waits)
    let s := if allRead addrs got then s else s.withSheet s.sh.dropAhead
    let e := q.1.length
    let lo := h.spr.epos.toNat
    let ws := (span lo e).map fun i => h.item d ty i (q.1.getD i 0) true
    match q.2.2 with
    | some r => .error (elemStop ((s.putW ws).setEpos e 0) e r)
    | none =>
      let rest := if h.spr.tail then (span (max lo n) h.spr.flat).map fun i => h.fillItem d ty i else []
      pure ((s.putW (ws ++ rest)).setX c (BitVec.ofNat 64 used))

end Machine
end Sys2Proof
end

