-- ==== Sys2Proof/Machine/Array.lean ====
section
/-! DEFINITION. Array instructions I: descriptors (R92 to R101), rank and agreement (R103 to R106), the walk over result
elements with its stops (R17, R19, R116, R117), overlap (R119), `amap`, `ared` and `ascan` (R107 to R114).
-/
namespace Sys2Proof

/-- Functions of OPC 0x51. -/
def MapUn.float : MapUn → Bool
  | .fsqrt => true
  | .frsqrt => true
  | .fexp2 => true
  | .flog2 => true
  | .fabs => true
  | .fneg => true
  | _ => false

def MapBin.float : MapBin → Bool
  | .fadd => true
  | .fsub => true
  | .fmul => true
  | .fdiv => true
  | .fmin => true
  | .fmax => true
  | _ => false

/-- The formats the array class accepts (R95). -/
def Fmt.array (t : Fmt) : Bool := t != .fp4b && t != .fct8

/-- SAT = 1 is refused for a destination that cannot saturate (R77). -/
def Fmt.noSat (t : Fmt) : Bool := t == .f64 || t == .f32 || t == .bf16 || t == .f16 || t == .ing

namespace Machine

/-! ### Descriptor fields (R92) -/

def dBase (d : BitVec 1024) : Word := BitVec.ofNat 64 (wfld d 0 64)
def dKind (d : BitVec 1024) : Nat := wfld d 64 8
def dFmt (d : BitVec 1024) : Nat := wfld d 72 8
def dRank (d : BitVec 1024) : Nat := wfld d 80 8
def dFlags (d : BitVec 1024) : Nat := wfld d 88 8
def dHandle (d : BitVec 1024) : Nat := wfld d 96 32
def dShape (d : BitVec 1024) (k : Nat) : Nat := wfld d (128 + 32 * k) 32
def dStride (d : BitVec 1024) (k : Nat) : Int := toSigned 32 (wfld d (320 + 32 * k) 32)
def dCap (d : BitVec 1024) : Nat := wfld d 512 64
def dCount (d : BitVec 1024) : Nat := wfld d 576 64
def dShapes (d : BitVec 1024) : List Nat := (List.range (dRank d)).map (dShape d)
def dStrides (d : BitVec 1024) : List Int := (List.range (dRank d)).map (dStride d)

/-- The place and width of a field by its `dset` number. -/
def dField (n : Nat) : Nat × Nat :=
  if n = 0 then (0, 64)
  else if n ≤ 4 then (56 + 8 * n, 8)
  else if n = 5 then (96, 32)
  else if n ≤ 11 then (128 + 32 * (n - 6), 32)
  else if n ≤ 17 then (320 + 32 * (n - 12), 32)
  else (512 + 64 * (n - 18), 64)

def prodL (l : List Nat) : Nat := l.foldl (fun a b => a * b) 1

/-- Row-major strides. DEDUCED: log 51. -/
def denseStrides : List Nat → List Int
  | [] => []
  | _ :: l => (prodL l : Nat) :: denseStrides l

/-- The multi-index of a flat index in row-major order. -/
def unravel : List Nat → Nat → List Nat
  | [], _ => []
  | _ :: l, i => i / prodL l :: unravel l (i % prodL l)

def ravel : List Nat → List Nat → Nat
  | _ :: l, k :: ks => k * prodL l + ravel l ks
  | _, _ => 0

def dotInt : List Nat → List Int → Int
  | k :: ks, t :: ts => k * t + dotInt ks ts
  | _, _ => 0

/-! ### Checked operands (R94, R95) -/

/-- An array operand after its checks. -/
structure Arr where
  t : Fmt
  base : Word
  tile : Option (BitVec 12)
  shape : List Nat
  strides : List Int
  cap : Nat
  deriving DecidableEq, Repr

/-- DEDUCED: log 45. -/
def descE {α : Type} (s : State) (op reason : Nat) : Except Stop α :=
  trapE s 0x21 (BitVec.ofNat 64 (op + reason * 256))

/-- A reason of R95 unless the condition holds. -/
def needD (s : State) (op reason : Nat) (b : Bool) : Except Stop Unit := if b then .ok () else descE s op reason

/-- The format, if the instruction accepts it. DEDUCED: log 104. -/
def fmtD (s : State) (op : Nat) (d : BitVec 1024) (ok : Fmt → Bool) : Except Stop Fmt :=
  match Fmt.ofCode (dFmt d) with
  | some t => if ok t then .ok t else descE s op 1
  | none => descE s op 1

/-- Entries at and above RANK are zero and the product is in range. -/
def shapeD (d : BitVec 1024) : Bool :=
  ((List.range 6).all fun k => k < dRank d || (dShape d k = 0 && dStride d k = 0)) && prodL (dShapes d) < 2 ^ 48

def handleD (d : BitVec 1024) : Bool := if dKind d = 0 then dHandle d = 0 else dHandle d < 4096

/-- The least and greatest byte, and one past, of the elements at the offsets of a shape; none when there are none. -/
def extent (ew : Nat) (base : Int) (shape : List Nat) (strides : List Int) : Option (Int × Int) :=
  if shape.contains 0 then none
  else
    let ends := (shape.zip strides).map fun q => ((q.1 - 1 : Nat) : Int) * q.2
    let lo := ends.foldl (fun a e => a + min e 0) 0
    let hi := ends.foldl (fun a e => a + max e 0) 0
    some (base + lo * ew, base + hi * ew + ew)

/-- The base as an integer: an address is signed, a tile offset is not. -/
def baseInt (tile : Bool) (b : Word) : Int := if tile then (b.toNat : Int) else b.toInt

/-- Alignment of BASE to `al`, then the handle and the tile's format (R95, R229). DEDUCED: log 64. -/
def placeD (s : State) (op : Nat) (d : BitVec 1024) (t : Fmt) (al : Nat) : Except Stop (Option (BitVec 12)) := do
  if (dBase d).toNat % al != 0 then trapE s 0x04 (dBase d) (if dKind d = 0 then dBase d else 0)
  if dKind d = 0 then pure none
  else
    let h : BitVec 12 := BitVec.ofNat 12 (dHandle d)
    let q ← s.resolve h
    needD s op 7 (q.fmt = t)
    pure (some h)

/-- An extent lies inside the tile. -/
def State.insideTile (s : State) (h : Option (BitVec 12)) (e : Option (Int × Int)) : Bool :=
  match h, e with
  | some h, some (lo, hi) => match s.tile? h with
    | some q => 0 ≤ lo && hi ≤ (q.size : Int)
    | none => false
  | _, _ => true

/-- The checks of a source descriptor (R95, R97). -/
def State.srcD (s : State) (op : Nat) (r : DReg) (ok : Fmt → Bool) : Except Stop Arr := do
  let d := s.sh.d[r.val]
  let t ← fmtD s op d fun t => t.array && ok t
  needD s op 2 (dKind d ≤ 1)
  needD s op 3 (dRank d ≤ 6)
  needD s op 4 (dFlags d ≤ 1)
  needD s op 5 (shapeD d)
  needD s op 6 (handleD d)
  needD s op 12 (wfld d 640 384 = 0)
  let h ← placeD s op d t (min t.ew 8)
  let e := extent t.ew (baseInt h.isSome (dBase d)) (dShapes d) (dStrides d)
  needD s op 7 (s.insideTile h e)
  pure ⟨t, dBase d, h, dShapes d, dStrides d, dCap d⟩

/-- The checks of the destination descriptor (R95, R96), bytes 80 to 127 among them, then SAT (R106). DEDUCED: log 45. -/
def State.dstD (s : State) (r : DReg) (sat : Bool) (ok : Fmt → Bool) : Except Stop Arr := do
  let d := s.sh.d[r.val]
  let t ← fmtD s 0 d fun t => t.array && ok t
  needD s 0 2 (dKind d ≤ 1)
  needD s 0 4 (dFlags d = 0)
  needD s 0 6 (handleD d)
  needD s 0 12 (wfld d 640 384 = 0)
  let h ← placeD s 0 d t (min t.ew 8)
  need s (!(sat && t.noSat))
  pure ⟨t, dBase d, h, [], [], dCap d⟩

/-- A shape operand: reasons 3, 5 and 12 alone (R124). -/
def State.shapeOperand (s : State) (op : Nat) (r : DReg) : Except Stop (List Nat) := do
  let d := s.sh.d[r.val]
  needD s op 3 (dRank d ≤ 6)
  needD s op 5 (shapeD d)
  needD s op 12 (wfld d 640 384 = 0)
  pure (dShapes d)

/-- PROG1 for an instruction without states (R106 step 2). -/
def State.noPhase (s : State) : Except Stop Unit := needD s 0 11 (s.sh.spr.prog1 = 0)

/-! ### Rank and agreement (R103 to R105) -/

/-- The frame and the cell of a shape under a cell-rank field. -/
def splitRank (shape : List Nat) (c : BitVec 3) : List Nat × List Nat :=
  let ce := if c = 7 then shape.length else min c.toNat shape.length
  (shape.take (shape.length - ce), shape.drop (shape.length - ce))

/-- The first place at which two lists differ, below the shorter length. -/
def firstDiff : List Nat → List Nat → Option Nat
  | a :: l, b :: m => if a = b then (firstDiff l m).map fun k => k + 1 else some 0
  | _, _ => none

/-- Agreement of two lists of lengths: the longer one (R104). -/
def agreeE (s : State) (off : Nat) (a b : List Nat) : Except Stop (List Nat) :=
  match firstDiff a b with
  | some k => trapE s 0x20 (BitVec.ofNat 64 (off + k))
  | none => .ok (if a.length < b.length then b else a)

/-- The first axis at which two whole shapes differ, counting a missing one. -/
def shapeDiff (a b : List Nat) : Option Nat :=
  match firstDiff a b with
  | some k => some k
  | none => if a.length = b.length then none else some (min a.length b.length)

def sameShapeE (s : State) (a b : List Nat) : Except Stop Unit :=
  match shapeDiff a b with
  | some k => trapE s 0x20 (BitVec.ofNat 64 k)
  | none => .ok ()

/-- The axis that AXIS names, counted from the cell (R112, R124); reason 10 names the source. -/
def axisE (s : State) (op : Nat) (shape : List Nat) (c k : BitVec 3) : Except Stop Nat :=
  let q := splitRank shape c
  let n := q.2.length
  let k := if k = 7 then n - 1 else k.toNat
  if k < n then .ok (q.1.length + k) else descE s op 10

def rankE (s : State) (n : Nat) : Except Stop Unit := if n > 6 then trapE s 0x22 (BitVec.ofNat 64 n) else .ok ()

/-! ### Capacity, extent, overlap (R106, R119) -/

/-- Step 7: n result elements fit the capacity and the tile; `span` elements lie in the tile. DEDUCED: log 50. -/
def State.fitsD (s : State) (d : Arr) (n : Nat) : Except Stop Unit := do
  needD s 0 8 (n ≤ d.cap)
  needD s 0 7 (s.insideTile d.tile (extent d.t.ew (baseInt d.tile.isSome d.base) [n] [1]))

/-- Two operands whose spans overlap; the destination has n elements from BASE. -/
def clash (d : Arr) (n : Nat) (a : Arr) : Bool :=
  (match d.tile, a.tile with
    | some g, some h => g = h
    | none, none => true
    | _, _ => false) &&
  match extent d.t.ew (baseInt d.tile.isSome d.base) [n] [1], extent a.t.ew (baseInt a.tile.isSome a.base) a.shape a.strides with
  | some p, some q => p.1 < q.2 && q.1 < p.2
  | _, _ => false

/-- An exact alias of the destination (R119). -/
def alias_ (d : Arr) (shape : List Nat) (a : Arr) : Bool :=
  d.tile = a.tile && d.base = a.base && d.t = a.t && a.shape = shape && a.strides = denseStrides shape

/-- Step 8, sources by operand number. -/
def overlapE (s : State) (d : Arr) (n : Nat) : List (Nat × Arr) → Except Stop Unit
  | [] => .ok ()
  | (op, a) :: l => if clash d n a then trapE s 0x25 (BitVec.ofNat 64 op) else overlapE s d n l

/-! ### Element accesses (R94, R116, R121) -/

/-- What stops the computation of an element: a fault, poison on a page that kills, a line or tile unit that a copy
engine owns, or an index of `afrom`. -/
inductive ElFault where
  | flt (cause : Nat) (addr : Word)
  | kill (va : Word) (line : Nat)
  | busy
  | index
  deriving DecidableEq, Repr

def Arr.at_ (a : Arr) (off : Int) : Word := a.base + Word.ofInt (off * a.t.ew)
/-- The tile offset of an element. -/
def Arr.tileOff (a : Arr) (off : Int) : Nat := ((a.base.toNat : Int) + off * a.t.ew).toNat
def Arr.off (a : Arr) (idx : List Nat) : Int := dotInt idx a.strides

/-- A check of an element's bytes that failed, or a walk that waits. -/
def ElFault.ofCheck (cause : Nat) (addr : Word) : ElFault := if cause = walkWaits then .busy else .flt cause addr

/-- What stops an element when an access before it cannot be performed. -/
def Stop.asElem : Stop → ElFault
  | .trap c _ fa _ => .flt c fa
  | .wait _ => .busy
  | .pois va line _ => .kill va line

/-- The stores of the sheet in flight are performed, as a read of stream V finds them (R202). -/
def State.drainV (s : State) : Except ElFault State := s.settleV.mapError Stop.asElem

/-- Reads the element at an element offset, after the earlier stores of the stream. -/
def State.arrGet (s : State) (a : Arr) (off : Int) : Except ElFault (Nat × State) := do
  let s ← s.drainV
  match a.tile with
  | some h => match s.tile? h with
    | none => .error (.flt 0x24 0)
    | some q =>
      if s.tileBusy q (a.tileOff off) a.t.ew then .error .busy else .ok (q.data.nat (a.tileOff off) a.t.ew, s)
  | none =>
    let va := a.at_ off
    match s.range .load va a.t.ew with
    | .error (c, f) => .error (.ofCheck c f)
    | .ok l =>
      if (linesOf (physKeys l)).any s.owned then .error .busy
      else match s.firstPoison l with
        | some (i, p) =>
          .error (if pePois p.entry then .kill va (lineOf p.key) else .flt 0x60 (lineVa (va + BitVec.ofNat 64 i)))
        | none =>
          let q := (s.fillAll (pageStarts va a.t.ew)).vRead (physKeys l)
          .ok (leNat q.1, q.2)

/-- A list in pieces of 8, at least one. -/
def pieces8 {α : Type} (l : List α) : List (List α) := (List.range (max 1 (ceilDiv l.length 8))).map fun j => (l.drop (8 * j)).take 8

/-- The stores of an element of an array: one, or three of 8 bytes for an ingot (R121). -/
def elemStores (uc : Bool) (lock : Option (Nat × Nat)) (kvs : List (Nat × Byte)) : List VStore :=
  (pieces8 kvs).map fun p => ⟨.mem uc p, lock⟩
def elemTileStores (h : BitVec 12) (off : Nat) (bytes : List Byte) : List VStore :=
  (pieces8 bytes).zipIdx.map fun q => ⟨.tile h (off + 8 * q.2) q.1, none⟩

/-- Hands the element at an element offset to stream V, after the reads of the sheet's weight loads that it could change; it holds back
A-loads of the destination's first `n` elements (R121, R143, R203, R207, R208). DEDUCED: log 16. -/
def State.arrPut (s : State) (a : Arr) (n : Nat) (off : Int) (v : Nat) : Except ElFault State :=
  match a.tile with
  | some h => match s.tile? h with
    | none => .error (.flt 0x24 0)
    | some q =>
      if s.tileBusy q (a.tileOff off) a.t.ew then .error .busy
      else (s.handAfter (elemTileStores h (a.tileOff off) (leBytes a.t.ew v))).mapError Stop.asElem
  | none =>
    let va := a.at_ off
    match s.range .store va a.t.ew with
    | .error (c, f) => .error (.ofCheck c f)
    | .ok l =>
      if (linesOf (physKeys l)).any s.owned then .error .busy
      else ((s.fillAll (pageStarts va a.t.ew)).handAfter (elemStores (physUc l) (some (a.base.toNat, (a.at_ n).toNat - 1))
        ((physKeys l).zip (leBytes a.t.ew v)))).mapError Stop.asElem

/-- Reads of an operand at a list of multi-indices. -/
def State.arrGets (s : State) (a : Arr) : List (List Nat) → Except ElFault (List Nat × State)
  | [] => .ok ([], s)
  | ix :: l => do
    let q ← s.arrGet a (a.off ix)
    let r ← q.2.arrGets a l
    pure (q.1 :: r.1, r.2)

/-! ### The walk (R17, R19, R116, R117) -/

def State.setProg (s : State) (p0 p1 p2 : Nat) : State :=
  s.mapSpr fun p => { p with
    prog0 := BitVec.ofNat 64 (p0 % 2 ^ 48), prog1 := BitVec.ofNat 64 (p1 % 2 ^ 40), prog2 := BitVec.ofNat 64 p2 }

def Spr.next (p : Spr) : Nat := fld p.prog0 0 48

/-- What an element's computation gives: the state with the element written and the walk's carries, or nothing when no
result element is left. -/
abbrev Elem := State → Nat → List Nat → Except ElFault (Option (State × List Nat))

/-- The stop at element i, the progress registers being set. -/
def ElFault.stop (s : State) (i : Nat) : ElFault → Stop
  | .flt c a => .trap c (BitVec.ofNat 64 i) a s
  | .kill va line => .pois va line s
  | .busy => .wait s
  | .index => .trap 0x21 (BitVec.ofNat 64 (2 + 13 * 256 + i * 65536)) 0 s

/-- The element breakpoint. DEDUCED: log 46. -/
def State.breakStop (s : State) : Stop :=
  .trap 0x30 s.sh.spr.ebrk 0 (s.mapSpr fun p => { p with ebrk := 0 })

/-- An asynchronous stop falls at or before element i. -/
def State.irqAt (s : State) (i : Nat) : Bool :=
  match s.sh.irq with
  | some (_, some n) => n ≤ i
  | _ => false

/-- The breakpoint fires at the boundary before element i, which is below `cap`, the number of elements that are written: at
the start of an instruction for any i at or above EBRK, later for i = EBRK (R17). -/
def State.breaksAt (s : State) (cap : Nat) (first : Bool) (i : Nat) : Bool :=
  let brk := s.sh.spr.ebrk.toNat
  brk ≠ 0 && i < cap && (if first then brk ≤ i else i = brk)

/-- The elements from i on, the first of the walk when `first`; those at or above `cap` are counted and not written; `prog` gives
PROG1 and PROG2 at a stop. A fault of an element comes before the breakpoint at its boundary, but for the breakpoint that
stands at the start, a check that leaves PROG as it is (R17, R19, R106). An element that another element's write reached through
an alias in physical memory is read as it then stands (R120). DEDUCED: log 46;
DESIGN CHOICE: log 106. -/
def walkFrom (el : Elem) (prog : Nat → List Nat → Nat × Nat) (cap : Nat) :
    Nat → Bool → State → Nat → List Nat → Except Stop (State × Nat × List Nat)
  | 0, _, s, i, cs => .ok (s, i, cs)
  | fuel + 1, first, s, i, cs =>
    let sp := s.setProg i (prog i cs).1 (prog i cs).2
    match el s i cs with
    | .ok none => .ok (s, i, cs)
    | .error f => .error (if first && s.breaksAt cap first i then s.breakStop else f.stop sp i)
    | .ok (some (s', cs')) =>
      if s.breaksAt cap first i then .error (if first then s.breakStop else sp.breakStop)
      else if s.irqAt i then .error (.wait sp)
      else walkFrom el prog cap fuel false s' (i + 1) cs'

/-- A walk of n elements from PROG0. `before` gives the carries of the lines that elements of the run take up again; it reads
after the breakpoint that stands at the start, and a fault of it is one of the first element (R117). DEDUCED: log 49. -/
def carryWalk (s : State) (n : Nat) (before : State → Except ElFault (List Nat × State)) (el : Elem)
    (prog : Nat → List Nat → Nat × Nat) (first : Nat × Nat) : Except Stop (State × Nat × List Nat) :=
  let p0 := s.sh.spr.next
  if n ≤ p0 then .ok (s, p0, [])
  else if s.breaksAt n true p0 then .error s.breakStop
  else match before s with
    | .error f => .error (f.stop (s.setProg p0 first.1 first.2) p0)
    | .ok (cs, s) => walkFrom el prog n (n - p0) true s p0 cs

/-- A walk of n elements from PROG0 without carries. -/
def elemWalk (s : State) (n : Nat) (el : Elem) : Except Stop (State × Nat × List Nat) :=
  walkFrom el (fun _ _ => (0, 0)) n (n - s.sh.spr.next) true s s.sh.spr.next []

/-- Sets a list of 32-bit entries from a bit position on. -/
def putEntries (d : BitVec 1024) : Nat → List Int → BitVec 1024
  | _, [] => d
  | lo, v :: l => putEntries (wsetFld d lo 32 (wrapTo 32 v)) (lo + 32) l

/-- The destination register at completion (R14). DEDUCED: log 51. -/
def resultDesc (d : BitVec 1024) (shape : List Nat) (count : Nat) : BitVec 1024 :=
  let pad := fun (l : List Int) => l ++ List.replicate (6 - l.length) 0
  let d := wsetFld d 80 8 shape.length
  let d := putEntries d 128 (pad (shape.map Int.ofNat))
  let d := putEntries d 320 (pad (denseStrides shape))
  wsetFld d 576 64 count

/-- Completion: the destination register, and PROG and EBRK at zero (R14, R17, R18). -/
def State.arrDone (s : State) (r : DReg) (shape : List Nat) (count : Nat) : State :=
  let s := s.setProg 0 0 0
  let s := s.mapSpr fun p => { p with ebrk := 0 }
  { s with sh := { s.sh with d := s.sh.d.set r.val (resultDesc s.sh.d[r.val] shape count) } }

/-- A result of a shape whose element i comes from `val`: bits and flags at a state. -/
def State.arrRun (s : State) (r : DReg) (d : Arr) (shape : List Nat)
    (val : State → Nat → Except ElFault ((Nat × Flags) × State)) : Eff := do
  let n := prodL shape
  let q ← elemWalk s n (fun s i cs => do
    let v ← val s i
    let s' ← v.2.arrPut d (i + 1) i v.1.1
    pure (some (s'.orFlags v.1.2, cs)))
  pure (q.1.arrDone r shape n)

/-! ### Descriptor instructions (R98 to R101) -/

def execDset (d : DReg) (a : XReg) (field : Fin 20) (s : State) : Out3 :=
  let f := dField field.val
  .next ({ s with sh := { s.sh with
    d := s.sh.d.set d.val (wsetFld s.sh.d[d.val] f.1 f.2 (s.xr a).toNat) } } : State).finish

/-- The first byte of an access at va that lies in the poisoned line a stop names: FADDR of `dld` (R99). -/
def Stop.fromByte (va : Word) : Stop → Stop
  | .trap 0x60 tv fa s => .trap 0x60 tv (if fa.toNat < va.toNat then va else fa) s
  | .trap c tv fa s => .trap c tv fa s
  | .wait s => .wait s
  | .pois a line s => .pois a line s

def execDld (d : DReg) (a : XReg) (disp : BitVec 32) (s : State) : Out3 :=
  runEff <|
    match s.sLoad (s.va a disp) 128 16 with
    | .error st => .error (st.fromByte (s.va a disp))
    | .ok (b, s') => .ok { s' with sh := { s'.sh with d := s'.sh.d.set d.val (BitVec.ofNat 1024 (leNat b)) } }

def execDst (d : DReg) (a : XReg) (disp : BitVec 32) (s : State) : Out3 :=
  runEff (s.sStore (s.va a disp) 16 (leBytes 128 s.sh.d[d.val].toNat))

/-- R101: dA is checked as a source by the descriptor checks of R95, and PROG1 is not looked at. DEDUCED: log 105. -/
def execDshape (d : XReg) (a : DReg) (q : Fin 5) (axis : BitVec 3) (s : State) : Out3 :=
  runEff do
    let x ← s.srcD 1 a fun _ => true
    let v := s.sh.d[a.val]
    match q with
    | 0 =>
      let k ← axisE s 1 x.shape 7 axis
      pure (s.setX d (BitVec.ofNat 64 (x.shape.getD k 0)))
    | 1 => pure (s.setX d (BitVec.ofNat 64 x.shape.length))
    | 2 => pure (s.setX d (BitVec.ofNat 64 (prodL x.shape)))
    | 3 => pure (s.setX d (BitVec.ofNat 64 (dCap v)))
    | 4 => pure (s.setX d (BitVec.ofNat 64 (dCount v)))

/-! ### amap (R109 to R111) -/

/-- The operation formats that a function accepts (R110). DEDUCED: log 48. -/
def mapOpFmt (f : MapFn) (t : Fmt) : Bool :=
  match f with
  | .un .mov => true
  | .un u => t != .ing && (if u.float then t.isFloat else t.isInt)
  | .bin u _ => if t = .ing then u = .add else if u.float then t.isFloat else t.isInt
  | .cmp _ _ => t.isInt
  | .fcmp _ _ => t != .ing && t.isFloat
  | .fma _ _ => t != .ing && t.isFloat
  | .sel _ _ => t != .ing

/-- The formats of the result. DEDUCED: log 48. -/
def mapDstFmt (f : MapFn) (t : Fmt) : Bool :=
  match f with
  | .cmp _ _ => t = .n8
  | .fcmp _ _ => t = .n8
  | _ => true

/-- A value moved to a format: the bits themselves where it is the same (R111). DEDUCED: log 47. -/
def moveEl (o t : Fmt) (r : Rnd) (sat : Bool) (x : Nat) : Nat × Flags := if o = t then (x, 0) else convert o t r sat x

/-- One element of a function on operand bits, rounded once to the destination; in the operation format it is that of the vector
instruction (R111). DEDUCED: log 47. -/
def mapEl (f : MapFn) (o t : Fmt) (r : Rnd) (sat : Bool) (x y z : Nat) : Nat × Flags :=
  match f with
  | .un .mov => moveEl o t r sat x
  | .un u => if u.float then fDone t r (sat && !(o = t && u.picks)) (fExactUn u (fdecode o x)) else moveEl o t r sat (iUn u o sat x)
  | .bin u _ =>
    if o = .ing then
      let q := ingAdd x y
      let p := moveEl .ing t r sat q.1
      (p.1, q.2 ||| p.2)
    else if u.float then fDone t r (sat && !(o = t && u.picks)) (fExact u r (fdecode o x) (fdecode o y))
    else moveEl o t r sat (iBin u o sat x y)
  | .cmp c _ => (if iCondP c o x y then 1 else 0, 0)
  | .fcmp c _ => (if fCondP c o x y then 1 else 0, 0)
  | .fma _ _ => fDone t r sat (fFma r (fdecode o x) (fdecode o y) (fdecode o z))
  | .sel _ _ => moveEl o t r sat (if z ≠ 0 then x else y)

/-- The further operands: number, register, and the formats accepted under the operation format. -/
def mapArgs (f : MapFn) (o : Fmt) : List (Nat × DReg × (Fmt → Bool)) :=
  match f with
  | .un _ => []
  | .bin _ y => [(2, y, (· == o))]
  | .cmp _ y => [(2, y, (· == o))]
  | .fcmp _ y => [(2, y, (· == o))]
  | .fma y z => [(2, y, (· == o)), (3, z, (· == o))]
  | .sel y z => [(2, y, (· == o)), (3, z, Fmt.isInt)]

/-- DEDUCED: log 104. -/
def State.srcDs (s : State) : List (Nat × DReg × (Fmt → Bool)) → Except Stop (List (Nat × Arr))
  | [] => .ok []
  | (op, r, ok) :: l => do
    let a ← s.srcD op r ok
    let q ← s.srcDs l
    pure ((op, a) :: q)

/-- Agreement of the frames, or of the cells, of all operands. -/
def agreeAll (s : State) (off : Nat) : List Nat → List (List Nat) → Except Stop (List Nat)
  | f, [] => .ok f
  | f, g :: l => do
    let f ← agreeE s off f g
    agreeAll s off f l

/-- The bits that the operands give at the multi-indices that `at_` derives from each operand's frame and cell lengths. -/
def State.operandBits (s : State) (at_ : Nat → Nat → List Nat) :
    List (Arr × (List Nat × List Nat)) → Except ElFault (List Nat × State)
  | [] => .ok ([], s)
  | (a, q) :: l => do
    let v ← s.arrGet a (a.off (at_ q.1.length q.2.length))
    let r ← v.2.operandBits at_ l
    pure (v.1 :: r.1, r.2)

def execAmap (f : MapFn) (d a : DReg) (xr yr : BitVec 3) (rnd : Rnd) (sat : Bool) (s : State) : Out3 :=
  runEff do
    s.noPhase
    let x ← s.srcD 1 a (mapOpFmt f)
    let rest ← s.srcDs (mapArgs f x.t)
    let dd ← s.dstD d sat (mapDstFmt f)
    let px := splitRank x.shape xr
    let ps := rest.map fun q => splitRank q.2.shape yr
    let F ← agreeAll s 0 px.1 (ps.map Prod.fst)
    let C ← agreeAll s F.length px.2 (ps.map Prod.snd)
    rankE s (F.length + C.length)
    let shape := F ++ C
    let n := prodL shape
    s.fitsD dd n
    overlapE s dd n ((((1, x) :: rest)).filter fun q => !alias_ dd shape q.2)
    s.arrRun d dd shape fun s i => do
      let idx := unravel shape i
      let v ← s.operandBits (fun fl cl => idx.take fl ++ (idx.drop F.length).take cl) ((x, px) :: (rest.map Prod.snd).zip ps)
      pure (mapEl f x.t dd.t rnd sat (v.1.getD 0 0) (v.1.getD 1 0) (v.1.getD 2 0), v.2)

/-! ### ared (R112) -/

/-- The formats an operator accepts in a source or an accumulator (R108). -/
def redFmt (o : RedOp) (t : Fmt) : Bool :=
  match o with
  | .add => true
  | .mul => t != .ing
  | .min => t != .ing
  | .max => t != .ing
  | _ => t.isInt

/-- An ingot source needs an accumulator it converts to (R108). -/
def redDst (o : RedOp) (x t : Fmt) : Bool := redFmt o t && (x != .ing || t == .ing || t == .f32 || t == .bf16)

def insertAt (l : List Nat) (a j : Nat) : List Nat := l.take a ++ j :: l.drop a

/-- The source elements rounded into the accumulating format, with their flags. -/
def roundAll (x t : Fmt) (r : Rnd) (sat : Bool) (l : List Nat) : List Nat × Flags :=
  let q := l.map (convert x t r sat)
  (q.map Prod.fst, q.foldl (fun f p => f ||| p.2) 0)

def execAred (op : RedOp) (d a : DReg) (xr axis : BitVec 3) (rnd : Rnd) (sat : Bool) (s : State) : Out3 :=
  runEff do
    s.noPhase
    let x ← s.srcD 1 a (redFmt op)
    let dd ← s.dstD d sat (redDst op x.t)
    let ax ← axisE s 1 x.shape xr axis
    let m := x.shape.getD ax 0
    let shape := x.shape.eraseIdx ax
    let n := prodL shape
    s.fitsD dd n
    overlapE s dd n [(1, x)]
    s.arrRun d dd shape fun s i =>
      if m = 0 then .ok (((redIdent op dd.t).getD 0, 0), s)
      else do
        let v ← s.arrGets x ((List.range m).map (insertAt (unravel shape i) ax))
        let t := roundAll x.t dd.t rnd sat v.1
        let q := reduceL (redStep op dd.t rnd sat) false t.1
        pure ((q.1, t.2 ||| q.2), v.2)

/-! ### ascan (R113, R114) -/

/-- Rounding into an accumulator of the scan: an integral value wraps or clamps in an integer format (R69, R76). -/
def scanRound (t : Fmt) (r : Rnd) (sat : Bool) (v : FVal) : Nat × Flags :=
  if t.isInt then
    match v with
    | .fin neg m e =>
      if 0 ≤ e || m % 2 ^ (-e).toNat = 0 then
        (ifit t sat (let k : Int := shiftN m e; if neg then -k else k), 0)
      else fround t r sat v
    | _ => fround t r sat v
  else fround t r sat v

/-- An operator on the exact values of a carry and an element of another format. -/
def mixExact (o : RedOp) (r : Rnd) (a b : FVal) : FVal × Flags :=
  match o with
  | .add => fAdd r a b
  | .mul => fMul a b
  | .min => (fMinMax false a b, 0)
  | .max => (fMinMax true a b, 0)
  | _ => (.nan, 0)

/-- An operator on two integers. -/
def mixInt (o : RedOp) (p q : Int) : Int :=
  match o with
  | .add => p + q
  | .mul => p * q
  | .min => min p q
  | .max => max p q
  | .and => toSigned 128 (wrapTo 128 p &&& wrapTo 128 q)
  | .or => toSigned 128 (wrapTo 128 p ||| wrapTo 128 q)
  | .xor => toSigned 128 (wrapTo 128 p ^^^ wrapTo 128 q)
  | .swap => q

/-- One step of a scan: the carry, in the accumulating format t, with an element of format x (R113). An invalid ingot in a step
is a NaN operand, which sets no flag (R72); at a start it is converted and sets NV (R89). DEDUCED: log 49. -/
def scanStep (o : RedOp) (x t : Fmt) (r : Rnd) (sat : Bool) (carry v : Nat) : Nat × Flags :=
  if x = t then redStep o t r sat carry v
  else if x.isInt && t.isInt then (ifit t sat (mixInt o (ival t carry) (ival x v)), 0)
  else
    let q := mixExact o r (fdecode t carry) (fdecode x v)
    let p := scanRound t r sat q.1
    (p.1, q.2 ||| p.2)

/-- A start: the element alone. -/
def scanFirst (x t : Fmt) (r : Rnd) (sat : Bool) (v : Nat) : Nat × Flags :=
  if x = t || (x.isInt && t.isInt) || x = .ing then convert x t r sat v else scanRound t r sat (fdecode x v)

/-- What a scan needs at every element. -/
structure Scan where
  op : RedOp
  excl : Bool
  x : Arr
  seg : Option Arr
  d : Arr
  shape : List Nat
  ax : Nat
  rnd : Rnd
  sat : Bool

/-- Elements of the result between one element of a line and the next. -/
def Scan.inner (c : Scan) : Nat := prodL (c.shape.drop (c.ax + 1))
def Scan.place (c : Scan) (i : Nat) : Nat := (unravel c.shape i).getD c.ax 0

/-- The element starts a segment; at position 0 of a line the segment argument is not read. DEDUCED: log 49. -/
def Scan.starts (c : Scan) (s : State) (i : Nat) : Except ElFault (Bool × State) :=
  if c.place i = 0 then .ok (true, s)
  else match c.seg with
    | none => .ok (false, s)
    | some g => do
      let q ← s.arrGet g (g.off (unravel c.shape i))
      pure (q.1 ≠ 0, q.2)

/-- The carry of the line of element i before it, recomputed from the element before it in the line (R117).
DEDUCED: log 49. -/
def Scan.redo (c : Scan) (s : State) (i : Nat) : Except ElFault (Nat × State) := do
  let p := i - c.inner
  let q ← s.arrGet c.d p
  if !c.excl then pure q
  else
    let v ← q.2.arrGet c.x (c.x.off (unravel c.shape p))
    let b ← c.starts v.2 p
    pure ((if b.1 then (scanFirst c.x.t c.d.t c.rnd c.sat v.1).1
      else (scanStep c.op c.x.t c.d.t c.rnd c.sat q.1 v.1).1), b.2)

/-- The carry before element i: 0 at the first of its line. `cs` holds the carries after the elements before it, the latest
first. -/
def Scan.carry (c : Scan) (i : Nat) (cs : List Nat) : Nat := if c.place i = 0 then 0 else cs.getD (c.inner - 1) 0

/-- PROG2 as the carry of the line that holds the element the run begins at (R115, R117). -/
def Scan.held (c : Scan) (s : State) : Nat :=
  if c.place s.sh.spr.next = 0 then 0 else s.sh.spr.prog2.toNat % 2 ^ c.d.t.width

/-- The carries of the other lines: those before the k elements from i on, the last element's first. -/
def Scan.redos (c : Scan) (s : State) (i : Nat) : Nat → Except ElFault (List Nat × State)
  | 0 => .ok ([], s)
  | k + 1 => do
    let q ← c.redos s i k
    if prodL c.shape ≤ i + k ∨ c.place (i + k) = 0 then pure (0 :: q.1, q.2)
    else
      let v ← c.redo q.2 (i + k)
      pure (v.1 :: q.1, v.2)

/-- The carries with which a run begins: PROG2 for the line it stands in, the others recomputed (R117). -/
def Scan.before (c : Scan) (s : State) : Except ElFault (List Nat × State) :=
  let p0 := s.sh.spr.next
  if p0 = 0 then .ok ([], s)
  else do
    let q ← c.redos s (p0 + 1) (c.inner - 1)
    pure (q.1 ++ [c.held s], q.2)

/-- Element i of a scan. -/
def Scan.el (c : Scan) (s : State) (i : Nat) (cs : List Nat) : Except ElFault (Option (State × List Nat)) := do
  let v ← s.arrGet c.x (c.x.off (unravel c.shape i))
  let b ← c.starts v.2 i
  let k := c.carry i cs
  let next := if b.1 then scanFirst c.x.t c.d.t c.rnd c.sat v.1 else scanStep c.op c.x.t c.d.t c.rnd c.sat k v.1
  let out := if !c.excl then next.1 else if b.1 then (redIdent c.op c.d.t).getD 0 else k
  let s' ← b.2.arrPut c.d (i + 1) i out
  pure (some (s'.orFlags next.2, next.1 :: cs))

def execAscan (op : RedOp) (excl : Bool) (seg : Option DReg) (d a : DReg) (xr axis : BitVec 3) (rnd : Rnd) (sat : Bool)
    (s : State) : Out3 :=
  runEff do
    s.noPhase
    let x ← s.srcD 1 a (redFmt op)
    let g ← match seg with
      | some r => do
        let g ← s.srcD 3 r Fmt.isInt
        pure (some g)
      | none => pure none
    let dd ← s.dstD d sat fun t => t != .ing && redDst op x.t t
    let ax ← axisE s 1 x.shape xr axis
    match g with
    | some g => sameShapeE s g.shape x.shape
    | none => pure ()
    let n := prodL x.shape
    s.fitsD dd n
    overlapE s dd n ((1, x) :: (match g with
      | some g => [(3, g)]
      | none => []))
    let c : Scan := ⟨op, excl, x, g, dd, x.shape, ax, rnd, sat⟩
    let q ← carryWalk s n c.before c.el (fun i cs => (0, c.carry i cs)) (0, c.held s)
    pure (q.1.arrDone d x.shape n)

end Machine
end Sys2Proof
end

