-- ==== Sys2Proof/Machine/Array2.lean ====
section
/-! DEFINITION. Array instructions II (R122 to R143): grade, rotation, take, drop, reshape, transpose, outer application,
selection, indexing, joining and construction.
-/
namespace Sys2Proof
namespace Machine

/-- An index list with one entry replaced. -/
def setIx (l : List Nat) (a v : Nat) : List Nat := l.set a v

/-- A result axis, or a result, that is too long (R124): checked after the rank and before the capacity. DEDUCED: log 50. -/
def resultE (s : State) (shape : List Nat) : Except Stop Unit :=
  needD s 0 5 (shape.all (· < 2 ^ 32) && prodL shape < 2 ^ 48)

/-- A result whose element at a multi-index is a source element, or zero bits. -/
def State.arrPick (s : State) (r : DReg) (d x : Arr) (shape : List Nat)
    (pick : State → List Nat → Except ElFault (Option (List Nat) × State)) : Eff :=
  s.arrRun r d shape fun s i => do
    let q ← pick s (unravel shape i)
    match q.1 with
    | none => pure ((0, 0), q.2)
    | some ix => do
      let v ← q.2.arrGet x (x.off ix)
      pure ((v.1, 0), v.2)

/-! ### Grade (R126 to R129) -/

/-- Inserts a key's index after those that do not come later. -/
def insKey (before : Nat → Nat → Bool) (k : Nat) : List Nat → List Nat
  | [] => [k]
  | a :: l => if before k a then k :: a :: l else a :: insKey before k l

/-- The positions of a list of keys in stable order. -/
def sortKeys (less : Nat → Nat → Bool) (keys : List Nat) : List Nat :=
  (List.range keys.length).foldl (fun l k => insKey (fun a b => less (keys.getD a 0) (keys.getD b 0)) k l) []

/-- A grade: its operands, the scanned axis, the direction. -/
structure Grade where
  x : Arr
  d : Arr
  ax : Nat
  dn : Bool

def pieceLen : Nat := 4096
def Grade.m (g : Grade) : Nat := g.x.shape.getD g.ax 0
def Grade.n (g : Grade) : Nat := prodL g.x.shape
def Grade.inner (g : Grade) : Nat := prodL (g.x.shape.drop (g.ax + 1))
def Grade.place (g : Grade) (i : Nat) : Nat := (unravel g.x.shape i).getD g.ax 0
/-- The number of merge passes. -/
def Grade.passes (g : Grade) : Nat := (findNat (fun p => ceilDiv g.m pieceLen ≤ 2 ^ p) 64).getD 0
/-- The elements of the destination a grade uses. -/
def Grade.size (g : Grade) : Nat := if g.m > pieceLen then 2 * g.n else g.n
/-- The elements that A-loads are held back from while element i is in flight: both halves of a multi-piece grade, else those up to it
(R121, R143). -/
def Grade.held (g : Grade) (i : Nat) : Nat := if g.m > pieceLen then g.size else i + 1
/-- The order of two keys in the grade's direction. -/
def Grade.before (g : Grade) (a b : Nat) : Bool := if g.dn then keyLess g.x.t b a else keyLess g.x.t a b

/-- Element i of the piece phase that writes a half: its piece sorted. -/
def Grade.pieceEl (g : Grade) (half : Nat) (s : State) (i : Nat) (_ : List Nat) :
    Except ElFault (Option (State × List Nat)) := do
  let j := g.place i
  let lo := j / pieceLen * pieceLen
  let hi := min g.m (lo + pieceLen)
  let ix := unravel g.x.shape i
  let q ← s.arrGets g.x ((span lo hi).map (setIx ix g.ax))
  let v := lo + (sortKeys g.before q.1).getD (j - lo) 0
  let s' ← q.2.arrPut g.d (g.held i) (half * g.n + i) v
  pure (some (s', []))

/-- The index that stands at a place of i's line in a half, and its key. -/
def Grade.entry (g : Grade) (s : State) (half i place : Nat) : Except ElFault ((Nat × Nat) × State) := do
  let ix := unravel g.x.shape i
  let v ← s.arrGet g.d (half * g.n + ravel g.x.shape (setIx ix g.ax place))
  let k ← v.2.arrGet g.x (g.x.off (setIx ix g.ax v.1))
  pure ((v.1, k.1), k.2)

/-- The lengths of the two runs that make a run, and its start, for a place in a pass. -/
def Grade.runs (g : Grade) (pass j : Nat) : Nat × Nat × Nat :=
  let len := pieceLen * 2 ^ pass
  let lo := j / len * len
  let mid := min g.m (lo + len / 2)
  (lo, mid - lo, min g.m (lo + len) - mid)

/-- The next index of a merge after u of the first run and v of the second: the index and the new counts. -/
def Grade.mergeOne (g : Grade) (pass half i u v : Nat) (s : State) : Except ElFault ((Nat × Nat × Nat) × State) := do
  let (lo, la, lb) := g.runs pass (g.place i)
  if u ≥ la then
    let b ← g.entry s half i (lo + la + v)
    pure ((b.1.1, u, v + 1), b.2)
  else if v ≥ lb then
    let a ← g.entry s half i (lo + u)
    pure ((a.1.1, u + 1, v), a.2)
  else
    let a ← g.entry s half i (lo + u)
    let b ← g.entry a.2 half i (lo + la + v)
    pure (if g.before b.1.2 a.1.2 then ((b.1.1, u, v + 1), b.2) else ((a.1.1, u + 1, v), b.2))

/-- The counts after k indices of i's run. -/
def Grade.counts (g : Grade) (pass half i : Nat) (s : State) : Nat → Except ElFault ((Nat × Nat) × State)
  | 0 => .ok ((0, 0), s)
  | k + 1 => do
    let q ← g.counts pass half i s k
    let r ← g.mergeOne pass half i q.1.1 q.1.2 q.2
    pure ((r.1.2.1, r.1.2.2), r.2)

/-- Counts of both runs in one number, as PROG2 holds them. -/
def packCounts (u v : Nat) : Nat := u + v * 2 ^ 32

/-- The place of element i in its run of a pass. -/
def Grade.pos (g : Grade) (pass i : Nat) : Nat := g.place i % (pieceLen * 2 ^ pass)

/-- The counts before element i. `cs` holds those after the elements before it, the latest first. -/
def Grade.taken (g : Grade) (pass i : Nat) (cs : List Nat) : Nat := if g.pos pass i = 0 then 0 else cs.getD (g.inner - 1) 0

/-- The counts of the other lines, recomputed from the half that is read: those before the k elements from i on, the last
element's first. -/
def Grade.recounts (g : Grade) (pass half : Nat) (s : State) (i : Nat) : Nat → Except ElFault (List Nat × State)
  | 0 => .ok ([], s)
  | k + 1 => do
    let q ← g.recounts pass half s i k
    if g.n ≤ i + k then pure (0 :: q.1, q.2)
    else
      let c ← g.counts pass half (i + k) q.2 (g.pos pass (i + k))
      pure (packCounts c.1.1 c.1.2 :: q.1, c.2)

/-- The counts with which a resumed merge begins: PROG2 for the line it stands in, the others recomputed (R117, R129). -/
def Grade.beforeRun (g : Grade) (pass half : Nat) (s : State) : Except ElFault (List Nat × State) :=
  let p0 := s.sh.spr.next
  if p0 = 0 then .ok ([], s)
  else do
    let q ← g.recounts pass half s (p0 + 1) (g.inner - 1)
    pure (q.1 ++ [s.sh.spr.prog2.toNat], q.2)

/-- Element i of a merge pass that reads one half and writes the other. -/
def Grade.mergeEl (g : Grade) (pass half : Nat) (s : State) (i : Nat) (cs : List Nat) :
    Except ElFault (Option (State × List Nat)) := do
  let c := g.taken pass i cs
  let q ← g.mergeOne pass half i (c % 2 ^ 32) (c / 2 ^ 32) s
  let s' ← q.2.arrPut g.d (g.held i) ((1 - half) * g.n + i) q.1.1
  pure (some (s', packCounts q.1.2.1 q.1.2.2 :: cs))

/-- The half that a step writes: 0 is the piece phase. -/
def Grade.half (g : Grade) (step : Nat) : Nat := (g.passes - step) % 2

/-- PROG1 of a step at an element (R129): PHASE, PIECE and PASS. -/
def Grade.prog1 (g : Grade) (step i : Nat) : Nat :=
  if step = 0 then 1 + g.place i / pieceLen * 256 else 2 + g.place i / (pieceLen * 2 ^ step) * 256 + step * 2 ^ 32

/-- One step of a multi-piece grade from PROG0: the piece phase, or a merge pass. -/
def Grade.step (g : Grade) (step : Nat) (s : State) : Except Stop State :=
  let p0 := s.sh.spr.next
  if step = 0 then
    (carryWalk s g.n (fun s => .ok ([], s)) (g.pieceEl (g.half 0)) (fun i _ => (g.prog1 0 i, 0)) (g.prog1 0 p0, 0)).map Prod.fst
  else
    let half := 1 - g.half step
    (carryWalk s g.n (g.beforeRun step half) (g.mergeEl step half)
      (fun i cs => (g.prog1 step i, g.taken step i cs)) (g.prog1 step p0, s.sh.spr.prog2.toNat)).map Prod.fst

/-- The steps from one on, each from element 0. -/
def Grade.steps (g : Grade) : Nat → Nat → State → Except Stop State
  | 0, _, s => .ok s
  | k + 1, step, s => do
    let s' ← g.step step (s.setProg 0 (g.prog1 step 0) 0)
    g.steps k (step + 1) s'

/-- PROG fields (R115). -/
def Spr.phase (p : Spr) : Nat := fld p.prog1 0 8
def Spr.piece (p : Spr) : Nat := fld p.prog1 8 24
def Spr.pass (p : Spr) : Nat := fld p.prog1 32 8

/-- The progress checks of step 4 (R129). -/
def Grade.progOk (g : Grade) (p : Spr) : Bool :=
  if g.m ≤ pieceLen then p.prog1 = 0 && p.prog2 = 0
  else if p.prog1 = 0 then p.next = 0 && p.prog2 = 0
  else
    let j := g.place p.next
    if p.phase = 1 then p.pass = 0 && p.piece = j / pieceLen
    else if p.phase = 2 then
      let u := fld p.prog2 0 32
      let v := fld p.prog2 32 32
      1 ≤ p.pass && p.pass ≤ g.passes && p.piece = j / (pieceLen * 2 ^ p.pass) && u + v = j % (pieceLen * 2 ^ p.pass)
    else false

def execAgrade (dn : Bool) (d a : DReg) (xr axis : BitVec 3) (s : State) : Out3 :=
  runEff do
    needD s 0 11 (s.sh.spr.phase ≤ 2)
    let x ← s.srcD 1 a fun _ => true
    let dd ← s.dstD d false Fmt.isInt
    let ax ← axisE s 1 x.shape xr axis
    let g : Grade := ⟨x, dd, ax, dn⟩
    needD s 0 9 (g.m = 0 || ((g.m - 1 : Nat) : Int) ≤ intMax dd.t)
    needD s 0 11 (g.progOk s.sh.spr)
    s.fitsD dd g.size
    overlapE s dd g.size [(1, x)]
    let p := s.sh.spr
    let s' ←
      if p.next ≥ g.n then pure s
      else if g.m ≤ pieceLen then
        (elemWalk s g.n (g.pieceEl 0)).map Prod.fst
      else
        let step := if p.phase = 2 then p.pass else 0
        let s' ← g.step step s
        g.steps (g.passes - step) (step + 1) s'
    pure (s'.arrDone d x.shape g.n)

/-! ### Rotation, take, drop (R130, R131) -/

/-- The start of an instruction that copies elements of x along its scanned axis: x, the axis and the destination. -/
def State.along (s : State) (d a : DReg) (xr axis : BitVec 3) : Except Stop (Arr × Arr × Nat) := do
  s.noPhase
  let x ← s.srcD 1 a fun _ => true
  let dd ← s.dstD d false (· == x.t)
  let ax ← axisE s 1 x.shape xr axis
  pure (x, dd, ax)

/-- The steps 6 to 8 for sources by operand number. -/
def resultD (s : State) (dd : Arr) (shape : List Nat) (srcs : List (Nat × Arr)) : Except Stop Unit := do
  rankE s shape.length
  resultE s shape
  s.fitsD dd (prodL shape)
  overlapE s dd (prodL shape) srcs

/-- The source position of a rotation: (j + c) mod m. -/
def rotIx (m j : Nat) (c : Int) : Nat := ((j + c) % (m : Int)).toNat

def execArotScalar (d a : DReg) (b : XReg) (xr axis : BitVec 3) (s : State) : Out3 :=
  runEff do
    let (x, dd, ax) ← s.along d a xr axis
    resultD s dd x.shape [(1, x)]
    let m := x.shape.getD ax 0
    let c := (s.xr b).toInt
    s.arrPick d dd x x.shape fun s ix => .ok (some (setIx ix ax (rotIx m (ix.getD ax 0) c)), s)

def execArotVector (d a b : DReg) (xr axis : BitVec 3) (s : State) : Out3 :=
  runEff do
    s.noPhase
    let x ← s.srcD 1 a fun _ => true
    let y ← s.srcD 2 b Fmt.isInt
    let dd ← s.dstD d false (· == x.t)
    let ax ← axisE s 1 x.shape xr axis
    sameShapeE s y.shape (x.shape.eraseIdx ax)
    resultD s dd x.shape [(1, x), (2, y)]
    let m := x.shape.getD ax 0
    s.arrPick d dd x x.shape fun s ix => do
      let c ← s.arrGet y (y.off (ix.eraseIdx ax))
      pure (some (setIx ix ax (rotIx m (ix.getD ax 0) (ival y.t c.1))), c.2)

/-- The source position of element j of a taken line of a count c, if it is not padding. -/
def takeIx (m : Nat) (c : Int) (j : Nat) : Option Nat :=
  let k : Int := if c < 0 then j + m + c else j
  if 0 ≤ k && k < (m : Int) then some k.toNat else none

def execAtake (d a : DReg) (b : XReg) (xr axis : BitVec 3) (s : State) : Out3 :=
  runEff do
    let (x, dd, ax) ← s.along d a xr axis
    let m := x.shape.getD ax 0
    let c := (s.xr b).toInt
    let shape := setIx x.shape ax c.natAbs
    resultD s dd shape [(1, x)]
    s.arrPick d dd x shape fun s ix => .ok ((takeIx m c (ix.getD ax 0)).map (setIx ix ax), s)

def execAdrop (d a : DReg) (b : XReg) (xr axis : BitVec 3) (s : State) : Out3 :=
  runEff do
    let (x, dd, ax) ← s.along d a xr axis
    let m := x.shape.getD ax 0
    let c := (s.xr b).toInt
    let shape := setIx x.shape ax (m - c.natAbs)
    resultD s dd shape [(1, x)]
    s.arrPick d dd x shape fun s ix => .ok (some (setIx ix ax (ix.getD ax 0 + c.toNat)), s)

/-! ### Reshape, transpose, outer application (R132 to R134) -/

def execAreshape (d a b : DReg) (s : State) : Out3 :=
  runEff do
    s.noPhase
    let x ← s.srcD 1 a fun _ => true
    let shape ← s.shapeOperand 2 b
    let dd ← s.dstD d false (· == x.t)
    resultD s dd shape [(1, x)]
    let nx := prodL x.shape
    s.arrPick d dd x shape fun s ix =>
      .ok (if nx = 0 then none else some (unravel x.shape (ravel shape ix % nx)), s)

/-- The permutation that an x register holds for a rank, if it is one (R133). -/
def permOf (p : Nat) (v : Word) : Option (List Nat) :=
  let l := (List.range p).map fun k => fld v (4 * k) 4
  if (List.range p).all l.contains && fld v (4 * p) (64 - 4 * p) = 0 then some l else none

def execAtrans (d a : DReg) (b : XReg) (s : State) : Out3 :=
  runEff do
    s.noPhase
    let x ← s.srcD 1 a fun _ => true
    let dd ← s.dstD d false (· == x.t)
    match permOf x.shape.length (s.xr b) with
    | none => descE s 2 10
    | some perm =>
      let shape := perm.map fun k => x.shape.getD k 0
      resultD s dd shape [(1, x)]
      s.arrPick d dd x shape fun s ix =>
        .ok (some ((List.range x.shape.length).map fun k => ix.getD (perm.idxOf k) 0), s)

def execAouter (f : MapFn) (d a : DReg) (xr yr : BitVec 3) (rnd : Rnd) (sat : Bool) (s : State) : Out3 :=
  runEff do
    s.noPhase
    let x ← s.srcD 1 a (mapOpFmt f)
    let rest ← s.srcDs (mapArgs f x.t)
    let y := (rest.map Prod.snd).headD x
    let dd ← s.dstD d sat (mapDstFmt f)
    let px := splitRank x.shape xr
    let py := splitRank y.shape yr
    let nx := px.1.length
    let ny := py.1.length
    let C ← agreeE s (nx + ny) px.2 py.2
    let shape := px.1 ++ py.1 ++ C
    resultD s dd shape ((1, x) :: rest)
    s.arrRun d dd shape fun s i => do
      let ix := unravel shape i
      let c := ix.drop (nx + ny)
      let u ← s.arrGet x (x.off (ix.take nx ++ c.take px.2.length))
      let v ← u.2.arrGet y (y.off ((ix.drop nx).take ny ++ c.take py.2.length))
      pure (mapEl f x.t dd.t rnd sat u.1 v.1 0, v.2)

/-! ### Selection and compression (R135, R136) -/

def selCond (c : Fin 4) : Cond :=
  match c with
  | 0 => .gt
  | 1 => .ge
  | 2 => .lt
  | 3 => .le

/-- Whether source element k is selected, and its bits when it is. -/
def selOne (c : Option (Cond × Nat)) (x : Arr) (m : Option Arr) (s : State) (k : Nat) : Except ElFault (Option Nat × State) :=
  match m with
  | some m => do
    let b ← s.arrGet m (m.off (unravel m.shape k))
    if b.1 = 0 then pure (none, b.2)
    else
      let v ← b.2.arrGet x (x.off (unravel x.shape k))
      pure (some v.1, v.2)
  | none => do
    let v ← s.arrGet x (x.off (unravel x.shape k))
    let hit := match c with
      | some (c, lim) => if x.t.isInt then iCondP c x.t v.1 lim else fCondP c x.t v.1 lim
      | none => false
    pure (if hit then some v.1 else none, v.2)

/-- The next selected element at or after source index k: its index and bits. -/
def selNext (sel : State → Nat → Except ElFault (Option Nat × State)) : Nat → State → Nat →
    Except ElFault (Option (Nat × Nat) × State)
  | 0, s, _ => .ok (none, s)
  | fuel + 1, s, k =>
    match sel s k with
    | .error f => .error f
    | .ok (some v, s) => .ok (some (k, v), s)
    | .ok (none, s) => selNext sel fuel s (k + 1)

/-- The elements found: the carry is the source index after the last of them. -/
def selEl (sel : State → Nat → Except ElFault (Option Nat × State)) (nx cap : Nat) (d : Arr) (s : State) (i : Nat)
    (cs : List Nat) : Except ElFault (Option (State × List Nat)) := do
  let k := cs.headD 0
  let q ← selNext sel (nx - k) s k
  match q.1 with
  | none => pure none
  | some (k, v) =>
    let s' ← if i < cap then q.2.arrPut d (i + 1) i v else pure q.2
    pure (some (s', [k + 1]))

def State.setShort (s : State) : State := s.mapSpr fun p => { p with status := setFld p.status 4 1 1 }

/-- A result too long for its axis is found when all is selected, and leaves PROG where the selection came to (R124).
DEDUCED: log 50, 103, 117. -/
def execAsel (sel : SelBy) (d a : DReg) (c : XReg) (s : State) : Out3 :=
  runEff do
    s.noPhase
    let x ← s.srcD 1 a fun t => match sel with
      | .lim _ _ => t != .ing
      | .mask _ => true
    let m ← match sel with
      | .lim _ _ => pure none
      | .mask r => do
        let m ← s.srcD 2 r Fmt.isInt
        pure (some m)
    let dd ← s.dstD d false (· == x.t)
    match m with
    | some m => sameShapeE s m.shape x.shape
    | none => pure ()
    let nx := prodL x.shape
    needD s 0 7 (s.insideTile dd.tile (extent dd.t.ew (baseInt dd.tile.isSome dd.base) [dd.cap] [1]))
    overlapE s dd (min nx dd.cap) ((1, x) :: (match m with
      | some m => [(2, m)]
      | none => []))
    let lim := match sel with
      | .lim k r => some (selCond k, (s.xr r).toNat % 2 ^ x.t.width)
      | .mask _ => none
    let q ← walkFrom (selEl (selOne lim x m) nx dd.cap dd) (fun _ cs => (0, cs.headD 0)) dd.cap (nx + 1) true s s.sh.spr.next
      [s.sh.spr.prog2.toNat]
    let n := q.2.1
    resultE (q.1.setProg n 0 (q.2.2.headD 0)) [min n dd.cap]
    let s' := (q.1.arrDone d [min n dd.cap] n).setX c (BitVec.ofNat 64 n)
    pure (if n > dd.cap then s'.setShort else s')

/-- The positions whose selector element is not zero. -/
def State.selector (s : State) (y : Arr) : Nat → Except ElFault (List Nat × State)
  | 0 => .ok ([], s)
  | k + 1 => do
    let q ← s.selector y k
    let v ← q.2.arrGet y (y.off [k])
    pure (if v.1 = 0 then q.1 else q.1 ++ [k], v.2)

/-- A result too long for its axis is found when the selector is read (R124); a fault of the selector comes after a breakpoint that an
element the result may hold follows (R17); it is read also where the result is empty through another axis.
DEDUCED: log 50, 103, 116. -/
def execAcomp (d a b : DReg) (c : XReg) (axis : BitVec 3) (s : State) : Out3 :=
  runEff do
    s.noPhase
    let x ← s.srcD 1 a fun _ => true
    let y ← s.srcD 2 b Fmt.isInt
    let dd ← s.dstD d false (· == x.t)
    let ax ← axisE s 1 x.shape 7 axis
    let m := x.shape.getD ax 0
    sameShapeE s y.shape [m]
    needD s 0 7 (s.insideTile dd.tile (extent dd.t.ew (baseInt dd.tile.isSome dd.base) [dd.cap] [1]))
    overlapE s dd (min (prodL x.shape) dd.cap) [(1, x), (2, y)]
    let p0 := s.sh.spr.next
    let keep ← match s.selector y m with
      | .error f =>
        .error (if s.breaksAt (min (prodL x.shape) dd.cap) true p0 then s.breakStop else f.stop (s.setProg p0 0 0) p0)
      | .ok q => .ok q
    let shape := setIx x.shape ax keep.1.length
    let n := prodL shape
    let out := if n > dd.cap then [dd.cap] else shape
    resultE s out
    let q ← elemWalk keep.2 (min n dd.cap) (fun s i cs => do
      let ix := unravel shape i
      let v ← s.arrGet x (x.off (setIx ix ax (keep.1.getD (ix.getD ax 0) 0)))
      let s' ← v.2.arrPut dd (i + 1) i v.1
      pure (some (s', cs)))
    let s' := (q.1.arrDone d out n).setX c (BitVec.ofNat 64 n)
    pure (if n > dd.cap then s'.setShort else s')

/-! ### Indexing, joining, construction (R137 to R140) -/

def execAfrom (d a b : DReg) (axis : BitVec 3) (s : State) : Out3 :=
  runEff do
    s.noPhase
    let x ← s.srcD 1 a fun _ => true
    let y ← s.srcD 2 b Fmt.isInt
    let dd ← s.dstD d false (· == x.t)
    let ax ← axisE s 1 x.shape 7 axis
    let m := x.shape.getD ax 0
    let nb := y.shape.length
    let shape := x.shape.take ax ++ y.shape ++ x.shape.drop (ax + 1)
    resultD s dd shape [(1, x), (2, y)]
    s.arrPick d dd x shape fun s ix => do
      let q ← s.arrGet y (y.off ((ix.drop ax).take nb))
      let v := ival y.t q.1
      if -(m : Int) ≤ v && v < (m : Int) then
        let j := (if v < 0 then v + m else v).toNat
        pure (some (ix.take ax ++ j :: ix.drop (ax + nb)), q.2)
      else .error .index

/-- The disagreement of two shapes outside one axis (R138). -/
def catDiff (a b : List Nat) (ax : Nat) : Option Nat :=
  match (List.range (min a.length b.length)).find? fun k => k ≠ ax && a.getD k 0 ≠ b.getD k 0 with
  | some k => some k
  | none => if a.length = b.length then none else some (min a.length b.length)

def execAcat (d a b : DReg) (axis : BitVec 3) (s : State) : Out3 :=
  runEff do
    s.noPhase
    let x ← s.srcD 1 a fun _ => true
    let y ← s.srcD 2 b (· == x.t)
    let dd ← s.dstD d false (· == x.t)
    let ax ← axisE s 1 x.shape 7 axis
    match catDiff x.shape y.shape ax with
    | some k => trapE s 0x20 (BitVec.ofNat 64 k)
    | none => pure ()
    let mx := x.shape.getD ax 0
    let shape := setIx x.shape ax (mx + y.shape.getD ax 0)
    resultD s dd shape [(1, x), (2, y)]
    s.arrRun d dd shape fun s i => do
      let ix := unravel shape i
      let j := ix.getD ax 0
      let v ← if j < mx then s.arrGet x (x.off ix) else s.arrGet y (y.off (setIx ix ax (j - mx)))
      pure ((v.1, 0), v.2)

def execAfill (d a : DReg) (b : XReg) (s : State) : Out3 :=
  runEff do
    s.noPhase
    let shape ← s.shapeOperand 1 a
    let dd ← s.dstD d false (· != .ing)
    resultD s dd shape []
    let v := (s.xr b).toNat % 2 ^ dd.t.width
    s.arrRun d dd shape fun s _ => .ok ((v, 0), s)

def execAiota (d a : DReg) (axis : BitVec 3) (rnd : Rnd) (sat : Bool) (s : State) : Out3 :=
  runEff do
    s.noPhase
    let shape ← s.shapeOperand 1 a
    let dd ← s.dstD d sat fun _ => true
    let ax ← if shape.isEmpty && axis = 7 then pure 0 else axisE s 1 shape 7 axis
    resultD s dd shape []
    s.arrRun d dd shape fun s i => .ok (iotaBits dd.t rnd sat ((unravel shape i).getD ax 0), s)

end Machine
end Sys2Proof
end

