-- ==== Sys2Proof/Machine/Graph.lean ====
section
/-! DEFINITION. Graph nodes (R390 to R392): records, their validity, STATE, predecessor counts, completion; work and shares (R393).
-/
namespace Sys2Proof
namespace Machine

/-! ### Records (R390) -/

/-- A field of k bytes of a record. -/
def recFld (b : BitVec 512) (byte k : Nat) : Nat := wfld b (8 * byte) (8 * k)
def recKind (b : BitVec 512) : Nat := recFld b 0 1
def recClass (b : BitVec 512) : Nat := wfld b 8 2
/-- The launch level: 0 U, 1 S. -/
def recLvl (b : BitVec 512) : Nat := wfld b 10 1
def recPred (b : BitVec 512) : Nat := recFld b 2 2
def recShape (b : BitVec 512) : Word := BitVec.ofNat 64 (recFld b 4 4)
def recP0 (b : BitVec 512) : Word := BitVec.ofNat 64 (recFld b 8 8)
def recP1 (b : BitVec 512) : Word := BitVec.ofNat 64 (recFld b 16 8)
def recSuccs (b : BitVec 512) : List Nat := [recFld b 24 4, recFld b 28 4, recFld b 32 4, recFld b 36 4]
def recWm (b : BitVec 512) : Nat := recFld b 40 1
def recWmBound (b : BitVec 512) : Bool := wfld b 328 1 = 1
def recCwin (b : BitVec 512) : Nat := recFld b 42 2
def recAdapts (b : BitVec 512) : List Int := [44, 48, 52, 56].map fun o => toSigned 32 (recFld b o 4)
def recState (b : BitVec 512) : Nat := recFld b 60 1
/-- The new NODE of a trigger. -/
def recNewNode (b : BitVec 512) : Nat := recFld b 42 4

/-- A shape that R23 allows. -/
def shapeOk (w : Word) : Bool :=
  w &&& ~~~(0x1FF07FF#64) == 0 && fld w 8 3 ≤ 5

/-- A record that R390 allows. -/
def recOk (b : BitVec 512) : Bool :=
  recKind b ≤ 3 && recClass b != 3 && wfld b 11 5 = 0 && wfld b 329 7 = 0 && recFld b 61 3 = 0 &&
    (if recKind b = 0 then shapeOk (recShape b) && recCwin b ≤ gateCounters else recFld b 4 4 = 0) &&
    (recKind b != 3 || recFld b 46 14 = 0)

/-! ### The Wrangler's copies of records -/

def State.node? (s : State) (sad num : Nat) : Option Node := s.nodes.find? fun n => n.sad = sad && n.num = num

def State.setNode (s : State) (sad num : Nat) (g : Node → Node) : State :=
  { s with nodes := s.nodes.map fun n => if n.sad = sad && n.num = num then g n else n }

/-- The address of a record. -/
def State.recVa (s : State) (sad num : Nat) : Word :=
  s.saddles[(sadOf sad).val].graphBase + BitVec.ofNat 64 (64 * (num - 1))

/-- The record in memory, if the saddle's runtime can read it. -/
def State.readRec (s : State) (sad num : Nat) : Option (BitVec 512) :=
  (s.readAs (runtimeWho sad) (s.recVa sad num) 64).map fun l => BitVec.ofNat 512 (leNat l)

/-- STATE of a record in memory. -/
def State.putRecState (s : State) (sad num v : Nat) : State :=
  (s.writeAs (runtimeWho sad) (s.recVa sad num + 60) [BitVec.ofNat 8 v]).getD s

/-- A node-error event (R395). DESIGN CHOICE: log 82. -/
def State.nodeError (s : State) (sad num : Nat) : State := s.postEvent sad 5 0 0 num 0 0

/-- A node's STATE, in the Wrangler and in memory. -/
def State.nodeState (s : State) (sad num v : Nat) : State :=
  (s.setNode sad num fun n => { n with st := v }).putRecState sad num v

/-- A node's work is done: its completion is the next event (R392). -/
def State.nodeDone (s : State) (sad num : Nat) : State :=
  let s := s.setNode sad num fun n => { n with st := 4 }
  { s with agenda := .ev (.nodeComplete sad num) :: s.agenda }

/-- A saddle has ready or resident work; a drove saved by pre-emption is ready work (R393). -/
def State.hasWork (s : State) (sad : Nat) : Bool :=
  (s.droves.any fun d => d.sad = sad) || s.nodes.any fun n => n.sad = sad && n.st = 2 && recKind n.body = 0

/-- The weights of the saddles that have work. -/
def State.allWeight (s : State) : Nat :=
  (List.range 64).foldl (fun w k => w + if s.hasWork k then (s.saddles[(sadOf k).val]).weight.toNat else 0) 0

/-- A round of 1 ms, in counts of TIME (R41, R393). -/
def roundCounts : Nat := 2100000

/-- A share of the module's cores over a round. DEDUCED: log 85. -/
def shareOf (w all : Nat) : Nat := 384 * roundCounts * w / all

/-- A saddle without work gains a ready node: it has a share of what is left of the round (R393). -/
def State.gainWork (s : State) (sad : Nat) : State :=
  if s.hasWork sad then s
  else
    let w := (s.saddles[(sadOf sad).val]).weight.toNat
    let share := shareOf w (s.allWeight + w)
    let left := (s.roundAt.toNat + roundCounts - s.time.toNat)
    s.setSad sad fun g => { g with share := share, deficit := (share * left / roundCounts : Nat) }

/-- A node becomes ready, after those that became ready before it (R392, R393). -/
def State.nodeReady (s : State) (sad num : Nat) : State :=
  let launch := match s.node? sad num with
    | some n => recKind n.body == 0
    | none => false
  let s := if launch then s.gainWork sad else s
  let s := s.nodeState sad num 2
  { s.setNode sad num fun n => { n with seqno := s.ids } with ids := s.ids + 1 }

/-- A record enters the Wrangler as waiting, and is ready at once with no predecessor (R247, R392). -/
def State.addNode (s : State) (sad num : Nat) (b : BitVec 512) : State :=
  let s := { s with nodes := s.nodes ++ [⟨sad, num, b, 1, recPred b, 0⟩] }
  if recPred b = 0 then s.nodeReady sad num else s

/-- A waiting node. -/
def State.waitingNode (s : State) (sad num : Nat) : Bool :=
  match s.node? sad num with
  | some n => n.st = 1
  | none => false

/-- One predecessor is done (R392). -/
def State.decPred (s : State) (sad num : Nat) : State :=
  match s.node? sad num with
  | none => s.nodeError sad num
  | some n =>
    if n.st ≠ 1 ∨ n.pred = 0 then s.nodeError sad num
    else
      let s := s.setNode sad num fun n => { n with pred := n.pred - 1 }
      if n.pred = 1 then s.nodeReady sad num else s

/-- A node completes: STATE 4, or 0 for a record of the device pool, then its successors (R391, R392). -/
def State.completeNode (s : State) (n : Node) : State :=
  let s := { s with nodes := s.nodes.filter fun q => !(q.sad = n.sad && q.num = n.num) }
  let s := s.putRecState n.sad n.num 4
  let s := if n.num > s.saddles[(sadOf n.sad).val].devBase.toNat then s.putRecState n.sad n.num 0 else s
  ((recSuccs n.body).filter fun k => k ≠ 0).foldl (fun s k => s.decPred n.sad k) s

end Machine
end Sys2Proof
end

