-- ==== Sys2Proof/Machine/Tiles.lean ====
section
/-! DEFINITION. Tile handles (R229 to R232), copies and their engines (R235 to R242), stamps (R243), barriers (R244, R245),
watermarks (R246) and `gnode` (R247).
-/
namespace Sys2Proof
namespace Machine

/-- The number of a level (R2). -/
def levelOf : Scope → Nat
  | .ln => 0
  | .co => 1
  | .qd => 2
  | .di => 3
  | .pk => 4
  | .pd => 5

/-! ### Stores (R230) -/

/-- The physical core, quad or die of a drove's logical instance of a level; none while the drove is not resident. -/
def Drove.site (d : Drove) (level inst : Nat) : Option Nat :=
  if d.st = .resident then
    match level with
    | 1 => d.cores[inst]?
    | 2 => (d.cores[inst * nCores d.shape]?).map fun c => c / 4
    | _ => (d.cores[inst * (nCores d.shape * nQuads d.shape)]?).map dieOfCore
  else none

def State.tileSite (s : State) (t : Tile) : Option Nat := (s.drove? t.drove).bind fun d => d.site t.level t.inst

def tileAlloc (t : Tile) : Nat := roundUp t.size 4096

/-- Bytes of shelves that every die reserves (R396). -/
def State.shelfBytes (s : State) : Nat := s.saddles.toList.foldl (fun n d => n + d.shelf.toNat) 0

/-- Bytes in use in a store. DEDUCED: log 32. -/
def State.storeUsed (s : State) (level site : Nat) : Nat :=
  let used := (s.tiles.filter fun t => t.level = level && s.tileSite t = some site).foldl (fun n t => n + tileAlloc t) 0
  used + if level = 3 then s.shelfBytes else 0

/-- Free bytes of a store. -/
def State.storeFree (s : State) (level site : Nat) : Nat := storeBytes level - s.storeUsed level site

/-- The physical core, quad or die of the sheet in focus. -/
def State.site (s : State) (level : Nat) : Nat :=
  let c := coreOf s.sh.place
  if level = 1 then c else if level = 2 then c / 4 else dieOfCore c

def tileE {α : Type} (s : State) (h : BitVec 12) (reason : Nat) : Except Stop α :=
  trapE s 0x24 (BitVec.ofNat 64 (h.toNat + reason * 65536))

def execTalloc (ty : Fmt) (lvl : Scope) (d a b : XReg) (h : BitVec 12) (s : State) : Out3 :=
  let rows := (s.xr a).toNat
  let rb := (s.xr b).toNat
  let level := levelOf lvl
  runEff <|
    if (s.tile? h).isSome then tileE s h 2
    else if rows = 0 || rows > 65536 || rb = 0 || rb > 65536 || rb % ty.ew != 0 then tileE s h 3
    else if s.storeFree level (s.site level) < roundUp (rows * rb) 4096 then .ok (s.setX d 1)
    else
      let p := s.sh.spr
      let t : Tile := ⟨s.sh.droveId, p.gDie, h, level, p.instOf level, rows, rb, ty, p.brand12, []⟩
      .ok (({ s with tiles := s.tiles ++ [t] } : State).setX d 0)

/-- A descriptor names a tile handle. -/
def namesTile (d : BitVec 1024) (h : BitVec 12) : Bool := dKind d = 1 && dHandle d = h.toNat

/-- A copy of the drove names a tile of a logical die and has not reported. -/
def State.copyNames (s : State) (drove die : Nat) (h : BitVec 12) : Bool :=
  s.engines.toList.any fun e => e.queue.any fun c =>
    c.drove = drove && c.die = die && (namesTile c.src h || namesTile c.dst h)

/-- The stores in flight to the tile are performed first, those of other sheets too (R231). -/
def execTfree (h : BitVec 12) (s : State) : Out3 :=
  runEff do
    let t ← s.resolve h
    await s (!s.copyNames t.drove t.die h && !s.core.wloads.any fun w => w.sheet = s.pos && w.tile = some h)
    let s := s.drainAll
    await s (!s.sheets.any fun k => k.droveId = t.drove && k.spr.gDie = t.die && k.vq.any fun v => v.holds (.tile h))
    pure { s with tiles := s.tiles.filter fun q => !q.same t }

def execTinfo (q : Fin 6) (d : XReg) (h : BitVec 12) (s : State) : Out3 :=
  runEff <|
    if q = 0 then
      .ok (s.setX d (match s.tile? h with
        | none => 0
        | some t => if s.sh.spr.inTile t then 1 else 2))
    else do
      let t ← s.resolve h
      let v := match q with
        | 0 => 0
        | 1 => t.rows
        | 2 => t.rb
        | 3 => t.fmt.code
        | 4 => t.level
        | 5 => tileAlloc t
      pure (s.setX d (BitVec.ofNat 64 v))

/-! ### Operands of copies (R235, R236) -/

/-- What R236 asks of a descriptor in fp4b. -/
def fp4Desc (d : BitVec 1024) : Bool :=
  let sh := dShapes d
  let st := dStrides d
  sh.length ≥ 1 && st.getLast? = some 1 && (sh.getLast?.getD 1) % 8 = 0 && (st.dropLast.all fun t => t % 8 = 0) &&
    (dBase d).toNat % 5 = 0

/-- The byte extent of an operand: whole blocks for fp4b. -/
def copyExtent (t : Fmt) (base : Int) (shape : List Nat) (strides : List Int) : Option (Int × Int) :=
  if t = .fp4b then
    (extent 1 0 shape strides).map fun q => (base + q.1 / 8 * 5, base + (q.2 - 1) / 8 * 5 + 5)
  else extent t.ew base shape strides

/-- The checks of a copy's descriptor. DEDUCED: log 52. -/
def State.copyD (s : State) (op : Nat) (r : DReg) (dst : Bool) : Except Stop Arr := do
  let d := s.sh.d[r.val]
  let t ← fmtD s op d fun _ => true
  needD s op 2 (dKind d ≤ 1)
  needD s op 3 (dRank d ≤ 6)
  needD s op 4 (if dst then dFlags d = 0 else dFlags d ≤ 1)
  needD s op 5 (shapeD d && (t != .fp4b || fp4Desc d))
  needD s op 6 (handleD d)
  needD s op 12 (wfld d 640 384 = 0)
  let h ← placeD s op d t (if t = .fp4b then 1 else min t.ew 8)
  needD s op 7 (s.insideTile h (copyExtent t (baseInt h.isSome (dBase d)) (dShapes d) (dStrides d)))
  pure ⟨t, dBase d, h, dShapes d, dStrides d, dCap d⟩

/-- The pairs of formats that a copy converts (R86, R236). DEDUCED: log 52. -/
def copyPair (a b : Fmt) : Bool :=
  let plain := fun (t : Fmt) => t.array && t != .ing
  match a, b with
  | .fct8, .bf16 => true
  | .fct8, .f16 => true
  | .fct8, .i16 => true
  | .fct8, .n16 => true
  | .fct8, _ => false
  | _, .fct8 => false
  | .fp4b, .bf16 => true
  | .fp4b, .f16 => true
  | .fp4b, .f32 => true
  | .f32, .fp4b => true
  | .bf16, .fp4b => true
  | .f16, .fp4b => true
  | _, _ => a = b || (plain a && plain b)

/-- Two copy operands whose spans overlap. -/
def copyClash (a b : Arr) : Bool :=
  (match a.tile, b.tile with
    | some g, some h => g = h
    | none, none => true
    | _, _ => false) &&
  match copyExtent a.t (baseInt a.tile.isSome a.base) a.shape a.strides,
      copyExtent b.t (baseInt b.tile.isSome b.base) b.shape b.strides with
  | some p, some q => p.1 < q.2 && q.1 < p.2
  | _, _ => false

/-! ### Commands -/

/-- An operand of a command as its engine reads it. -/
def cmdArr (d : BitVec 1024) : Arr :=
  ⟨(Fmt.ofCode (dFmt d)).getD .n8, dBase d, if dKind d = 1 then some (BitVec.ofNat 12 (dHandle d)) else none, dShapes d,
    dStrides d, dCap d⟩

def Cmd.who (c : Cmd) : Who := ⟨c.sad, c.brand, c.priv.toNat⟩

/-- The number of items a command moves one by one: elements, or blocks when the destination is in fp4b. -/
def Cmd.items (c : Cmd) : Nat :=
  let n := prodL (dShapes c.dst)
  if (cmdArr c.dst).t = .fp4b then n / 8 else n

/-- The bytes of the destination (R237). -/
def Cmd.bytes (c : Cmd) : Nat := c.items * (cmdArr c.dst).t.ew

/-- The place of an operand's bytes for element offset e: an address or a tile offset, and the length. -/
def Arr.bytesAt (a : Arr) (e : Int) : Word × Nat :=
  if a.t = .fp4b then (a.base + Word.ofInt (e / 8 * 5), 5) else (a.at_ e, a.t.ew)

/-- The multi-index of the source element of destination element i. DEDUCED: log 54. -/
def Cmd.srcIx (c : Cmd) (i : Nat) : Option (List Nat) :=
  match c.idx with
  | none => some (unravel (dShapes c.src) i)
  | some l =>
    let j := l.getD (i / c.width) (-1)
    if 0 ≤ j && j < (dShape c.src 0 : Int) then some [j.toNat, i % c.width] else none

/-- What stops a command at an item: a fault with its cause and address, an entry of the facet table that fails parity (R242), or
poison on a page whose POIS is 1, which kills the drove (R249). -/
inductive CopyStop where
  | flt (cause : Nat) (addr : Word)
  | parity
  | kill (va : Word) (line : Nat)
  deriving DecidableEq, Repr

/-- The tile of a command's drove. -/
def State.cmdTile (s : State) (c : Cmd) (h : BitVec 12) : Option Tile :=
  s.tiles.find? fun t => t.drove = c.drove && t.die = c.die && t.handle = h

/-- Bytes of a source element. DESIGN CHOICE: log 53; DEDUCED: log 56. -/
def State.cmdRead (s : State) (c : Cmd) (a : Arr) (e : Int) : Except CopyStop Nat :=
  let p := a.bytesAt e
  match a.tile with
  | some h => match s.cmdTile c h with
    | none => .error (.flt 0x24 0)
    | some t => .ok (t.data.nat p.1.toNat p.2)
  | none => match rangeOf .load (s.xlateAs c.who .load) p.1 p.2 with
    | .error f => .error (.flt f.1 f.2)
    | .ok l => match s.firstPoison l with
      | some (i, q) =>
        .error (if pePois q.entry && (s.drove? c.drove).isSome then .kill p.1 (lineOf q.key)
          else .flt 0x60 (lineVa (p.1 + BitVec.ofNat 64 i)))
      | none => .ok (leNat (s.aRead (physKeys l)))

/-- The translation of a destination address that a command keeps from its issue; none where the page failed or was never reached. -/
def Cmd.page (c : Cmd) (va : Word) : Page :=
  match tlbFind c.pages c.sad va with
  | some q => .leaf q.1 q.2
  | none => .none

/-- The bytes of a destination item, none for a tile, under the translations made at issue; at the first page that failed there the
copy faults (R235). -/
def State.cmdDst (s : State) (c : Cmd) (a : Arr) (e : Int) : Except CopyStop (List Phys) :=
  match a.tile with
  | some h => if (s.cmdTile c h).isSome then .ok [] else .error (.flt 0x24 0)
  | none =>
    let p := a.bytesAt e
    match rangeOf .store (fun va => checkPage .store c.who va (c.page va)) p.1 p.2, c.bad with
    | .ok l, _ => .ok l
    | .error _, some f => .error (.flt f.1 f.2)
    | .error f, none => .error (.flt f.1 f.2)

/-- An item is written in the command's brand, as its page says (R237). -/
def State.cmdWrite (s : State) (c : Cmd) (a : Arr) (e : Int) (l : List Phys) (v : Nat) : State :=
  let p := a.bytesAt e
  match a.tile with
  | some h => match s.cmdTile c h with
    | none => s
    | some t => s.setTile t (t.data.setNat p.1.toNat p.2 v)
  | none => s.vWrite c.brand (physUc l) ((physKeys l).zip (leBytes p.2 v))

/-- The facet table's entry for a code, or what stops the command (R237, R242). -/
def Engine.look (e : Engine) (brand : BitVec 12) (code : Nat) : Except CopyStop Nat :=
  match e.facet with
  | none => .error (.flt Config.facetCause.val 0)
  | some (b, tab) =>
    if b ≠ brand then .error (.flt 0x13 0)
    else if code ∈ e.badCodes then .error .parity
    else .ok (wfld tab (16 * code) 16)

/-- The value of a source element in the destination's format (R236). -/
def copyEl (e : Engine) (c : Cmd) (a d : Fmt) (off : Int) (v : Nat) : Except CopyStop (Nat × Flags) :=
  if a = .fct8 then (e.look c.brand (v % 256)).map fun w => (w, 0)
  else if a = d then .ok (v, 0)
  else if a = .fp4b then
    .ok (if v % 256 = 255 then (d.nanPat, flNV)
      else fround d c.rnd c.sat ((fp4Vals v).getD (off % 8).toNat .nan))
  else .ok (convert a d c.rnd c.sat v)

/-- The bits of item i in the destination's format, its flags. DEDUCED: log 54. -/
def State.cmdItem (s : State) (e : Engine) (c : Cmd) (i : Nat) : Except CopyStop (Nat × Flags) :=
  let a := cmdArr c.src
  let d := cmdArr c.dst
  let off := fun k => (c.srcIx k).map a.off
  if d.t = .fp4b then
    match off (8 * i) with
    | none => .error (.flt 0x14 0)
    | some o =>
      if a.t = .fp4b then (s.cmdRead c a o).map fun v => (v, 0)
      else do
        let vs ← (List.range 8).mapM fun k => match off (8 * i + k) with
          | none => .error (.flt 0x14 0)
          | some o => s.cmdRead c a o
        let q := fp4Pack c.rnd c.sat (vs.map (fdecode a.t))
        pure (if q.2.2 then q.1 else fp4Invalid, q.2.1)
  else match off i with
    | none => .error (.flt 0x14 0)
    | some o => do
      let v ← s.cmdRead c a o
      copyEl e c a.t d.t o v

/-- Runs the items from i on: the state, the flags, the keys written, the items done, and what ended them. -/
def runCmd (e : Engine) (c : Cmd) : Nat → State → Nat → Flags → List Nat → State × Flags × List Nat × Nat × Option CopyStop
  | 0, s, i, fl, ks => (s, fl, ks, i, none)
  | n + 1, s, i, fl, ks =>
    let d := cmdArr c.dst
    let o := d.off (unravel d.shape (if d.t = .fp4b then 8 * i else i))
    match s.cmdItem e c i with
    | .error f => (s, fl, ks, i, some f)
    | .ok v => match s.cmdDst c d o with
      | .error f => (s, fl, ks, i, some f)
      | .ok l => runCmd e c n (s.cmdWrite c d o l v.1) (i + 1) (fl ||| v.2) (physKeys l ++ ks)

/-- The poisoned lines of which every byte was written are clean again (R297). -/
def State.clearPoison (s : State) (keys : List Nat) : State :=
  let l := keys.map addrOf
  { s with poison := s.poison.filter fun n => !(List.range 64).all fun k => l.contains (64 * n + k) }

/-! ### Barriers (R244, R245) -/

def Barrier.is (b : Barrier) (drove level inst name : Nat) : Bool :=
  b.drove = drove && b.level = level && b.inst = inst && b.name = name

def State.barrier (s : State) (drove level inst name : Nat) : Barrier :=
  (s.bars.find? fun b => b.is drove level inst name).getD ⟨drove, level, inst, name, false, 0, 0⟩

/-- Changes a barrier, then ends its phase if all have arrived and nothing is pending. -/
def State.setBarrier (s : State) (b : Barrier) : State :=
  let n := match s.drove? b.drove with
    | some d => participants d.shape b.level
    | none => 0
  let b := if b.arrived = n ∧ b.pend = 0 then { b with phase := !b.phase, arrived := 0 } else b
  let rest := s.bars.filter fun q => !q.is b.drove b.level b.inst b.name
  { s with bars := if b.phase = false ∧ b.arrived = 0 ∧ b.pend = 0 then rest else b :: rest }

/-- A copy's arrival. -/
def State.copyArrive (s : State) (drove level inst name bytes : Nat) : State :=
  let b := s.barrier drove level inst name
  s.setBarrier { b with pend := b.pend - BitVec.ofNat 64 bytes }

/-! ### The engine (R235, R237, R238) -/

def State.setEngine (s : State) (n : Nat) (g : Engine → Engine) : State :=
  { s with engines := (s.engines.zipIdx).map fun q => if q.2 = n then g q.1 else q.1 }

def State.engineAt (s : State) (n : Nat) : Engine := s.engines.toList.getD n ⟨[], none, []⟩

/-- The stamp word (R239). -/
def stampWord (seq : BitVec 48) (fl : Flags) (fault : Bool) : Nat :=
  seq.toNat + fl.toNat * 2 ^ 48 + (if fault then 2 ^ 63 else 0)

/-- The report of a command (R238). A stamp whose page can no longer be written is dropped, with no event. DESIGN CHOICE: log 120. -/
def State.report (s : State) (c : Cmd) (fl : Flags) (fault : Bool) : State :=
  match c.report with
  | .stamp va seq => (s.post (some (c.drove, c.flat)) c.who va (leBytes 8 (stampWord seq fl fault))).getD s
  | .bar level inst name => s.copyArrive c.drove level inst name c.bytes
  | .graph node => if fault then s else s.decPred c.sad node
  | .node node => s.nodeDone c.sad node

/-- A command that a fault ended reports it and posts the event of R238. -/
def State.copyFault (s : State) (n : Nat) (c : Cmd) (fl : Flags) (done cause : Nat) (addr : Word) : State :=
  (s.report c fl true).postEvent c.sad 1 cause c.brand (n % 4 + n / 4 * 4) addr (done * (cmdArr c.dst).t.ew)

/-- A command at the head of its engine's queue changes. -/
def State.setHead (s : State) (n : Nat) (c : Cmd) : State :=
  s.setEngine n fun e => ({ e with queue := c :: e.queue.tail } : Engine)

/-- A command leaves its engine's queue. -/
def State.popCopy (s : State) (n : Nat) : State := s.setEngine n fun e => ({ e with queue := e.queue.tail } : Engine)

/-- The report of a copy is a release: an arrival or a stamp (R210). -/
def Report.releases : Report → Bool
  | .stamp _ _ => true
  | .bar _ _ _ => true
  | .graph _ => false
  | .node _ => false

/-- The accesses of the sheet in focus that stand before a copy are performed (R210). -/
def State.performBefore (s : State) (b : Before) : Eff := do
  let s ← s.settleLoads fun w => b.loads.contains w.tok
  s.flushOwn.performV (b.stores - s.sh.vdone)

/-- What a command's report must follow is performed, on the sheet that issued it, or what stops it (R210). A sheet that is no longer
placed has nothing to perform. DEDUCED: log 114. -/
def State.beforeReport (s : State) (c : Cmd) : Eff :=
  if !c.report.releases then .ok s
  else match s.sheets.find? fun h => h.droveId = c.drove && h.spr.flatIx = c.flat with
    | none => .ok s
    | some h => match s.focus h.place with
      | none => .ok s
      | some t => (t.performBefore c.before).map fun u => if s.sh.run = .off then u else (u.focus s.sh.place).getD u

/-- A command whose payload is done reports and leaves its queue, once what its report must follow is performed (R210, R238). -/
def State.endCopy (s : State) (n : Nat) (c : Cmd) (e : Ended) : State :=
  match s.beforeReport c with
  | .error (.pois va line t) => Stop.take (.pois va line t)
  | .error _ => s
  | .ok t =>
    let t := t.popCopy n
    match e.fault with
    | none => t.report c e.flags false
    | some f => t.copyFault n c e.flags e.done f.1 f.2

/-- A command's payload is done: it releases its lines, and the writes that waited for them are made; then it reports. -/
def State.releaseCopy (s : State) (n : Nat) (c : Cmd) (e : Ended) : State :=
  let c := { c with owned := [], ownedTile := [], pages := [], ended := some e }
  let s := s.setHead n c
  (s.runPosted s.posted).endCopy n c e

/-- A command runs whole, releases its lines and reports; it has not begun while a walk of it waits for another engine's line. -/
def State.runCopy (s : State) (n : Nat) (c : Cmd) : State :=
  let q := runCmd (s.engineAt n) c c.items s 0 0 []
  let t := q.1.clearPoison q.2.2.1
  match q.2.2.2.2 with
  | none => t.releaseCopy n c ⟨q.2.1, q.2.2.2.1, none⟩
  | some (.flt cause addr) => if cause = walkWaits then s else t.releaseCopy n c ⟨q.2.1, q.2.2.2.1, some (cause, addr)⟩
  | some .parity =>
    (t.setEngine n fun e => { e with facet := none, badCodes := [] }).releaseCopy n c ⟨q.2.1, q.2.2.2.1, some (0x60, 0)⟩
  | some (.kill va line) => (t.popCopy n).kill c.drove c.brand 4 (channelNo line) 3 va

/-- COPY_EXECUTE: the engine's oldest command, if it has one: its payload, or the report that is still to come. -/
def execCopyExecute (die eng : Nat) (s : State) : Out3 :=
  let n := die * 4 + eng
  match (s.engineAt n).queue with
  | [] => .next s
  | c :: _ => match c.ended with
    | none => .next (s.runCopy n c)
    | some e => .next (s.endCopy n c e)

/-- What the issue of a command finds of its destination: the lines, the translations of its pages, the first that failed. -/
structure Claim where
  lines : List Nat
  pages : List Xlate
  bad : Option (Nat × Word)

/-- The translation of the page of an address, for a command. -/
def State.cmdPage (s : State) (c : Cmd) (va : Word) : Option Xlate :=
  match s.pageOf c.sad va with
  | .leaf b e => some ⟨c.sad, va.toNat / 2 ^ b, b, e⟩
  | _ => none

/-- The destination pages of a command are translated in element order up to the first that fails; none while the walk of one waits
(R209, R235). DEDUCED: log 55. -/
def State.claim (s : State) (c : Cmd) : Nat → Nat → Option Claim
  | 0, _ => some ⟨[], [], none⟩
  | n + 1, i =>
    let d := cmdArr c.dst
    if d.tile.isSome then some ⟨[], [], none⟩
    else
      let p := d.bytesAt (d.off (unravel d.shape (if d.t = .fp4b then 8 * i else i)))
      match rangeOf .store (s.xlateAs c.who .store) p.1 p.2 with
      | .error f => if f.1 = walkWaits then none else some ⟨[], [], some f⟩
      | .ok l => (s.claim c n (i + 1)).map fun r =>
        { r with lines := linesOf (physKeys l) ++ r.lines, pages := (pageStarts p.1 p.2).filterMap (s.cmdPage c) ++ r.pages }

/-- The 64-byte units that a tile destination covers (R209). -/
def ownUnits (c : Cmd) : List (BitVec 12 × Nat) :=
  let d := cmdArr c.dst
  match d.tile, copyExtent d.t (baseInt true d.base) d.shape d.strides with
  | some h, some (lo, hi) =>
    (List.range (hi.toNat - lo.toNat)).map (fun k => (h, (lo.toNat + k) / 64)) |>.dedup
  | _, _ => []

/-- A command enters its engine with its lines owned; the instruction waits while the queue is full or another command owns
one of them. DEDUCED: log 55. -/
def State.enqueue (s : State) (n : Nat) (c : Cmd) : Eff := do
  let found := s.claim c c.items 0
  let got := found.getD ⟨[], [], none⟩
  let lines := got.lines.dedup
  let units := ownUnits c
  await s (found.isSome && (s.engineAt n).queue.length < 64 && !(lines.any s.owned) &&
    !(units.any fun q => s.tileOwned c.drove c.die q.1 q.2))
  let s := s.recallAll lines
  let c := { c with owned := lines, ownedTile := units, pages := got.pages.dedup, bad := got.bad }
  pure (s.setEngine n fun e => ({ e with queue := e.queue ++ [c] } : Engine))

/-- The report mode's checks (R235 step 5). -/
def State.reportOf (s : State) (mode : CopyMode) : Except Stop Report :=
  match mode with
  | .st b => do
    let va := s.xr b
    if va.toNat % 8 != 0 then trapE s 0x04 va va
    match s.range .store va 8 with
    | .error (c, f) => faultE s c va f
    | .ok _ => pure (.stamp va ((s.xr (xreg (b.val + 1))).extractLsb' 0 48))
  | .bar name scp => pure (.bar (levelOf scp) (s.sh.spr.instOf (levelOf scp)) name.toNat)
  | .gr b =>
    let n := (s.xr b).toNat
    if s.waitingNode s.sh.spr.sad n then .ok (.graph n) else trapE s 0x14 (s.xr b)

/-- What stands before a copy that the sheet in focus issues. -/
def State.before (s : State) : Before :=
  ⟨s.sh.vdone + s.sh.vq.length, (s.core.wloads.filter fun w => w.sheet = s.pos && w.got.isNone).map WLoad.tok⟩

/-- Issue of a copy or a gather (R235, R241): `idx` holds the row indices of a gather. -/
def State.issueCopy (s : State) (mode : CopyMode) (d a : DReg) (rnd : Rnd) (sat : Bool) (eng : BitVec 2)
    (idx : Option (List Int)) : Eff := do
  let x ← s.copyD 1 a false
  let y ← s.copyD 0 d true
  needD s 1 5 (idx.isNone || x.shape.length = 2)
  let width := x.shape.getD 1 0
  let n := match idx with
    | none => prodL x.shape
    | some l => l.length * width
  if n ≠ prodL y.shape then trapE s 0x20 0
  needD s 0 1 (copyPair x.t y.t)
  need s (!(sat && y.t.noSat))
  if copyClash y x then trapE s 0x25 1
  let rep ← s.reportOf mode
  let p := s.sh.spr
  let c : Cmd := ⟨p.sad, p.brand12, s.sh.droveId, BitVec.ofNat 2 p.priv, p.flatIx, p.gDie, s.sh.d[a.val],
    s.sh.d[d.val], idx, width, rnd, sat, rep, [], [], [], none, s.before, none⟩
  if n = 0 then do
    let s ← if rep.releases then s.release else pure s
    pure (s.report c 0 false)
  else s.enqueue (s.pdie * 4 + eng.toNat) c

def execCopy (mode : CopyMode) (d a : DReg) (rnd : Rnd) (sat : Bool) (eng : BitVec 2) (s : State) : Out3 :=
  runEff (s.issueCopy mode d a rnd sat eng none)

/-- DEDUCED: log 65. -/
def execCgath (ty : Fmt) (mode : CopyMode) (d a : DReg) (c : VReg) (rnd : Rnd) (sat : Bool) (eng : BitVec 2) (s : State) :
    Out3 :=
  runEff do
    need s (s.sh.srcOk c ty)
    let s' ← s.consumeC [c]
    let idx := (span 0 s'.sh.spr.aecn).map fun i => ival ty (s'.sh.elem c ty i)
    match s'.issueCopy mode d a rnd sat eng (some idx) with
    | .ok s'' => pure s''
    | .error st => .error (st.keepSlots s.sh)

/-- R242. DEDUCED: log 56. -/
def execFacet (eng : BitVec 2) (a : XReg) (s : State) : Out3 :=
  let n := s.pdie * 4 + eng.toNat
  runEff do
    let (l, s') ← s.scalar .load (s.xr a) 512 64
    await s' (s'.engineAt n).queue.isEmpty
    let tab : BitVec 4096 := BitVec.ofNat 4096 (leNat (s'.aRead (physKeys l)))
    pure (s'.setEngine n fun e => ({ e with facet := some (s'.sh.spr.brand12, tab), badCodes := [] } : Engine))

/-- R243. The word is read at the line's home. -/
def execSwait (d a b : XReg) (s : State) : Out3 :=
  runEff do
    let (l, s') ← s.scalar .load (s.xr a) 8 8
    let w : Word := BitVec.ofNat 64 (leNat (s'.aRead (physKeys l)))
    await s' (fld (s.xr b) 0 48 ≤ fld w 0 48)
    pure (s'.setX d w)

/-! ### Barrier, watermark and graph instructions -/

/-- The sheet's own barrier of a level and a name. -/
def State.myBarrier (s : State) (scp : Scope) (name : BitVec 10) : Barrier :=
  s.barrier s.sh.droveId (levelOf scp) (s.sh.spr.instOf (levelOf scp)) name.toNat

def execBarexp (scp : Scope) (name : BitVec 10) (a : XReg) (s : State) : Out3 :=
  let b := s.myBarrier scp name
  .next (s.setBarrier { b with pend := b.pend + s.xr a }).finish

/-- Arrival is a release (R210). -/
def execBarv (scp : Scope) (name : BitVec 10) (s : State) : Out3 :=
  runEff do
    let s ← s.release
    let b := s.myBarrier scp name
    pure (s.setBarrier { b with arrived := b.arrived + 1 })

def execBarw (scp : Scope) (name : BitVec 10) (a : XReg) (s : State) : Out3 :=
  runEff do
    await s ((s.myBarrier scp name).phase != (fld (s.xr a) 0 1 == 1))
    pure s

/-- Publication is a release (R210). -/
def execWmpub (a : XReg) (w : BitVec 8) (s : State) : Out3 :=
  runEff do
    let s ← s.release
    pure (s.setSad s.sh.spr.sad fun d =>
      let old := sparseGet d.marks w.toNat
      { d with marks := sparseSet d.marks w.toNat (if old.ult (s.xr a) then s.xr a else old) })

def execWmwait (a : XReg) (w : BitVec 8) (s : State) : Out3 :=
  runEff do
    await s (!(sparseGet s.sad.marks w.toNat).ult (s.xr a))
    pure s

/-- The first free record of the saddle's device pool (R391). DEDUCED: log 83. -/
def State.freeRecord (s : State) (sad : Nat) : Option Nat :=
  let g := s.saddles[(sadOf sad).val]
  ((List.range (g.graphN.toNat - g.devBase.toNat)).map fun k => g.devBase.toNat + k + 1).find? fun num =>
    (s.node? sad num).isNone && match s.readRec sad num with
      | some b => recState b = 0
      | none => false

/-- A record of the device pool that would be looked at lies on a line that a copy engine owns (R209). -/
def State.poolBusy (s : State) (sad : Nat) : Bool :=
  let g := s.saddles[(sadOf sad).val]
  (List.range (g.graphN.toNat - g.devBase.toNat)).any fun k =>
    s.readBusy (runtimeWho sad) (s.recVa sad (g.devBase.toNat + k + 1)) 64

/-- R247: the record is copied into the pool with STATE 1, and enters the Wrangler when it is valid. DEDUCED: log 83. -/
def execGnode (d a : XReg) (s : State) : Out3 :=
  let sad := s.sh.spr.sad
  runEff do
    let (l, s') ← s.scalar .load (s.xr a) 64 64
    let s' ← s'.release
    await s' (!s'.poolBusy sad)
    match s'.freeRecord sad with
    | none => pure (s'.setX d 0)
    | some num =>
      let b := wsetFld (BitVec.ofNat 512 (leNat (s'.aRead (physKeys l)))) 480 8 1
      let s' := (s'.writeAs (runtimeWho sad) (s'.recVa sad num) (leBytes 64 b.toNat)).getD s'
      let s' := if recOk b then s'.addNode sad num b else s'.nodeError sad num
      pure (s'.setX d (BitVec.ofNat 64 num))

end Machine
end Sys2Proof
end

