-- ==== Sys2Proof/Machine/Matrix.lean ====
section
/-! DEFINITION. Gallop arrays: tokens and resources in use (R304, R314), weight slots and their loads (R317, R318), issue and
staging (R319, R322, R323, R369, R370), the products (R308, R320 to R324), drains (R309, R325, R326), and the adapters of the
shelf (R396).
-/
namespace Sys2Proof

/-- KMAX (R303, R318). -/
def Fmt.kmax : Fmt → Nat
  | .f32 => 64
  | .bf16 => 128
  | _ => 256

/-- Waves per step (R312). -/
def Fmt.waves : Fmt → Nat
  | .f32 => 8
  | .bf16 => 2
  | _ => 1

namespace Machine

/-! ### Causes, tokens and resources (R304, R314, R398) -/

/-- Trap 0x01 with a reason in TVAL[15:8] and an index in TVAL[63:16]. -/
def reasonE {α : Type} (s : State) (reason : Nat) (ix : Nat := 0) : Except Stop α :=
  trapE s 0x01 (BitVec.ofNat 64 (reason * 256 + ix * 65536))

def needR (s : State) (reason : Nat) (b : Bool) : Except Stop Unit := if b then .ok () else reasonE s reason

/-- A die that is not calibrated runs no matrix or cutter instruction of an 8-bit or 4-bit format (R398).
DEDUCED: log 68. -/
def State.calE (s : State) (t : Fmt) : Except Stop Unit :=
  needR s 8 (!(t == .fp4b || t == .e4m3 || t == .e5m2) || s.cal.getLsbD s.pdie)

/-- Trap 0x40 with the blocking token. -/
def tokE {α : Type} (s : State) (k : KReg) : Except Stop α := trapE s 0x40 (BitVec.ofNat 64 k.val)

/-- Only an idle token is issued into. -/
def State.tokFree (s : State) (k : KReg) : Except Stop Unit := if s.sh.k[k.val].st = .idle then .ok () else tokE s k

/-- A resource in use stops an instruction that names it. -/
def freeE (s : State) : Use → Except Stop Unit
  | none => .ok ()
  | some (_, k) => tokE s k

def State.zFree (s : State) (z : ZReg) : Except Stop Unit := freeE s s.core.zuse[z.val]
def State.wFree (s : State) (w : WReg) : Except Stop Unit := freeE s s.core.wuse[w.val]
def State.sFree (s : State) (a : Fin 2) : Except Stop Unit := freeE s s.core.suse[a.val]

def State.setTok (s : State) (k : KReg) (t : Tok) : State := { s with sh := { s.sh with k := s.sh.k.set k.val t } }

def Tok.pending : Tok := ⟨.pending, 0, 0, 0⟩
def Tok.done (fl : BitVec 6) (cause : Nat) (addr : Word) : Tok := ⟨.complete, fl, BitVec.ofNat 8 cause, addr⟩

/-- A resource comes into use by the sheet's token. -/
def State.useZ (s : State) (z : ZReg) (k : KReg) : State :=
  { s with core := { s.core with zuse := s.core.zuse.set z.val (some (s.pos, k)) } }
def State.useW (s : State) (w : WReg) (k : KReg) : State :=
  { s with core := { s.core with wuse := s.core.wuse.set w.val (some (s.pos, k)) } }
def State.useS (s : State) (a : Fin 2) (k : KReg) : State :=
  { s with core := { s.core with suse := s.core.suse.set a.val (some (s.pos, k)) } }

def WSlot.empty : WSlot := ⟨0, 0, none, Vector.replicate 4 0, []⟩

/-- The resources of a token are no longer in use. -/
def Core.release (c : Core) (u : Fin 4 × KReg) : Core :=
  let out := fun (q : Use) => if q = some u then none else q
  { c with zuse := c.zuse.map out, wuse := c.wuse.map out, suse := c.suse.map out }

/-- The weight slots of a token go empty (R318). -/
def Core.dropSlots (c : Core) (u : Fin 4 × KReg) : Core :=
  { c with w := Vector.ofFn fun (n : Fin 16) => if c.wuse[n.val] = some u then WSlot.empty else c.w[n.val] }

/-- Whether a token is one of a cut or a `cocut` (R339). -/
def State.cutTok (s : State) (k : KReg) (cut : Bool) : State :=
  s.withSheet { s.sh with ctok := setBit s.sh.ctok k.val cut }

/-- An operation is issued into a token, of a cut or a `cocut` or not. -/
def State.newTok (s : State) (k : KReg) (t : Tok) (cut : Bool) : State := (s.setTok k t).cutTok k cut

/-- R304, R314, R318: the flags, the end of use, then the recorded fault with the token already idle. DEDUCED: log 73. -/
def execKwait (d : KReg) (s : State) : Out3 :=
  let t := s.sh.k[d.val]
  runEff do
    await s (t.st ≠ .pending)
    if t.st = .idle then pure s
    else
      let u := (s.pos, d)
      let c := if t.cause = 0 then s.core else s.core.dropSlots u
      let s' := (({ s with core := c.release u } : State).setTok d Tok.idle).orFlags t.flags
      let s' := s'.cutTok d false
      if t.cause = 0 then pure s' else trapE s' t.cause.toNat 0 t.faddr

def execKpoll (d : XReg) (a : KReg) (s : State) : Out3 :=
  s.putX d (match s.sh.k[a.val].st with
    | .idle => 0
    | .pending => 1
    | .complete => 2)

/-! ### Shapes and accumulators (R307, R320) -/

def Spr.mm (p : Spr) : Nat := fld p.mshape 0 7
def Spr.mn (p : Spr) : Nat := fld p.mshape 8 7
def Spr.mk_ (p : Spr) : Nat := fld p.mshape 16 9

/-- DEDUCED: log 68, 74. -/
def execMset (ty : Fmt) (d a b : XReg) (s : State) : Out3 :=
  let m := min (min (s.xr d).toNat 64) s.sh.spr.rc
  let n := min (s.xr a).toNat 64
  let k := min (s.xr b).toNat ty.kmax
  let k := if m > 0 then min k (16384 / m) else k
  let w := fun (v : Nat) => BitVec.ofNat 64 v
  runEff do
    s.calE ty
    let s' := ((s.setX d (w m)).setX a (w n)).setX b (w k)
    pure (s'.mapSpr fun p => { p with mshape := w (m + n * 2 ^ 8 + k * 2 ^ 16) })

def Acc.get (z : Acc) (i j : Nat) : Nat := z.cells.nat (256 * i + 4 * j) 4
def Acc.put (z : Acc) (i j v : Nat) : Acc := { z with cells := z.cells.setNat (256 * i + 4 * j) 4 v }
def Acc.zero : Acc := ⟨[], BitVec.allOnes 64⟩

def State.setZ (s : State) (z : ZReg) (a : Acc) : State :=
  { s with core := { s.core with z := s.core.z.set z.val a } }

def execMzero (d : ZReg) (s : State) : Out3 :=
  runEff do
    s.zFree d
    pure (s.setZ d Acc.zero)

/-! ### Staged elements and weights (R317, R319, R324) -/

/-- The bits of an element as it is staged: in fp4b its code and its block's scale, 0xFF for an invalid block. -/
def Sheet.matEl (h : Sheet) (a : VReg) (t : Fmt) (i : Nat) : Nat :=
  if t = .fp4b then
    (if h.blkOk a (i / 8) then bitsAt (h.blk a (i / 8)) (8 + 4 * (i % 8)) 4 + 16 * (h.blk a (i / 8) % 256) else 0xFF0)
  else h.elem a t i

/-- A staged element of an invalid block. -/
def badEl (t : Fmt) (v : Nat) : Bool := t = .fp4b && v / 16 % 256 = 255

/-- The value of a staged element; an invalid block gives zeros. -/
def matVal (t : Fmt) (v : Nat) : FVal :=
  if t = .fp4b then
    if badEl t v then .zero false
    else
      let q := scaleOf (v / 16 % 256)
      .fin (bitsAt v 3 1 = 1) (e2m1Half (v % 8) * q.1) (q.2 - 1)
  else fdecode t v

/-- The bits at W[k][j]; none beyond the matrix (R317). -/
def WSlot.at_ (w : WSlot) (k j : Nat) : Option Nat :=
  if k < w.kw && j < w.nw then some (((w.data.find? fun e => e.1 = k * 64 + j).map Prod.snd).getD 0) else none

/-- The band scale of row k. -/
def WSlot.bandOf (w : WSlot) (k : Nat) : FVal := fdecode .bf16 ((w.band.toList.getD (k / 64) 0).toNat)

def FVal.isFin : FVal → Bool
  | .fin _ _ _ => true
  | _ => false

/-- W[k][j] comes from an invalid block or an invalid band (R85, R324). -/
def WSlot.bad (w : WSlot) (k j : Nat) : Bool :=
  w.wf = some .fp4b && match w.at_ k j with
    | none => false
    | some v => badEl .fp4b v || !(w.bandOf k).isFin

/-- The value of W[k][j]. -/
def WSlot.val (w : WSlot) (k j : Nat) : FVal :=
  match w.wf, w.at_ k j with
  | some t, some v =>
    if t = .fp4b then (if w.bad k j then .zero false else (fMul (matVal .fp4b v) (w.bandOf k)).1) else fdecode t v
  | _, _ => .zero false

/-! ### Steps (R320, R321) -/

/-- The exact sum of the products of a step. -/
def stepSum : List (FVal × FVal) → FVal × Flags
  | [] => (.zero false, 0)
  | [q] => fMul q.1 q.2
  | q :: l =>
    let a := fMul q.1 q.2
    let b := stepSum l
    let c := fAdd .rne a.1 b.1
    (c.1, a.2 ||| b.2 ||| c.2)

/-- One rounded accumulation. -/
def accStep (acc : Nat) (l : List (FVal × FVal)) : Nat × Flags :=
  let p := stepSum l
  let c := fAdd .rne (fdecode .f32 acc) p.1
  let r := fround .f32 .rne false c.1
  (r.1, p.2 ||| c.2 ||| r.2)

def accSteps : List (List (FVal × FVal)) → Nat → Flags → Nat × Flags
  | [], acc, fl => (acc, fl)
  | l :: rest, acc, fl =>
    let q := accStep acc l
    accSteps rest q.1 (fl ||| q.2)

/-- The entries of a list from lo below hi. -/
def slice {α : Type} (lo hi : Nat) (l : List α) : List α := (l.drop lo).take (hi - lo)

def pairUp {α : Type} : List α → List (List α)
  | a :: b :: l => [a, b] :: pairUp l
  | [a] => [[a]]
  | [] => []

/-- The factors of a product. Where a cut packed no value, the term is +0 whatever the sign of a weight that is a number (R308,
R335). DEDUCED: log 111. -/
def factors (gap : Bool) (a w : FVal) : FVal × FVal :=
  match gap, w with
  | true, .zero _ => (.zero false, .zero false)
  | true, .fin _ _ _ => (.zero false, .zero false)
  | _, w => (a, w)

/-- The terms of one cell, a step each: the staged row, with `gap` where a cut packed no value, against the rows of W in `ks`. -/
def cellSteps (gap : Nat → Bool) (t : Fmt) (w : WSlot) (row : List Nat) (ks : List Nat) (j : Nat) :
    List (List (FVal × FVal)) :=
  let l := (row.zip ks).zipIdx.map fun q => factors (gap q.2) (matVal t q.1.1) (w.val q.1.2 j)
  if t = .fp4b then pairUp l else l.map fun q => [q]

/-- The cells of one row, from column j on; `extra` gives the further steps of a cell. -/
def rowCells (f : Nat → Nat → Nat × Flags) (i : Nat) : Nat → Nat → Acc → Flags → Acc × Flags
  | 0, _, z, fl => (z, fl)
  | n + 1, j, z, fl =>
    let q := f j (z.get i j)
    rowCells f i n (j + 1) (z.put i j q.1) (fl ||| q.2)

/-- A slot holds an invalid block at k < MK and j < MN. DEDUCED: log 70. -/
def WSlot.spoils (w : WSlot) (mk mn : Nat) : Bool :=
  w.wf = some .fp4b && (List.range (min mk w.kw)).any fun k => (List.range (min mn w.nw)).any fun j => w.bad k j

/-! ### Adapters (R323, R396) -/

/-- An adapter as the table describes it: id, rank, Kh, Nh, the addresses of Dn and Up. -/
structure AdEnt where
  id : Int
  rank : Nat
  kh : Nat
  nh : Nat
  dn : Word
  up : Word
  rest : Nat
  deriving DecidableEq, Repr

def adEnt (b : List Byte) : AdEnt :=
  let f := fun (o k : Nat) => leNat ((b.drop o).take k)
  ⟨toSigned 32 (f 0 4), f 4 2, f 8 4, f 12 4, BitVec.ofNat 64 (f 16 8), BitVec.ofNat 64 (f 24 8),
    f 6 2 + f 32 32⟩

/-- The footprint of an adapter. -/
def adSize (kh r nh : Nat) : Nat := roundUp (2 * (kh * r + r * nh)) 4096

/-- The entries of a saddle's table that its runtime can read. -/
def State.adTable (s : State) (sad : Nat) : List AdEnt :=
  let d := s.saddles[(sadOf sad).val]
  (List.range d.adaptN.toNat).filterMap fun n =>
    (s.readAs (runtimeWho sad) (d.adaptBase + BitVec.ofNat 64 (64 * n)) 64).map adEnt

/-- An entry of the table lies on a line that a copy engine owns (R209). -/
def State.adTableBusy (s : State) (sad : Nat) : Bool :=
  let d := s.saddles[(sadOf sad).val]
  (List.range d.adaptN.toNat).any fun n => s.readBusy (runtimeWho sad) (d.adaptBase + BitVec.ofNat 64 (64 * n)) 64

/-- The matrices of an adapter lie on such a line. -/
def State.adBusy (s : State) (sad : Nat) (e : AdEnt) : Bool :=
  s.readBusy (runtimeWho sad) e.dn (2 * (e.kh * e.rank)) || s.readBusy (runtimeWho sad) e.up (2 * (e.rank * e.nh))

/-- The entry of an id, when it keeps every rule of R396. DEDUCED: log 76. -/
def State.adFind (s : State) (sad : Nat) (id : Int) : Option AdEnt :=
  let l := s.adTable sad
  match l.filter fun e => e.id = id with
  | [e] =>
    if 0 ≤ e.id && 1 ≤ e.rank && e.rank ≤ 64 && 1 ≤ e.kh && 1 ≤ e.nh && e.dn.toNat % 64 = 0 && e.up.toNat % 64 = 0 &&
        e.rest = 0 && adSize e.kh e.rank e.nh ≤ s.saddles[(sadOf sad).val].shelf.toNat then some e else none
  | _ => none

/-- An adapter that stands on a die's shelf. -/
def State.shelfAd (s : State) (die sad : Nat) (id : Int) : Option Adapter :=
  s.adapters.find? fun a => a.die = die && a.sad = sad && a.id = id && !a.stale

/-- The footprint of an id: on the shelf as it was loaded, else by the table. -/
def State.adFoot (s : State) (die sad : Nat) (id : Int) : Option Nat :=
  match s.shelfAd die sad id with
  | some a => some a.size
  | none => (s.adFind sad id).map fun e => adSize e.kh e.rank e.nh

/-- An operation of a saddle that a core of a die has not finished names the adapter. -/
def State.adUsed (s : State) (die sad : Nat) (id : Int) : Bool :=
  (s.core :: s.cores).any fun c => dieOfCore c.place = die && c.queue.toList.any fun q => q.any fun o =>
    match o.kind with
    | .mmula _ ids _ _ => ids.contains id && s.sheets.any fun h => coreOf h.place = c.place && h.spr.sad = sad
    | _ => false

/-- The shelf lets go of stale copies that no operation uses. -/
def State.dropStale (s : State) : State :=
  { s with adapters := s.adapters.filter fun a => !a.stale || s.adUsed a.die a.sad a.id }

/-- Evicts adapters that no operation uses, least recently used first, until n bytes fit under the shelf's size. -/
def State.evictFor (s : State) (die sad n : Nat) : List Adapter → List Adapter
  | [] => []
  | a :: l =>
    -- the list runs from the least recently used
    let mine := fun (q : Adapter) => q.die = die && q.sad = sad
    let used := ((a :: l).filter mine).foldl (fun t q => t + q.size) 0
    if used + n ≤ s.saddles[(sadOf sad).val].shelf.toNat then a :: l
    else if mine a && !s.adUsed die sad a.id then s.evictFor die sad n l
    else a :: s.evictFor die sad (if mine a then n + a.size else n) l

/-- Bytes in use on a shelf. -/
def shelfUsed (l : List Adapter) (die sad : Nat) : Nat :=
  (l.filter fun q => q.die = die && q.sad = sad).foldl (fun t q => t + q.size) 0

/-- The elements of a bf16 matrix in memory, as the Wrangler reads them. -/
def State.readBf (s : State) (sad : Nat) (va : Word) (n : Nat) : Option (List Nat) :=
  (s.readAs (runtimeWho sad) va (2 * n)).map fun l => (List.range n).map fun i => leNat ((l.drop (2 * i)).take 2)

/-- ADAPTER_PREFETCH: the Wrangler copies an adapter to a shelf that has room for it, once no copy engine owns a line that it reads.
DEDUCED: log 76. -/
def execAdapterPrefetch (die sad id : Nat) (s : State) : Out3 :=
  let s := s.dropStale
  match s.shelfAd die sad id, s.adFind sad id with
  | none, some e =>
    match s.readBf sad e.dn (e.kh * e.rank), s.readBf sad e.up (e.rank * e.nh) with
    | some dn, some up =>
      let n := adSize e.kh e.rank e.nh
      let l := (s.evictFor die sad n s.adapters.reverse).reverse
      if s.adTableBusy sad ∨ s.adBusy sad e ∨ s.adapters.any (fun a => a.die = die && a.sad = sad && a.id = id) ∨
          shelfUsed l die sad + n > s.saddles[(sadOf sad).val].shelf.toNat then .next s
      else .next { s with adapters := ⟨die, sad, e.id, e.rank, e.kh, e.nh, dn, up, n, false⟩ :: l }
    | _, _ => .next s
  | _, _ => .next s

def Adapter.dnAt (a : Adapter) (k q : Nat) : FVal :=
  if k < a.kh && q < a.rank then fdecode .bf16 (a.dn.getD (k * a.rank + q) 0) else .zero false
def Adapter.upAt (a : Adapter) (q j : Nat) : FVal :=
  if q < a.rank && j < a.nh then fdecode .bf16 (a.up.getD (q * a.nh + j) 0) else .zero false

/-- Patterns with their flags together. -/
def joinFlags (l : List (Nat × Flags)) : List Nat × Flags := (l.map Prod.fst, l.foldl (fun f u => f ||| u.2) 0)

/-- The down steps lo below hi of a staged row, one element a step: t[q] in binary32, from where it stands (R323). -/
def Adapter.down (a : Adapter) (t : Fmt) (row : List Nat) (koff lo hi : Nat) (ts : List Nat) : List Nat × Flags :=
  joinFlags ((List.range a.rank).map fun q =>
    accSteps (slice lo hi (row.zipIdx.map fun e => [(matVal t e.1, a.dnAt (koff + e.2) q)])) (ts.getD q 0) 0)

/-- u[q] in bf16 of the sums t[q] (R323). -/
def downRound (ts : List Nat) : List Nat × Flags := joinFlags (ts.map fun t => fround .bf16 .rne false (fdecode .f32 t))

/-- The up steps of a cell. -/
def Adapter.upSteps (a : Adapter) (us : List Nat) (noff j : Nat) : List (List (FVal × FVal)) :=
  us.zipIdx.map fun u => [(fdecode .bf16 u.1, a.upAt u.2 (noff + j))]

/-! ### Execution of an operation (R308, R320 to R324) -/

/-- What row i of an operation multiplies by: the pass, the slot, the rows of W, and the accumulator row. -/
structure RowPlan where
  pass : Nat
  slot : WReg
  ks : List Nat
  zrow : Nat
  ad : Option Adapter
  koff : Nat
  noff : Nat

/-- The value that a cut packed at a place, if it packed one. -/
def SBuf.at_ (b : SBuf) (i k : Nat) : Option Nat := (b.ents.find? fun e => e.row = i && e.col = k).map SpEnt.val

/-- The elements of a packed row. -/
def packedRow (b : SBuf) (i n : Nat) : List Nat := (List.range n).map fun k => (b.at_ i k).getD 0

/-- The plan of row i; none for a row that the operation leaves alone. -/
def MatOp.plan (o : MatOp) (ads : Int → Option Adapter) (i : Nat) : Option RowPlan :=
  let all := List.range o.kk
  match o.kind with
  | .mmul w => some ⟨0, w, all, i, none, 0, 0⟩
  | .mmuls w kept => some ⟨0, w, kept.getD i [], i, none, 0, 0⟩
  | .mmula w ids koff noff => some ⟨0, w, all, i, ads (ids.getD i (-1)), koff, noff⟩
  | .mmulc w row0 => some ⟨0, w, all, (row0 + i) % 64, none, 0, 0⟩
  | .mgrp rows => (rows.getD i none).map fun q => ⟨q.1, q.2, all, i, none, 0, 0⟩
  | .pack _ => none

/-- Steps of a product over n elements of a row. -/
def stepsOf (ty : Fmt) (n : Nat) : Nat := if ty = .fp4b then n / 2 else n

/-- The steps of an operation before its adapter steps; one for the packing of a cut (R312, R321, R327, R370). -/
def MatOp.mainSteps (o : MatOp) : Nat :=
  match o.kind with
  | .pack _ => 1
  | .mmula _ _ _ _ => stepsOf o.ty o.kk
  | _ => o.waves / o.ty.waves

/-- All the steps of an operation: an adapter step takes two waves (R312, R323). -/
def MatOp.steps (o : MatOp) : Nat := o.mainSteps + (o.waves - o.mainSteps * o.ty.waves) / 2

/-- The waves of the first n steps of an operation (R312, R329). -/
def MatOp.wavesAt (o : MatOp) (n : Nat) : Nat :=
  match o.kind with
  | .pack _ => 0
  | _ => min n o.mainSteps * o.ty.waves + 2 * (n - o.mainSteps)

/-- The steps of one row of an operation from lo below hi: the main steps stand at the row's pass, the up steps after all the down
steps; `ts` are the row's sums t (R320 to R323, R328, R370). DEDUCED: log 70. -/
def MatOp.doRow (o : MatOp) (c : Core) (t : Fmt) (lo hi : Nat) (gap : Nat → Bool) (row : List Nat) (p : RowPlan) (ts : List Nat)
    (z : Acc) : Acc × Flags × List Nat :=
  let w := c.w[p.slot.val]
  let at_ := p.pass * stepsOf o.ty o.kk
  let up := o.mainSteps + o.kk
  let d := match p.ad with
    | some a => a.down t row p.koff (lo - o.mainSteps) (hi - o.mainSteps) ts
    | none => ([], 0)
  let us := downRound d.1
  let f := fun j acc =>
    let more := match p.ad with
      | some a => a.upSteps us.1 p.noff j
      | none => []
    accSteps (slice (lo - at_) (hi - at_) (cellSteps gap t w row p.ks j) ++ slice (lo - up) (hi - up) more) acc 0
  let q := rowCells f p.zrow o.mn 0 z (d.2 ||| if lo < up && up ≤ hi then us.2 else 0)
  let bad := o.mn > 0 && at_ < hi && (row.any (badEl t) || w.spoils o.kk o.mn)
  (if bad then { q.1 with valid := setBit q.1.valid p.zrow false } else q.1, q.2, d.1)

/-- Steps lo below hi of the rows of an operation from i on: the accumulator, the flags, the sums t of each row. -/
def MatOp.doRows (o : MatOp) (c : Core) (t : Fmt) (gap : Nat → Nat → Bool) (src : Nat → List Nat) (ads : Int → Option Adapter)
    (ts : Nat → List Nat) (lo hi : Nat) : Nat → Nat → Acc → Flags → Acc × Flags × List (List Nat)
  | 0, _, z, fl => (z, fl, [])
  | n + 1, i, z, fl =>
    match o.plan ads i with
    | none =>
      let r := o.doRows c t gap src ads ts lo hi n (i + 1) z fl
      (r.1, r.2.1, [] :: r.2.2)
    | some p =>
      let q := o.doRow c t lo hi (gap i) (src i) p (ts i) z
      let r := o.doRows c t gap src ads ts lo hi n (i + 1) q.1 (fl ||| q.2.1)
      (r.1, r.2.1, q.2.2 :: r.2.2)

/-- The array of an operation. -/
def arrOf (z : ZReg) : Fin 2 := Fin.ofNat 2 (z.val / 4)

/-- The effect of an operation's steps up to hi on its core, from the progress it has made: the core and the new progress. -/
def MatOp.exec (o : MatOp) (c : Core) (arr : Fin 2) (ads : Int → Option Adapter) (p : OpProg) (hi : Nat) : Core × OpProg :=
  let rows := fun t gap src =>
    let q := o.doRows c t gap src ads (fun i => p.ts.getD i []) p.steps hi o.mm 0 c.z[o.z.val] p.flags
    ({ c with z := c.z.set o.z.val q.1 }, (⟨hi, q.2.1, q.2.2⟩ : OpProg))
  match o.kind with
  | .pack ents => (if p.steps < hi then { c with sbuf := c.sbuf.set arr.val ⟨some o.ty, ents⟩ } else c, { p with steps := hi })
  | .mmulc _ _ =>
    let b := c.sbuf[arr.val]
    rows (b.fmt.getD o.ty) (fun i k => (b.at_ i k).isNone) fun i => packedRow b i o.kk
  | _ => rows o.ty (fun _ _ => false) fun i => o.rows.getD i []

/-- The saddle whose drove holds the core in focus. -/
def State.coreSad (s : State) : Nat := s.sh.spr.sad

/-- The adapters on the shelf of the die in focus, by id. -/
def State.adOf (s : State) (id : Int) : Option Adapter :=
  s.adapters.find? fun a => a.die = dieOfCore s.core.place && a.sad = s.coreSad && a.id = id

/-- The adapters that an operation names are on the die's shelf. -/
def State.adsHere (s : State) (o : MatOp) : Bool :=
  match o.kind with
  | .mmula _ ids _ _ => ids.all fun id => id = -1 || (s.adOf id).isSome
  | _ => true

/-- The operation at the head of an array's queue goes on to step n, beginning if it has not: what it computes depends on the number
of its steps alone (R320, R328). Its adapters must be on the shelf. -/
def State.runOpTo (s : State) (arr : Fin 2) (n : Nat) : State :=
  match s.core.queue[arr.val] with
  | [] => s
  | o :: l =>
    if !s.adsHere o then s
    else
      let was := o.prog.getD ⟨0, 0, []⟩
      let q := o.exec s.core arr s.adOf was (max was.steps (min n o.steps))
      { s with core := { q.1 with queue := q.1.queue.set arr.val ({ o with prog := some q.2 } :: l) } }

/-- MATRIX_OPERATION_START: the operation at the head of an array's queue begins. -/
def execMatrixOperationStart (arr : Fin 2) (s : State) : Out3 := .next (s.runOpTo arr 0)

/-- The operation under way on an array has come a free number of whole steps further (R328, R329). DESIGN CHOICE: log 10. -/
def State.opDrift (s : State) (arr : Fin 2) : State :=
  match s.core.queue[arr.val] with
  | [] => s
  | o :: _ => match o.prog with
    | none => s
    | some p =>
      ({ s with free := s.free + 1 } : State).runOpTo arr (p.steps + (Config.freeWord s.free).toNat % (o.steps - p.steps + 1))

/-- The operation of a token at the head of an array's queue, once it has begun. -/
def State.begunAt (s : State) (arr : Fin 2) (k : KReg) : Option MatOp :=
  match s.core.queue[arr.val] with
  | o :: _ => if o.sheet = s.pos && o.tok = k && o.prog.isSome then some o else none
  | [] => none

/-- An operation that has made its steps leaves its queue: its token is complete with the flags, and WAVES grows by its waves (R41,
R314, R329). DEDUCED: log 66. -/
def State.endOp (s : State) (arr : Fin 2) (k : KReg) : State :=
  match s.core.queue[arr.val] with
  | [] => s
  | o :: l => match o.prog with
    | none => s
    | some p =>
      if p.steps ≠ o.steps then s
      else
        let s := { s with core := { s.core with queue := s.core.queue.set arr.val l } }
        let s := s.setTok k (Tok.done p.flags 0 0)
        (s.mapSpr fun p => { p with waves := p.waves + BitVec.ofNat 64 o.waves }).dropStale

/-- The operation of a token makes its last steps and ends. -/
def State.finishOp (s : State) (arr : Fin 2) (k : KReg) (o : MatOp) : State := (s.runOpTo arr o.steps).endOp arr k

/-- A weight load ends: the slot holds what was read, or the token the fault. -/
def State.endLoad (s : State) (w : WLoad) (k : KReg) : State :=
  let c := { s.core with wloads := s.core.wloads.filter fun q => !(q.sheet = s.pos && q.tok = k) }
  let c := if w.cause = 0 then { c with w := c.w.set w.w.val { c.w[w.w.val] with data := w.got.getD [] } } else c
  ({ s with core := c } : State).setTok k (Tok.done 0 w.cause w.addr)

/-- The end of an operation is a release (R210): it comes once the sheet's accesses are performed. -/
def afterRelease (s : State) (f : State → State) : Out3 :=
  match s.release with
  | .error (.wait _) => .next s
  | .error st => .next st.take
  | .ok s' => .next (f s')

/-- OPERATION_FINISHES: the operation of a token of the sheet in focus. -/
def execOperationFinishes (k : KReg) (s : State) : Out3 :=
  match s.begunAt 0 k, s.begunAt 1 k with
  | some o, _ => afterRelease s fun s => s.finishOp 0 k o
  | none, some o => afterRelease s fun s => s.finishOp 1 k o
  | none, none =>
    match s.core.wloads.find? fun w => w.sheet = s.pos && w.tok = k with
    | none => .next s
    | some _ => afterRelease s fun s => match s.core.wloads.find? fun w => w.sheet = s.pos && w.tok = k with
      | some w => s.endLoad w k
      | none => s

/-! ### Issue (R319, R327) -/

/-- An operation enters its array's queue, or completes at once, which is a release, when it has no steps (R210, R319).
DEDUCED: log 69. -/
def State.issueOp (s : State) (arr : Fin 2) (o : MatOp) (slots : List WReg) : Eff := do
  await s (s.core.queue[arr.val].length < 4)
  let s ← if o.waves = 0 then s.release else pure s
  let s := (slots.foldl (fun s w => s.useW w o.tok) s).useZ o.z o.tok
  if o.waves = 0 then pure (s.newTok o.tok (Tok.done 0 0 0) false)
  else
    let s := s.newTok o.tok Tok.pending false
    pure { s with core := { s.core with queue := s.core.queue.set arr.val (s.core.queue[arr.val] ++ [o]) } }

/-- Rows 2 and 3 of R319: `len` elements of a row are read, from groups or registers at the numbers in `also` too. -/
def State.stageE (s : State) (ty : Fmt) (a : VReg) (len : Nat) (also : List Nat) (fits : Bool) : Except Stop Unit := do
  let p := s.sh.spr
  needR s 1 (s.sh.srcOk a ty && p.mm ≤ p.rc && len ≤ p.vln && also.all fun n => n < p.nreg)
  needR s 2 ((ty != .fp4b || p.mk_ % 8 = 0) && fits)

/-- The staged rows: `len` elements of each of the first MM rows of group a. -/
def Sheet.stageRows (h : Sheet) (ty : Fmt) (a : VReg) (len : Nat) : List (List Nat) :=
  (List.range h.spr.mm).map fun i => (List.range len).map fun k => h.matEl a ty (i * h.spr.vln + k)

/-- A slot is empty or in the format. -/
def State.slotFmt (s : State) (ty : Fmt) (w : WReg) : Except Stop Unit :=
  match s.core.w[w.val].wf with
  | none => .ok ()
  | some t => needR s 3 (t = ty)

/-- Waves of a shape: none when MM, MN or MK is 0. -/
def Spr.wavesOf (p : Spr) (n : Nat) : Nat := if p.mm = 0 || p.mn = 0 || p.mk_ = 0 then 0 else n

/-- The reads, then the effect of a matrix instruction; a stop leaves the binding slots in place. DEDUCED: log 69. -/
def State.matDo (s : State) (regs : List VReg) (f : State → Eff) : Eff := do
  let s' ← s.consumeC regs
  match f s' with
  | .ok s'' => pure s''
  | .error st => .error (st.keepSlots s.sh)

def execMmul (ty : Fmt) (d : ZReg) (a : VReg) (b : WReg) (c : KReg) (s : State) : Out3 :=
  let p := s.sh.spr
  runEff do
    s.calE ty
    s.stageE ty a p.mk_ [] true
    s.matDo [a] fun s => do
      s.tokFree c
      s.zFree d
      s.wFree b
      s.slotFmt ty b
      let n := p.wavesOf (stepsOf ty p.mk_ * ty.waves)
      s.issueOp (arrOf d) ⟨.mmul b, ty, d, p.mm, p.mn, p.mk_, s.sh.stageRows ty a p.mk_, n, s.pos, c, none⟩ [b]

/-- The first mask of the metadata without exactly n bits set, by flat index (R322). DEDUCED: log 71. -/
def badMask (m : Nat → Nat) (n : Nat) (l : List Nat) : Option Nat := l.find? fun i => (bitIxs (m i)).length ≠ n

/-- DEDUCED: log 71. -/
def execMmuls (ty : Fmt) (d : ZReg) (a : VReg) (b : WReg) (c : KReg) (lane : BitVec 6) (dens : Fin 4) (s : State) : Out3 :=
  let p := s.sh.spr
  let keep := 16 / 2 ^ dens.val
  let groups := p.mk_ / 32
  let meta_ : VReg := Fin.ofNat 64 (a.val + p.rc)
  let len := p.mk_ * keep / 32
  runEff do
    s.calE ty
    needR s 1 (a.val + p.rc < p.nreg && s.sh.srcOk meta_ .n32 && lane.toNat + groups ≤ p.vln)
    s.stageE ty a len [] (p.mk_ % 32 = 0 && dens != 3)
    s.matDo [a, meta_] fun s => do
      s.tokFree c
      s.zFree d
      s.wFree b
      s.slotFmt ty b
      let at_ := fun i g => i * p.vln + lane.toNat + g
      let mask := fun i => s.sh.elem meta_ .n32 i
      let all := (List.range p.mm).flatMap fun i => (List.range groups).map (at_ i)
      match badMask mask keep all with
      | some i => reasonE s 4 i
      | none => pure ()
      let kept := (List.range p.mm).map fun i =>
        (List.range groups).flatMap fun g => (bitIxs (mask (at_ i g))).map fun k => 32 * g + k
      let n := p.wavesOf (stepsOf ty len * ty.waves)
      s.issueOp (arrOf d) ⟨.mmuls b kept, ty, d, p.mm, p.mn, p.mk_, s.sh.stageRows ty a len, n, s.pos, c, none⟩ [b]

/-- A field of k bytes of a register read as bytes. -/
def Sheet.regFld (h : Sheet) (r o k : Nat) : Nat := h.vstore.nat (r * h.spr.rbytes + o) k

/-- Row 7 of R319: every id names an adapter, together they fit the shelf, and each is resident (R323, R396). -/
def State.adsE (s : State) (ids : List Int) : Except Stop Unit := do
  let die := s.pdie
  let sad := s.sh.spr.sad
  await s (!s.adTableBusy sad)
  match ids.zipIdx.find? fun q => q.1 ≠ -1 && (s.adFoot die sad q.1).isNone with
  | some q => trapE s 0x14 (BitVec.ofNat 64 q.2)
  | none => pure ()
  let past := ids.zipIdx.find? fun q =>
    ((((ids.take (q.2 + 1)).filter fun i => i ≠ -1).dedup).foldl (fun t i => t + (s.adFoot die sad i).getD 0) 0) >
      s.sad.shelf.toNat
  match past with
  | some q => trapE s 0x14 (BitVec.ofNat 64 q.2)
  | none => pure ()
  await s (ids.all fun i => i = -1 || (s.shelfAd die sad i).isSome)

/-- The adapters of ids become the most recently used of their shelf. -/
def State.touchAds (s : State) (ids : List Int) : State :=
  let mine := fun (a : Adapter) => a.die = s.pdie && a.sad = s.sh.spr.sad && ids.contains a.id
  { s with adapters := s.adapters.filter mine ++ s.adapters.filter fun a => !mine a }

/-- The adapters that the control register of an `mmula` names, by row (R323). -/
def Sheet.adapterIds (h : Sheet) (a : VReg) : List Int :=
  (List.range h.spr.mm).map fun i => toSigned 32 (h.regFld (a.val + h.spr.rc) (4 * i) 4)

def execMmula (ty : Fmt) (d : ZReg) (a : VReg) (b : WReg) (c : KReg) (s : State) : Out3 :=
  let p := s.sh.spr
  let ctl := a.val + p.rc
  runEff do
    s.calE ty
    s.stageE ty a p.mk_ [ctl] true
    s.matDo [a, Fin.ofNat 64 ctl] fun s => do
      s.tokFree c
      s.zFree d
      s.wFree b
      s.slotFmt ty b
      let ids := s.sh.adapterIds a
      s.adsE ids
      let top := ((ids.filter (· ≠ -1)).filterMap fun i => (s.shelfAd s.pdie p.sad i).map Adapter.rank).foldl max 0
      let more := if top = 0 then 0 else 2 * (p.mk_ + top)
      let n := p.wavesOf (stepsOf ty p.mk_ * ty.waves + more)
      let s' ← s.issueOp (arrOf d) ⟨.mmula b ids (s.sh.regFld ctl 256 4) (s.sh.regFld ctl 260 4), ty, d, p.mm, p.mn, p.mk_,
        s.sh.stageRows ty a p.mk_, n, s.pos, c, none⟩ [b]
      pure (s'.touchAds ids)

/-- The group of a global row by binary search (R369). -/
def groupSearch (off : Nat → Nat) (r : Nat) : Nat → Nat → Nat → Nat
  | 0, lo, _ => lo
  | fuel + 1, lo, hi =>
    if lo < hi then
      let mid := ceilDiv (lo + hi) 2
      if off mid ≤ r then groupSearch off r fuel mid hi else groupSearch off r fuel lo (mid - 1)
    else lo

def groupOf (off : Nat → Nat) (g r : Nat) : Option Nat :=
  if r < off 0 || r ≥ off g then none else some (groupSearch off r 8 0 (g - 1))

def execMgrp (ty : Fmt) (d : ZReg) (a : VReg) (c : KReg) (s : State) : Out3 :=
  let p := s.sh.spr
  let ctl := a.val + p.rc
  runEff do
    s.calE ty
    s.stageE ty a p.mk_ [ctl] true
    s.matDo [a, Fin.ofNat 64 ctl] fun s => do
      let off := fun g => s.sh.regFld ctl (4 * g) 4
      let g := s.sh.regFld ctl 260 4
      let row0 := s.sh.regFld ctl 264 4
      needR s 7 (1 ≤ g && g ≤ 64 && (List.range g).all fun k => off k ≤ off (k + 1))
      let groups := (List.range p.mm).map fun i => groupOf off g (row0 + i)
      let present := (List.range g).filter fun k => groups.contains (some k)
      let slot := fun k => s.sh.regFld ctl (272 + k) 1
      needR s 7 (present.all fun k => slot k ≤ 15)
      let slots : List WReg := (present.map fun k => Fin.ofNat 16 (slot k)).dedup
      s.tokFree c
      s.zFree d
      slots.forM fun w => s.wFree w
      slots.forM fun w => s.slotFmt ty w
      let rows := groups.map fun o => o.map fun k => (present.idxOf k / 4, (Fin.ofNat 16 (slot k) : WReg))
      let n := p.wavesOf (ceilDiv present.length 4 * stepsOf ty p.mk_ * ty.waves)
      s.issueOp (arrOf d) ⟨.mgrp rows, ty, d, p.mm, p.mn, p.mk_, s.sh.stageRows ty a p.mk_, n, s.pos, c, none⟩ slots

/-! ### Weight loads (R318) -/

/-- A read of n bytes at issue as stream A, after the stores that hold it back: a fault has TVAL and FADDR at the address. -/
def State.aLoad (s : State) (va : Word) (n : Nat) : Except Stop (List Byte × State) := do
  let s ← s.interlock (.mem [(va.toNat, va.toNat + n - 1)])
  match s.range .load va n with
  | .error (c, f) => faultE s c f f
  | .ok l =>
    await s (!(linesOf (physKeys l)).any s.owned)
    match s.firstPoison l with
    | some (i, p) =>
      let a := va + BitVec.ofNat 64 i
      .error (poisonStop s va a (lineVa a) p)
    | none => pure ()
    pure (s.aRead (physKeys l), s.fillAll (pageStarts va n))

/-- The probe of n bytes for reading. DEDUCED: log 72. -/
def State.probeRead (s : State) (va : Word) (n : Nat) : Except Stop Unit :=
  match s.range .load va n with
  | .error (c, f) => faultE s c f f
  | .ok _ => .ok ()

/-- DEDUCED: log 72. -/
def execWld (ty : Fmt) (sp : Bool) (d : WReg) (a : DReg) (b : XReg) (c : KReg) (s : State) : Out3 :=
  let r := s.sh.d[a.val]
  runEff do
    s.calE ty
    let q ← s.copyD 1 a false
    needD s 1 1 (dFmt r = ty.code)
    needD s 1 5 (q.shape.length = 2)
    let ks := q.shape.getD 0 0
    let nw := q.shape.getD 1 0
    let kw := if sp then 2 * ks else ks
    needD s 1 5 (kw ≤ ty.kmax && nw ≤ 64 && !(sp && kw % 32 != 0))
    needR s 5 (!(sp && s.xr b == 0))
    s.tokFree c
    s.wFree d
    let sideVa := s.xr b
    if sideVa.toNat % 64 != 0 then trapE s 0x04 sideVa sideVa
    let w : WLoad := ⟨d, ty, q.tile, q.base, q.strides.getD 0 0, q.strides.getD 1 0, ks, nw, [], s.pos, c, none, 0, 0⟩
    if q.tile.isNone then
      (List.range ks).forM fun i => (List.range nw).forM fun j =>
        s.probeRead (q.bytesAt (q.off [i, j])).1 ty.ew
    let s ← s.settleW
    let len := 64 + if sp then 4 * (kw / 32) * nw else 0
    let (side, s) ← if sideVa = 0 then pure ([], s) else s.aLoad sideVa len
    let at_ := fun (o k : Nat) => leNat ((side.drop o).take k)
    let band : Vector (BitVec 16) 4 :=
      Vector.ofFn fun i => if sideVa = 0 then 0x3F80 else BitVec.ofNat 16 (at_ (2 * i.val) 2)
    let metas := if sp then (List.range (kw / 32 * nw)).map fun i => at_ (64 + 4 * i) 4 else []
    match badMask (fun i => metas.getD i 0) 16 (List.range metas.length) with
    | some i => reasonE s 4 i
    | none => pure ()
    let core := { s.core with
      w := s.core.w.set d.val ⟨kw, nw, some ty, band, []⟩
      wloads := s.core.wloads ++ [{ w with metas := metas }] }
    pure ((({ s with core := core } : State).useW d c).newTok c Tok.pending false)

/-! ### Drains (R309, R324 to R326) -/

/-- The drained bits of a cell, with its flags. -/
def Acc.drain (z : Acc) (m : VMod) (r e : Nat) : Nat × Flags :=
  if z.valid.getLsbD r then convert .f32 m.ty m.rnd m.sat (z.get r e) else (m.ty.nanPat, flNV)

/-- A window of a drain is written, with the flags of its elements. -/
def putDrain (z : Acc) (m : VMod) (lock : Option (Nat × Nat)) (s : State) (i0 i1 : Nat) (l : List (SElem × List Phys)) : Eff := do
  let fl := l.foldl (fun f q => f ||| (z.drain m (q.1.ix / s.sh.spr.vln) (q.1.ix % s.sh.spr.vln)).2) 0
  let s ← putStore lock s i0 i1 l
  pure (s.orFlags fl)

/-- The stores of a drain from EPOS on, below a flat index; those of the strided form hold back later A-loads (R207).
DEDUCED: log 75. -/
def State.drainDo (s : State) (m : VMod) (z : ZReg) (locks : Bool) (lim : Nat) (at_ : Nat → Word) : Eff :=
  let h := s.sh
  let acc := s.core.z[z.val]
  let els : List SElem := (span h.spr.epos.toNat (min lim h.spr.aecn)).filterMap fun i =>
    if h.maskBit m.mask i then
      some ⟨i, at_ i, leBytes m.ty.ew (acc.drain m (i / h.spr.vln) (i % h.spr.vln)).1⟩
    else none
  s.storeDo .store m.ty lim els (putDrain acc m (if locks then storeLock m.ty els else none))

/-- The address of element i of a strided drain. -/
def Sheet.drainAt (h : Sheet) (m : VMod) (base stride : Word) (i : Nat) : Option Word :=
  some (base + BitVec.ofNat 64 (i / h.spr.vln) * stride + BitVec.ofNat 64 (i % h.spr.vln * m.ty.ew))

/-- DEDUCED: log 75. -/
def execMdrainStrided (m : VMod) (d : ZReg) (a c : XReg) (disp : BitVec 32) (s : State) : Out3 :=
  let base := s.sh.vbase a disp
  runEff do
    s.calE m.ty
    needR s 6 (s.sh.spr.vln ≤ 64)
    s.zFree d
    s.vecBody [] fun s => s.drainDo m d true maxFlat fun i => (s.sh.drainAt m base (s.xr c) i).getD 0

def execMdrainIndexed (m : VMod) (d : ZReg) (a : XReg) (c : VReg) (disp : BitVec 32) (s : State) : Out3 :=
  let base := s.sh.vbase a disp
  runEff do
    need s (s.sh.fieldOk c)
    s.calE m.ty
    needR s 6 (s.sh.spr.vln ≤ 64)
    need s (s.sh.srcOk c .n32)
    s.zFree d
    s.memBody [c] fun lim s => s.drainDo m d false lim fun i => base + BitVec.ofNat 64 (s.sh.elem c .n32 i)

def execMdrv (m : VMod) (d : VReg) (a : ZReg) (s : State) : Out3 :=
  runEff do
    need s (s.sh.fieldOk d)
    s.calE m.ty
    needR s 6 (s.sh.spr.vln ≤ 64)
    need s (s.sh.dstOk d m.ty)
    s.zFree a
    let z := s.core.z[a.val]
    let vl := s.sh.spr.vln
    let n := s.sh.spr.reach m.ty
    let fl := s.sh.sweepF m.ty m.mask 0 n fun i => (z.drain m (i / vl) (i % vl)).2
    pure ((s.putW (s.sh.sweepW d m.ty m.mask 0 n fun i => ((z.drain m (i / vl) (i % vl)).1, true))).orFlags fl)

end Machine
end Sys2Proof
end

