-- ==== Sys2Proof/Machine/Cutter.lean ====
section
/-! DEFINITION. The lapidary: `cut` in both modes (R301, R303, R332 to R337), `cocut` (R306), `mmulc` (R305, R308), CUTST and
`cutq` (R338 to R340).
-/
namespace Sys2Proof
namespace Machine

def Spr.cutState (p : Spr) : Nat := fld p.cutst 0 2

/-- Trap 0x41 (R337). -/
def cutE {α : Type} (s : State) (reason : Nat) (rest : Nat := 0) (addr : Word := 0) : Except Stop α :=
  trapE s 0x41 (BitVec.ofNat 64 (reason * 256 + rest)) addr

/-- Reason 1 unless the condition holds, with the state found. -/
def State.cutWants (s : State) (b : Bool) : Except Stop Unit :=
  if b then .ok () else cutE s 1 (s.sh.spr.cutState * 2 ^ 16)

def State.cutRec (s : State) : CutRec := s.core.cut[s.pos.val]

def State.setCutRec (s : State) (r : CutRec) : State :=
  { s with core := { s.core with cut := s.core.cut.set s.pos.val r } }

/-- Another sheet of the core that holds the sparse buffer of an array (R336). -/
def State.holder (s : State) (arr : Fin 2) : Option (Fin 4) :=
  (s.rest.find? fun h => coreOf h.place = coreOf s.sh.place && h.spr.cutState != 0 &&
    s.core.cut[(posOf h.place).val].arr = arr).map fun h => posOf h.place

/-! ### Reads (R303, R332) -/

/-- An n32 element at an address, as stream A. -/
def State.aWord (s : State) (va : Word) (n : Nat) : Except Stop (Nat × State) := do
  let q ← s.aLoad va n
  pure (leNat q.1, q.2)

/-- Row pointers, from the first of n, the last one read being `prev`. DEDUCED: log 102. -/
def readRows (base : Word) : Nat → Nat → Option Nat → State → Except Stop (List Nat × State)
  | 0, _, _, s => .ok ([], s)
  | n + 1, r, prev, s => do
    let va := base + BitVec.ofNat 64 (4 * r)
    let (v, s) ← s.aWord va 4
    if (prev.getD 0) > v then cutE s 3 0 va
    let (l, s) ← readRows base n (r + 1) (some v) s
    pure (v :: l, s)

/-- The column indices of n entries from position p. -/
def readCols (base : Word) (k : Nat) : Nat → Nat → Option Nat → State → Except Stop (List Nat × State)
  | 0, _, _, s => .ok ([], s)
  | n + 1, p, prev, s => do
    let va := base + BitVec.ofNat 64 (4 * p)
    let (c, s) ← s.aWord va 4
    if c ≥ k || (match prev with
      | some q => c ≤ q
      | none => false) then cutE s 3 0 va
    let (l, s) ← readCols base k n (p + 1) (some c) s
    pure (c :: l, s)

/-- The entries of consecutive rows: the first position and the columns of each. -/
def readBody (base : Word) (k : Nat) : List Nat → State → Except Stop (List (Nat × List Nat) × State)
  | a :: b :: l, s => do
    let (c, s) ← readCols base k (b - a) a none s
    let (r, s) ← readBody base k (b :: l) s
    pure ((a, c) :: r, s)
  | _, s => .ok ([], s)

/-- The packed entries of rows whose columns lie in [lo, hi): values as stored. -/
def readVals (base : Word) (ew lo hi : Nat) : List (Nat × Nat × Nat) → State → Except Stop (List SpEnt × State)
  | [], s => .ok ([], s)
  | (r, p, c) :: l, s => do
    let (v, s) ← s.aWord (base + BitVec.ofNat 64 (ew * p)) ew
    let (rest, s) ← readVals base ew lo hi l s
    pure (⟨r, c - lo, v⟩ :: rest, s)

/-! ### Bounds (R303, R334) -/

/-- N(h, a, e). -/
def countIn (rows : List (Nat × List Nat)) (h a e : Nat) : Nat :=
  (rows.take h).foldl (fun n r => n + (r.2.filter fun c => a ≤ c && c < e).length) 0

/-- Halves the rows while they hold too much. -/
def halve (n : Nat → Nat) (b : Nat) : Nat → Nat → Nat
  | 0, h => h
  | fuel + 1, h => if h > 1 && n h > b then halve n b fuel (h / 2) else h

/-- Grows the columns of a band. -/
def growCols (n : Nat → Nat) (b cmax : Nat) : Nat → Nat → Nat
  | 0, c => c
  | fuel + 1, c => if c < cmax && n (min (c + 8) cmax) ≤ b then growCols n b cmax fuel (min (c + 8) cmax) else c

/-- Grows rows and columns in turns. -/
def growSquare (n : Nat → Nat → Nat) (b hmax cmax : Nat) : Nat → Nat → Nat → Nat × Nat
  | 0, h, c => (h, c)
  | fuel + 1, h, c =>
    let up := h < hmax && n (min (h + 8) hmax) c ≤ b
    let h' := if up then min (h + 8) hmax else h
    let wide := c < cmax && n h' (min (c + 8) cmax) ≤ b
    let c' := if wide then min (c + 8) cmax else c
    if up || wide then growSquare n b hmax cmax fuel h' c' else (h', c')

/-- The rows, the end column, and whether the range is empty. -/
def cutBounds (sq : Bool) (rows : List (Nat × List Nat)) (b hmax col0 k cmax : Nat) : Nat × Nat × Bool :=
  let n := fun h e => countIn rows h col0 e
  if sq then
    if n hmax cmax = 0 then (hmax, cmax, true)
    else
      let c := min (col0 + 8) cmax
      let h := halve (fun h => n h c) b 8 (min 8 hmax)
      let q := growSquare n b hmax cmax 64 h c
      (q.1, q.2, false)
  else
    let h := halve (fun h => n h (min (col0 + 8) k)) b 8 hmax
    if n h cmax = 0 then (h, cmax, true)
    else (h, growCols (n h) b cmax 64 (min (col0 + 8) cmax), false)

/-- x[D] to x[D+3]. -/
def State.setBlock (s : State) (d : XReg) (v : Nat → Word) : State :=
  (((s.setX d (v 0)).setX (xreg (d.val + 1)) (v 1)).setX (xreg (d.val + 2)) (v 2)).setX (xreg (d.val + 3)) (v 3)

/-- The x register at a distance from the first of a block. -/
def State.xOff (s : State) (a : XReg) (k : Nat) : Word := s.xr (xreg (a.val + k))

/-- The bounds block of a record, with the empty bit. -/
def CutRec.block (r : CutRec) (empty : Bool) (n : Nat) : Word :=
  match n with
  | 0 => r.row0
  | 1 => r.row1
  | 2 => r.col0
  | _ => setFld r.col1 63 1 (if empty then 1 else 0)

/-- `cut` in one of its modes: it orders as a fence of S and V before A (R303). DEDUCED: log 102. -/
def State.cut (s : State) (sq : Bool) (ty : Fmt) (d a b : XReg) (c : KReg) : Eff := do
  s.calE ty
  let row0 := (s.xr d).toNat
  let col0 := (s.xOff d 2).toNat
  let m := fld (s.xOff a 3) 0 32
  let k := fld (s.xOff a 3) 32 32
  let budget := fld (s.xr b) 0 14
  let arr : Fin 2 := Fin.ofNat 2 (fld (s.xr b) 16 1)
  s.cutWants (s.sh.spr.cutState = 0)
  if budget < 8 || budget > 8192 || m = 0 || k = 0 || row0 ≥ m || col0 ≥ k then cutE s 2
  match s.holder arr with
  | some p => cutE s 4 (p.val * 2 ^ 18)
  | none => pure ()
  s.tokFree c
  s.sFree arr
  let s ← s.release
  let hmax := min (row0 + 64) m - row0
  let cmax := min (col0 + ty.kmax) k
  let (ptrs, s) ← readRows (s.xr a) (hmax + 1) row0 none s
  let (rows, s) ← readBody (s.xOff a 1) k ptrs s
  let (h, col1, empty) := cutBounds sq rows budget hmax col0 k cmax
  let cells := ((rows.take h).zipIdx).flatMap fun q =>
    (q.1.2.zipIdx.filter fun e => col0 ≤ e.1 && e.1 < col1).map fun e => (q.2, q.1.1 + e.2, e.1)
  let (ents, s) ← if empty then pure ([], s) else readVals (s.xOff a 2) ty.ew col0 col1 cells s
  await s (empty || s.core.queue[arr.val].length < 4)
  let w := fun (n : Nat) => BitVec.ofNat 64 n
  let rec_ : CutRec := ⟨arr, ty, w row0, w (row0 + h), w col0, w col1, s.cutRec.slot⟩
  let s := (s.setCutRec rec_).setBlock d (rec_.block empty)
  let st := (if empty then 0 else 1) + arr.val * 4 + (if sq then 8 else 0) + (if empty then 16 else 0) +
    fld s.sh.spr.cutst 8 4 * 256 + h * 2 ^ 16 + (col1 - col0) * 2 ^ 23 + ents.length * 2 ^ 32
  let s := s.mapSpr fun p => { p with cutst := w st }
  if empty then pure (s.newTok c (Tok.done 0 0 0) true)
  else
    let o : MatOp := ⟨.pack ents, ty, Fin.ofNat 8 (4 * arr.val), 0, 0, 0, [], 0, s.pos, c, none⟩
    let s := (s.newTok c Tok.pending true).useS arr c
    pure { s with core := { s.core with queue := s.core.queue.set arr.val (s.core.queue[arr.val] ++ [o]) } }

def execCutBand (ty : Fmt) (d a b : XReg) (c : KReg) (s : State) : Out3 := runEff (s.cut false ty d a b c)
def execCutSquare (ty : Fmt) (d a b : XReg) (c : KReg) (s : State) : Out3 := runEff (s.cut true ty d a b c)

/-! ### `cocut`, `mmulc`, `cutq` -/

/-- The elements of the partner rows that the slot holds, by their place in W. -/
def readPartner (q : Arr) (col0 : Nat) : List (Nat × Nat) → State → Except Stop (List (Nat × Nat) × State)
  | [], s => .ok ([], s)
  | (k, j) :: l, s => do
    let (v, s) ← s.aWord (q.bytesAt (q.off [col0 + k, j])).1 q.t.ew
    let (r, s) ← readPartner q col0 l s
    pure (if v = 0 then r else (k * 64 + j, v) :: r, s)

def execCocut (d : WReg) (a : DReg) (b : XReg) (c : KReg) (s : State) : Out3 :=
  let r := s.cutRec
  let dsc := s.sh.d[a.val]
  runEff do
    s.cutWants (s.sh.spr.cutState = 1 && s.xOff b 2 = r.col0 && s.xOff b 3 = r.col1)
    needD s 1 1 (dFmt dsc = r.ty.code)
    needD s 1 2 (dKind dsc = 0)
    let q ← s.srcD 1 a fun _ => true
    needD s 1 5 (q.shape.length = 2 && q.shape.getD 1 0 ≤ 64)
    s.tokFree c
    s.wFree d
    let s ← s.settleW
    let n := (r.col1 - r.col0).toNat
    let nw := q.shape.getD 1 0
    let rows := (List.range n).filter fun k => r.col0.toNat + k < q.shape.getD 0 0
    let (got, s) ← readPartner q r.col0.toNat (rows.flatMap fun k => (List.range nw).map fun j => (k, j)) s
    let core := { s.core with
      w := s.core.w.set d.val ⟨n, nw, some r.ty, Vector.replicate 4 0x3F80, []⟩
      wloads := s.core.wloads ++ [⟨d, r.ty, none, q.base, 0, 0, 0, nw, [], s.pos, c, some got, 0, 0⟩] }
    let s := ((({ s with core := core } : State).useW d c).newTok c Tok.pending true).setCutRec { r with slot := d }
    pure (s.mapSpr fun p => { p with cutst := setFld (setFld p.cutst 0 2 2) 8 4 d.val })

/-- The tokens are looked at in the order kC, those of zD and wB, that of the buffer. DEDUCED: log 125. -/
def execMmulc (d : ZReg) (a : XReg) (b : WReg) (c : KReg) (s : State) : Out3 :=
  let r := s.cutRec
  let p := s.sh.spr
  runEff do
    s.cutWants (p.cutState = 2 && arrOf d = r.arr && b = r.slot && (List.range 4).all fun k => s.xOff a k = r.block false k)
    s.tokFree c
    s.zFree d
    s.wFree b
    s.sFree r.arr
    let n := (r.col1 - r.col0).toNat
    let waves := if p.mn = 0 then 0 else n * r.ty.waves
    let s ← s.issueOp r.arr ⟨.mmulc b r.row0.toNat, r.ty, d, (r.row1 - r.row0).toNat, p.mn, n, [], waves, s.pos, c, none⟩ [b]
    pure ((s.useS r.arr c).mapSpr fun p => { p with cutst := setFld p.cutst 0 2 0 })

def execCutq (d : XReg) (s : State) : Out3 :=
  .next (s.setBlock d (s.cutRec.block (fld s.sh.spr.cutst 4 1 = 1))).finish

end Machine
end Sys2Proof
end

