-- ==== Sys2Proof/Machine/Spans.lean ====
section
/-! DEFINITION. Spans: allocation and release (R347, R371, R372), the collectives chunk by chunk (R348, R375 to R379, R382 to
R384), and the receipt of packets (R377, R380).
-/
namespace Sys2Proof
namespace Machine

/-! ### Span registers and XPOS (R371, R382) -/

def gId (g : BitVec 128) : Nat := wfld g 0 16
def gGen (g : BitVec 128) : Nat := wfld g 16 8
def gValid (g : BitVec 128) : Bool := wfld g 28 1 = 1
def gAbort (g : BitVec 128) : Bool := wfld g 29 1 = 1
def gRank (g : BitVec 128) : Nat := wfld g 64 20
def gSeq (g : BitVec 128) : Nat := wfld g 96 32

def scopeCode (s : Scope) : Nat := levelOf s

def mkG (sp : Span) (rank : Nat) : BitVec 128 :=
  BitVec.ofNat 128 (sp.id + sp.gen * 2 ^ 16 + scopeCode sp.scope * 2 ^ 24 + (if sp.pri then 2 ^ 27 else 0) + 2 ^ 28 +
    sp.members.length * 2 ^ 32 + rank * 2 ^ 64)

def Spr.xChunk (p : Spr) : Nat := fld p.xpos 0 24
def Spr.xAct (p : Spr) : Bool := fld p.xpos 27 1 = 1
def mkXpos (chunk : Nat) (g : GReg) : Word := BitVec.ofNat 64 (chunk % 2 ^ 24 + g.val * 2 ^ 24 + 2 ^ 27)
def State.setXpos (s : State) (w : Word) : State := s.mapSpr fun p => { p with xpos := w }
def State.setG (s : State) (g : GReg) (v : BitVec 128) : State :=
  { s with sh := { s.sh with g := s.sh.g.set g.val v } }

/-! ### The table (R347, R372) -/

def Span.is (sp : Span) (sad id gen : Nat) : Bool := sp.sad = sad && sp.id = id && sp.gen = gen

def State.span? (s : State) (sad id gen : Nat) : Option Span := s.spans.find? fun sp => sp.is sad id gen

def State.setSpan (s : State) (sp : Span) : State :=
  { s with spans := s.spans.map fun q => if q.is sp.sad sp.id sp.gen then sp else q }

/-- Counts of TIME in 2 ms (R372, R387). -/
def fabricLife : Nat := 4200000

/-- The next generation of an id. -/
def nextGen (gens : List (Nat × Nat × Nat)) (id : Nat) : Nat :=
  match gens.find? fun g => g.1 = id with
  | some g => (g.2.1 + 1) % 256
  | none => 0

/-- An id that is not live and whose next generation is fresh. -/
def State.idFree (s : State) (sad id : Nat) : Bool :=
  let gens := s.saddles[(sadOf sad).val].gens
  !(s.spans.any fun sp => sp.sad = sad && sp.id = id) &&
    match gens.find? fun g => g.1 = id && g.2.1 = nextGen gens id with
    | some g => g.2.2 + fabricLife ≤ s.time.toNat
    | none => true

/-- The choice of the first member of an `xalloc`. DEDUCED: log 57. -/
def State.chooseId (s : State) (sad : Nat) : Option (Nat × Nat) :=
  if (s.spans.filter fun sp => sp.sad = sad).length ≥ 1024 then none
  else (((List.range 65535).map (· + 1)).find? (s.idFree sad)).map fun id =>
    (id, nextGen s.saddles[(sadOf sad).val].gens id)

def XWait.is (w : XWait) (drove : Nat) (scope : Scope) (inst : Nat) : Bool :=
  w.drove = drove && w.scope = scope && w.inst = inst

/-- The sheet arrives at an `xalloc` of its scope instance; the first to arrive chooses. DEDUCED: log 57. -/
def State.arriveX (s : State) (scp : Scope) (pri : Bool) : State :=
  let p := s.sh.spr
  let inst := p.instOf (levelOf scp)
  let mine := fun (w : XWait) => w.is s.sh.droveId scp inst && !w.taken.contains p.flatIx
  match s.xwaits.find? mine with
  | some w =>
    { s with xwaits := s.xwaits.map fun q => if q = w then { q with arrived := insertNat p.flatIx q.arrived } else q }
  | none =>
    let n := participants p.drove (levelOf scp)
    let c := s.chooseId p.sad
    let s := match c with
      | some (id, gen) =>
        let sp : Span := ⟨p.sad, id, gen, scp, pri, s.sh.droveId, p.brand12,
          (List.range n).map fun k => inst * n + k, [], none, [], [], [], [], [], [], [], 0⟩
        { s with spans := s.spans ++ [sp] }
      | none => s
    let w : XWait := ⟨s.sh.droveId, scp, inst, c, [p.flatIx], []⟩
    { s with xwaits := s.xwaits ++ [w] }

def execXalloc (scp : Scope) (pri : Bool) (d : XReg) (a : GReg) (s : State) : Out3 :=
  let p := s.sh.spr
  let inst := p.instOf (levelOf scp)
  let n := participants p.drove (levelOf scp)
  runEff do
    let s := s.arriveX scp pri
    match s.xwaits.find? fun w => w.is s.sh.droveId scp inst && !w.taken.contains p.flatIx with
    | none => pure s
    | some w =>
      await s (w.arrived.length = n)
      let w' := { w with taken := insertNat p.flatIx w.taken }
      let s := { s with xwaits :=
        if w'.taken.length = n then s.xwaits.filter fun q => q ≠ w else s.xwaits.map fun q => if q = w then w' else q }
      match w.choice.bind fun c => s.span? p.sad c.1 c.2 with
      | none => pure (s.setX d 1)
      | some sp => pure ((s.setG a (mkG sp (p.flatIx - inst * n))).setX d 0)

/-! ### Aborts (R384) -/

/-- Sets ABORT in the g registers that hold a span. -/
def Sheet.abortG (sp : Span) (h : Sheet) : Sheet :=
  if h.droveId = sp.drove then
    { h with g := h.g.map fun g => if gValid g && gId g = sp.id && gGen g = sp.gen then wsetFld g 29 1 1 else g }
  else h

/-- Applies a function to every sheet, placed or saved. -/
def State.everySheet (s : State) (f : Sheet → Sheet) : State :=
  let s := s.eachSheet f
  { s with saved := s.saved.map fun i => { i with recs := i.recs.map fun r => { r with sheet := f r.sheet } } }

/-- The sheet of a member, placed or saved. -/
def State.member (s : State) (sp : Span) (rank : Nat) : Option Sheet :=
  (s.sheets ++ s.saved.flatMap fun i => i.recs.map Record.sheet).find? fun h =>
    h.droveId = sp.drove && some h.spr.flatIx = sp.members[rank]?

/-- A rank still stands in the collective it waited in: it is at that PC, waiting, saved, or restored and not yet begun again.
DEDUCED: log 61. -/
def State.inHand (s : State) (sp : Span) (w : Nat × Word) : Bool :=
  match s.member sp w.1 with
  | some h => h.pc = w.2
  | none => false

/-- A span aborts; one that has aborted stays as it is. DEDUCED: log 61. -/
def State.abortSpan (s : State) (sp : Span) (reason : Nat) : State :=
  if sp.abort.isSome then s
  else
    let hits := (sp.waiters.filter (s.inHand sp)).map Prod.fst
    (s.setSpan { sp with abort := some reason, hits := hits, waiters := [] }).everySheet (Sheet.abortG sp)

/-- TVAL of trap 0x50. -/
def xTval (id reason : Nat) : Word := BitVec.ofNat 64 (id + reason * 65536)

def execXfree (a : GReg) (s : State) : Out3 :=
  let g := s.sh.g[a.val]
  if !gValid g then .next s.finish
  else
    let s := s.setG a (wsetFld g 28 1 0)
    match s.span? s.sh.spr.sad (gId g) (gGen g) with
    | none => .next s.finish
    | some sp =>
      let sp' := { sp with freed := insertNat (gRank g) sp.freed }
      let s := s.setSpan sp'
      .next (if sp'.freed.length = sp'.members.length then s.freeSpan sp' else s).finish

/-! ### Packets and chunks (R375, R377, R380) -/

/-- The kinds of collectives, as their function numbers. -/
inductive XKind where
  | all | red | gath | scat | bcast | send | recv
  deriving DecidableEq, Repr

def XKind.code : XKind → Nat
  | .all => 3
  | .red => 4
  | .gath => 5
  | .scat => 6
  | .bcast => 7
  | .send => 8
  | .recv => 9

def Chunk.is (c : Chunk) (pair : Option (Nat × Nat)) (seq chunk : Nat) : Bool :=
  c.pair = pair && c.seq = seq && c.chunk = chunk

def Span.chunk? (sp : Span) (pair : Option (Nat × Nat)) (seq chunk : Nat) : Option Chunk :=
  sp.chunks.find? fun c => c.is pair seq chunk

/-- The part of a member. -/
def Chunk.part (c : Chunk) (m : Nat) : Option (List (Nat × Bool)) := (c.parts.find? fun p => p.1 = m).map Prod.snd

def countOf (l : List (Nat × Nat × Nat)) (p q : Nat) : Nat :=
  ((l.find? fun e => e.1 = p && e.2.1 = q).map fun e => e.2.2).getD 0

def countUp (l : List (Nat × Nat × Nat)) (p q : Nat) : List (Nat × Nat × Nat) :=
  (p, q, countOf l p q + 1) :: l.filter fun e => !(e.1 = p && e.2.1 = q)

/-- Combines element i of a list of contributions in order. -/
def combineAt (f : Nat → Nat → Nat × Flags) (l : List (List (Nat × Bool))) (i : Nat) : Nat × Flags :=
  match l.map fun q => (q.getD i (0, true)).1 with
  | [] => (0, 0)
  | a :: rest => redOrdered f a 0 rest

/-- The combining step of an operation word. -/
def redOpOf : Nat → RedOp
  | 0 => .add
  | 1 => .mul
  | 2 => .min
  | 3 => .max
  | 4 => .and
  | 5 => .or
  | _ => .xor
def rndOf : Nat → Rnd
  | 0 => .rne
  | 1 => .rtz
  | 2 => .rdn
  | 3 => .rup
  | _ => .rna

/-- Combines a chunk to which every rank has contributed: by rank under ORD 1, else in order of arrival. -/
def Chunk.combine (c : Chunk) (sig : List Nat) (count : Nat) : Chunk :=
  let t := (Fmt.ofCode (sig.getD 1 0)).getD .n8
  let f := redStep (redOpOf (sig.getD 2 0)) t (rndOf (sig.getD 4 0)) false
  let l := if sig.getD 3 0 = 1 then (List.range count).map fun r => (c.part r).getD [] else c.parts.map Prod.snd
  let n := (l.headD []).length
  let q := (List.range n).map (combineAt f l)
  { c with result := some (q.map fun v => (v.1, true)), flags := q.foldl (fun a v => a ||| v.2) 0 }

/-- A part joins its chunk; the last part of an `xall` or `xred` combines it. DEDUCED: log 62. -/
def Span.accept (sp : Span) (p : Packet) : Span :=
  let c := (sp.chunk? p.pair p.seq p.chunk).getD ⟨p.pair, p.seq, p.chunk, p.sig, [], none, 0⟩
  let c := { c with parts := c.parts ++ [(p.member, p.elems)] }
  let c := if (p.sig.headD 0 = 3 || p.sig.headD 0 = 4) && c.parts.length = sp.members.length then
    c.combine p.sig sp.members.length else c
  { sp with chunks := c :: sp.chunks.filter fun q => !q.is p.pair p.seq p.chunk }

/-- The SEQ of a member, while it holds the span. DEDUCED: log 59. -/
def State.memberSeq (s : State) (sp : Span) (rank : Nat) : Option Nat :=
  (s.member sp rank).bind fun h =>
    (h.g.toList.find? fun g => gValid g && gId g = sp.id && gGen g = sp.gen).map gSeq

/-- The SEQ of a collective that some member has in hand or has not reached: its chunks are kept (R383). SEQ wraps at 2^32, and
a member still in `xalloc` stands at SEQ 0. -/
def State.seqInHand (s : State) (sp : Span) (seq : Nat) : Bool :=
  (List.range sp.members.length).any fun r => match s.memberSeq sp r with
    | some m => decide ((seq + 2 ^ 32 - m) % 2 ^ 32 < 2 ^ 31)
    | none => !(sp.freed.any fun f => f = r) && seq < 2 ^ 31

/-- The receipt of a packet (R380). DEDUCED: log 62. -/
def State.receive (s : State) (p : Packet) : State :=
  let stale := s.setSad p.sad fun d => { d with stale := satInc d.stale }
  match s.span? p.sad p.id p.gen with
  | none => stale
  | some sp =>
    let current := match p.pair with
      | none => s.seqInHand sp p.seq
      | some (a, b) => countOf sp.got a b ≤ p.seq
    if !current then stale
    else if ((sp.chunk? p.pair p.seq p.chunk).bind fun c => c.part p.member).isSome then
      s.setSad p.sad fun d => { d with dup := satInc d.dup }
    else if p.brand ≠ sp.brand then s.setSad p.sad fun d => { d with brandc := satInc d.brandc }
    else s.setSpan (sp.accept p)

/-- A packet is older than the packet lifetime (R387). -/
def State.tooOld (s : State) (p : Packet) : Bool := p.born + fabricLife < s.time.toNat

/-- SPAN_PACKET_RECEIPT: packet n of the fabric arrives, unless it is lost or a switch has dropped it. DESIGN CHOICE: log 7. -/
def execSpanPacketReceipt (n : Nat) (s : State) : Out3 :=
  match s.packets[n]? with
  | none => .next s
  | some p =>
    if p.lost ∨ s.tooOld p then .next s
    else .next (({ s with packets := s.packets.eraseIdx n } : State).receive p)

/-! ### Fabric slots (R259, R376, R381) -/

/-- The ranks to which a part is delivered: the peer, the root of `xred` and `xgath`, the member of the piece of `xscat`, all but the
root of `xbcast`, and every member of `xall` (R377 to R379). DEDUCED: log 77. -/
def receiversOf (pair : Option (Nat × Nat)) (sig : List Nat) (member count : Nat) : List Nat :=
  let all := List.range count
  match pair with
  | some q => [q.2]
  | none =>
    let root := sig.getD 6 0
    let kind := sig.headD 0
    if kind = XKind.red.code || kind = XKind.gath.code then [root]
    else if kind = XKind.scat.code then [member]
    else if kind = XKind.bcast.code then all.filter fun r => r != root
    else all

/-- The deliveries of a chunk that lie in the slots of a rank's core: the result, or the parts that have arrived for it. -/
def Chunk.landed (c : Chunk) (count r : Nat) : Nat :=
  let kind := c.sig.headD 0
  if kind = XKind.all.code || kind = XKind.red.code then
    if c.result.isSome && (receiversOf c.pair c.sig 0 count).contains r then 1 else 0
  else (c.parts.filter fun p => (receiversOf c.pair c.sig p.1 count).contains r).length

/-- A rank's sheet is in the collective of a pair or a SEQ, at or past a chunk. -/
def Span.stands (sp : Span) (h : Sheet) (r : Nat) (pair : Option (Nat × Nat)) (seq : Nat) (at_ : Nat → Bool) : Bool :=
  h.spr.xAct && at_ h.spr.xChunk && sp.sigs.any fun e => e.1 = r && e.2.1 = pair && e.2.2.1 = seq

/-- A rank's sheet has taken a chunk out of its slots. -/
def Span.took (sp : Span) (h : Sheet) (r : Nat) (c : Chunk) : Bool :=
  sp.stands h r c.pair c.seq (c.chunk < ·) || match c.pair with
    | some (a, b) => c.seq < countOf sp.got a b
    | none => match h.g.toList.find? fun g => gValid g && gId g = sp.id && gGen g = sp.gen with
      | some g => gSeq g ≠ c.seq && decide ((gSeq g + 2 ^ 32 - c.seq) % 2 ^ 32 < 2 ^ 31)
      | none => sp.freed.contains r

/-- The slots that the deliveries of the priority spans, or of the others, hold for a sheet; `shared` leaves out the slot kept for the
sheet's oldest instruction, in which the chunk that it waits for lies. DEDUCED: log 63. -/
def State.landedSlots (s : State) (h : Sheet) (pri shared : Bool) : Nat :=
  (s.spans.filter fun sp => sp.pri = pri && sp.drove = h.droveId && sp.abort.isNone).foldl (fun n sp =>
    match sp.members.idxOf? h.spr.flatIx with
    | none => n
    | some r => sp.chunks.foldl (fun n c =>
        if sp.took h r c then n
        else n + (c.landed sp.members.length r * slotsFor ((Fmt.ofCode (c.sig.getD 1 0)).getD .n8) h.spr.vln -
          if shared && sp.stands h r c.pair c.seq (c.chunk = ·) then 1 else 0)) n) 0

/-- The fabric slots that the run-ahead loads of a sheet hold, and those of its fills (R259). -/
def Sheet.aheadSlots (h : Sheet) : Nat := (h.ahead.filter fun a => !a.got.isEmpty).foldl (fun n a => n + a.slots) 0
def Sheet.fillSlots (h : Sheet) : Nat :=
  (h.bslots.toList.zip h.o.toList).foldl
    (fun n q => q.1.foldl (fun n sl => n + slotsFor ((osFmt q.2).getD .n8) sl.count) n) 0

/-- The shared slots of a core that loads, fills and deliveries hold, the deliveries of priority spans past the shadow set of four
among them (R259, R381). -/
def State.slotsIn (s : State) (core : Nat) : Nat :=
  let here := s.sheets.filter fun h => coreOf h.place = core
  here.foldl (fun n h => n + h.ahead.foldl (fun n a => n + a.slots) 0 + h.fillSlots + s.landedSlots h false true) 0 +
    (here.foldl (fun n h => n + s.landedSlots h true true) 0 - 4)

/-- A rank has a slot free for a chunk: the one kept for its oldest instruction when that waits for the chunk, a shared one, or for a
priority span one of the shadow set. A sheet that is not placed holds no sender back. DEDUCED: log 63. -/
def State.slotOpen (s : State) (sp : Span) (pair : Option (Nat × Nat)) (seq chunk r : Nat) : Bool :=
  match s.sheets.find? fun h => h.droveId = sp.drove && some h.spr.flatIx = sp.members[r]? with
  | none => true
  | some h =>
    let core := coreOf h.place
    sp.stands h r pair seq (chunk = ·) || s.slotsIn core < 24 ||
      (sp.pri && (s.sheets.filter fun k => coreOf k.place = core).foldl (fun n k => n + s.landedSlots k true true) 0 < 4)

/-! ### A collective at one member (R376) -/

/-- A collective as its member executes it: `peer` is the root or the peer. -/
structure XOp where
  kind : XKind
  op : RedOp
  ord : Bool
  ty : Fmt
  rnd : Rnd
  d : Option VReg
  a : Option VReg
  g : GReg
  peer : Nat

/-- What a member needs at every chunk. -/
structure XCtx where
  o : XOp
  rank : Nat
  count : Nat
  n : Nat
  vl : Nat
  pair : Option (Nat × Nat)
  seq : Nat
  sig : List Nat

/-- Items per chunk, and the items of chunk c: elements, or blocks. -/
def XCtx.per (x : XCtx) (k : Nat) : Nat := if x.o.ty = .fp4b then ceilDiv k 8 else k
def XCtx.lo (x : XCtx) (c : Nat) : Nat := x.per (c * x.vl)
def XCtx.hi (x : XCtx) (c : Nat) : Nat := x.per (min ((c + 1) * x.vl) x.n)
def XCtx.nch (x : XCtx) : Nat := if x.vl = 0 then 1 else max 1 (ceilDiv x.n x.vl)

/-- The parts that the member sends for a chunk: the member field and the first item of the source (R376, R378). -/
def XCtx.sends (x : XCtx) : List (Nat × Nat) :=
  match x.o.kind with
  | .all => [(x.rank, 0)]
  | .red => [(x.rank, 0)]
  | .gath => [(x.rank, 0)]
  | .bcast => if x.rank = x.o.peer then [(x.rank, 0)] else []
  | .scat => if x.rank = x.o.peer then (List.range x.count).map fun m => (m, m * x.per x.n) else []
  | .send => [(x.rank, 0)]
  | .recv => []

/-- The member writes D. -/
def XCtx.receives (x : XCtx) : Bool :=
  match x.o.kind with
  | .all => true
  | .red => x.rank = x.o.peer
  | .gath => x.rank = x.o.peer
  | .scat => true
  | .bcast => true
  | .send => false
  | .recv => true

/-- The member fields of the parts that the chunk's delivery to this member needs, and the first item of D for each. -/
def XCtx.needs (x : XCtx) : List (Nat × Nat) :=
  match x.o.kind with
  | .all => []
  | .red => []
  | .gath => (List.range x.count).map fun m => (m, m * x.per x.n)
  | .scat => [(x.rank, 0)]
  | .bcast => [(x.o.peer, 0)]
  | .send => []
  | .recv => [(x.o.peer, 0)]

/-- What this member is to write of chunk c, as D's items, once it is there. -/
def XCtx.delivery (x : XCtx) (sp : Span) (c : Nat) : Option (List (Nat × (Nat × Bool))) :=
  match sp.chunk? x.pair x.seq c with
  | none => none
  | some ch =>
    let put := fun (base : Nat) (l : List (Nat × Bool)) => (l.zipIdx).map fun q => (base + x.lo c + q.2, q.1)
    match x.o.kind with
    | .all => ch.result.map (put 0)
    | .red => ch.result.map (put 0)
    | _ =>
      let l := x.needs.map fun q => (ch.part q.1).map (put q.2)
      if l.all Option.isSome then some (l.flatMap fun q => q.getD []) else none

/-- The receiver of a pair has completed it. -/
def XCtx.pairDone (x : XCtx) (sp : Span) : Bool :=
  match x.pair with
  | some (p, q) => x.seq < countOf sp.got p q
  | none => false

/-- The member's part of chunk c has been accepted. -/
def XCtx.acked (x : XCtx) (sp : Span) (c : Nat) : Bool :=
  x.pairDone sp || match sp.chunk? x.pair x.seq c with
    | none => false
    | some ch => x.sends.all fun q => (ch.part q.1).isSome

/-- Rank 0 has begun the collective, so that its operation can be compared (R375). -/
def XCtx.compared (x : XCtx) (sp : Span) : Bool :=
  x.pair.isSome || sp.sigs.any fun e => e.1 = 0 && e.2.1 = none && e.2.2.1 = x.seq

/-- A packet of this member's part of chunk c. -/
def XCtx.packet (x : XCtx) (s : State) (sp : Span) (c m base : Nat) : Packet :=
  let h := s.sh
  let a := x.o.a.getD 0
  let items := (span (x.lo c) (x.hi c)).map fun i => h.getItem a x.o.ty (base + i)
  ⟨sp.sad, sp.id, sp.gen, x.seq, c, m, x.pair, h.spr.flatIx, h.spr.brand12, x.sig, items, false, s.time.toNat⟩

def Packet.same (p q : Packet) : Bool :=
  p.sad = q.sad && p.id = q.id && p.gen = q.gen && p.pair = q.pair && p.seq = q.seq && p.chunk = q.chunk &&
    p.member = q.member

/-- The member began this collective at chunk 0 and has not sent chunk c since (R382). -/
def XCtx.begins (x : XCtx) (sp : Span) (c : Nat) : Bool := sp.repeats.contains (x.rank, c)

/-- Every receiver of the member's part of chunk c has a slot free (R376). -/
def XCtx.open_ (x : XCtx) (s : State) (sp : Span) (c : Nat) : Bool :=
  x.sends.all fun q => (receiversOf x.pair x.sig q.1 x.count).all (s.slotOpen sp x.pair x.seq c)

/-- Sends the parts of chunk c that have neither arrived nor are on their way, once every receiver has a slot free. A member that has
been waiting does not send a lost one again; one that begins at chunk 0, for the first time or again, sends each chunk once whatever
has arrived (R376, R382, R383, R387). DEDUCED: log 60, 63. -/
def XCtx.send (x : XCtx) (s : State) (sp : Span) (c : Nat) (waited : Bool) : State :=
  if !x.open_ s sp c then s
  else
    let s := x.sends.foldl (fun s q =>
      let p := x.packet s sp c q.1 q.2
      let there := x.pairDone sp || ((sp.chunk? x.pair x.seq c).bind fun ch => ch.part q.1).isSome
      let sent := s.packets.any fun k => k.same p && (waited || !k.lost)
      if !x.begins sp c && (sent || there) then s
      else { s with packets := (s.packets.filter fun k => !(k.same p && k.lost)) ++ [p] }) s
    if x.begins sp c then
      s.setSpan { sp with repeats := (x.rank, c + 1) :: sp.repeats.filter fun e => e.1 ≠ x.rank }
    else s

/-- The groups that a member reads. -/
def XCtx.reads (x : XCtx) : List VReg := if x.sends.isEmpty then [] else x.o.a.toList

/-- The groups hold what their binding slots do, and nothing is consumed yet (R275). -/
def State.lookReads (s : State) (regs : List VReg) : Eff := do
  let t ← s.consume regs
  pure (t.withSheet { t.sh with o := s.sh.o, bslots := s.sh.bslots })

/-- The slots are consumed, when the instruction completes (R275). -/
def State.endReads (s : State) (regs : List VReg) : State :=
  if (s.sh.boundAt regs).isEmpty then s else (s.withSheet (s.sh.takeReads maxFlat regs)).clearEpos

/-- A chunk's items enter D. -/
def XCtx.write (x : XCtx) (s : State) (l : List (Nat × (Nat × Bool))) : State :=
  match x.o.d with
  | none => s
  | some d => s.putW (l.map fun q => s.sh.item d x.o.ty q.1 q.2.1 q.2.2)

/-- The number of items of D that a collective writes at this member. -/
def XCtx.written (x : XCtx) : Nat := if x.o.kind = .gath then x.count * x.per x.n else x.per x.n

/-- The end of a collective at its member: the tail, the flags, SEQ, XPOS (R376, R377). -/
def XCtx.done (x : XCtx) (s : State) (sp : Span) : State :=
  let fl := (sp.chunks.filter fun c => c.pair = x.pair && c.seq = x.seq).foldl (fun a c => a ||| c.flags) 0
  let s := if x.receives then
      let s := s.orFlags fl
      match x.o.d with
      | some d => if s.sh.spr.tail then
          s.putW ((span x.written (s.sh.spr.items x.o.ty)).map fun i => s.sh.fillItem d x.o.ty i) else s
      | none => s
    else s
  let s := s.endReads x.reads
  let g := s.sh.g[x.o.g.val]
  let s := (s.setG x.o.g (wsetFld g 96 32 (gSeq g + 1))).setXpos 0
  let sp := { sp with
    waiters := sp.waiters.filter fun w => w.1 ≠ x.rank
    repeats := sp.repeats.filter fun e => e.1 ≠ x.rank }
  let sp := match x.o.kind, x.pair with
    | .send, some (p, q) => { sp with sent := countUp sp.sent p q }
    | .recv, some (p, q) =>
      { sp with got := countUp sp.got p q, chunks := sp.chunks.filter fun c => !(c.pair = x.pair && c.seq = x.seq) }
    | _, _ => sp
  let s := s.setSpan sp
  s.setSpan { sp with
    chunks := sp.chunks.filter fun c => c.pair.isSome || s.seqInHand sp c.seq
    sigs := sp.sigs.filter fun e => match e.2.1 with
      | none => s.seqInHand sp e.2.2.1
      | some (p, q) => countOf sp.got p q ≤ e.2.2.1 }

/-- A rank stands in a collective at a PC. -/
def Span.waits (sp : Span) (r : Nat) (pc : Word) : Span := { sp with waiters := (r, pc) :: sp.waiters.filter fun w => w.1 ≠ r }

/-- The chunks from c on; each that completes lets the clock of the span start from zero (R383). `waited` says that the member has been
waiting in this very instruction. -/
def XCtx.go (x : XCtx) (id : Nat × Nat × Nat) : Nat → State → Nat → Bool → Eff
  | 0, s, _, _ =>
    match s.span? id.1 id.2.1 id.2.2 with
    | some sp => .ok (x.done s sp)
    | none => .ok s
  | fuel + 1, s, c, waited =>
    match s.span? id.1 id.2.1 id.2.2 with
    | none => .ok s
    | some was =>
      let s := s.setXpos (mkXpos c x.o.g)
      let s := x.send s was c waited
      let sp := (s.span? id.1 id.2.1 id.2.2).getD was
      let wait : Eff := .error (.wait (s.setSpan (sp.waits x.rank s.sh.pc)))
      let next := fun (s : State) =>
        let sp := { sp with clock := 0 }
        let s := (s.setSpan sp).setXpos (mkXpos (c + 1) x.o.g)
        if fuel ≠ 0 && s.irqAt (c + 1) then .error (.wait (s.setSpan (sp.waits x.rank s.sh.pc)))
        else x.go id fuel s (c + 1) false
      if x.receives then
        match x.delivery sp c with
        | some l => if x.compared sp then next (x.write s l) else wait
        | none => wait
      else if x.acked sp c then next s else wait

/-- The groups of a collective pass the checks of R30, R31, R42 and R275. DEDUCED: log 58. -/
def XOp.groupsOk (o : XOp) (h : Sheet) : Bool :=
  (match o.d with
    | some d => h.dstOk d o.ty
    | none => true) &&
  (match o.a with
    | some a => h.srcOk a o.ty
    | none => true) &&
  (o.ty != .fp4b || h.spr.aecn % 8 = 0)

/-- The operation that a difference from is an abort (R375). -/
def XOp.sig (o : XOp) (n : Nat) : List Nat :=
  [o.kind.code, o.ty.code, o.op.code, if o.ord then 1 else 0, o.rnd.code, n, o.peer]

/-- The abort that this member's own operation causes, if it does: another operation than rank 0's, another size or format than the
peer's, as the peer's own execution or its packets show it, a root too small (R375, R378, R379). -/
def XCtx.clash (x : XCtx) (sp : Span) (flat : Nat) : Bool :=
  let other := fun (sig : List Nat) => decide (sig.getD 5 0 ≠ x.n ∨ sig.getD 1 0 ≠ x.o.ty.code)
  let bad := sp.sigs.any fun e => e.2.1 = x.pair && e.2.2.1 = x.seq && e.1 ≠ x.rank && (match x.pair with
    | none => (e.1 = 0 || x.rank = 0) && decide (e.2.2.2 ≠ x.sig)
    | some _ => other e.2.2.2)
  bad || (x.pair.isSome && ((sp.chunk? x.pair x.seq 0).any fun ch => other ch.sig)) || ((x.o.kind = .gath || x.o.kind = .scat) && x.rank = x.o.peer && x.count * x.n > flat)

/-- The numbers of the groups, checked as decoding does (R52, R58). -/
def XOp.fieldsOk (o : XOp) (h : Sheet) : Bool := o.d.toList.all h.fieldOk && o.a.toList.all h.fieldOk

/-- Execution of a collective at one member, afresh or again. DEDUCED: log 58, 60. -/
def State.collective (s : State) (o : XOp) (rooted : Bool) : Out3 :=
  let g := s.sh.g[o.g.val]
  let p := s.sh.spr
  runEff do
    need s (o.fieldsOk s.sh)
    match (if gValid g then s.span? p.sad (gId g) (gGen g) else none) with
    | none => trapE s 0x50 (xTval (gId g) 6)
    | some sp =>
      let rank := gRank g
      let count := sp.members.length
      if gAbort g || sp.abort.isSome then
        let hit := sp.hits.contains rank
        trapE (s.setSpan { sp with hits := sp.hits.filter (· ≠ rank), waiters := sp.waiters.filter fun w => w.1 ≠ rank })
          0x50 (xTval sp.id (if hit then sp.abort.getD 5 else 5))
      let p2p := o.kind = .send || o.kind = .recv
      need s (o.groupsOk s.sh && (!rooted || o.peer < count) && !(p2p && o.peer = rank))
      let others := { sp with waiters := sp.waiters.filter fun w => w.1 ≠ rank }
      if !sp.freed.isEmpty then trapE (s.abortSpan others 3) 0x50 (xTval sp.id 3)
      let pair := match o.kind with
        | .send => some (rank, o.peer)
        | .recv => some (o.peer, rank)
        | _ => none
      let seq := match o.kind with
        | .send => countOf sp.sent rank o.peer
        | .recv => countOf sp.got o.peer rank
        | _ => gSeq g
      let x : XCtx := ⟨o, rank, count, p.aecn, p.vln, pair, seq, o.sig p.aecn⟩
      if x.clash sp p.flat then trapE (s.abortSpan others 2) 0x50 (xTval sp.id 2)
      let s ← s.lookReads x.reads
      let sp := { sp with
        sigs := (rank, pair, seq, x.sig) :: sp.sigs.filter fun e => !(e.1 = rank && e.2.1 = pair && e.2.2.1 = seq)
        repeats := if p.xAct then sp.repeats else (rank, 0) :: sp.repeats.filter fun e => e.1 ≠ rank }
      let c := if p.xAct then p.xChunk else 0
      x.go (sp.sad, sp.id, sp.gen) (x.nch - c) (s.setSpan sp) c (p.xAct && s.sh.run = .waiting)

def execXall (op : RedOp) (ord : Bool) (ty : Fmt) (rnd : Rnd) (d a : VReg) (b : GReg) (s : State) : Out3 :=
  s.collective ⟨.all, op, ord, ty, rnd, some d, some a, b, 0⟩ false

def execXred (op : RedOp) (ord : Bool) (ty : Fmt) (rnd : Rnd) (d a : VReg) (b : GReg) (root : BitVec 20) (s : State) : Out3 :=
  s.collective ⟨.red, op, ord, ty, rnd, some d, some a, b, root.toNat⟩ true

def execXgath (ty : Fmt) (d a : VReg) (b : GReg) (root : BitVec 20) (s : State) : Out3 :=
  s.collective ⟨.gath, .add, false, ty, .rne, some d, some a, b, root.toNat⟩ true

def execXscat (ty : Fmt) (d a : VReg) (b : GReg) (root : BitVec 20) (s : State) : Out3 :=
  s.collective ⟨.scat, .add, false, ty, .rne, some d, some a, b, root.toNat⟩ true

def execXbcast (ty : Fmt) (d a : VReg) (b : GReg) (root : BitVec 20) (s : State) : Out3 :=
  s.collective ⟨.bcast, .add, false, ty, .rne, some d, some a, b, root.toNat⟩ true

def execXsend (ty : Fmt) (a : VReg) (b : GReg) (c : XReg) (s : State) : Out3 :=
  s.collective ⟨.send, .add, false, ty, .rne, none, some a, b, (s.xr c).toNat⟩ true

def execXrecv (ty : Fmt) (d : VReg) (b : GReg) (c : XReg) (s : State) : Out3 :=
  s.collective ⟨.recv, .add, false, ty, .rne, some d, none, b, (s.xr c).toNat⟩ true

/-- The span timeout of a saddle, in counts of TIME: 0 means 4 ms (R383, R389). -/
def Saddle.spanLimit (g : Saddle) : Nat := (if g.spanTmo = 0 then 4 else g.spanTmo.toNat) * msCounts

/-- The clock of a span has reached the timeout while it runs (R383). -/
def State.spanDue (s : State) (sp : Span) : Bool :=
  s.spanRuns sp && s.saddles[(sadOf sp.sad).val].spanLimit ≤ sp.clock

/-- SPAN_TIMEOUT (R383): the span aborts once its clock has reached the timeout. -/
def execSpanTimeout (sad id : Nat) (s : State) : Out3 :=
  match s.spans.find? fun sp => sp.sad = sad && sp.id = id with
  | none => .next s
  | some sp => .next (if s.spanDue sp then s.abortSpan sp 1 else s)

/-- PACKET_LIFETIME_EXPIRY (R387): packet n is dropped once it is older than the packet lifetime; its chunk is not delivered. -/
def execPacketLifetimeExpiry (n : Nat) (s : State) : Out3 :=
  .next { s with packets := (s.packets.zipIdx).map fun q =>
    if q.2 = n ∧ s.tooOld q.1 then { q.1 with lost := true } else q.1 }

end Machine
end Sys2Proof
end

