-- ==== Sys2Proof/Machine/Order.lean ====
section
/-! DEFINITION. `fence` and `hold` (R211 to R213).
-/
namespace Sys2Proof
namespace Machine

/-- A copy that the sheet in focus issued has not reported, or its stamp is still to be written (R203). -/
def State.copiesOut (s : State) : Bool :=
  (s.engines.toList.any fun e => e.queue.any fun c => c.drove = s.sh.droveId && c.flat = s.sh.spr.flatIx) ||
    s.posted.any fun p => p.issuer = some (s.sh.droveId, s.sh.spr.flatIx)

/-- The ranks to which a packet delivers. -/
def Packet.receivers (p : Packet) (sp : Span) : List Nat := receiversOf p.pair p.sig p.member sp.members.length

/-- A packet has a receiver in the sheet's own instance of a level (R211). -/
def Packet.within (p : Packet) (sp : Span) (me : Spr) (level : Nat) : Bool :=
  (p.receivers sp).any fun r => match sp.members[r]? with
    | some f => f / participants me.drove level = me.instOf level
    | none => false

/-- A chunk that the sheet in focus sent is not delivered, and its span has not aborted. -/
def State.chunksOut (s : State) (level : Nat) : Bool :=
  let me := s.sh.spr
  s.packets.any fun p => p.brand = me.brand12 && p.from_ = me.flatIx &&
    match s.span? p.sad p.id p.gen with
    | some sp => sp.drove = s.sh.droveId && sp.abort.isNone && p.within sp me level
    | none => false

/-- Streams S, A, V, C, X, W are bits 0 to 5. Every W access is performed when its instruction completes; a load of stream A that has
not been is one of a weight load. DEDUCED: log 77. -/
def State.fence (s : State) (before : BitVec 6) (level : Nat) : Eff := do
  let s ← if before.getLsbD 1 then s.settleW else pure s
  let s := if before.getLsbD 0 then s.flushOwn else s
  let s ← if before.getLsbD 2 then s.settleV else pure s
  await s (!(before.getLsbD 3 && s.copiesOut) && !(before.getLsbD 4 && s.chunksOut level))
  pure s

/-- Later loads are held back by the Outrider (`Instr.holdsA`). -/
def execFence (before after : BitVec 6) (scp : Scope) (s : State) : Out3 :=
  let _ := after
  runEff (s.fence before (levelOf scp))

def execHold (set : BitVec 6) (s : State) : Out3 :=
  let _ := set
  .next s.finish

end Machine
end Sys2Proof
end

