-- ==== Sys2Proof/Machine/Context.lean ====
section
/-! DEFINITION. The system class (R284, R285): special registers (R36 to R42, R115, R176, R188, R261, R283, R307, R329, R339,
R382), `tlbi` (R293), the sheet record with `ctxsave` and `ctxrest` (R289 to R291), `einj` (R298) and `idle`.
-/
namespace Sys2Proof
namespace Machine

/-- Trap 0x02 below S. -/
def needS (s : State) : Except Stop Unit := if s.isS then .ok () else trapE s 0x02
/-- Trap 0x02 below M. -/
def needM (s : State) : Except Stop Unit := if s.isM then .ok () else trapE s 0x02

def execTrap (code : BitVec 12) (s : State) : Out3 :=
  .next (s.takeTrap 0x70 (code.zeroExtend 64) 0 (nextPc s.sh.pc))

def execSret (s : State) : Out3 :=
  runJump do
    needS s
    s.doReturn 1

def execMret (s : State) : Out3 :=
  runJump do
    needM s
    s.doReturn 3

def execIdle (s : State) : Out3 :=
  runEff do
    needS s
    await s (!s.sh.evq.words.isEmpty)
    pure s

/-! ### Special registers (R36) -/

/-- The least level that reads a register, and the least that writes it; none where no level writes it. -/
def sprAccess (n : Nat) : Option (Nat × Option Nat) :=
  match n with
  | 0x000 => some (0, some 0)
  | 0x001 => some (0, none)
  | 0x002 => some (0, none)
  | 0x003 => some (0, none)
  | 0x004 => some (0, none)
  | 0x010 => some (0, some 0)
  | 0x011 => some (0, some 0)
  | 0x012 => some (0, some 0)
  | 0x013 => some (0, some 1)
  | 0x014 => some (0, some 1)
  | 0x015 => some (0, some 0)
  | 0x016 => some (0, some 1)
  | 0x020 => some (0, some 1)
  | 0x021 => some (0, some 1)
  | 0x022 => some (0, some 1)
  | 0x023 => some (0, some 0)
  | 0x030 => some (0, some 1)
  | 0x031 => some (0, some 1)
  | 0x032 => some (0, some 1)
  | 0x033 => some (0, some 1)
  | 0x040 => some (1, some 1)
  | 0x041 => some (1, some 1)
  | 0x042 => some (1, some 1)
  | 0x043 => some (1, some 1)
  | 0x044 => some (1, some 1)
  | 0x045 => some (1, some 1)
  | 0x050 => some (0, none)
  | 0x051 => some (0, none)
  | 0x060 => some (0, some 3)
  | 0x061 => some (0, none)
  | _ => none

/-- OSTAT (R261), where `landed` slots hold deliveries of spans. A slot whose fault a reader has taken holds data and is neither a
fault nor a fill. DEDUCED: log 37; DESIGN CHOICE: log 123. -/
def Sheet.ostat (h : Sheet) (landed : Nat) : Word :=
  let held := h.aheadSlots
  let fills := h.bslots.toList.map fun l => (l.filter fun sl => !sl.taken).length
  let bits := fun (p : Nat → Bool) => (List.range 4).foldl (fun n k => n + if p k then 2 ^ k else 0) 0
  let faulty := fun k => match h.bslots.toList.getD k [] with
    | sl :: _ => sl.bad.isSome
    | [] => false
  BitVec.ofNat 64 (min 32 (held + h.fillSlots + landed) + bits (fun k => osBound (h.o.toList.getD k 0)) * 2 ^ 8 +
    bits faulty * 2 ^ 12 + (fills.zipIdx.foldl (fun n q => n + q.1 * 2 ^ (16 + 4 * q.2)) 0) + if held = 0 then 0 else 2 ^ 31)

/-- The waves done by a sheet's oldest unfinished operation on an array: 0 before it begins, and for a packing (R329). -/
def wavesOf (pos : Fin 4) (q : List MatOp) : Nat :=
  match q.find? fun o => o.sheet = pos with
  | none => 0
  | some o => o.wavesAt ((o.prog.map OpProg.steps).getD 0)

/-- MPOS as it stands (R329). -/
def Core.mpos (c : Core) (pos : Fin 4) : Word :=
  BitVec.ofNat 64 (wavesOf pos c.queue[0] % 2 ^ 24 + wavesOf pos c.queue[1] % 2 ^ 24 * 2 ^ 32)

/-- A read of MPOS: the arrays have come further by free numbers of steps. DESIGN CHOICE: log 10. -/
def State.readMpos (s : State) : Word × State :=
  let s' := (s.opDrift 0).opDrift 1
  (s'.core.mpos s'.pos, s')

/-- A read of TIME: later than the last by a free amount (R41). -/
def State.readTime (s : State) : Word × State :=
  let s' := s.elapse
  (s'.time, s')

/-- A register as `srd` reads it. -/
def State.readSpr (s : State) (n : Nat) : Word × State :=
  let p := s.sh.spr
  match n with
  | 0x000 => (s.status, s)
  | 0x001 => (p.brand, s)
  | 0x002 => (BitVec.ofNat 64 p.sad, s)
  | 0x003 => (p.sheetid, s)
  | 0x004 => (p.drove, s)
  | 0x010 => (p.vcfg, s)
  | 0x011 => (p.aec, s)
  | 0x012 => (p.vl, s)
  | 0x013 => (p.epos, s)
  | 0x014 => (p.grpl, s)
  | 0x015 => (p.fstat, s)
  | 0x016 => (p.rpst, s)
  | 0x020 => (p.prog0, s)
  | 0x021 => (p.prog1, s)
  | 0x022 => (p.prog2, s)
  | 0x023 => (p.ebrk, s)
  | 0x030 => s.readMpos
  | 0x031 => (p.cutst, s)
  | 0x032 => (p.xpos, s)
  | 0x033 => (p.mshape, s)
  | 0x040 => (p.tcause, s)
  | 0x041 => (p.tval, s)
  | 0x042 => (p.tpc, s)
  | 0x043 => (p.tstatus, s)
  | 0x044 => (p.tvec, s)
  | 0x045 => (p.faddr, s)
  | 0x050 => (BitVec.ofNat 64 runAhead, s)
  | 0x051 => (s.sh.ostat (s.landedSlots s.sh false false + s.landedSlots s.sh true false), s)
  | 0x060 => s.readTime
  | 0x061 => (p.waves, s)
  | _ => (0, s)

/-- R36. -/
def execSrd (d : XReg) (n : BitVec 12) (s : State) : Out3 :=
  runEff <|
    match sprAccess n.toNat with
    | none => illegal s
    | some (lvl, _) =>
      if s.priv < lvl then trapE s 0x02
      else
        let q := s.readSpr n.toNat
        .ok (q.2.setX d q.1)

/-- The access check of a write. -/
def State.mayWrite (s : State) (n : Nat) : Except Stop Unit :=
  match sprAccess n with
  | some (_, some lvl) => if s.priv < lvl then trapE s 0x02 else .ok ()
  | _ => illegal s

def rpstOk (v : Word) : Bool :=
  v &&& ~~~(0x1F1FFF#64) == 0 && rpLen v ≤ 32 && (!rpAct v || rpPos v < rpLen v)

def mshapeOk (v : Word) : Bool := v &&& ~~~(0x1FF7F7F#64) == 0 && fld v 0 7 ≤ 64 && fld v 8 7 ≤ 64 && fld v 16 9 ≤ 256

/-- No token of the sheet is pending. -/
def Sheet.noPending (h : Sheet) : Bool := h.k.toList.all fun t => t.st != .pending

/-- Writes special registers when the value is allowed (R37, R42, R78, R115, R176, R188, R283, R307, R329).
DEDUCED: log 79. -/
def State.writeSpr (s : State) (n : Nat) (v : Word) : Eff :=
  let p := s.sh.spr
  let put := fun (ok : Bool) (q : Spr) => if ok then (.ok (s.mapSpr fun _ => q) : Eff) else illegal s
  match n with
  | 0x000 => put true { p with status := setFld p.status 4 1 (fld v 4 1) }
  | 0x011 => put (vlAecOk p.rc p.vln v.toNat) { p with aec := v }
  | 0x012 => put (vlAecOk p.rc v.toNat p.aecn) { p with vl := v }
  | 0x013 => put (v.toNat < maxFlat) { p with epos := v }
  | 0x014 => put (v.toNat ≤ 4) { p with grpl := v }
  | 0x015 => put (v.toNat < 64) { p with fstat := v }
  | 0x016 => put (rpstOk v) { p with rpst := v }
  | 0x020 => put true { p with prog0 := BitVec.ofNat 64 (fld v 0 48) }
  | 0x021 => put true { p with prog1 := BitVec.ofNat 64 (fld v 0 40) }
  | 0x022 => put true { p with prog2 := v }
  | 0x023 => put true { p with ebrk := v }
  | 0x030 => put (v == 0 && s.sh.noPending) p
  | 0x033 => put (mshapeOk v) { p with mshape := v }
  | 0x040 => put (v.toNat < 256) { p with tcause := v }
  | 0x041 => put true { p with tval := v }
  | 0x042 => put true { p with tpc := v }
  | 0x043 => put (v.toNat < 64 && fld v 0 2 != 2 && fld v 0 2 ≤ s.priv) { p with tstatus := v }
  | 0x044 => put (canonical v && slotStart v) { p with tvec := v }
  | 0x045 => put true { p with faddr := v }
  | 0x060 => .ok { s with time := v, roundAt := s.roundAt + (v - s.time) }
  | _ => illegal s

/-- A write takes effect for the next instruction: a loop that RPST starts takes it as its body's (R176, R284). -/
def State.swrDo (s : State) (n : BitVec 12) (a : XReg) : Eff :=
  do
    s.mayWrite n.toNat
    let s' ← s.writeSpr n.toNat (s.xr a)
    if n = 0x016 then pure ((s'.withSheet { s'.sh with rbuf := [] }).goTo (nextPc s.sh.pc)) else pure s'.finish

def execSwr (n : BitVec 12) (a : XReg) (s : State) : Out3 := runJump (s.swrDo n a)

/-- R38. -/
def execSwrVcfg (a : XReg) (s : State) : Out3 :=
  runEff do
    need s (vcfgOk (s.xr a))
    pure (s.withSheet (s.sh.setVcfg (s.xr a)))

/-- R339: a write of 0 abandons the cut, once no token of a `cut` or `cocut` is pending or complete. -/
def execSwrCutst (a : XReg) (s : State) : Out3 :=
  runEff do
    s.mayWrite 0x031
    need s (s.xr a == 0)
    match (List.finRange 16).find? fun k => s.sh.ctok.getLsbD k.val && s.sh.k[k.val].st != .idle with
    | some k => tokE s k
    | none => pure (s.mapSpr fun p => { p with cutst := setFld p.cutst 0 2 0 })

/-- R382. -/
def execSwrXpos (a : XReg) (s : State) : Out3 :=
  runEff do
    s.mayWrite 0x032
    need s (s.xr a == 0)
    pure (s.setXpos 0)

/-! ### Translation invalidation (R293) -/

/-- Drops translations from every sheet and every core. -/
def State.dropTlb (s : State) (p : Xlate → Bool) : State :=
  (s.eachSheet fun h => { h with tlb := h.tlb.filter fun t => !p t }).eachCore fun c =>
    { c with tlb := c.tlb.filter fun t => !p t }

/-- Every store window that any sheet has probed is written before translations go (R272, R293). -/
def State.windowsDone (s : State) : Eff := do
  let s := s.drainAll
  await s (s.sheets.all fun h => h.vq.isEmpty)
  pure s

/-- A copy in flight has still to write a destination page that it translated through an entry (R235, R293); its source is read in the
one step in which it is translated. -/
def State.copyKeeps (s : State) (p : Xlate → Bool) : Bool :=
  s.engines.toList.any fun e => e.queue.any fun c => c.pages.any p

/-- The translations that p selects go, once nothing in flight uses one (R293). -/
def State.invalidate (s : State) (p : Xlate → Bool) : Eff := do
  let s ← s.windowsDone
  await s (!s.copyKeeps p)
  pure (s.dropTlb p)

/-- DEDUCED: log 78. -/
def execTlbiVa (a : XReg) (s : State) : Out3 :=
  let va := s.xr a
  runEff do
    needS s
    if !canonical va then trapE s 0x10 va va
    s.invalidate fun t => t.sad = s.sh.spr.sad && t.vbase = va.toNat / 2 ^ t.bits

def execTlbiSad (s : State) : Out3 :=
  runEff do
    needS s
    s.invalidate fun t => t.sad = s.sh.spr.sad

def execTlbiAll (s : State) : Out3 :=
  runEff do
    needM s
    s.invalidate fun _ => true

/-! ### The sheet record (R289) -/

def w8 (w : Word) : List Byte := leBytes 8 w.toNat
def zeros (n : Nat) : List Byte := List.replicate n 0

def Tok.code (t : Tok) : Nat :=
  match t.st with
  | .idle => 0
  | .pending => 1
  | .complete => 2

/-- The detail of a token: zero unless it is complete. -/
def Tok.detail (t : Tok) : List Byte :=
  if t.st = .complete then w8 t.faddr ++ leBytes 1 t.flags.toNat ++ leBytes 1 t.cause.toNat ++ zeros 6 else zeros 16

/-- The word of the event queue and the entries at their places. -/
def EvQ.word (q : EvQ) : Nat := q.words.length + q.head.val * 16 + if q.lost then 128 else 0
def EvQ.entry (q : EvQ) (n : Nat) : Word := q.words.getD ((n + 8 - q.head.val) % 8) 0

/-- The bits of the BVM that the layout uses. -/
def Sheet.bvmBits (h : Sheet) : Nat := h.bvm.toNat % 2 ^ (h.spr.nreg * (h.spr.rbytes / 5))

/-- Offsets 0x0000 to 0x1CFF. -/
def Sheet.fixedPart (h : Sheet) (stop : BitVec 8) (pc status mpos : Word) : List Byte :=
  let p := h.spr
  leBytes 8 (1 + p.brand12.toNat * 2 ^ 16 + stop.toNat * 2 ^ 32) ++ w8 pc ++ w8 status ++
  leBytes 8 (h.k.toList.zipIdx.foldl (fun n q => n + q.1.code * 4 ^ q.2) 0) ++
  (List.finRange 32).flatMap (fun r => w8 (h.xr r)) ++ h.f.toList.flatMap w8 ++
  [p.vcfg, p.aec, p.vl, p.epos, p.grpl, p.fstat, p.rpst, p.prog0, p.prog1, p.prog2, p.ebrk, mpos].flatMap w8 ++
  [p.cutst, p.xpos, p.tcause, p.tval, p.tpc, p.tstatus, p.tvec, p.faddr, p.waves].flatMap w8 ++
  leBytes 8 h.evq.word ++ (List.range 8).flatMap (fun n => w8 (h.evq.entry n)) ++ w8 p.mshape ++ zeros 8 ++
  h.o.toList.flatMap (fun o => leBytes 32 o.toNat) ++ h.g.toList.flatMap (fun g => leBytes 16 g.toNat) ++ zeros 96 ++
  (h.vtouch.toList.zipIdx.flatMap fun q => leBytes 2 (if q.2 < p.nreg then q.1 else 0)) ++
  h.mtouch.toList.flatMap (leBytes 2) ++ leBytes 8 h.vdirty.toNat ++ leBytes 8 h.mdirty.toNat ++ zeros 64 ++
  leBytes 3328 h.bvmBits ++ h.k.toList.flatMap Tok.detail ++ zeros 512 ++
  h.d.toList.flatMap fun d => leBytes 128 d.toNat

/-- The mask and vector registers as pieces of the record: the bytes below each touched length, or all of them. -/
def Sheet.regPieces (h : Sheet) (full : Bool) : List (Nat × List Byte) :=
  let sb := h.spr.rbytes
  (h.m.toList.zipIdx.map fun q =>
    (0x1D00 + 2048 * q.2, leBytes (if full then 2048 else h.mtouch.toList.getD q.2 0) q.1.toNat)) ++
  (List.range h.spr.nreg).map fun r =>
    (0xDD00 + r * sb, h.vstore.bytes (r * sb) (if full then sb else h.vtouch.toList.getD r 0))

/-- A sheet record as its bytes lie in memory, each register whole: a record of pre-emption resumes at the sheet's own PC and STATUS
(R288, R289). -/
def Record.bytes (r : Record) (mpos : Word) : List Byte :=
  let h := r.sheet
  h.fixedPart r.stop h.pc h.spr.status mpos ++ (h.regPieces true).flatMap Prod.snd

def Sheet.cleanTags (h : Sheet) : Sheet :=
  { h with vdirty := 0, vtouch := Vector.replicate 64 0, mdirty := 0, mtouch := Vector.replicate 24 0 }

/-- R290. -/
def execCtxsave (full : Bool) (a : XReg) (s : State) : Out3 :=
  let va := s.xr a
  runEff do
    needS s
    if va.toNat % 4096 != 0 then trapE s 0x04 va va
    await s s.sh.noPending
    let s ← s.release
    match s.range .store va sheetRecordBytes with
    | .error (c, f) => faultE s c f f
    | .ok l =>
      let keys := physKeys l
      await s (!(linesOf keys).any s.owned)
      let h := s.sh
      let s := s.fillAll (pageStarts va sheetRecordBytes)
      let put := fun (s : State) (o : Nat) (b : List Byte) =>
        s.vWrite s.sh.spr.brand12 (physUc ((l.drop o).take b.length)) ((keys.drop o).zip b)
      let s := put s 0 (h.fixedPart 0 h.spr.tpc h.spr.tstatus 0)
      let s := (h.regPieces full).foldl (fun s q => put s q.1 q.2) s
      pure (s.withSheet s.sh.cleanTags)

/-! ### `ctxrest` (R291) -/

/-- A field of k bytes of a record. -/
def rf (b : List Byte) (o k : Nat) : Nat := leNat ((b.drop o).take k)
def rw (b : List Byte) (o : Nat) : Word := BitVec.ofNat 64 (rf b o 8)

def tokCode (b : List Byte) (k : Nat) : Nat := bitsAt (rf b 0x0018 8) (2 * k) 2

/-- A g register that `ctxrest` accepts (R371). -/
def State.gOk (s : State) (v : Nat) : Bool :=
  let g : BitVec 128 := BitVec.ofNat 128 v
  wfld g 30 2 = 0 && wfld g 52 12 = 0 && wfld g 84 12 = 0 && (!gValid g || (s.span? s.sh.spr.sad (gId g) (gGen g)).isSome)

/-- The fields of a record with their offsets, in order, and whether each is allowed. DEDUCED: log 79. -/
def State.recChecks (s : State) (b : List Byte) : List (Nat × Bool) :=
  let vcfg := rw b 0x01A0
  let p : Spr := { Spr.reset with vcfg := vcfg }
  let aec := rf b 0x01A8 8
  let vl := rf b 0x01B0 8
  let head := rw b 0x0000
  let status := rw b 0x0010
  let small := fun (o n : Nat) => (o, decide (rf b o 8 < 2 ^ n))
  let zero := fun (o n : Nat) => (o, decide (rf b o n = 0))
  [(0x0000, fld head 0 16 == 1 && fld head 22 6 == s.sh.spr.sad && fld head 28 4 == 0 && fld head 40 24 == 0),
   (0x0010, decide (status.toNat < 64 ∧ fld status 0 2 ≤ s.priv) && fld status 0 2 != 2),
   (0x0018, rf b 0x001C 4 == 0 && (List.range 16).all fun k => tokCode b k == 0 || tokCode b k == 2),
   zero 0x0020 8, (0x01A0, vcfgOk vcfg),
   (0x01A8, decide (aec ≤ maxFlat ∧ aec ≤ p.rc * vl)), (0x01B0, decide (vl ≤ maxFlat / p.rc)),
   (0x01B8, decide (rf b 0x01B8 8 < maxFlat)), (0x01C0, decide (rf b 0x01C0 8 ≤ 4)), small 0x01C8 6, (0x01D0, rpstOk (rw b 0x01D0)),
   small 0x01D8 48, small 0x01E0 40, (0x01F8, rw b 0x01F8 &&& ~~~(0x00FFFFFF00FFFFFF#64) == 0),
   (0x0200, rw b 0x0200 &&& ~~~(0x3FFFFFFF0F1F#64) == 0 && fld (rw b 0x0200) 0 2 != 3), small 0x0208 28, small 0x0210 8,
   (0x0248, decide (rf b 0x0248 8 < 256 ∧ fld (rw b 0x0248) 0 4 ≤ 8)), (0x0290, mshapeOk (rw b 0x0290)), zero 0x0298 8] ++
  ((List.range 4).map fun n : Nat =>
    let o : BitVec 256 := BitVec.ofNat 256 (rf b (0x02A0 + 32 * n) 32)
    (0x02A0 + 32 * n, wfld o 142 1 == 0 && wfld o 144 48 == 0 && wfld o 240 16 == 0)) ++
  ((List.range 8).map fun n => (0x0320 + 16 * n, s.gOk (rf b (0x0320 + 16 * n) 16))) ++
  [zero 0x03A0 96, small 0x04B8 24, zero 0x04C0 64,
   (0x0500, decide (rf b 0x0500 3328 < 2 ^ (p.nreg * (p.rbytes / 5))))] ++
  ((List.range 16).map fun k =>
    let o := 0x1200 + 16 * k
    (o, if tokCode b k = 0 then rf b o 16 == 0 else decide (rf b (o + 8) 1 < 64) && rf b (o + 10) 6 == 0)) ++
  [zero 0x1300 512]

/-- The event queue of a record. -/
def evqOf (b : List Byte) : EvQ :=
  let q := rw b 0x0248
  let head := fld q 4 3
  ⟨(List.range (fld q 0 4)).map fun i => rw b (0x0250 + 8 * ((head + i) % 8)), Fin.ofNat 8 head, fld q 7 1 = 1⟩

/-- The token of a record. -/
def tokOf (b : List Byte) (k : Nat) : Tok :=
  if tokCode b k = 2 then
    let o := 0x1200 + 16 * k
    Tok.done (BitVec.ofNat 6 (rf b (o + 8) 1)) (rf b (o + 9) 1) (rw b o)
  else Tok.idle

/-- The sheet as a record gives it. STATUS, BRAND, SADDLE, SHEETID and DROVE stay. -/
def Sheet.load (h : Sheet) (b : List Byte) : Sheet :=
  let p := { h.spr with
    vcfg := rw b 0x01A0
    aec := rw b 0x01A8
    vl := rw b 0x01B0
    epos := rw b 0x01B8
    grpl := rw b 0x01C0
    fstat := rw b 0x01C8
    rpst := rw b 0x01D0
    prog0 := rw b 0x01D8
    prog1 := rw b 0x01E0
    prog2 := rw b 0x01E8
    ebrk := rw b 0x01F0
    cutst := rw b 0x0200
    xpos := rw b 0x0208
    tcause := rw b 0x0210
    tval := rw b 0x0218
    tpc := rw b 0x0008
    tstatus := rw b 0x0010
    tvec := rw b 0x0230
    faddr := rw b 0x0238
    waves := rw b 0x0240
    mshape := rw b 0x0290 }
  ({ h with
    spr := p
    x := Vector.ofFn fun (i : Fin 32) => rw b (0x0020 + 8 * i.val)
    f := Vector.ofFn fun (i : Fin 16) => rw b (0x0120 + 8 * i.val)
    vstore := Memory.setBytes [] 0 ((b.drop 0xDD00).take vstoreBytes)
    bvm := BitVec.ofNat 26624 (rf b 0x0500 3328)
    m := Vector.ofFn fun (i : Fin 24) => BitVec.ofNat 16384 (rf b (0x1D00 + 2048 * i.val) 2048)
    d := Vector.ofFn fun (i : Fin 16) => BitVec.ofNat 1024 (rf b (0x1500 + 128 * i.val) 128)
    k := Vector.ofFn fun (i : Fin 16) => tokOf b i.val
    ctok := BitVec.ofFnLE fun (i : Fin 16) => h.ctok.getLsbD i.val && tokCode b i.val != 0
    g := Vector.ofFn fun (i : Fin 8) => BitVec.ofNat 128 (rf b (0x0320 + 16 * i.val) 16)
    o := Vector.ofFn fun (i : Fin 4) => BitVec.ofNat 256 (rf b (0x02A0 + 32 * i.val) 32)
    evq := evqOf b
    rbuf := []
    ahead := []
    bslots := Vector.replicate 4 [] } : Sheet).cleanTags

def execCtxrest (a : XReg) (s : State) : Out3 :=
  let va := s.xr a
  runJump do
    needS s
    if va.toNat % 4096 != 0 then trapE s 0x04 va va
    let s ← s.release
    let (b, s) ← s.aLoad va sheetRecordBytes
    match (s.recChecks b).find? fun q => !q.2 with
    | some q => trapE s 0x01 (BitVec.ofNat 64 q.1)
    | none => pure ((s.withSheet (s.sh.load b)).goTo (nextPc s.sh.pc))

/-! ### `einj` (R298) -/

/-- Where an error is to be planted. -/
def injDie (a : Word) : Nat := fld a 61 3
def injUnit (a : Word) : Nat := fld a 53 8
def injOff (a : Word) : Nat := fld a 0 48

/-- The bits that must be zero are zero. DESIGN CHOICE: log 34. -/
def injOk (site : Fin 9) (a : Word) : Bool :=
  fld a 48 5 = 0 && (if site.val ≤ 2 then injUnit a = 0 else true)

/-- The tile of a level and a site that holds a byte of the store, and the byte's offset in it. DESIGN CHOICE: log 35. -/
def State.tileAt (s : State) (level site off : Nat) : Option (Tile × Nat) :=
  (s.tiles.filter fun t => t.level = level && s.tileSite t = some site).findSome? fun t =>
    (findNat (fun k => Config.unitAt level site t.drove t.handle.toNat k = off / 4096) (tileAlloc t / 4096)).bind fun k =>
      if 4096 * k + off % 4096 < t.size then some (t, 4096 * k + off % 4096) else none

/-- The adapter on a die's shelf that holds a byte of the die's store, and the byte's offset in it (R396). DESIGN CHOICE: log 35. -/
def State.adapterAt (s : State) (die off : Nat) : Option (Adapter × Nat) :=
  (s.adapters.filter fun a => a.die = die).findSome? fun a =>
    (findNat (fun k => Config.shelfUnit die a.sad a.id.toNat k = off / 4096) (a.size / 4096)).bind fun k =>
      if 4096 * k + off % 4096 < 2 * (a.dn.length + a.up.length) then some (a, 4096 * k + off % 4096) else none

/-- A cache holds a clean copy of a line of memory: the line caches (0) or the scalar L1 of a core (its number plus 1).
DESIGN CHOICE: log 34. -/
def State.holdsClean (s : State) (cache line : Nat) : Bool := installed (64 * line) && Config.heldClean cache line s.free

/-- The level and the site of the tile store of a structure (R230, R298). -/
def injStore (site : Fin 9) (a : Word) : Option (Nat × Nat) :=
  match site.val with
  | 2 => some (3, injDie a)
  | 3 => if injUnit a < 16 then some (2, injDie a * 16 + injUnit a) else none
  | 5 => if injUnit a < coresPerDie then some (1, injDie a * coresPerDie + injUnit a) else none
  | _ => none

/-- The location holds a resident entry; where the model keeps no residency the answer is free. DESIGN CHOICE: log 34. -/
def State.injResident (s : State) (site : Fin 9) (a : Word) : Bool :=
  let die := injDie a
  let core := die * coresPerDie + injUnit a
  let held := (s.coreAt core).isSome && injUnit a < coresPerDie
  match site.val with
  | 0 => installed a.toNat
  | 1 => (s.lcache.any fun q => q.line = lineOf a.toNat) || s.holdsClean 0 (lineOf a.toNat)
  | 4 => held && injOff a < 524288
  | 6 => held && (s.holdsClean (core + 1) (lineOf (injOff a)) || match s.coreAt core with
    | some c => c.l1.any fun d => lineOf d.key = lineOf (injOff a)
    | none => false)
  | 7 => held && injOff a < 512
  | 8 => die < diesPerModule && injUnit a < 4 && injOff a < 256 && (s.engineAt (die * 4 + injUnit a)).facet.isSome
  | _ => match injStore site a with
    | some q => die < diesPerModule &&
      ((s.tileAt q.1 q.2 (injOff a)).isSome || (q.1 = 3 && (s.adapterAt die (injOff a)).isSome))
    | none => false

/-- A planted error is kept until the entry is read; two flipped bits of a memory line are its poison, and a flipped bit of a facet
table is the bad parity of its entry (R242, R296, R298, R299). DEDUCED: log 33. -/
def execEinj (kind : BitVec 2) (st : Fin 9) (d a b : XReg) (s : State) : Out3 :=
  let loc := s.xr a
  runEff do
    needM s
    need s (injOk st loc)
    let s' := { s with free := s.free + 1 }
    if s.injResident st loc then
      let s' :=
        if st.val = 0 && kind = 1 then { s' with poison := insertNat (lineOf loc.toNat) s'.poison }
        else if st.val = 8 && kind.toNat ≤ 1 then
          s'.setEngine (injDie loc * 4 + injUnit loc) fun e => ({ e with badCodes := insertNat (injOff loc) e.badCodes } : Engine)
        else { s' with planted := s'.planted ++ [⟨kind, st, loc, s.xr b⟩] }
      pure (s'.setX d 0)
    else pure (s'.setX d 1)

end Machine
end Sys2Proof
end

