-- ==== Sys2Proof/Machine/Wrangler.lean ====
section
/-! DEFINITION. The Wrangler: placement (R23 to R25, R29, R392, R393), pre-emption and restore (R286 to R288, R292), timers
(R282), retirement (R26), rounds (R393), and the nodes that no drove runs (R390 to R392).
-/
namespace Sys2Proof
namespace Machine

/-! ### Where a drove fits (R2, R23, R343, R393) -/

/-- Cores of a shape. -/
def shapeCores (w : Word) : Nat := nDies w * nQuads w * nCores w

/-- A die receives droves (R398). -/
def State.dieIn (s : State) (die : Nat) : Bool := s.up.toNat.testBit die && die < diesPerModule

/-- A core of a die in service that holds no sheet. -/
def State.coreFree (s : State) (c : Nat) : Bool :=
  c < coresPerModule && s.dieIn (dieOfCore c) && !(s.sheets.any fun h => coreOf h.place = c)

/-- The windows granted on a physical die; one that belongs to no drove yet is promised to one that is about to be placed. -/
def State.windowsOn (s : State) (pdie : Nat) : List Window :=
  s.windows.filter fun (w : Window) => w.pdie = pdie && match s.drove? w.drove with
    | some d => d.st = .resident
    | none => true

/-- The lowest index at which n consecutive counters of a die are free (R343). -/
def State.windowBase (s : State) (pdie n : Nat) : Option Nat :=
  let l := s.windowsOn pdie
  let free := fun (b : Nat) => b + n ≤ gateCounters && l.all fun w => b + n ≤ w.base || w.base + w.len ≤ b || w.len = 0
  let ends := (l.map fun w => w.base + w.len).foldl (fun m k => insertNat k m) [0]
  if n = 0 then some 0 else ends.find? free

/-- The physical quads of a die with n cores that p allows, each with its first n. -/
def quadsOf (p : Nat → Bool) (die n : Nat) : List (List Nat) :=
  (List.range 16).filterMap fun q =>
    let l := ((List.range 4).map fun c => die * coresPerDie + 4 * q + c).filter p
    if n ≤ l.length then some (l.take n) else none

/-- The lowest cores for a shape among those that p allows: logical cores in order. DEDUCED: log 86. -/
def State.pickCores (s : State) (p : Nat → Bool) (shape : Word) (cwin : Nat) : Option (List Nat) :=
  let dies := (List.range diesPerModule).filterMap fun die =>
    let l := quadsOf p die (nCores shape)
    if nQuads shape ≤ l.length && (s.windowBase die cwin).isSome then some (l.take (nQuads shape)).flatten else none
  if nPkgs shape = 1 && nDies shape ≤ dies.length then some (dies.take (nDies shape)).flatten else none

/-- Logical core k's cores of a list, by die and quad, stand in one die and one quad each, no two in the same.
DEDUCED: log 86. -/
def layoutOk (shape : Word) (cores : List Nat) : Bool :=
  let nc := nCores shape
  let nq := nQuads shape
  let quads := (List.range (nDies shape * nq)).map fun q => cores.getD (q * nc) 0 / 4
  let dies := (List.range (nDies shape)).map fun d => dieOfCore (cores.getD (d * nq * nc) 0)
  nPkgs shape = 1 && cores.length = shapeCores shape && decide (cores.Nodup ∧ quads.Nodup ∧ dies.Nodup) &&
    (cores.zipIdx.all fun q => q.1 / 4 = quads.getD (q.2 / nc) 0 && dieOfCore q.1 = dies.getD (q.2 / (nq * nc)) 0)

/-- The windows of a drove on the dies of its cores; none when one does not fit. -/
def State.grantWindows (s : State) (id : Nat) (shape : Word) (cwin : Nat) (cores : List Nat)
    (ctr : Nat → List (Nat × Word)) : Option (List Window) :=
  (List.range (nDies shape)).mapM fun d =>
    let pdie := dieOfCore (cores.getD (d * nQuads shape * nCores shape) 0)
    (s.windowBase pdie cwin).map fun b => ⟨id, d, pdie, b, cwin, ctr d⟩

/-! ### What waits for a place (R393) -/

/-- A ready launch node, or a drove saved by pre-emption. -/
structure Cand where
  sad : Nat
  cls : Nat
  seq : Nat
  shape : Word
  cwin : Nat
  saved : Bool
  num : Nat
  deriving DecidableEq, Repr

/-- Class first, then the order in which they became ready. -/
def Cand.before (a b : Cand) : Bool := a.cls < b.cls || (a.cls = b.cls && a.seq < b.seq)

def insCand (c : Cand) : List Cand → List Cand
  | [] => [c]
  | a :: l => if c.before a then c :: a :: l else a :: insCand c l

def State.cands (s : State) : List Cand :=
  let nodes := (s.nodes.filter fun n => n.st = 2 && recKind n.body = 0).map fun n =>
    (⟨n.sad, recClass n.body, n.seqno, recShape n.body, recCwin n.body, false, n.num⟩ : Cand)
  let saved := (s.droves.filter fun d => d.st = .saved).map fun d =>
    (⟨d.sad, d.cls, d.since, d.shape, d.cwin, true, d.id⟩ : Cand)
  (nodes ++ saved).foldl (fun l c => insCand c l) []

/-- The lowest free context slot of a saddle (R40). -/
def State.freeSlot (s : State) (sad : Nat) : Option Nat :=
  ((List.range 62).map (· + 1)).find? fun k => !(s.droves.any fun d => d.sad = sad && d.slot = k)

/-- A candidate's saddle may place: weight, deficit, service, coolant (R393, R398, R400). -/
def State.mayPlace (s : State) (sad : Nat) : Bool :=
  let g := s.saddles[(sadOf sad).val]
  s.coolantOk && s.svc ≠ 0 && g.weight ≠ 0 && 0 < g.deficit

/-- No candidate of the saddle that comes earlier fits now. -/
def State.firstOf (s : State) (c : Cand) : Bool :=
  !(s.cands.any fun q => q.sad = c.sad && q.before c && (s.pickCores s.coreFree q.shape q.cwin).isSome)

/-- The cores of a list are free and make the shape. -/
def State.coresOk (s : State) (shape : Word) (cores : List Nat) : Bool := layoutOk shape cores && cores.all s.coreFree

/-! ### Placement (R9, R29, R36, R39, R392) -/

/-- The SHEETID of a sheet (R39). -/
def mkSheetId (shape : Word) (core p : Nat) : Word :=
  let nc := nCores shape
  let nq := nQuads shape
  BitVec.ofNat 64 (p + core % nc * 4 + core / nc % nq * 16 + core / nc / nq * 256 + (core * nSheets shape + p) * 2 ^ 32)

/-- The DROVE register of a shape (R39). -/
def mkDrove (shape : Word) : Word := setFld shape 32 20 (shapeCores shape * nPkgs shape * nSheets shape)

/-- A sheet at entry to a drove. -/
def newSheet (d : Drove) (n : Node) (tvec : Word) (core pcore p : Nat) : Sheet :=
  let spr := { Spr.reset with
    status := BitVec.ofNat 64 d.lvl
    brand := BitVec.ofNat 64 (d.sad * 64 + d.slot)
    sheetid := mkSheetId d.shape core p
    drove := mkDrove d.shape
    tvec := tvec }
  { Sheet.reset with
    pc := recP0 n.body
    x := Sheet.reset.x.set 1 (recP1 n.body)
    spr := spr
    run := .ready
    place := 4 * pcore + p
    droveId := d.id }

/-- With no sheet in focus, the focus lies on no core of the module. DESIGN CHOICE: log 96. -/
def State.unfocus (s : State) : State :=
  if s.sh.run = .off then
    { s with sh := { Sheet.reset with place := 1536 }, core := { Core.reset with place := coresPerModule } }
  else s

/-- Sheets and cores take their places. -/
def State.seat (s : State) (sheets : List Sheet) (cores : List Core) : State :=
  let s := s.unfocus
  { s with rest := s.rest ++ sheets, cores := s.cores ++ cores }

/-- DROVE_PLACEMENT: a ready launch node's drove is placed whole on free cores; nothing happens when R393 does not allow it.
DESIGN CHOICE: log 6. -/
def execDrovePlacement (sad node : Nat) (cores : List Nat) (s : State) : Out3 :=
  let s := s.elapse
  match s.cands.find? fun c => c.sad = sad && !c.saved && c.num = node, s.node? sad node, s.freeSlot sad with
  | some c, some n, some slot =>
    let id := s.ids + 1
    match s.grantWindows id c.shape c.cwin cores (fun _ => []) with
    | some ws =>
      if s.mayPlace sad && s.firstOf c && s.coresOk c.shape cores then
        let g := s.saddles[(sadOf sad).val]
        let d : Drove := ⟨id, sad, slot, node, c.shape, c.cls, recLvl n.body, c.cwin, cores, .resident, id, false, false⟩
        let sheets := cores.zipIdx.flatMap fun q =>
          (List.range (nSheets c.shape)).map fun p => newSheet d n g.tvecDef q.2 q.1 p
        let s := s.nodeState sad node 3
        let s := if recWmBound n.body then s.setSad sad fun g => { g with marks := sparseSet g.marks (recWm n.body) 0 } else s
        let s := s.seat sheets (cores.map fun c => { Core.reset with place := c })
        .next { s with droves := s.droves ++ [d], windows := s.windows ++ ws, ids := id }
      else .next s
    | none => .next s
  | _, _, _ => .next s

/-! ### Pre-emption (R282, R286 to R288, R318, R341) -/

/-- The packing at the head of an array's queue runs to its end when the sheet in focus issued it (R341).
DEDUCED: log 87. -/
def State.endPack (s : State) (arr : Fin 2) : State :=
  match s.core.queue[arr.val] with
  | [] => s
  | o :: _ =>
    match o.kind with
    | .pack _ => if o.sheet = s.pos then s.finishOp arr o.tok o else s
    | _ => s

/-- The weight loads of the sheet in focus end once they are read. -/
def State.endLoads (s : State) : State :=
  (s.core.wloads.filter fun w => w.sheet = s.pos).foldl (fun s w => s.endLoad w w.tok) s

/-- The sheet at a place stops: a timer trap that is due is taken first (R282), its accesses are performed, its weight loads and
packings end, and the operations under way on its core's arrays stop at a wave boundary (R286, R328). DESIGN CHOICE: log 10. -/
def State.stopSheet (s : State) (p : Nat) : Eff :=
  match s.focus p with
  | none => .ok s
  | some s => do
    let due : Bool := match s.sh.irq with
      | some (.timer, _) => s.sh.run != .halted
      | _ => false
    let s := if due then s.takeTrap 0x32 0 0 s.sh.pc else s
    let s ← s.release
    pure ((((s.endLoads.endPack 0).endPack 1).opDrift 0).opDrift 1)

def State.stopSheets (s : State) : List Nat → Eff
  | [] => .ok s
  | p :: l => do
    let s ← s.stopSheet p
    s.stopSheets l

/-- A sheet as the image keeps it: run-ahead work, filled binding slots, fetched lines and translations are not kept.
DEDUCED: log 87. -/
def Sheet.image (h : Sheet) : Sheet :=
  { h with
    lines := [], rbuf := [], ahead := [], bslots := Vector.replicate 4 [], vq := [], irq := none, preAfter := false, tlb := []
    run := if h.run = .halted then .halted else .ready }

/-- The dirty scalar-L1 bytes of a list of cores are written back. -/
def State.writeCores (s : State) (l : List Core) : State := l.foldl (fun s c => s.writeBack c.l1) s

/-- The image of a stopped drove is in memory, its sheet records with STOP = 0x31 (R288), and its cores are free; its dirty
scalar-L1 bytes are written back. -/
def State.saveDrove (s : State) (d : Drove) : State :=
  let held := d.cores.filterMap s.coreAt
  let cores := d.cores.zipIdx.filterMap fun q => (s.coreAt q.1).map fun c => { c with place := q.2, l1 := [], tlb := [] }
  let recs := (s.sheets.filter fun h => h.droveId = d.id).map fun h => (⟨0x31, h.image⟩ : Record)
  let img : Image := ⟨d.id, recs, cores⟩
  let s := (s.writeCores held).clearSheets d.id
  { s with
    saved := s.saved ++ [img]
    droves := s.droves.map fun (q : Drove) => if q.id = d.id then { q with st := .saved, since := s.ids } else q
    ids := s.ids + 1 }

/-- The timer of a drove has fired: the sheet takes the trap at its next stop point, or inside the instruction it is about to run,
before a pre-emption that waits for the same boundary (R282). -/
def Sheet.timerFires (h : Sheet) (elem : Option Nat) : Sheet :=
  match h.irq with
  | none => { h with irq := some (.timer, elem) }
  | some (.preempt, e) => { h with irq := some (.timer, e), preAfter := true }
  | some (.timer, _) => h

/-- The sheet is to stop for a pre-emption inside the instruction it is about to run, at element or chunk k at the latest, behind a
timer trap that has fired (R282). -/
def Sheet.preemptAt (h : Sheet) (k : Nat) : Sheet :=
  match h.irq with
  | some (.timer, e) => { h with irq := some (.timer, e.map fun n => min n k), preAfter := true }
  | _ => { h with irq := some (.preempt, some k) }

/-- A turn for every copy engine that has a command. -/
def State.copyTurns (s : State) : List Turn :=
  (List.range 24).filterMap fun n =>
    if (s.engineAt n).queue.isEmpty then none else some (.ev (.copyExecute (n / 4) (n % 4)))

/-- The drove of an identity, when it is resident. -/
def State.resident? (s : State) (id : Nat) : Option Drove := (s.drove? id).filter fun d => d.st = .resident

/-- PRE_EMPTION of a drove. With an element or chunk number, the sheet in focus first runs on to it, and the save is the event
after; while a copy holds up a read of a weight load, the copies run first. DEDUCED: log 88. -/
def execPreEmption (drove : Nat) (elem : Option Nat) (s : State) : Out3 :=
  match s.resident? drove with
  | none => .next s
  | some d =>
    let s := s.elapse
    match elem with
    | some k =>
      if s.sh.droveId = drove ∧ s.sh.run = .ready then
        .next { s with
          sh := s.sh.preemptAt k
          agenda := .run s.sh.place :: .ev (.preEmption drove none) :: s.agenda }
      else .next s
    | none =>
      match s.stopSheets ((s.sheets.filter fun h => h.droveId = drove).map Sheet.place) with
      | .ok s => .next (s.saveDrove d)
      | .error (.pois va line s) => .next (Stop.pois va line s).take
      | .error _ => .next { s with agenda := s.copyTurns ++ .ev (.preEmption drove none) :: s.agenda }

/-- TIMER_EXPIRY: each sheet of the drove takes the timer trap at its next stop point; the sheet in focus may be inside an array
instruction or a collective, at an element or chunk number. A saved drove takes it at its restore (R282).
DEDUCED: log 88. -/
def execTimerExpiry (drove : Nat) (elem : Option Nat) (s : State) : Out3 :=
  match s.drove? drove with
  | none => .next s
  | some d =>
    if !d.timer then .next s
    else if d.st = .saved then
      .next { s with droves := s.droves.map fun (q : Drove) => if q.id = drove then { q with missed := true } else q }
    else
      let s := if s.sh.droveId = drove ∧ s.sh.run = .ready then s.withSheet (s.sh.timerFires elem) else s
      .next (s.eachSheet fun h => if h.droveId = drove ∧ h.run ≠ .halted then h.timerFires none else h)

/-! ### Restore (R288, R292, R393) -/

/-- The tiles of a drove fit the stores of its cores. DEDUCED: log 32. -/
def State.tilesFit (s : State) (id : Nat) : Bool :=
  (s.tiles.filter fun t => t.drove = id).all fun t => match s.tileSite t with
    | some u => s.storeUsed t.level u ≤ storeBytes t.level
    | none => false

/-- The counters that an image keeps of a drove's window on a logical die. -/
def State.countersOf (s : State) (id die : Nat) : List (Nat × Word) :=
  ((s.windows.find? fun (w : Window) => w.drove = id && w.die = die).map Window.ctr).getD []

/-- RESTORE: a saved drove takes its places again, on cores where its shape fits; nothing happens when R393 does not allow it.
DESIGN CHOICE: log 6. -/
def execRestore (drove : Nat) (cores : List Nat) (s : State) : Out3 :=
  let s := s.elapse
  match s.drove? drove, s.saved.find? fun i => i.drove = drove, s.cands.find? fun c => c.saved && c.num = drove with
  | some d, some img, some c =>
    match s.grantWindows drove d.shape d.cwin cores (s.countersOf drove) with
    | some ws =>
      let due := if d.missed then some (Irq.timer, none) else none
      let sheets := img.recs.map fun r =>
        let h := r.sheet
        let q := h.spr.flatIx
        let ns := nSheets d.shape
        { h with
          place := 4 * cores.getD (q / ns) 0 + q % ns
          irq := if h.run = .halted then none else due }
      let held := img.cores.map fun k => { k with place := cores.getD k.place 0 }
      let id := s.ids + 1
      let d' := { d with st := .resident, cores := cores, since := id, missed := false }
      let t := s.seat sheets held
      let t := { t with
        droves := t.droves.map fun (q : Drove) => if q.id = drove then d' else q
        saved := t.saved.filter fun (i : Image) => i.drove ≠ drove
        windows := (t.windows.filter fun (w : Window) => w.drove ≠ drove) ++ ws
        ids := id }
      if s.mayPlace d.sad && s.firstOf c && s.coresOk d.shape cores && t.tilesFit drove then .next t else .next s
    | none => .next s
  | _, _, _ => .next s

/-! ### Retirement and removal (R22, R26) -/

/-- Every operation the drove issued has completed. DEDUCED: log 89. -/
def State.quiet (s : State) (d : Drove) : Bool :=
  let mine := s.sheets.filter fun h => h.droveId = d.id
  !mine.isEmpty && (mine.all fun h => h.run = .halted) &&
    (d.cores.filterMap s.coreAt).all (fun c => c.wloads.isEmpty && c.queue.toList.all List.isEmpty) &&
    (mine.all fun h => h.vq.isEmpty) && !(s.engines.toList.any fun e => e.queue.any fun c => c.drove = d.id) &&
    !(s.posted.any fun p => p.issuer.any fun i => i.1 = d.id) && !(s.packets.any fun p => !p.lost && s.spans.any fun sp => sp.drove = d.id && sp.is p.sad p.id p.gen)

/-- DROVE_RETIREMENT: the drove's dirty lines are written back, what it holds is freed, and its node's completion follows.
DEDUCED: log 89. -/
def execDroveRetirement (drove : Nat) (s : State) : Out3 :=
  match s.resident? drove with
  | none => .next s
  | some d =>
    if s.quiet d then
      let s := s.elapse
      let s := s.writeCores (d.cores.filterMap s.coreAt)
      let s := (s.clearSheets drove).freeHoldings drove
      .next (s.nodeDone d.sad d.node)
    else .next s

/-- DROVE_REMOVAL by the saddle's runtime: the drove ends as by a kill, and no event is posted. PRESUMED: log 90. -/
def execDroveRemoval (drove : Nat) (s : State) : Out3 :=
  match s.drove? drove with
  | none => .next s
  | some d => .next (s.elapse.endDrove drove (BitVec.ofNat 12 (d.sad * 64 + d.slot)))

/-! ### Rounds (R393) -/

/-- Cores that a saddle's resident droves hold. -/
def State.coresOf (s : State) (sad : Nat) : Nat :=
  ((s.droves.filter fun d => d.sad = sad && d.st = .resident).map fun d => d.cores.length).sum

/-- The drove that makes room next: of a saddle above its share, bulk before normal before latency, the youngest first. -/
def State.victim (s : State) : Option Drove :=
  let l := s.droves.filter fun d =>
    d.st = .resident && (s.saddles[(sadOf d.sad).val]).share < s.coresOf d.sad * roundCounts
  l.foldl (fun b d => match b with
    | none => some d
    | some q => if q.cls < d.cls || (q.cls = d.cls && q.since < d.since) then some d else b) none

/-- The module as it will stand once a drove has been pre-empted, its cores and its windows free. -/
def State.vacate (s : State) (d : Drove) : State :=
  let s := s.clearSheets d.id
  { s with droves := s.droves.map fun (q : Drove) => if q.id = d.id then { q with st := .saved } else q }

/-- Room for a candidate on cores that are free and not taken for another; droves are pre-empted until it fits. -/
def roomFor (c : Cand) (taken : List Nat) : Nat → State → List Nat → State × List Nat × Option (List Nat)
  | 0, s, gone => (s, gone, none)
  | n + 1, s, gone =>
    match s.pickCores (fun k => !taken.contains k && s.coreFree k) c.shape c.cwin with
    | some l => (s, gone, some l)
    | none => match s.victim with
      | some d => roomFor c taken n (s.vacate d) (gone ++ [d.id])
      | none => (s, gone, none)

/-- The droves to pre-empt at the start of a round, and the places made, candidate by candidate, on the module as it will stand. -/
def makeRoom : List Cand → State → List Nat → List Nat → List (Cand × List Nat) → List Nat × List (Cand × List Nat)
  | [], _, gone, _, acc => (gone, acc.reverse)
  | c :: l, s, gone, taken, acc =>
    let g := s.saddles[(sadOf c.sad).val]
    if g.weight = 0 || g.share < shapeCores c.shape * roundCounts then makeRoom l s gone taken acc
    else match roomFor c taken (s.droves.length + 1) s gone with
      | (s, gone, some cores) =>
        let ws := (s.grantWindows (s.ids + 1) c.shape c.cwin cores fun _ => []).getD []
        makeRoom l { s with windows := s.windows ++ ws } gone (taken ++ cores) ((c, cores) :: acc)
      | (s, gone, none) => makeRoom l s gone taken acc

/-- The event that places a candidate on cores. -/
def Cand.turn (q : Cand × List Nat) : Turn :=
  if q.1.saved then .ev (.restore q.1.num q.2) else .ev (.drovePlacement q.1.sad q.1.num q.2)

/-- A deficit of d after k ≥ 1 rounds, each of which adds a share up to the share and then costs what the resident cores cost. -/
def deficitAfter (d : Int) (share cost k : Nat) : Int := min (min d 0 + k * ((share : Int) - cost)) ((share : Int) - cost)

/-- Shares and deficits when k rounds have begun, the first of them `late` counts ago; the resident cores have been charged up to
now. -/
def State.refill (s : State) (k late : Nat) : State :=
  let all := s.allWeight
  { s with saddles := (s.saddles.zipIdx).map fun q =>
      if s.hasWork q.2 then
        let share := shareOf q.1.weight.toNat all
        let c := s.coresOf q.2
        let d := deficitAfter (q.1.deficit + c * late) share (c * roundCounts) k + c * ((k * roundCounts : Nat) - (late : Int))
        { q.1 with share := share, deficit := d }
      else { q.1 with share := 0, deficit := 0 } }

/-- DRR_ROUND: TIME reaches the end of the round, unless it has passed it and as many rounds as it has, shares and deficits are set,
and the droves that must make room are pre-empted before the ready droves take it. DESIGN CHOICE: log 8. -/
def execDrrRound (s : State) : Out3 :=
  if !s.timeOn then .next s
  else
    let s := s.tick (s.roundAt.toNat + roundCounts - s.time.toNat)
    let past := s.time.toNat - s.roundAt.toNat
    let k := past / roundCounts
    let s := ({ s with roundAt := s.roundAt + BitVec.ofNat 64 (k * roundCounts) } : State).refill k (past - roundCounts)
    let q := if s.coolantOk && s.svc ≠ 0 then makeRoom s.cands s [] [] [] else ([], [])
    .next { s with
      agenda := (q.1.map fun id => Turn.ev (.preEmption id none)) ++ q.2.map Cand.turn ++ s.agenda }

/-! ### Nodes without a drove (R390 to R392) -/

/-- NODE_COMPLETE. -/
def execNodeComplete (sad node : Nat) (s : State) : Out3 :=
  match s.node? sad node with
  | some n => if n.st = 4 then .next (s.completeNode n) else .next s
  | none => .next s

/-- A node that is ready and of a kind. -/
def State.readyNode (s : State) (sad node kind : Nat) : Option Node :=
  (s.node? sad node).filter fun n => n.st = 2 && recKind n.body = kind

/-- A descriptor in memory, as the saddle's runtime reads it; the read waits for a line that a copy engine owns (R209). -/
def State.readDesc (s : State) (sad : Nat) (va : Word) : Except (Nat × Word) (BitVec 1024) :=
  match rangeOf .load (s.xlateAs (runtimeWho sad) .load) va 128 with
  | .error (c, f) => .error (c, f)
  | .ok l =>
    if (linesOf (physKeys l)).any s.owned then .error (walkWaits, va)
    else match s.firstPoison l with
      | some q => .error (0x60, lineVa (va + BitVec.ofNat 64 q.1))
      | none => .ok (BitVec.ofNat 1024 (leNat (s.aRead (physKeys l))))

/-- The command of a copy node, checked as `copy` checks it, in the name of the saddle's runtime (R235, R390).
DEDUCED: log 91. -/
def State.nodeCmd (s : State) (n : Node) : Except (Nat × Word) Cmd := do
  let who := runtimeWho n.sad
  let dst ← s.readDesc n.sad (recP0 n.body)
  let src ← s.readDesc n.sad (recP1 n.body)
  let h := { Sheet.reset with
    d := (Sheet.reset.d.set 0 dst).set 1 src
    spr := { Spr.reset with brand := who.brand.zeroExtend 64, status := 1 } }
  let t := s.withSheet h
  match (do
    let x ← t.copyD 1 1 false
    let y ← t.copyD 0 0 true
    if prodL x.shape ≠ prodL y.shape then trapE t 0x20 0
    needD t 0 1 (copyPair x.t y.t)
    if copyClash y x then trapE t 0x25 1
    pure () : Except Stop Unit) with
  | .ok _ => pure ⟨n.sad, who.brand, 0, 1, 0, 0, src, dst, none, 0, .rne, false, .node n.num, [], [], [], none, ⟨0, []⟩,
    none⟩
  | .error (.trap c _ fa _) => .error (c, fa)
  | .error (.wait _) => .error (walkWaits, 0)
  | .error (.pois va _ _) => .error (0x60, va)

/-- COPY_NODE_START: the copy enters engine 0 of die 0, when the queue has a place and no other copy owns its lines; a copy that
fails its checks reports a copy fault, and the node is done; one whose descriptors are another engine's to write has not begun.
DEDUCED: log 91. -/
def execCopyNodeStart (sad node : Nat) (s : State) : Out3 :=
  match s.readyNode sad node 1 with
  | none => .next s
  | some n =>
    match s.nodeCmd n with
    | .error (c, fa) =>
      if c = walkWaits then .next s
      else .next (((s.postEvent sad 1 c (runtimeWho sad).brand 0 fa 0).nodeState sad node 3).nodeDone sad node)
    | .ok c =>
      if c.items = 0 then .next ((s.nodeState sad node 3).nodeDone sad node)
      else match s.enqueue 0 c with
        | .ok t => .next (t.nodeState sad node 3)
        | .error _ => .next s

/-- A word is posted to an event queue; bit 63 is not part of it (R160). DEDUCED: log 92. -/
def EvQ.post (q : EvQ) (w : Word) : EvQ :=
  if q.words.length < 8 then { q with words := q.words ++ [setFld w 63 1 0] } else { q with lost := true }

/-- HOST_EVENT_POST: the word goes to a sheet of the live drove of the target node, resident or saved. DEDUCED: log 92. -/
def execHostEventPost (sad node : Nat) (s : State) : Out3 :=
  match s.readyNode sad node 2 with
  | none => .next s
  | some n =>
    let flat := fld (recP1 n.body) 32 20
    match s.droves.find? fun d => d.sad = sad && d.node = fld (recP1 n.body) 0 32 with
    | some d =>
      if flat < participants d.shape 5 then
        let s := s.everySheet fun h =>
          if h.droveId = d.id ∧ h.spr.flatIx = flat then { h with evq := h.evq.post (recP0 n.body) } else h
        .next (s.nodeDone sad node)
      else .next ((s.nodeError sad node).nodeDone sad node)
    | none => .next ((s.nodeError sad node).nodeDone sad node)

/-- TRIGGER_NODE_WRITE: FIRED := 0, THRESH and NODE of the header are written at its home, once no copy engine owns it and no
earlier write waits (R209). -/
def execTriggerNodeWrite (sad node : Nat) (s : State) : Out3 :=
  match s.readyNode sad node 3 with
  | none => .next s
  | some n =>
    let va := recP0 n.body
    let who := runtimeWho sad
    let put := do
      let fl ← s.readAs who (va + 44) 4
      let s ← s.writeAs who (va + 32) (leBytes 8 (recP1 n.body).toNat ++ leBytes 4 (recNewNode n.body))
      s.writeAs who (va + 44) (leBytes 4 (leNat fl / 2 * 2))
    if s.readBusy who va 48 || !s.posted.isEmpty then .next s
    else match put with
    | some s => .next (s.nodeDone sad node)
    | none => .next ((s.nodeError sad node).nodeDone sad node)

end Machine
end Sys2Proof
end

