-- ==== Sys2Proof/Machine/HostIf.lean ====
section
/-! DEFINITION. What reaches the module from outside or of itself: the saddle registers (R389, R391, R396), writes of the host,
errors and failures (R294 to R299, R387, R397), caches that let go (R161, R250), bring-up, service and cooling (R398 to R400).
-/
namespace Sys2Proof
namespace Machine

/-! ### The saddle's registers (R389) -/

/-- A register write that is dropped. DEDUCED: log 93. -/
def State.dropWrite (s : State) (sad : Nat) : State := s.setSad sad fun g => { g with errs := satInc g.errs }

/-- The saddle has a live drove, or a node that is waiting, ready or running. -/
def State.sadBusy (s : State) (sad : Nat) : Bool :=
  (s.droves.any fun d => d.sad = sad) || s.nodes.any fun n => n.sad = sad && 1 ≤ n.st && n.st ≤ 3

/-- A write to a register when the condition holds; else it is dropped. -/
def State.barIf (s : State) (sad : Nat) (b : Bool) (g : Saddle → Saddle) : State :=
  if b then s.setSad sad g else s.dropWrite sad

/-- GO (R391): the Wrangler copies a valid host record whose STATE is 1, over any copy it has of that node; the copy waits while a
copy engine owns the record's line (R209). DESIGN CHOICE: log 84. -/
def State.submit (s : State) (sad node : Nat) : State :=
  let g := s.saddles[(sadOf sad).val]
  if node = 0 ∨ g.devBase.toNat < node ∨ g.graphN.toNat < node then s.nodeError sad node
  else if s.readBusy (runtimeWho sad) (s.recVa sad node) 64 then
    { s with agenda := s.copyTurns ++ .ev (.go sad node) :: s.agenda }
  else match s.readRec sad node with
    | some b =>
      if recState b = 1 && recOk b then
        ({ s with nodes := s.nodes.filter fun n => !(n.sad = sad && n.num = node) } : State).addNode sad node b
      else s.nodeError sad node
    | none => s.nodeError sad node

/-- TIMER: a period arms the timer of the live drove of the saddle that the write names, and a period of 0 disarms it; the register
holds one timer, and a write that names no drove of the saddle is dropped. DEDUCED: log 88. -/
def State.setTimer (s : State) (sad : Nat) (v : Word) : State :=
  let period := fld v 0 32
  let mine := fun (d : Drove) => d.sad = sad && d.node = fld v 32 32
  if !s.droves.any mine then s.dropWrite sad
  else
    let s := s.setSad sad fun g => { g with timer := v }
    { s with droves := s.droves.map fun d =>
        if d.sad = sad then { d with timer := period ≠ 0 && mine d } else d }

/-- ADAPT_N: every copy on the saddle's shelves is dropped, at once or when the operations that use it finish (R396). -/
def State.setAdaptN (s : State) (sad : Nat) (v : Word) : State :=
  if 4096 < v.toNat then s.dropWrite sad
  else
    let s := s.setSad sad fun g => { g with adaptN := v }
    ({ s with adapters := s.adapters.map fun a => if a.sad = sad then { a with stale := true } else a } : State).dropStale

/-- A counter is cleared by a write of 0. -/
def State.clearCounter (s : State) (sad off : Nat) (v : Word) : State :=
  match off with
  | 0x080 => s.barIf sad (v = 0) fun g => { g with stale := 0 }
  | 0x088 => s.barIf sad (v = 0) fun g => { g with dup := 0 }
  | 0x090 => s.barIf sad (v = 0) fun g => { g with brandc := 0 }
  | 0x098 => s.barIf sad (v = 0) fun g => { g with lost := 0 }
  | 0x0A8 => s.barIf sad (v = 0) fun g => { g with errs := 0 }
  | _ => s.dropWrite sad

/-- The droves of a saddle whose WEIGHT becomes 0 are pre-empted (R393). -/
def State.setWeight (s : State) (sad : Nat) (v : Word) : State :=
  let s := s.setSad sad fun g => { g with weight := v }
  if v = 0 then
    let ids := (s.droves.filter fun d => d.sad = sad && d.st = .resident).map Drove.id
    { s with agenda := (ids.map fun id => Turn.ev (.preEmption id none)) ++ s.agenda }
  else s

/-- SHELF: adapters that no longer fit and that no operation uses are evicted. -/
def State.setShelf (s : State) (sad : Nat) (v : Word) : State :=
  let s := s.setSad sad fun g => { g with shelf := v }
  let l := (List.range diesPerModule).foldl (fun l die => s.evictFor die sad 0 l) s.adapters.reverse
  { s with adapters := l.reverse }

/-- A whole write of a register at an offset; `pf` when Dribrikan makes it through the physical function. -/
def State.barWrite (s : State) (sad off : Nat) (pf : Bool) (v : Word) : State :=
  let idle := !s.sadBusy sad
  match off with
  | 0x000 => s.submit sad v.toNat
  | 0x008 => s.barIf sad (idle && v.toNat % 64 = 0) fun g => { g with graphBase := v }
  | 0x010 => s.barIf sad (idle && v.toNat ≤ 2 ^ 20) fun g => { g with graphN := v }
  | 0x018 => s.barIf sad idle fun g => { g with devBase := v }
  | 0x020 => s.barIf sad idle fun g => { g with ptRoot := v }
  | 0x028 => s.barIf sad true fun g => { g with tvecDef := v }
  | 0x030 => if pf && v.toNat ≤ 64 then s.setWeight sad v else s.dropWrite sad
  | 0x038 => s.setTimer sad v
  | 0x040 => s.barIf sad (v.toNat ≤ 64) fun g => { g with spanTmo := v }
  | 0x048 => if pf && v.toNat % 4096 = 0 then s.setShelf sad v else s.dropWrite sad
  | 0x050 => s.barIf sad (idle && v.toNat % 32 = 0) fun g => { g with evqBase := v }
  | 0x058 =>
    let ok := v = 0 || (16 ≤ v.toNat && v.toNat ≤ 65536 && v &&& (v - 1) = 0)
    s.barIf sad (idle && ok) fun g => { g with evqLen := v }
  | 0x060 => s.barIf sad true fun g => { g with evqHead := v }
  | 0x070 => s.barIf sad (idle && v.toNat % 64 = 0) fun g => { g with adaptBase := v }
  | 0x078 => s.setAdaptN sad v
  | _ => s.clearCounter sad off v

/-- A read of a register: GO and a reserved offset read 0. -/
def State.barRead (s : State) (sad off : Nat) : Word :=
  let g := s.saddles[(sadOf sad).val]
  match off with
  | 0x008 => g.graphBase
  | 0x010 => g.graphN
  | 0x018 => g.devBase
  | 0x020 => g.ptRoot
  | 0x028 => g.tvecDef
  | 0x030 => g.weight
  | 0x038 => g.timer
  | 0x040 => g.spanTmo
  | 0x048 => g.shelf
  | 0x050 => g.evqBase
  | 0x058 => g.evqLen
  | 0x060 => g.evqHead
  | 0x068 => g.evqTail
  | 0x070 => g.adaptBase
  | 0x078 => g.adaptN
  | 0x080 => g.stale
  | 0x088 => g.dup
  | 0x090 => g.brandc
  | 0x098 => g.lost
  | 0x0A0 => BitVec.ofNat 64 (s.svc + s.up.toNat * 256 + s.cal.toNat * 65536)
  | 0x0A8 => g.errs
  | _ => 0

/-- GO. DESIGN CHOICE: log 84. -/
def execGo (sad node : Nat) (s : State) : Out3 := .next (s.elapse.submit sad node)
/-- TIMER. -/
def execTimer (sad : Nat) (v : Word) (s : State) : Out3 := .next (s.setTimer sad v)
/-- ADAPT_N. -/
def execAdaptN (sad : Nat) (v : Word) (s : State) : Out3 := .next (s.setAdaptN sad v)
/-- COUNTER_CLEAR. -/
def execCounterClear (sad off : Nat) (v : Word) (s : State) : Out3 := .next (s.clearCounter sad off v)
/-- BAR_REGISTER_WRITE. -/
def execBarRegisterWrite (sad off : Nat) (pf : Bool) (v : Word) (s : State) : Out3 := .next (s.barWrite sad off pf v)

/-- HOST_POSTED_WRITE, to the saddle's memory; one that no page maps for the saddle's runtime is lost (R391).
DEDUCED: log 93. -/
def execHostPostedWrite (sad : Nat) (va : Word) (data : List Byte) (s : State) : Out3 :=
  .next ((s.writeAs (runtimeWho sad) va data).getD s)

/-! ### Waits, caches (R22, R161, R250) -/

/-- WAIT_SATISFIED: the sheet at a place executes its waiting instruction again, which tests its condition afresh. -/
def execWaitSatisfied (k : Nat) (s : State) : Out3 :=
  match s.sheetAt k with
  | some h => if h.run = .waiting then .next { s with agenda := .run k :: s.agenda } else .next s
  | none => .next s

/-- L1_EVICTION: the core in focus evicts a line and writes back its dirty bytes. -/
def execL1Eviction (line : Nat) (s : State) : Out3 := .next (s.flushHere (inLines [line]))

/-- TLB_CAPACITY_DROP, in the TLB of the core in focus or in that of the sheet in focus. -/
def execTlbCapacityDrop (core : Bool) (n : Nat) (s : State) : Out3 :=
  if core then .next { s with core := { s.core with tlb := s.core.tlb.eraseIdx n } }
  else .next { s with sh := { s.sh with tlb := s.sh.tlb.eraseIdx n } }

/-! ### Errors (R294 to R299) -/

/-- The paddock of a planted error: its kind in the order of R295, with a line-cache slice as a kind of its own, and its instance. -/
def Planted.paddock (p : Planted) : Nat × Nat :=
  let die := injDie p.loc
  match p.site.val with
  | 0 => (4, channelNo (lineOf p.loc.toNat))
  | 1 => (lineSliceKind, Config.lineSlice (lineOf p.loc.toNat))
  | 2 => (3, Config.storeSlice die (injOff p.loc))
  | 3 => (2, die * 16 + injUnit p.loc)
  | 8 => (5, die * 4 + injUnit p.loc)
  | _ => (1, die * coresPerDie + injUnit p.loc)

/-- A planted error that is corrected in place: one flipped bit where a check corrects it, or one copy of a tag (R294, R299). -/
def Planted.mild (p : Planted) : Bool := (p.kind = 0 && p.site.val ≤ 5) || p.kind = 2

/-- The planted error that was met is no longer there. DEDUCED: log 33. -/
def State.meet (s : State) (kind inst : Nat) (mild : Bool) : State :=
  match s.planted.find? fun p => p.mild = mild && p.paddock = (kind, inst) with
  | some p => { s with planted := s.planted.erase p }
  | none => s

/-- The brand of a live drove. -/
def Drove.brand12 (d : Drove) : BitVec 12 := BitVec.ofNat 12 (d.sad * 64 + d.slot)

/-- A tile of a die's store has bytes in a slice. -/
def State.tileInSlice (s : State) (inst : Nat) (t : Tile) : Bool :=
  t.level = 3 && match s.tileSite t with
    | none => false
    | some die => (List.range (tileAlloc t / 4096)).any fun k => (List.range 4096).any fun j =>
      Config.storeSlice die (4096 * Config.unitAt 3 die t.drove t.handle.toNat k + j) = inst

/-- An adapter on a shelf has bytes in a slice of its die's store. -/
def adapterInSlice (inst : Nat) (a : Adapter) : Bool :=
  (List.range (a.size / 4096)).any fun k => (List.range 4096).any fun j =>
    Config.storeSlice a.die (4096 * Config.shelfUnit a.die a.sad a.id.toNat k + j) = inst

/-- The brand of an adapter on a shelf: the saddle's runtime wrote it (R294, R396). DESIGN CHOICE: log 35. -/
def Adapter.brand (a : Adapter) : BitVec 12 := BitVec.ofNat 12 (a.sad * 64 + 63)

/-- The clean lines that a cache holds, each with the brand that last wrote it. DESIGN CHOICE: log 34. -/
def State.cleanLines (s : State) (cache : Nat) : List CachedLine := s.lineBrands.filter fun q => s.holdsClean cache q.line

/-- The brands that hold an entry in a paddock (R294 to R296): those of the sheets, the tiles, the adapters of a shelf, the lines of a
scalar L1, a line cache or a memory channel, the commands and the facet table of an engine, the packets of a port.
DESIGN CHOICE: log 35. -/
def State.brandsIn (s : State) (kind inst : Nat) : List (BitVec 12) :=
  let l : List (BitVec 12) := match kind with
  | 1 =>
    ((s.sheets.filter fun (h : Sheet) => coreOf h.place = inst).map fun h => h.spr.brand12) ++
      ((s.coreAt inst).toList.flatMap fun c => c.l1.map Dirty.brand ++ (s.cleanLines (inst + 1)).map CachedLine.brand) ++
      (s.tiles.filter fun t => t.level = 1 && s.tileSite t = some inst).map Tile.brand
  | 2 => (s.tiles.filter fun t => t.level = 2 && s.tileSite t = some inst).map Tile.brand
  | 3 => (s.tiles.filter (s.tileInSlice inst)).map Tile.brand ++ (s.adapters.filter (adapterInSlice inst)).map Adapter.brand
  | 4 =>
    (s.lineBrands.filter fun q => q.line < 2 ^ 46 && (Config.channelOf q.line).val = inst).map CachedLine.brand
  | 5 => ((s.engineAt inst).queue.map Cmd.brand) ++ ((s.engineAt inst).facet.map Prod.fst).toList
  | 6 => (s.packets.filter fun (p : Packet) => (Config.portOf p.id).val = inst).map Packet.brand
  | _ => ((s.lcache ++ s.cleanLines 0).filter fun q => Config.lineSlice q.line = inst).map CachedLine.brand
  l.dedup

/-- The reason of the kill of a brand that was read: a buffered chunk of a span is a reason of its own (R388, R395).
DEDUCED: log 112. -/
def killReason (kind : Nat) : Nat := if kind = 6 then 4 else 1

/-- The kills of an error in an entry: of its brand, or of every brand with an entry in the paddock (R296). -/
def State.killEntry (s : State) (kind inst : Nat) (brand : Option (BitVec 12)) (addr : Word) : State :=
  match brand with
  | some b => s.killBrand b kind inst (killReason kind) addr
  | none => (s.brandsIn kind inst).foldl (fun s b => s.killBrand b kind inst 2 addr) s

/-- A line is poisoned. -/
def State.poisonLine (s : State) (line : Nat) : State := { s with poison := insertNat line s.poison }

/-- An error in a dirty line: one of a line cache reaches memory poisoned, unless its brand is zero (R296). -/
def State.dirtyError (s : State) (kind inst line : Nat) (brand : Option (BitVec 12)) : State :=
  let s := if kind ≠ 1 ∧ brand ≠ some 0 then s.poisonLine line else s
  s.killEntry kind inst brand 0

/-- UNCORRECTABLE_ERROR (R296): a clean line is refetched; a dirty line of a line cache reaches memory poisoned; its brand is
killed; a memory line is poisoned. A dirty line that is not a core's is one of a line cache. -/
def execUncorrectableError (e : ErrEntry) (s : State) : Out3 :=
  match e with
  | .cleanLine _ => .next s
  | .memLine pa => .next ((s.meet 4 (channelNo (lineOf pa)) false).poisonLine (lineOf pa))
  | .dirtyLine kind inst pa brand =>
    let k := if kind = 1 then 1 else lineSliceKind
    .next ((s.meet k inst false).dirtyError k inst (lineOf pa) brand)
  | .entry kind inst brand => .next ((s.meet kind inst false).killEntry kind inst brand 0)

/-- An error corrected in a paddock is counted for it (R299). -/
def State.countError (s : State) (kind inst : Nat) : State :=
  let n := (s.corrected.find? fun c => c.1 = kind && c.2.1 = inst).elim 0 fun c => c.2.2
  { s with corrected := (kind, inst, n + 1) :: s.corrected.filter fun c => !(c.1 = kind && c.2.1 = inst) }

/-- CORRECTABLE_ERROR: corrected in place and counted for its paddock (R299). -/
def execCorrectableError (kind inst : Nat) (s : State) : Out3 := .next ((s.meet kind inst true).countError kind inst)

/-- CHANNEL_FAILURE (R297). -/
def execChannelFailure (ch : Nat) (s : State) : Out3 :=
  if h : ch < 192 then
    .next { s with deadChannels := ⟨ch, h⟩ :: s.deadChannels.filter fun c => c.val ≠ ch }
  else .next s

/-- EXPANDER_REMOVAL (R397). -/
def execExpanderRemoval (port : Nat) (s : State) : Out3 :=
  if h : port < 4 then
    .next { s with deadPorts := ⟨port, h⟩ :: s.deadPorts.filter fun c => c.val ≠ port }
  else .next s

/-! ### Harness ports (R387) -/

def State.setPort (s : State) (n : Nat) (g : Port → Port) : State :=
  { s with ports := (s.ports.zipIdx).map fun q => if q.2 = n then g q.1 else q.1 }

/-- FLIT_RECEIPT: a flit whose CRC fails is dropped, and the sender replays it; so is one that is not the next. A flit still lost
after the link has retrained for it loses its packet, and the next flit is expected. The payload comes from another module.
DESIGN CHOICE: log 95. -/
def execFlitReceipt (port : Nat) (flit : BitVec 2048) (s : State) : Out3 :=
  let b := leBytes 256 flit.toNat
  let good := leNat (b.drop 252) = (crc32c (b.take 252)).toNat
  let p := s.ports.toList.getD port ⟨true, 0, 0, false⟩
  if p.failed then .next s
  else if !good then .next (s.setPort port fun p =>
    if p.retrained then { p with seq := p.seq + 1, fails := 0, retrained := false } else { p with fails := min 17 (p.fails + 1) })
  else if leNat ((b.drop 248).take 4) = p.seq.toNat then
    .next (s.setPort port fun p => { p with seq := p.seq + 1, fails := 0, retrained := false })
  else .next s

/-- LINK_RETRAIN, after 16 failed replays of a flit that failed first. -/
def execLinkRetrain (port : Nat) (s : State) : Out3 :=
  .next (s.setPort port fun p => if 17 ≤ p.fails then { p with fails := 0, retrained := true } else p)

/-- HARNESS_PORT_FAILURE: the port is disabled whole; spans are routed around it. -/
def execHarnessPortFailure (port : Nat) (s : State) : Out3 := .next (s.setPort port fun p => { p with failed := true })

/-! ### Bring-up, service, cooling, the security protocol (R398 to R400) -/

/-- A service-change event to every saddle (R395, R398). -/
def State.postService (s : State) : State := s.postAll 7 (s.svc + s.up.toNat * 256 + s.cal.toNat * 65536)

/-- Firmware runs from an image: TIME starts, and with it the first round, with every deficit at 0 (R41, R393). -/
def State.boot (s : State) (img : Nat) : State :=
  { s with
    fw := .running
    image := img
    timeOn := true
    roundAt := s.time
    saddles := s.saddles.map fun g => { g with deficit := 0, share := 0 } }

/-- POWER_ON: the image in flash, number 0, is verified; one that fails leaves the recovery window. DEDUCED: log 94. -/
def execPowerOn (s : State) : Out3 :=
  match s.fw with
  | .off => .next (if Config.verifies 0 then s.boot 0 else { s with fw := .recovery })
  | .recovery => .next s
  | .running => .next s

/-- RECOVERY_IMAGE_WRITE: the image is verified in the same way before it runs. -/
def execRecoveryImageWrite (img : Nat) (s : State) : Out3 :=
  match s.fw with
  | .recovery => .next (if Config.verifies img then s.boot img else s)
  | .off => .next s
  | .running => .next s

def setDie (m : BitVec 6) (die : Nat) : BitVec 6 := m ||| BitVec.ofNat 6 (2 ^ die)

/-- DIE_UP. DEDUCED: log 94. -/
def execDieUp (die : Nat) (s : State) : Out3 :=
  if s.fw = .running ∧ die < diesPerModule ∧ s.up.toNat.testBit die = false then
    .next ({ s with up := setDie s.up die } : State).postService
  else .next s

/-- DIE_CALIBRATED, of a die that is up. -/
def execDieCalibrated (die : Nat) (s : State) : Out3 :=
  if s.dieIn die ∧ s.cal.toNat.testBit die = false then
    .next ({ s with cal := setDie s.cal die } : State).postService
  else .next s

/-- COOLANT_OUT_OF_RANGE: every drove is pre-empted, every saddle has a thermal event, and none is placed (R400). -/
def execCoolantOutOfRange (s : State) : Out3 :=
  let ids := (s.droves.filter fun d => d.st = .resident).map Drove.id
  let s := { s with coolantOk := false, agenda := (ids.map fun id => Turn.ev (.preEmption id none)) ++ s.agenda }
  .next (s.postAll 8 0)

/-- COOLANT_RESTORED. -/
def execCoolantRestored (s : State) : Out3 := .next { s with coolantOk := true }

/-- The units that are disabled while the module runs: memory channels, then harness ports (R292, R297, R387). -/
def State.disabledUnits (s : State) : List Nat :=
  s.deadChannels.map Fin.val ++ (s.ports.toList.zipIdx.filter fun q => q.1.failed).map fun q => 192 + q.2

/-- SPDM_REQUEST on the physical function, 64, or on a virtual function: an answer goes out (R397, R399). -/
def execSpdmRequest (fn msg : Nat) (s : State) : Out3 :=
  if fn ≤ 64 then .next { s with out := s.out ++ [.spdm fn (Config.spdmReply fn msg s.image s.disabledUnits)] } else .next s

end Machine
end Sys2Proof
end

