-- ==== Sys2Proof/Machine/Outrider.lean ====
section
/-! DEFINITION. The Outrider (R44, R197 to R202, R206, R207, R258 to R260, R276, R277): it looks along the executed path from the
sheet's next instruction, issues and performs vector loads ahead, and fills binding slots.
-/
namespace Sys2Proof

def XSrc.regs : XSrc → List XReg
  | .reg r => [r]
  | .imm _ => []

/-- Instructions past which no later load of stream A is issued (R165, R166, R198, R212, R213). DEDUCED: log 36. -/
def Instr.holdsA : Instr → Bool
  | .fence _ after _ => after.getLsbD 1
  | .hold set => set.getLsbD 1
  | .lda .. => true
  | .amoAdd .. => true
  | .amoAnd .. => true
  | .amoOr .. => true
  | .amoXor .. => true
  | .amoMin .. => true
  | .amoMax .. => true
  | .amoSwap .. => true
  | .cas .. => true
  | .cutBand .. => true
  | .cutSquare .. => true
  | _ => false

/-- Instructions at which the look ends: control transfers, which must resolve first (R258), and `ctxrest`, after which nothing that
a load depends on is known. DEDUCED: log 36. -/
def Instr.endsLook : Instr → Bool
  | .br .. => true
  | .jmp .. => true
  | .jal .. => true
  | .jr .. => true
  | .jalr .. => true
  | .halt => true
  | .trap .. => true
  | .sret => true
  | .mret => true
  | .ctxrest .. => true
  | _ => false

/-- Instructions whose own reads of stream A come before those of later loads (R202, R306, R318). -/
def Instr.readsA : Instr → Bool
  | .wld .. => true
  | .cocut .. => true
  | _ => false

/-- Instructions that set AEC to a value that only their execution gives (R355). -/
def Instr.setsAec : Instr → Bool
  | .vfibre .. => true
  | _ => false

/-- The groups an instruction reads through their bindings, but for the elementwise ones (R275). -/
def Instr.groups : Instr → List VReg
  | .vcompress _ _ a => [a]
  | .vexpand _ _ a => [a]
  | .vslideup _ _ a _ => [a]
  | .vslidedn _ _ a _ => [a]
  | .vperm _ _ a b => [a, b]
  | .vext _ _ a _ => [a]
  | .vred _ _ _ _ a => [a]
  | .vscan _ _ _ _ a => [a]
  | .vldx _ _ _ _ _ c _ => [c]
  | .vwgath _ _ _ _ _ c _ => [c]
  | .vst _ _ d _ _ => [d]
  | .vsts _ _ d _ _ _ => [d]
  | .vstx _ _ d _ c _ => [d, c]
  | .tst _ _ d _ _ => [d]
  | .vamo _ _ _ _ _ _ b _ => [b]
  | .vsegoff _ _ a _ => [a]
  | .vfibre _ _ a _ _ => [a]
  | .vsred _ _ _ _ a _ => [a]
  | .vsscan _ _ _ _ a _ => [a]
  | .vmaxi _ _ a _ _ => [a]
  | .vmaxiSeg _ _ a _ _ => [a]
  | .gadd _ _ a _ => [a]
  | .mmul _ _ a _ _ => [a]
  | .mmuls _ _ a _ _ _ _ => [a]
  | .mmula _ _ a _ _ => [a]
  | .mgrp _ _ a _ => [a]
  | .mdrainIndexed _ _ _ c _ => [c]
  | .cgath _ _ _ _ c _ _ _ => [c]
  | .xall _ _ _ _ _ a _ => [a]
  | .xred _ _ _ _ _ a _ _ => [a]
  | .xgath _ _ a _ _ => [a]
  | .xscat _ _ a _ _ => [a]
  | .xbcast _ _ a _ _ => [a]
  | .xsend _ a _ _ => [a]
  | _ => []

/-- The x registers an instruction writes, but for the integer class and the strip instructions. -/
def Instr.xOut : Instr → List XReg
  | .fcmp _ _ d _ _ => [d]
  | .fcvti _ _ _ _ d _ => [d]
  | .fmvx _ d _ => [d]
  | .evwait d => [d]
  | .ld _ d _ _ => [d]
  | .ldp _ d c _ _ => [d, c]
  | .mpop _ d _ => [d]
  | .mfirst _ d _ => [d]
  | .vext _ d _ _ => [d]
  | .vred _ _ _ d _ => [d]
  | .vassay _ _ _ _ _ _ _ c => [c]
  | .vmaxi _ d _ _ c => [d, c]
  | .vappend _ _ d _ _ => [d]
  | .vfibre _ _ _ _ c => [c]
  | .gslot d _ _ _ => [d]
  | .dshape d _ _ _ => [d]
  | .asel _ _ _ c => [c]
  | .acomp _ _ _ c _ => [c]
  | .mset _ d a b => [d, a, b]
  | .kpoll d _ => [d]
  | .cutBand _ d _ _ _ => [d, d + 1, d + 2, d + 3]
  | .cutSquare _ d _ _ _ => [d, d + 1, d + 2, d + 3]
  | .cutq d => [d, d + 1, d + 2, d + 3]
  | .talloc _ _ d _ _ _ => [d]
  | .tinfo _ d _ => [d]
  | .swait d _ _ => [d]
  | .gnode d _ => [d]
  | .xalloc _ _ d _ => [d]
  | .srd d _ => [d]
  | .einj _ _ d _ _ => [d]
  | _ => []

/-- The groups an instruction writes, but for the elementwise ones. -/
def Instr.vOut : Instr → List VReg
  | .vcompress _ d _ => [d]
  | .vexpand _ d _ => [d]
  | .vslideup _ d _ _ => [d]
  | .vslidedn _ d _ _ => [d]
  | .vperm _ d _ _ => [d]
  | .vbcast _ d _ => [d]
  | .vins _ d _ _ => [d]
  | .viota _ d => [d]
  | .vscan _ _ _ d _ => [d]
  | .vld _ _ _ d _ _ => [d]
  | .vlds _ _ _ d _ _ _ => [d]
  | .vldx _ _ _ d _ _ _ => [d]
  | .vwgath _ _ d _ _ _ _ => [d]
  | .tld _ _ _ d _ _ => [d]
  | .vamo _ _ _ _ d _ _ _ => [d]
  | .vassay _ _ _ _ d _ _ _ => [d]
  | .vsred _ _ _ d _ _ => [d]
  | .vsscan _ _ _ d _ _ => [d]
  | .gsnap d _ => [d]
  | .mdrv _ d _ => [d]
  | .xall _ _ _ _ d _ _ => [d]
  | .xred _ _ _ _ d _ _ _ => [d]
  | .xgath _ d _ _ _ => [d]
  | .xscat _ d _ _ _ => [d]
  | .xbcast _ d _ _ _ => [d]
  | .xrecv _ d _ _ => [d]
  | _ => []

/-- The masks an instruction writes, but for the elementwise ones. -/
def Instr.mOut : Instr → List MReg
  | .mand _ d _ _ => [d]
  | .mor _ d _ _ => [d]
  | .mxor _ d _ _ => [d]
  | .mandn _ d _ _ => [d]
  | .mnot _ d _ => [d]
  | .mcopy _ d _ => [d]
  | .vwgath _ _ _ _ b _ _ => [b]
  | .vsegoff _ d _ _ => [d]
  | .vfibre _ d _ _ _ => [d]
  | .vmaxiSeg _ d _ _ _ => [d]
  | _ => []

/-- The loads of stream A with a destination in a v register (R202). -/
def Instr.isLoad : Instr → Bool
  | .vld .. => true
  | .vlds .. => true
  | .vldx .. => true
  | .vwgath .. => true
  | .tld .. => true
  | .vassay .. => true
  | _ => false

namespace Machine

/-! ### What the Outrider evaluates itself (R44) -/

/-- Which of VCFG, VL and AEC are meant (R44). -/
structure Cfg where
  vcfg : Bool
  vl : Bool
  aec : Bool
  deriving DecidableEq, Repr

def Cfg.none : Cfg := ⟨false, false, false⟩
def Cfg.strip : Cfg := ⟨false, true, true⟩
def Cfg.all : Cfg := ⟨true, true, true⟩
def Cfg.or (a b : Cfg) : Cfg := ⟨a.vcfg || b.vcfg, a.vl || b.vl, a.aec || b.aec⟩
def Cfg.without (a b : Cfg) : Cfg := ⟨a.vcfg && !b.vcfg, a.vl && !b.vl, a.aec && !b.aec⟩
/-- Every part that b names is in a. -/
def Cfg.has (a b : Cfg) : Bool := (a.vcfg || !b.vcfg) && (a.vl || !b.vl) && (a.aec || !b.aec)

/-- An instruction of integer registers or of the strip: the x registers and the parts of the configuration that it reads and
writes; `old` says that its x result is the VCFG before it. -/
structure Shadow where
  src : List XReg
  dst : XReg
  needs : Cfg
  sets : Cfg
  old : Bool
  run : State → Out3

def shInt (d a : XReg) (b : List XReg) (run : State → Out3) : Option Shadow := some ⟨a :: b, d, .none, .none, false, run⟩

def shadow : Instr → Option Shadow
  | .nop => some ⟨[], 0, .none, .none, false, execNop⟩
  | .add d a b => shInt d a b.regs (execAdd d a b)
  | .sub d a b => shInt d a b.regs (execSub d a b)
  | .mul d a b => shInt d a b.regs (execMul d a b)
  | .mulh ty d a b => shInt d a b.regs (execMulh ty d a b)
  | .div ty d a b => shInt d a b.regs (execDiv ty d a b)
  | .rem ty d a b => shInt d a b.regs (execRem ty d a b)
  | .and d a b => shInt d a b.regs (execAnd d a b)
  | .or d a b => shInt d a b.regs (execOr d a b)
  | .xor d a b => shInt d a b.regs (execXor d a b)
  | .andn d a b => shInt d a b.regs (execAndn d a b)
  | .shl d a b => shInt d a b.regs (execShl d a b)
  | .shr d a b => shInt d a b.regs (execShr d a b)
  | .sar d a b => shInt d a b.regs (execSar d a b)
  | .rol d a b => shInt d a b.regs (execRol d a b)
  | .ror d a b => shInt d a b.regs (execRor d a b)
  | .min ty d a b => shInt d a b.regs (execMin ty d a b)
  | .max ty d a b => shInt d a b.regs (execMax ty d a b)
  | .cmp c d a b => shInt d a b.regs (execCmp c d a b)
  | .clz d a => shInt d a [] (execClz d a)
  | .ctz d a => shInt d a [] (execCtz d a)
  | .popc d a => shInt d a [] (execPopc d a)
  | .bext d a b => shInt d a b.regs (execBext d a b)
  | .bins d a b => shInt d a (d :: b.regs) (execBins d a b)
  | .sext ty d a => shInt d a [] (execSext ty d a)
  | .zext ty d a => shInt d a [] (execZext ty d a)
  | .movh d a b => shInt d a b.regs (execMovh d a b)
  | .crcw ty d a b => shInt d a b.regs (execCrcw ty d a b)
  | .bswap d a => shInt d a [] (execBswap d a)
  | .vset ty d a b => some ⟨[a, b], d, ⟨true, false, false⟩, .strip, false, execVset ty d a b⟩
  | .vset2d ty d a b => some ⟨[a, b], d, ⟨true, false, false⟩, .strip, false, execVset2d ty d a b⟩
  | .vcfg d a => some ⟨[a], d, .none, .all, true, execVcfg d a⟩
  | .swrVcfg a => some ⟨[a], 0, .none, .all, false, execSwrVcfg a⟩
  | .swr n a =>
    if n = 0x011 then some ⟨[a], 0, ⟨true, true, false⟩, ⟨false, false, true⟩, false, execSwr n a⟩
    else if n = 0x012 then some ⟨[a], 0, ⟨true, false, true⟩, ⟨false, true, false⟩, false, execSwr n a⟩
    else none
  | _ => none

/-- An array instruction: its destination, the x registers it reads, whether the number of its result's elements depends on data,
and its meaning. -/
structure ArrayOp where
  dst : DReg
  xs : List XReg
  data : Bool
  run : State → Out3

def arrayOp : Instr → Option ArrayOp
  | .amap f d a xr yr rnd sat => some ⟨d, [], false, execAmap f d a xr yr rnd sat⟩
  | .ared op d a xr ax rnd sat => some ⟨d, [], false, execAred op d a xr ax rnd sat⟩
  | .ascan op excl seg d a xr ax rnd sat => some ⟨d, [], false, execAscan op excl seg d a xr ax rnd sat⟩
  | .agrade dn d a xr ax => some ⟨d, [], false, execAgrade dn d a xr ax⟩
  | .arotScalar d a b xr ax => some ⟨d, [b], false, execArotScalar d a b xr ax⟩
  | .arotVector d a b xr ax => some ⟨d, [], false, execArotVector d a b xr ax⟩
  | .atake d a b xr ax => some ⟨d, [b], false, execAtake d a b xr ax⟩
  | .adrop d a b xr ax => some ⟨d, [b], false, execAdrop d a b xr ax⟩
  | .areshape d a b => some ⟨d, [], false, execAreshape d a b⟩
  | .atrans d a b => some ⟨d, [b], false, execAtrans d a b⟩
  | .aouter f d a xr yr rnd sat => some ⟨d, [], false, execAouter f d a xr yr rnd sat⟩
  | .asel sel d a c => some ⟨d, [], true, execAsel sel d a c⟩
  | .acomp d a b c ax => some ⟨d, [], true, execAcomp d a b c ax⟩
  | .afrom d a b ax => some ⟨d, [], false, execAfrom d a b ax⟩
  | .acat d a b ax => some ⟨d, [], false, execAcat d a b ax⟩
  | .afill d a b => some ⟨d, [b], false, execAfill d a b⟩
  | .aiota d a ax rnd sat => some ⟨d, [], false, execAiota d a ax rnd sat⟩
  | _ => none

/-! ### The look along the path -/

/-- An earlier store of the sheet that holds a load back (R206, R207): to any place, to a range of bytes, to a tile. -/
inductive Lock where
  | all
  | range (lo hi : Nat)
  | tile (h : BitVec 12)
  deriving DecidableEq, Repr

/-- The sheet as the Outrider sees it ahead of execution: registers not yet known (v and d registers by number, of a d register all
or only what R14 writes of it), what is known of the configuration, whether PROG0 to PROG2 and EBRK are known, the streams set up
or bound anew, the stores that hold loads back, the streams read so far in order, the x registers named as destinations, and whether
an earlier load of stream A has not been performed. -/
structure Look where
  s : State
  ux : List XReg
  uv : List Nat
  um : List MReg
  ud : List DReg
  us : List DReg
  uo : List OReg
  known : Cfg
  prog : Bool
  locks : List Lock
  reads : List OReg
  named : List XReg
  waits : Bool

def Look.start (s : State) : Look := ⟨s, [], [], [], [], [], [], .all, true, [], [], [], false⟩

/-- The whole configuration is known. -/
def Look.cfg (l : Look) : Bool := l.known.has .all

/-- The next instruction of the path. -/
def Look.next (l : Look) : Option Instr :=
  if rpDrives l.s.sh.spr.rpst then l.s.sh.rbuf[rpPos l.s.sh.spr.rpst]?.bind decode
  else match l.s.slotWord l.s.sh.pc with
    | .ok (w, _) => decode w
    | .error _ => none

def Look.knowsX (l : Look) (rs : List XReg) : Bool := rs.all fun r => r = 0 || !l.ux.contains r
def Look.knowsV (l : Look) (b : VReg) : Bool :=
  (List.range l.s.sh.spr.rc).all fun r => !l.uv.contains (b.val + r)
def Look.knowsM (l : Look) : VMask → Bool
  | .none => true
  | .by m _ => !l.um.contains m

/-- The registers of a group; all that follow when VCFG is not known. -/
def Look.regsOf (l : Look) (b : VReg) : List Nat :=
  (List.range (if l.known.vcfg then l.s.sh.spr.rc else 64)).map fun r => b.val + r

/-- The least and the greatest byte of a list of items of n bytes. -/
def spanOf (n : Nat) (addrs : List (Option Nat)) : Option (Nat × Nat) :=
  match addrs.filterMap id with
  | [] => none
  | a :: l => some (l.foldl min a, l.foldl max a + n - 1)

/-- What a load reads: its format, the addresses of its items, its tile, and the ranges that interlock. -/
structure LoadAt where
  ty : Fmt
  addrs : List (Option Nat)
  tile : Option (BitVec 12)
  ranges : List (Nat × Nat)

def LoadAt.whole (ty : Fmt) (addrs : List (Option Nat)) (tile : Option (BitVec 12)) : LoadAt :=
  ⟨ty, addrs, tile, (spanOf ty.ew addrs).toList⟩
def LoadAt.each (ty : Fmt) (addrs : List (Option Nat)) : LoadAt :=
  ⟨ty, addrs, none, addrs.filterMap fun o => o.map fun a => (a, a + ty.ew - 1)⟩

/-- The accesses of a load at the look's place, when all it depends on is known and it passes its checks. -/
def Look.load (l : Look) (i : Instr) : Option LoadAt :=
  let s := l.s
  let h := s.sh
  let ifOk := fun (xs : List XReg) (k : VMask) (ok : Bool) (q : LoadAt) =>
    if l.cfg && l.knowsX xs && l.knowsM k && ok then some q else none
  let free := fun (c : VReg) => l.knowsV c && (h.boundAt [c]).isEmpty
  match i with
  | .vld ty k _ d a disp =>
    let base := h.vbase a disp
    ifOk [a] k (h.dstOk d ty && base.toNat % ty.align = 0) (.whole ty (h.addrsOf ty k (h.vldAt ty base)) none)
  | .vlds ty k _ d a c disp =>
    let base := h.vbase a disp
    ifOk [a, c] k (h.dstOk d ty && base.toNat % ty.align = 0 && (s.xr c).toNat % ty.align = 0)
      (.whole ty (h.addrsOf ty k (h.vldsAt base (s.xr c))) none)
  | .vldx ty k _ d a c disp =>
    ifOk [a] k (h.dstOk d ty && h.srcOk c ty && free c) (.each ty (h.addrsOf ty k (h.vldxAt ty (h.vbase a disp) c)))
  | .vwgath ty k d a _ c disp =>
    ifOk [a] k (h.dstOk d ty && h.srcOk c ty && free c) (.each ty (h.addrsOf ty k (h.vwgathAt ty (h.vbase a disp) c)))
  | .tld ty k _ d a t =>
    let base := s.xr a
    let ok := match s.resolve t with
      | .ok _ => true
      | .error _ => false
    ifOk [a] k (h.dstOk d ty && base.toNat % ty.align = 0 && ok) (.whole ty (h.addrsOf ty k (h.vldAt ty base)) (some t))
  | .vassay mode _ w ty d a b _ =>
    ifOk [a, b] .none (h.dstOk d ty)
      (.whole .n8 (assayAddrs (s.xr a) (assayBytes mode (assayW w) h.spr.aecn)) none)
  | _ => none

/-- The bytes that the stores of a list hold from later loads, as one range. -/
def lockHull (l : List VStore) : Option (Nat × Nat) :=
  (l.filterMap VStore.lock).foldl (fun (q : Option (Nat × Nat)) r => match q with
    | none => some r
    | some p => some (min p.1 r.1, max p.2 r.2)) none

/-- An array instruction carried out on the sheet as the look knows it; none where it depends on what is not known. -/
def Look.arrayRun (l : Look) (o : ArrayOp) : Option State :=
  if o.data || !l.prog || !l.ud.isEmpty || !l.us.isEmpty || !l.knowsX o.xs then none
  else match o.run (l.s.withSheet { l.s.sh with irq := none, vq := [] }) with
    | .next t => if t.sh.pc = l.s.finish.sh.pc then some t else none
    | _ => none

/-- The stores of an array instruction, as one store over the bytes it writes (R121, R206, R207): exactly those where they are known
beforehand, else all that its destination could take. DEDUCED: log 36. -/
def Look.arrayLocks (l : Look) (o : ArrayOp) : List Lock :=
  let d := l.s.sh.d[o.dst.val]
  if l.ud.contains o.dst then [.all]
  else if dKind d = 1 then [.tile (BitVec.ofNat 12 (dHandle d))]
  else match l.arrayRun o with
    | some t => match lockHull t.sh.vq with
      | some r => [.range r.1 r.2]
      | none => []
    | none =>
      let ew := ((Fmt.ofCode (dFmt d)).getD .n8).ew
      if dCap d = 0 then [] else [.range (dBase d).toNat ((dBase d).toNat + dCap d * ew - 1)]

/-- The stores of an instruction that hold later loads back (R206, R207); any place where an address is not known. -/
def Look.locksOf (l : Look) (i : Instr) : List Lock :=
  let h := l.s.sh
  let range := fun (xs : List XReg) (k : VMask) (ty : Fmt) (addrs : List (Option Nat)) =>
    if l.cfg && l.knowsX xs && l.knowsM k then
      match spanOf ty.ew addrs with
      | some q => [Lock.range q.1 q.2]
      | none => []
    else [Lock.all]
  match i with
  | .vst ty k _ a disp => range [a] k ty (h.addrsOf ty k (h.vldAt ty (h.vbase a disp)))
  | .vsts ty k _ a c disp => range [a, c] k ty (h.addrsOf ty k (h.vldsAt (h.vbase a disp) (l.s.xr c)))
  | .tst _ _ _ _ t => [.tile t]
  | .mdrainStrided m _ a c disp =>
    range [a, c] m.mask m.ty (h.addrsOf m.ty m.mask (h.drainAt m (h.vbase a disp) (l.s.xr c)))
  | _ => match arrayOp i with
    | some o => l.arrayLocks o
    | none => []

/-- A load is held back by an earlier store. -/
def LoadAt.held (q : LoadAt) (l : List Lock) : Bool :=
  l.any fun k => match k with
    | .all => true
    | .range lo hi => q.tile.isNone && q.ranges.any fun r => r.1 ≤ hi && lo ≤ r.2
    | .tile h => q.tile = some h

/-- The groups an instruction reads; `mmuls`, `mmula` and `mgrp` read the one after their rows too. -/
def readsOf (h : Sheet) (i : Instr) : List VReg :=
  let next := fun (a : VReg) => ([Fin.ofNat 64 (a.val + h.spr.rc)] : List VReg)
  match vecOp i with
  | some op => op.reads
  | none => i.groups ++ match i with
    | .mmuls _ _ a _ _ _ _ => next a
    | .mmula _ _ a _ _ => next a
    | .mgrp _ _ a _ => next a
    | _ => []

/-- Slot k of a stream holds all that its read will take, or the fault it will meet. -/
def Sheet.slotDone (h : Sheet) (n : OReg) (k : Nat) : Bool :=
  match h.bslots[n.val][k]? with
  | some sl => (sl.elems.length = sl.count || sl.bad.isSome) && !sl.taken
  | none => false

/-- The load at the look's place has read all that it reads. -/
def Look.loaded (l : Look) : Bool := l.s.sh.ahead.any fun a => a.dist = 0 && allRead a.addrs a.got

/-- The look passes an instruction that only goes on to the next, its results not known: x registers by `xs`. -/
def Look.past (l : Look) (i : Instr) (xs : List XReg) : Look :=
  let vs := match vecOp i with
    | some op => (match op.dst with
      | .grp d => [d]
      | .mask _ => [])
    | none => i.vOut
  let ms := match vecOp i with
    | some op => (match op.dst with
      | .grp _ => []
      | .mask d => [d])
    | none => i.mOut
  { l with
    s := l.s.finish
    ux := xs ++ l.ux
    uv := vs.flatMap l.regsOf ++ l.uv
    um := ms ++ l.um
    known := if i.setsAec then l.known.without ⟨false, false, true⟩ else l.known }

/-- The same with a new sheet state that the instruction gives. -/
def Look.goes (l : Look) (e : Eff) (named : List XReg) : Option Look :=
  match e with
  | .ok s => some { l with s := s, named := named }
  | .error _ => none

/-- The look at a stream that an instruction sets up or binds. -/
def Look.streams (l : Look) (o : OReg) (e : Eff) : Option Look :=
  match e with
  | .ok s => some { l with s := s.finish, uo := o :: l.uo }
  | .error _ => none

/-- What the look knows of an instruction's own effect. -/
def Look.effect (l : Look) (i : Instr) (xs : List XReg) : Option Look :=
  match i with
  | .replay a k => if l.knowsX [a] then l.goes (l.s.replayDo a k) [] else none
  | .swr n a =>
    if n = 0x016 then (if l.knowsX [a] then l.goes (l.s.swrDo n a) l.named else none)
    else if 0x020 ≤ n.toNat && n.toNat ≤ 0x023 then
      (if l.knowsX [a] then l.goes (l.s.swrDo n a) l.named else some { l.past i xs with prog := false })
    else some (l.past i xs)
  | .ostrm ty d a b disp =>
    if l.knowsX [a, b] then l.streams d (l.s.ostrmDo ty d (l.s.xr a + sext32 disp) (l.s.xr b))
    else l.streams d (l.s.ostrmDo ty d 0 0)
  | .bind d a => l.streams a (l.s.bindDo d a)
  | .unbind a => l.streams a (.ok (l.s.unbindDo a))
  | .dld d _ _ => some { l.past i xs with ud := d :: l.ud }
  | .dset d a f =>
    match execDset d a f l.s with
    | .next s => some (if l.knowsX [a] then { l with s := s } else { l.past i xs with ud := d :: l.ud })
    | _ => none
  | _ => match arrayOp i with
    | none => some (l.past i xs)
    | some o =>
      let l' := l.past i xs
      let l' := { l' with s := (l'.s.setProg 0 0 0).mapSpr fun p => { p with ebrk := 0 }, prog := true }
      some (match l.arrayRun o with
        | some t => { l' with s := l'.s.withSheet { l'.s.sh with d := t.sh.d } }
        | none => { l' with us := o.dst :: l.us })

/-- The look passes an instruction that has not executed; none when it may not look further. -/
def Look.pass (l : Look) (i : Instr) : Option Look :=
  if i.endsLook || i.holdsA then none
  else
    let rp := l.s.sh.spr.rpst
    let sh := shadow i
    let xs := match sh with
      | some q => [q.dst]
      | none => i.xOut
    let named := xs ++ l.named
    -- past the last body position only when the counter is known (R258)
    if rpDrives rp && rpPos rp + 1 = rpLen rp && named.contains (xreg (rpReg rp)) then none
    else
      let groups := readsOf l.s.sh i
      let streams := l.s.sh.boundAt groups
      let reads := l.reads ++ streams
      -- which bindings a group reads is not known without VCFG
      let hidden := !l.known.vcfg && !groups.isEmpty && (List.finRange 4).any fun n => osBound l.s.sh.o[n.val]
      let unfilled := hidden || streams.any fun n => !l.s.sh.slotDone n (reads.count n - 1)
      let undone := i.readsA || (i.isLoad && !l.loaded)
      let l := { l with
        locks := l.locks ++ l.locksOf i
        reads := reads
        uo := if hidden then List.finRange 4 else l.uo
        named := named
        waits := l.waits || unfilled || undone }
      match sh with
      | some q =>
        if l.knowsX q.src && l.known.has q.needs then
          match q.run l.s with
          | .next s =>
            if s.sh.pc = l.s.finish.sh.pc ∧ s.sh.spr.rpst = l.s.finish.sh.spr.rpst then
              let ux := l.ux.filter (· ≠ q.dst)
              some { l with
                s := s
                ux := if q.old && !l.known.vcfg then q.dst :: ux else ux
                known := l.known.or q.sets }
            else none
          | _ => none
        else some { l with s := l.s.finish, ux := q.dst :: l.ux, known := l.known.without q.sets }
      | none => l.effect i xs

/-- The instruction n places ahead, and the look at it. -/
def Look.walk : Nat → Look → Option (Instr × Look)
  | 0, l => l.next.map fun i => (i, l)
  | n + 1, l =>
    match l.next with
    | none => none
    | some i => match l.pass i with
      | none => none
      | some l => Look.walk n l

def State.lookAt (s : State) (n : Nat) : Option (Instr × Look) :=
  if n ≤ runAhead then (Look.start s).walk n else none

/-- The load n places ahead that may be issued. -/
def State.loadAhead (s : State) (n : Nat) : Option (LoadAt × Look) :=
  match s.lookAt n with
  | some (i, l) => if i.holdsA then none else (l.load i).map fun q => (q, l)
  | none => none

/-! ### Events -/

/-- The run-ahead load that stands at a look. -/
def LoadAt.entry (q : LoadAt) (l : Look) (n : Nat) (got : List (Option ElemRes)) : Ahead :=
  ⟨n, l.s.sh.spr.vcfg, l.s.sh.spr.aec, l.s.sh.spr.vl, q.addrs, q.tile, slotsFor q.ty l.s.sh.spr.aecn, got⟩

def State.setAhead (s : State) (a : Ahead) : State :=
  s.withSheet { s.sh with ahead := a :: s.sh.ahead.filter fun b => b.dist ≠ a.dist }

/-- The shared fabric slots of the core in focus that are held (R259). -/
def State.slotsHeld (s : State) : Nat := s.slotsIn (coreOf s.sh.place)

/-- n of the 24 shared slots are free. DEDUCED: log 63. -/
def State.slotsFree (s : State) (n : Nat) : Bool := s.slotsHeld + n ≤ 24

/-- OUTRIDER_ISSUE: the load n places ahead is issued, once all of its slots are free (R198, R259). -/
def execOutriderIssue (n : Nat) (s : State) : Out3 :=
  match s.loadAhead n with
  | some (q, l) =>
    let e := q.entry l n []
    if 1 ≤ n && s.slotsFree e.slots && !s.sh.ahead.any fun a => a.dist = n then .next (s.setAhead e) else .next s
  | none => .next s

/-- What holds the reads of a load back now: a store in flight, or a copy engine's line up to the first fault (R206, R207, R209,
R260). -/
def State.readHeld (s : State) (ty : Fmt) (tile : Option Tile) (ranges : List (Nat × Nat)) (addrs : List (Option Nat)) : Bool :=
  let t := match tile with
    | some q => Touch.tile q.handle
    | none => Touch.mem ranges
  let f := firstFlt 0 (addrs.map fun o => o.map (s.readAt ty tile))
  let upTo := match f with
    | some q => addrs.take (q.1 + 1)
    | none => addrs
  s.sh.holding t != 0 || (upTo.any fun o => o.any (s.busyAt ty tile)) || f.any fun e => e.2.waits

/-- The lines of an item. -/
def itemLines (ty : Fmt) (a : Nat) : List Nat := (List.range (ty.ew + 63)).filterMap fun k =>
  if k = 0 ∨ (a + k) % 64 = 0 then (if k < ty.ew then some ((a + k) / 64) else none) else none

/-- How many of the items not read are read with the first k: up to the last that shares a line with one of them. -/
def reach (ty : Fmt) (todo : List (Nat × Nat)) (k : Nat) : Nat :=
  let lines := (todo.take k).flatMap fun q => itemLines ty q.2
  (todo.zipIdx.filter fun q => (itemLines ty q.1.2).any lines.contains).foldl (fun n q => max n (q.2 + 1)) k

/-- The places, among the items not read, of the next k and of those after them up to the last that a line read for them gives too:
items are read in order, and what a load takes of one line comes from one instant (R199). -/
def readNext (ty : Fmt) (todo : List (Nat × Nat)) (k : Nat) : Nat → List Nat
  | 0 => (todo.take k).map Prod.fst
  | fuel + 1 => readNext ty todo (reach ty todo k) fuel

/-- LOAD_PERFORMED: an issued load reads its next items, after every earlier load of stream A and every store that holds it back
(R199, R202, R206, R207, R272); its data waits in fabric slots. -/
def execLoadPerformed (p : LoadStep) (s : State) : Out3 :=
  match s.loadAhead p.ahead with
  | none => .next s
  | some (q, l) =>
    match s.sh.ahead.find? fun a => { a with got := [] } = q.entry l p.ahead [] with
    | none => .next s
    | some e =>
      if l.waits || q.held l.locks then .next s
      else match s.settleW with
        | .error _ => .next s
        | .ok s =>
          let tile := q.tile.bind s.tile?
          let todo := (q.addrs.zipIdx).filterMap fun r =>
            if (e.got.getD r.2 none).isSome then none else r.1.map fun a => (r.2, a)
          let now := readNext q.ty todo p.items todo.length
          let addrs := q.addrs.zipIdx.map fun r => if now.contains r.2 then r.1 else none
          if s.readHeld q.ty tile q.ranges addrs then .next s
          else
            let got := addrs.zipIdx.map fun r => match e.got.getD r.2 none with
              | some v => some v
              | none => r.1.map (s.readAt q.ty tile)
            .next ((s.fillAll (if q.tile.isNone then addrs.filterMap fun o => o.map (BitVec.ofNat 64) else [])).setAhead
              { e with got := got })

/-- The look at the read that takes the k-th binding slot of a stream from now. -/
def State.readAhead (s : State) (o : OReg) (k : Nat) : Option Look :=
  (List.range (runAhead + 1)).findSome? fun n =>
    match s.lookAt n with
    | some (i, l) =>
      if l.reads.count o = k && (l.s.sh.boundAt (readsOf l.s.sh i)).contains o && !i.holdsA && !l.uo.contains o then some l
      else none
    | none => none

/-- The next binding slot to fill, from slot k on: its number, the stream index of its first element, and the look at its read. A slot
that another AEC filled than the one at its read is filled again (R44, R267, R276). -/
def State.nextFill (s : State) (o : OReg) : Nat → Nat → Nat → Option (Nat × Nat × Look)
  | 0, _, _ => none
  | fuel + 1, k, start =>
    match s.readAhead o k with
    | none => none
    | some l => match s.sh.bslots[o.val][k]? with
      | some sl =>
        if s.sh.slotDone o k && sl.start = start && sl.count = l.s.sh.spr.aecn then s.nextFill o fuel (k + 1) (start + sl.count)
        else some (k, start, l)
      | none => some (k, start, l)

/-- BINDING_FILL: the Outrider fills the next binding slot of a stream, or fetches the rest of one whose fault was taken
(R276, R277). The read of the sheet's oldest instruction is always served (R259). -/
def execBindingFill (o : OReg) (s : State) : Out3 :=
  let d := s.sh.o[o.val]
  match osFmt d, s.nextFill o 4 0 (osNext d) with
  | some ty, some (k, start, l) =>
    let n := l.s.sh.spr.aecn
    let old := match s.sh.bslots[o.val][k]? with
      | some sl => if sl.start = start && sl.count = n then sl.elems.take n else []
      | none => []
    let addrs := (List.range n).map fun j => some (osBase d + BitVec.ofNat 64 (start + j) * osStride d).toNat
    let q := LoadAt.whole ty (addrs.drop old.length) none
    let oldest := l.s.sh.pc = s.sh.pc && l.reads.isEmpty
    if !l.cfg || l.waits || q.held l.locks || !(oldest || s.slotsFree (slotsFor ty n)) then .next s
    else match s.settleW with
      | .error _ => .next s
      | .ok s =>
        if s.readHeld ty none q.ranges q.addrs then .next s
        else
          let got := q.addrs.map fun a => (a.map (s.readAt ty none)).getD (.val 0)
          let sl : BSlot := ⟨start, n, old ++ got, false⟩
          let s := s.fillAll (q.addrs.filterMap fun a => a.map (BitVec.ofNat 64))
          .next (s.withSheet { s.sh with bslots := s.sh.bslots.set o.val (s.sh.bslots[o.val].take k ++ [sl]) })
  | _, _ => .next s

end Machine
end Sys2Proof
end

