-- ==== Sys2Proof/Machine/Release.lean ====
section
/-! DEFINITION. Scalar stores (R161 to R164, R167), and the scalar instructions that release: `stl` (R165), the atomics and `cas`
(R166, R210).
-/
namespace Sys2Proof
namespace Machine

def execSt (ty : Fmt) (b a : XReg) (disp : BitVec 32) (s : State) : Out3 :=
  runEff (s.sStore (s.va a disp) ty.ew (s.getData ty b))

def execStp (ty : Fmt) (b c a : XReg) (disp : BitVec 32) (s : State) : Out3 :=
  runEff (s.sStore (s.va a disp) 8 (s.getData ty b ++ s.getData ty c))

/-- A release, then the store at the home (R165, R210, R211). -/
def execStl (ty : Fmt) (scp : Scope) (b a : XReg) (disp : BitVec 32) (s : State) : Out3 :=
  let _ := scp
  runEff do
    let (l, s') ← s.scalar .store (s.va a disp) ty.ew ty.ew
    let s' ← s'.release
    pure (s'.vWrite s.sh.spr.brand12 (physUc l) ((physKeys l).zip (s.getData ty b)))

/-- A release, then a read-modify-write at the home (R166, R210): `new` gives what is written, if anything, from the old pattern.
DEDUCED: log 23. -/
def State.amo (s : State) (ty : Fmt) (d a : XReg) (disp : BitVec 32) (new : Nat → Option Nat) : Eff := do
  let (l, s') ← s.scalar .rmw (s.va a disp) ty.ew ty.ew
  let s' ← s'.release
  let (b, s') := s'.vRead (physKeys l)
  let old := leNat b
  let s' := match new old with
    | some v => s'.vWrite s.sh.spr.brand12 (physUc l) ((physKeys l).zip (leBytes ty.ew v))
    | none => s'
  pure (s'.setX d (Word.ofInt (ival ty old)))

def execAmoAdd (ty : Fmt) (scp : Scope) (d b a : XReg) (disp : BitVec 32) (s : State) : Out3 :=
  let _ := scp
  runEff (s.amo ty d a disp fun o => some (iBin .add ty false o (s.xr b).toNat))
def execAmoAnd (ty : Fmt) (scp : Scope) (d b a : XReg) (disp : BitVec 32) (s : State) : Out3 :=
  let _ := scp
  runEff (s.amo ty d a disp fun o => some (iBin .and ty false o (s.xr b).toNat))
def execAmoOr (ty : Fmt) (scp : Scope) (d b a : XReg) (disp : BitVec 32) (s : State) : Out3 :=
  let _ := scp
  runEff (s.amo ty d a disp fun o => some (iBin .or ty false o (s.xr b).toNat))
def execAmoXor (ty : Fmt) (scp : Scope) (d b a : XReg) (disp : BitVec 32) (s : State) : Out3 :=
  let _ := scp
  runEff (s.amo ty d a disp fun o => some (iBin .xor ty false o (s.xr b).toNat))
def execAmoMin (ty : Fmt) (scp : Scope) (d b a : XReg) (disp : BitVec 32) (s : State) : Out3 :=
  let _ := scp
  runEff (s.amo ty d a disp fun o => some (iBin .min ty false o (s.xr b).toNat))
def execAmoMax (ty : Fmt) (scp : Scope) (d b a : XReg) (disp : BitVec 32) (s : State) : Out3 :=
  let _ := scp
  runEff (s.amo ty d a disp fun o => some (iBin .max ty false o (s.xr b).toNat))
def execAmoSwap (ty : Fmt) (scp : Scope) (d b a : XReg) (disp : BitVec 32) (s : State) : Out3 :=
  let _ := scp
  runEff (s.amo ty d a disp fun _ => some ((s.xr b).toNat % 2 ^ ty.width))
/-- Writes only when the old value equals the expected one (R166). -/
def execCas (ty : Fmt) (scp : Scope) (d c b a : XReg) (disp : BitVec 32) (s : State) : Out3 :=
  let _ := scp
  runEff (s.amo ty d a disp fun o =>
    if o = (s.xr c).toNat % 2 ^ ty.width then some ((s.xr b).toNat % 2 ^ ty.width) else none)

end Machine
end Sys2Proof
end

