-- ==== Sys2Proof/Machine/Routing.lean ====
section
/-! DEFINITION. Segmented work and top-k (R352 to R360), append queues (R361 to R364) and the gate counters (R343 to R346,
R365 to R367).
-/
namespace Sys2Proof
namespace Machine

/-! ### Segments (R352) -/

/-- Splits the numbers from lo below lo + n at the boundaries, index lo beginning one; `cur` is the run in hand. -/
def splitAt (bit : Nat → Bool) : Nat → Nat → List Nat → List (List Nat)
  | 0, _, cur => if cur.isEmpty then [] else [cur]
  | n + 1, i, cur =>
    if bit i && !cur.isEmpty then cur :: splitAt bit n (i + 1) [i] else splitAt bit n (i + 1) (cur ++ [i])

/-- The segments of a boundary mask, in order. -/
def Sheet.segments (h : Sheet) (b : MReg) : List (List Nat) := splitAt (h.mbit b) h.spr.aecn 0 []

/-- Bits 0 to n − 1 of a mask destination, and the tail (R171). -/
def Sheet.headBits (h : Sheet) (n : Nat) (bit : Nat → Bool) : List (Nat × Bool) :=
  ((span 0 n).map fun i => (i, bit i)) ++ (if h.spr.tail then (span n h.spr.flat).map fun i => (i, true) else [])

def execVsegoff (ty : Fmt) (d : MReg) (a : VReg) (b : XReg) (s : State) : Out3 :=
  let g := (s.xr b).toNat
  s.vecDo (s.sh.srcOk a ty && g ≤ s.sh.spr.flat) [a] fun s =>
    let starts := (span 0 g).map fun i => s.sh.elem a ty i
    .ok (s.withSheet (s.sh.putM d (s.sh.headBits s.sh.spr.aecn fun i => i = 0 || starts.contains i)))

/-- The starts of the rows that fit, and the elements they take (R357). -/
def packRows (len : Nat → Nat) (cap : Nat) : Nat → Nat → Nat → List Nat × Nat
  | 0, _, s => ([], s)
  | n + 1, r, s =>
    if s + len r ≤ cap then
      let q := packRows len cap n (r + 1) (s + len r)
      (s :: q.1, q.2)
    else ([], s)

def execVfibre (ty : Fmt) (d : MReg) (a : VReg) (b c : XReg) (s : State) : Out3 :=
  let cap := s.sh.spr.flat
  let rows := min (s.xr b).toNat cap
  s.vecDo (s.sh.srcOk a ty) [a] fun s =>
    let q := packRows (s.sh.elem a ty) cap rows 0 0
    let s' := s.withSheet (s.sh.putM d (s.sh.headBits q.2 q.1.contains))
    .ok ((s'.mapSpr fun p => { p with aec := BitVec.ofNat 64 q.2 }).setX c (BitVec.ofNat 64 q.1.length))

/-- The checks of `vsred` and `vsscan`. -/
def Sheet.segOk (h : Sheet) (t : Fmt) (d a : VReg) : Bool := h.moveOk t d a

/-- The active elements of a list of indices. -/
def Sheet.pick (h : Sheet) (k : VMask) (a : VReg) (t : Fmt) (l : List Nat) : List Nat :=
  (l.filter fun i => h.active k i).map fun i => h.elem a t i

def execVsred (op : RedOp) (ord : Bool) (m : VMod) (d a : VReg) (b : MReg) (s : State) : Out3 :=
  s.vecDo (s.sh.segOk m.ty d a) [a] fun s =>
    let h := s.sh
    let q := (h.segments b).map fun l => redOr op ord m.ty m.rnd m.sat (h.pick m.mask a m.ty l)
    let rest := if h.spr.tail then (span q.length h.spr.flat).map fun i => h.fillItem d m.ty i else []
    .ok ((s.putW ((q.zipIdx.map fun r => h.item d m.ty r.2 r.1.1 true) ++ rest)).orFlags
      (q.foldl (fun f r => f ||| r.2) 0))

def execVsscan (op : RedOp) (ord : Bool) (m : VMod) (d a : VReg) (b : MReg) (s : State) : Out3 :=
  s.vecDo (s.sh.segOk m.ty d a) [a] fun s =>
    let h := s.sh
    let segs := h.segments b
    let q := fun i =>
      let seg := (segs.find? fun l => l.contains i).getD []
      redOr op ord m.ty m.rnd m.sat (h.pick m.mask a m.ty (seg.filter fun j => j ≤ i))
    let n := h.spr.reach m.ty
    .ok ((s.putW (h.sweepW d m.ty m.mask 0 n fun i => ((q i).1, true))).orFlags
      (h.sweepF m.ty m.mask 0 n fun i => (q i).2))

/-! ### Maxima (R360) -/

/-- The least index of a list whose key no other exceeds. -/
def bestOf (less : Nat → Nat → Bool) : List Nat → Option Nat
  | [] => none
  | i :: l => match bestOf less l with
    | none => some i
    | some j => if less i j then some j else some i

def Sheet.best (h : Sheet) (t : Fmt) (a : VReg) (b : MReg) (l : List Nat) : Option Nat :=
  bestOf (fun i j => keyLess t (h.elem a t i) (h.elem a t j)) (l.filter (h.mbit b))

def execVmaxi (ty : Fmt) (d : XReg) (a : VReg) (b : MReg) (c : XReg) (s : State) : Out3 :=
  s.vecDo (s.sh.srcOk a ty) [a] fun s =>
    let h := s.sh
    match h.best ty a b (span 0 h.spr.aecn) with
    | none => .ok ((s.setX d (BitVec.allOnes 64)).putScalar ty c ((redIdent .max ty).getD 0))
    | some i =>
      .ok (((s.withSheet (h.putM b [(i, false)])).setX d (BitVec.ofNat 64 i)).putScalar ty c (h.elem a ty i))

def execVmaxiSeg (ty : Fmt) (d : MReg) (a : VReg) (b c : MReg) (s : State) : Out3 :=
  s.vecDo (s.sh.srcOk a ty && d != b && d != c && b != c) [a] fun s =>
    let h := s.sh
    let won := (h.segments c).filterMap fun l => h.best ty a b l
    .ok (s.withSheet ((h.putM b (won.map fun i => (i, false))).putM d (won.map fun i => (i, true))))

/-! ### Append queues (R361 to R363) -/

/-- A field of k bytes of a queue header. -/
def hdrFld (b : List Byte) (byte k : Nat) : Nat := leNat ((b.drop byte).take k)

/-- The die of the queue unit that homes a line. -/
def homeDie (line : Nat) : Nat :=
  if line < 2 ^ 46 then (Config.channelOf line).val / 32 else (Config.expanderDie line).val

/-- DONE passes each complete reservation that begins at it (R363). DEDUCED: log 81. -/
def passDone (hdr : Nat) : Nat → List Reserve → Nat → List Reserve × Nat
  | 0, l, done => (l, done)
  | fuel + 1, l, done =>
    match l.find? fun r => r.hdr = hdr && r.done && r.old = done with
    | none => (l, done)
    | some r => passDone hdr fuel (l.filter fun q => q ≠ r) ((r.old + r.n) % 2 ^ 64)

/-- The entries of a reservation below CAP: the number of each and its address. -/
def entryVas (base cap old ew n : Nat) : List (Nat × Word) :=
  ((span 0 n).filter fun k => (old + k) % 2 ^ 64 < cap).map fun k => (k, BitVec.ofNat 64 (base + (old + k) % 2 ^ 64 * ew))

/-- The entries that a reservation writes, in order, and the fault that ends them with the entries left (R362).
DEDUCED: log 80. -/
def State.entries (s : State) (ew : Nat) : List (Word × List Byte) → List (List Phys × List Byte) × Option (Nat × Word × Nat)
  | [] => ([], none)
  | (va, b) :: l =>
    match s.range .store va ew with
    | .error (c, f) => ([], some (c, f, l.length + 1))
    | .ok p =>
      let q := s.entries ew l
      ((p, b) :: q.1, q.2)

/-- The firing of a queue (R363): the node loses a predecessor, or an event says that there is none. -/
def State.fireQueue (s : State) (node done : Nat) : State :=
  if node ≠ 0 && s.waitingNode s.sh.spr.sad node then s.decPred s.sh.spr.sad node
  else s.postEvent s.sh.spr.sad 6 0 s.sh.spr.brand12 0 0 done

/-- The header and the entries of an append of the elements `act`, under a reservation at TAIL (R362, R363). An append that fires the
queue releases first what the sheet did before (R210). DEDUCED: log 80, 81. -/
def State.append (s : State) (va : Word) (l : List Phys) (b : List Byte) (ew : Nat) (ix : Word) (act : List Nat) : Eff := do
  let base := hdrFld b 0 8
  let cap := hdrFld b 8 8
  let old := hdrFld b 16 8
  let done := hdrFld b 24 8
  let thresh := hdrFld b 32 8
  let node := hdrFld b 40 4
  let flags := hdrFld b 44 4
  let n := act.length
  let hdr := (physKeys l).headD 0
  let unit := homeDie (lineOf hdr)
  await s ((s.reserves.filter fun r => r.unit = unit).length < 64)
  let vas := entryVas base cap old ew n
  let q := s.entries ew (vas.map fun e => (e.2, leBytes ew (ix + BitVec.ofNat 64 (act.getD e.1 0)).toNat))
  await s (!(q.2.any fun e => e.1 = walkWaits) && !q.1.any fun e => (linesOf (physKeys e.1)).any s.owned)
  let keep := s.reserves.filter fun r => !(r.hdr = hdr && r.old ≥ old)
  let p := passDone hdr (keep.length + 1) (keep ++ [⟨unit, hdr, old, n, true⟩]) done
  let fire := thresh ≠ 0 && flags % 2 = 0 && done < thresh && thresh ≤ p.2
  let s ← s.settleFor (.mem (physUc l) ((physKeys l).zip b) :: q.1.map fun e => .mem (physUc e.1) ((physKeys e.1).zip e.2))
  let s ← if fire then s.release else pure s
  let s' := q.1.foldl (fun s e => s.vWrite s.sh.spr.brand12 (physUc e.1) ((physKeys e.1).zip e.2))
    (s.fillAll (va :: vas.map Prod.snd))
  let (flags, s') := match q.2 with
    | none => (flags, s')
    | some (c, f, left) => (flags ||| 4, s'.postEvent s.sh.spr.sad 3 c s.sh.spr.brand12 0 f left)
  let flags := if old + n > cap then flags ||| 2 else flags
  let flags := if fire then flags ||| 1 else flags
  let b' := b.take 16 ++ leBytes 8 (old + n) ++ leBytes 8 p.2 ++ (b.drop 32).take 12 ++ leBytes 4 flags ++ b.drop 48
  let s' := ({ s' with reserves := p.1 } : State).vWrite s'.sh.spr.brand12 (physUc l) ((physKeys l).zip b')
  pure (if fire then s'.fireQueue node p.2 else s')

def execVappend (ty : Fmt) (k : VMask) (d a b : XReg) (s : State) : Out3 :=
  let va := s.xr a
  runEff do
    if va.toNat % 64 != 0 then trapE s 0x04 va va
    match s.range .store va 64 with
    | .error (c, f) => faultE s c va f
    | .ok l =>
      let keys := physKeys l
      await s (!(linesOf keys).any s.owned)
      match s.firstPoison l with
      | some (i, p) => .error (poisonStop s va (va + BitVec.ofNat 64 i) va p)
      | none => pure ()
      let s ← s.settleV
      let (hb, s') := s.vRead keys
      if (hb.drop 48).any (· != 0) || hdrFld hb 44 4 ≥ 8 || hdrFld hb 0 8 % ty.ew != 0 then trapE s 0x14 va va
      let act := (span 0 s.sh.spr.aecn).filter fun i => s.sh.active k i
      let s'' ← if act.isEmpty then pure (s'.fill va) else s'.append va l hb ty.ew (s.xr b) act
      pure (s''.setX d (BitVec.ofNat 64 (hdrFld hb 16 8)))

/-! ### Gate counters (R343 to R346, R365 to R367) -/

/-- The window of the sheet's drove on a logical die; one of length 0 where it has none. -/
def State.windowOf (s : State) (die : Nat) : Window :=
  (s.windows.find? fun w => w.drove = s.sh.droveId && w.die = die).getD ⟨s.sh.droveId, die, 0, 0, 0, []⟩

/-- The reads, then an effect that completes or stops with the slots in place; EPOS and GRPL stay as they are (R345).
DEDUCED: log 65. -/
def State.gateDo (s : State) (ok : Bool) (regs : List VReg) (f : State → Eff) : Out3 :=
  runEff do
    need s ok
    let s' ← s.consume regs
    match f s' with
    | .ok s'' => pure s''
    | .error st => .error (st.keepSlots s.sh)

/-- The increments are handed to stream V one by one; each is performed at the die's counter unit (R343, R345). -/
def execGadd (ty : Fmt) (k : VMask) (a : VReg) (b : XSrc) (s : State) : Out3 :=
  let inc := s.xsrc b
  s.gateDo (s.sh.srcOk a ty) [a] fun s =>
    let h := s.sh
    let die := h.spr.gDie
    let act := (span 0 h.spr.aecn).filter fun i => h.active k i
    match act.find? fun i => h.elem a ty i ≥ (s.windowOf die).len with
    | some i => trapE s 0x14 (BitVec.ofNat 64 i)
    | none =>
      .ok (s.handV (act.map fun i => ⟨.gate die (h.elem a ty i) inc, none⟩))

/-- The snapshot is performed after the sheet's earlier accesses of stream V (R202, R346). -/
def execGsnap (d : VReg) (a : XReg) (s : State) : Out3 :=
  let i0 := (s.xr a).toNat
  s.gateDo (s.sh.dstOk d .n64) [] fun s => do
    let h := s.sh
    let n := h.spr.aecn
    if i0 + n > (s.windowOf h.spr.gDie).len then trapE s 0x14 (s.xr a)
    else
      let s ← s.settleV
      let w := s.windowOf h.spr.gDie
      let s' := s.setWindow s.sh.droveId h.spr.gDie fun c => (span i0 (i0 + n)).foldl (fun c i => sparseSet c i 0) c
      let rest := if h.spr.tail then (span n h.spr.flat).map fun i => h.fillItem d .n64 i else []
      pure (s'.putW (((span 0 n).map fun i => h.item d .n64 i (sparseGet w.ctr (i0 + i)).toNat true) ++ rest))

/-- The home die is a logical die coordinate within the sheet's package; the unit is taken after the sheet's earlier accesses of
stream V (R202, R366). -/
def execGslot (d a b c : XReg) (s : State) : Out3 :=
  let _ := b
  let v := s.xr a
  let p := s.sh.spr
  let die := p.lPkg * nDies p.drove + fld v 32 3
  let w := s.windowOf die
  let ix := fld v 0 12
  let known := s.windows.any fun q => q.drove = s.sh.droveId && q.die = die
  runEff do
    if v &&& ~~~(0x700000FFF#64) != 0 || fld v 32 3 ≥ nDies p.drove || !known || ix ≥ w.len then trapE s 0x14 v
    let s ← s.settleV
    let n := sparseGet (s.windowOf die).ctr ix
    if n.ult (s.xr c) then pure ((s.setWindow s.sh.droveId die fun q => sparseSet q ix (n + 1)).setX d n)
    else pure (s.setX d (BitVec.allOnes 64))

end Machine
end Sys2Proof
end

