-- ==== Sys2Proof/Machine/Dispatch.lean ====
section
/-! DEFINITION. One arm per instruction and event: a direct call of its meaning. -/
namespace Sys2Proof
namespace Machine

def exec (i : Instr) (s : State) : Host.Outcome State Fault Refusal :=
  match i with
  | .add d a b => Sys2Proof.Machine.execAdd d a b s
  | .sub d a b => Sys2Proof.Machine.execSub d a b s
  | .mul d a b => Sys2Proof.Machine.execMul d a b s
  | .mulh ty d a b => Sys2Proof.Machine.execMulh ty d a b s
  | .div ty d a b => Sys2Proof.Machine.execDiv ty d a b s
  | .rem ty d a b => Sys2Proof.Machine.execRem ty d a b s
  | .and d a b => Sys2Proof.Machine.execAnd d a b s
  | .or d a b => Sys2Proof.Machine.execOr d a b s
  | .xor d a b => Sys2Proof.Machine.execXor d a b s
  | .andn d a b => Sys2Proof.Machine.execAndn d a b s
  | .shl d a b => Sys2Proof.Machine.execShl d a b s
  | .shr d a b => Sys2Proof.Machine.execShr d a b s
  | .sar d a b => Sys2Proof.Machine.execSar d a b s
  | .rol d a b => Sys2Proof.Machine.execRol d a b s
  | .ror d a b => Sys2Proof.Machine.execRor d a b s
  | .min ty d a b => Sys2Proof.Machine.execMin ty d a b s
  | .max ty d a b => Sys2Proof.Machine.execMax ty d a b s
  | .cmp c d a b => Sys2Proof.Machine.execCmp c d a b s
  | .clz d a => Sys2Proof.Machine.execClz d a s
  | .ctz d a => Sys2Proof.Machine.execCtz d a s
  | .popc d a => Sys2Proof.Machine.execPopc d a s
  | .bext d a b => Sys2Proof.Machine.execBext d a b s
  | .bins d a b => Sys2Proof.Machine.execBins d a b s
  | .sext ty d a => Sys2Proof.Machine.execSext ty d a s
  | .zext ty d a => Sys2Proof.Machine.execZext ty d a s
  | .movh d a b => Sys2Proof.Machine.execMovh d a b s
  | .crcw ty d a b => Sys2Proof.Machine.execCrcw ty d a b s
  | .bswap d a => Sys2Proof.Machine.execBswap d a s
  | .fadd ty rnd d a b => Sys2Proof.Machine.execFadd ty rnd d a b s
  | .fsub ty rnd d a b => Sys2Proof.Machine.execFsub ty rnd d a b s
  | .fmul ty rnd d a b => Sys2Proof.Machine.execFmul ty rnd d a b s
  | .fdiv ty rnd d a b => Sys2Proof.Machine.execFdiv ty rnd d a b s
  | .fsqrt ty rnd d a => Sys2Proof.Machine.execFsqrt ty rnd d a s
  | .frsqrt ty rnd d a => Sys2Proof.Machine.execFrsqrt ty rnd d a s
  | .fexp2 ty rnd d a => Sys2Proof.Machine.execFexp2 ty rnd d a s
  | .flog2 ty rnd d a => Sys2Proof.Machine.execFlog2 ty rnd d a s
  | .fma ty rnd d a b c => Sys2Proof.Machine.execFma ty rnd d a b c s
  | .fmin ty d a b => Sys2Proof.Machine.execFmin ty d a b s
  | .fmax ty d a b => Sys2Proof.Machine.execFmax ty d a b s
  | .fneg ty d a => Sys2Proof.Machine.execFneg ty d a s
  | .fabs ty d a => Sys2Proof.Machine.execFabs ty d a s
  | .fcmp c ty d a b => Sys2Proof.Machine.execFcmp c ty d a b s
  | .fcvt ty src rnd d a => Sys2Proof.Machine.execFcvt ty src rnd d a s
  | .fcvti ty src rnd sat d a => Sys2Proof.Machine.execFcvti ty src rnd sat d a s
  | .fcvtf ty src rnd d a => Sys2Proof.Machine.execFcvtf ty src rnd d a s
  | .fmvx ty d a => Sys2Proof.Machine.execFmvx ty d a s
  | .fmvf ty d a => Sys2Proof.Machine.execFmvf ty d a s
  | .br c a b disp => Sys2Proof.Machine.execBr c a b disp s
  | .jmp disp => Sys2Proof.Machine.execJmp disp s
  | .jal d disp => Sys2Proof.Machine.execJal d disp s
  | .jr a => Sys2Proof.Machine.execJr a s
  | .jalr d a => Sys2Proof.Machine.execJalr d a s
  | .evwait d => Sys2Proof.Machine.execEvwait d s
  | .ld ty d a disp => Sys2Proof.Machine.execLd ty d a disp s
  | .st ty b a disp => Sys2Proof.Machine.execSt ty b a disp s
  | .ldp ty d c a disp => Sys2Proof.Machine.execLdp ty d c a disp s
  | .stp ty b c a disp => Sys2Proof.Machine.execStp ty b c a disp s
  | .lda ty scp d a disp => Sys2Proof.Machine.execLda ty scp d a disp s
  | .stl ty scp b a disp => Sys2Proof.Machine.execStl ty scp b a disp s
  | .amoAdd ty scp d b a disp => Sys2Proof.Machine.execAmoAdd ty scp d b a disp s
  | .amoAnd ty scp d b a disp => Sys2Proof.Machine.execAmoAnd ty scp d b a disp s
  | .amoOr ty scp d b a disp => Sys2Proof.Machine.execAmoOr ty scp d b a disp s
  | .amoXor ty scp d b a disp => Sys2Proof.Machine.execAmoXor ty scp d b a disp s
  | .amoMin ty scp d b a disp => Sys2Proof.Machine.execAmoMin ty scp d b a disp s
  | .amoMax ty scp d b a disp => Sys2Proof.Machine.execAmoMax ty scp d b a disp s
  | .amoSwap ty scp d b a disp => Sys2Proof.Machine.execAmoSwap ty scp d b a disp s
  | .cas ty scp d c b a disp => Sys2Proof.Machine.execCas ty scp d c b a disp s
  | .vset ty d a b => Sys2Proof.Machine.execVset ty d a b s
  | .vset2d ty d a b => Sys2Proof.Machine.execVset2d ty d a b s
  | .vcfg d a => Sys2Proof.Machine.execVcfg d a s
  | .replay a k => Sys2Proof.Machine.execReplay a k s
  | .ostrm ty d a b disp => Sys2Proof.Machine.execOstrm ty d a b disp s
  | .bind d a => Sys2Proof.Machine.execBind d a s
  | .unbind a => Sys2Proof.Machine.execUnbind a s
  | .vadd m d a b => Sys2Proof.Machine.execVadd m d a b s
  | .vsub m d a b => Sys2Proof.Machine.execVsub m d a b s
  | .vmul m d a b => Sys2Proof.Machine.execVmul m d a b s
  | .vmulh m d a b => Sys2Proof.Machine.execVmulh m d a b s
  | .vdiv m d a b => Sys2Proof.Machine.execVdiv m d a b s
  | .vrem m d a b => Sys2Proof.Machine.execVrem m d a b s
  | .vand m d a b => Sys2Proof.Machine.execVand m d a b s
  | .vor m d a b => Sys2Proof.Machine.execVor m d a b s
  | .vxor m d a b => Sys2Proof.Machine.execVxor m d a b s
  | .vshl m d a b => Sys2Proof.Machine.execVshl m d a b s
  | .vshr m d a b => Sys2Proof.Machine.execVshr m d a b s
  | .vsar m d a b => Sys2Proof.Machine.execVsar m d a b s
  | .vmin m d a b => Sys2Proof.Machine.execVmin m d a b s
  | .vmax m d a b => Sys2Proof.Machine.execVmax m d a b s
  | .vabs m d a => Sys2Proof.Machine.execVabs m d a s
  | .vneg m d a => Sys2Proof.Machine.execVneg m d a s
  | .vcmp c m d a b => Sys2Proof.Machine.execVcmp c m d a b s
  | .vsel m d a b c => Sys2Proof.Machine.execVsel m d a b c s
  | .vmov m d a => Sys2Proof.Machine.execVmov m d a s
  | .vclz m d a => Sys2Proof.Machine.execVclz m d a s
  | .vpopc m d a => Sys2Proof.Machine.execVpopc m d a s
  | .vfadd m d a b => Sys2Proof.Machine.execVfadd m d a b s
  | .vfsub m d a b => Sys2Proof.Machine.execVfsub m d a b s
  | .vfmul m d a b => Sys2Proof.Machine.execVfmul m d a b s
  | .vfdiv m d a b => Sys2Proof.Machine.execVfdiv m d a b s
  | .vfsqrt m d a => Sys2Proof.Machine.execVfsqrt m d a s
  | .vfrsqrt m d a => Sys2Proof.Machine.execVfrsqrt m d a s
  | .vfexp2 m d a => Sys2Proof.Machine.execVfexp2 m d a s
  | .vflog2 m d a => Sys2Proof.Machine.execVflog2 m d a s
  | .vfma m d a b c => Sys2Proof.Machine.execVfma m d a b c s
  | .vfmin m d a b => Sys2Proof.Machine.execVfmin m d a b s
  | .vfmax m d a b => Sys2Proof.Machine.execVfmax m d a b s
  | .vfabs m d a => Sys2Proof.Machine.execVfabs m d a s
  | .vfneg m d a => Sys2Proof.Machine.execVfneg m d a s
  | .vfcmp c m d a b => Sys2Proof.Machine.execVfcmp c m d a b s
  | .vcvt m src d a => Sys2Proof.Machine.execVcvt m src d a s
  | .vwiden m d a => Sys2Proof.Machine.execVwiden m d a s
  | .vnarrow m d a => Sys2Proof.Machine.execVnarrow m d a s
  | .vpack4 m src d a => Sys2Proof.Machine.execVpack4 m src d a s
  | .vunpack4 m d a => Sys2Proof.Machine.execVunpack4 m d a s
  | .vinga m d a b => Sys2Proof.Machine.execVinga m d a b s
  | .vingr m d a => Sys2Proof.Machine.execVingr m d a s
  | .mand k d a b => Sys2Proof.Machine.execMand k d a b s
  | .mor k d a b => Sys2Proof.Machine.execMor k d a b s
  | .mxor k d a b => Sys2Proof.Machine.execMxor k d a b s
  | .mandn k d a b => Sys2Proof.Machine.execMandn k d a b s
  | .mnot k d a => Sys2Proof.Machine.execMnot k d a s
  | .mpop k d a => Sys2Proof.Machine.execMpop k d a s
  | .mfirst k d a => Sys2Proof.Machine.execMfirst k d a s
  | .mcopy k d a => Sys2Proof.Machine.execMcopy k d a s
  | .vcompress m d a => Sys2Proof.Machine.execVcompress m d a s
  | .vexpand m d a => Sys2Proof.Machine.execVexpand m d a s
  | .vslideup m d a b => Sys2Proof.Machine.execVslideup m d a b s
  | .vslidedn m d a b => Sys2Proof.Machine.execVslidedn m d a b s
  | .vperm m d a b => Sys2Proof.Machine.execVperm m d a b s
  | .vbcast m d a => Sys2Proof.Machine.execVbcast m d a s
  | .vext m d a b => Sys2Proof.Machine.execVext m d a b s
  | .vins m d a b => Sys2Proof.Machine.execVins m d a b s
  | .viota m d => Sys2Proof.Machine.execViota m d s
  | .vred op ord m d a => Sys2Proof.Machine.execVred op ord m d a s
  | .vscan op ord m d a => Sys2Proof.Machine.execVscan op ord m d a s
  | .vld ty k trim d a disp => Sys2Proof.Machine.execVld ty k trim d a disp s
  | .vlds ty k trim d a c disp => Sys2Proof.Machine.execVlds ty k trim d a c disp s
  | .vldx ty k trim d a c disp => Sys2Proof.Machine.execVldx ty k trim d a c disp s
  | .vwgath ty k d a b c disp => Sys2Proof.Machine.execVwgath ty k d a b c disp s
  | .vst ty k d a disp => Sys2Proof.Machine.execVst ty k d a disp s
  | .vsts ty k d a c disp => Sys2Proof.Machine.execVsts ty k d a c disp s
  | .vstx ty k d a c disp => Sys2Proof.Machine.execVstx ty k d a c disp s
  | .tld ty k trim d a h => Sys2Proof.Machine.execTld ty k trim d a h s
  | .tst ty k d a h => Sys2Proof.Machine.execTst ty k d a h s
  | .vamo op ty rnd k d a b disp => Sys2Proof.Machine.execVamo op ty rnd k d a b disp s
  | .vassay mode delta w ty d a b c => Sys2Proof.Machine.execVassay mode delta w ty d a b c s
  | .vsegoff ty d a b => Sys2Proof.Machine.execVsegoff ty d a b s
  | .vfibre ty d a b c => Sys2Proof.Machine.execVfibre ty d a b c s
  | .vsred op ord m d a b => Sys2Proof.Machine.execVsred op ord m d a b s
  | .vsscan op ord m d a b => Sys2Proof.Machine.execVsscan op ord m d a b s
  | .vmaxi ty d a b c => Sys2Proof.Machine.execVmaxi ty d a b c s
  | .vmaxiSeg ty d a b c => Sys2Proof.Machine.execVmaxiSeg ty d a b c s
  | .vappend ty k d a b => Sys2Proof.Machine.execVappend ty k d a b s
  | .gadd ty k a b => Sys2Proof.Machine.execGadd ty k a b s
  | .gsnap d a => Sys2Proof.Machine.execGsnap d a s
  | .gslot d a b c => Sys2Proof.Machine.execGslot d a b c s
  | .dset d a field => Sys2Proof.Machine.execDset d a field s
  | .dld d a disp => Sys2Proof.Machine.execDld d a disp s
  | .dst d a disp => Sys2Proof.Machine.execDst d a disp s
  | .dshape d a q axis => Sys2Proof.Machine.execDshape d a q axis s
  | .amap f d a xr yr rnd sat => Sys2Proof.Machine.execAmap f d a xr yr rnd sat s
  | .ared op d a xr axis rnd sat => Sys2Proof.Machine.execAred op d a xr axis rnd sat s
  | .ascan op excl seg d a xr axis rnd sat => Sys2Proof.Machine.execAscan op excl seg d a xr axis rnd sat s
  | .agrade dn d a xr axis => Sys2Proof.Machine.execAgrade dn d a xr axis s
  | .arotScalar d a b xr axis => Sys2Proof.Machine.execArotScalar d a b xr axis s
  | .arotVector d a b xr axis => Sys2Proof.Machine.execArotVector d a b xr axis s
  | .atake d a b xr axis => Sys2Proof.Machine.execAtake d a b xr axis s
  | .adrop d a b xr axis => Sys2Proof.Machine.execAdrop d a b xr axis s
  | .areshape d a b => Sys2Proof.Machine.execAreshape d a b s
  | .atrans d a b => Sys2Proof.Machine.execAtrans d a b s
  | .aouter f d a xr yr rnd sat => Sys2Proof.Machine.execAouter f d a xr yr rnd sat s
  | .asel sel d a c => Sys2Proof.Machine.execAsel sel d a c s
  | .acomp d a b c axis => Sys2Proof.Machine.execAcomp d a b c axis s
  | .afrom d a b axis => Sys2Proof.Machine.execAfrom d a b axis s
  | .acat d a b axis => Sys2Proof.Machine.execAcat d a b axis s
  | .afill d a b => Sys2Proof.Machine.execAfill d a b s
  | .aiota d a axis rnd sat => Sys2Proof.Machine.execAiota d a axis rnd sat s
  | .mset ty d a b => Sys2Proof.Machine.execMset ty d a b s
  | .wld ty sp d a b c => Sys2Proof.Machine.execWld ty sp d a b c s
  | .mmul ty d a b c => Sys2Proof.Machine.execMmul ty d a b c s
  | .mmuls ty d a b c lane dens => Sys2Proof.Machine.execMmuls ty d a b c lane dens s
  | .mmula ty d a b c => Sys2Proof.Machine.execMmula ty d a b c s
  | .mmulc d a b c => Sys2Proof.Machine.execMmulc d a b c s
  | .mzero d => Sys2Proof.Machine.execMzero d s
  | .mdrainStrided m d a c disp => Sys2Proof.Machine.execMdrainStrided m d a c disp s
  | .mdrainIndexed m d a c disp => Sys2Proof.Machine.execMdrainIndexed m d a c disp s
  | .mdrv m d a => Sys2Proof.Machine.execMdrv m d a s
  | .kwait d => Sys2Proof.Machine.execKwait d s
  | .kpoll d a => Sys2Proof.Machine.execKpoll d a s
  | .mgrp ty d a c => Sys2Proof.Machine.execMgrp ty d a c s
  | .cutBand ty d a b c => Sys2Proof.Machine.execCutBand ty d a b c s
  | .cutSquare ty d a b c => Sys2Proof.Machine.execCutSquare ty d a b c s
  | .cocut d a b c => Sys2Proof.Machine.execCocut d a b c s
  | .cutq d => Sys2Proof.Machine.execCutq d s
  | .talloc ty lvl d a b h => Sys2Proof.Machine.execTalloc ty lvl d a b h s
  | .tfree h => Sys2Proof.Machine.execTfree h s
  | .tinfo q d h => Sys2Proof.Machine.execTinfo q d h s
  | .copy mode d a rnd sat eng => Sys2Proof.Machine.execCopy mode d a rnd sat eng s
  | .cgath ty mode d a c rnd sat eng => Sys2Proof.Machine.execCgath ty mode d a c rnd sat eng s
  | .facet eng a => Sys2Proof.Machine.execFacet eng a s
  | .swait d a b => Sys2Proof.Machine.execSwait d a b s
  | .barexp scp name a => Sys2Proof.Machine.execBarexp scp name a s
  | .barv scp name => Sys2Proof.Machine.execBarv scp name s
  | .barw scp name a => Sys2Proof.Machine.execBarw scp name a s
  | .wmpub a w => Sys2Proof.Machine.execWmpub a w s
  | .wmwait a w => Sys2Proof.Machine.execWmwait a w s
  | .gnode d a => Sys2Proof.Machine.execGnode d a s
  | .xalloc scp pri d a => Sys2Proof.Machine.execXalloc scp pri d a s
  | .xfree a => Sys2Proof.Machine.execXfree a s
  | .xall op ord ty rnd d a b => Sys2Proof.Machine.execXall op ord ty rnd d a b s
  | .xred op ord ty rnd d a b root => Sys2Proof.Machine.execXred op ord ty rnd d a b root s
  | .xgath ty d a b root => Sys2Proof.Machine.execXgath ty d a b root s
  | .xscat ty d a b root => Sys2Proof.Machine.execXscat ty d a b root s
  | .xbcast ty d a b root => Sys2Proof.Machine.execXbcast ty d a b root s
  | .xsend ty a b c => Sys2Proof.Machine.execXsend ty a b c s
  | .xrecv ty d b c => Sys2Proof.Machine.execXrecv ty d b c s
  | .fence before after scp => Sys2Proof.Machine.execFence before after scp s
  | .hold set => Sys2Proof.Machine.execHold set s
  | .trap code => Sys2Proof.Machine.execTrap code s
  | .srd d n => Sys2Proof.Machine.execSrd d n s
  | .swr n a => Sys2Proof.Machine.execSwr n a s
  | .swrVcfg a => Sys2Proof.Machine.execSwrVcfg a s
  | .swrCutst a => Sys2Proof.Machine.execSwrCutst a s
  | .swrXpos a => Sys2Proof.Machine.execSwrXpos a s
  | .tlbiVa a => Sys2Proof.Machine.execTlbiVa a s
  | .ctxsave full a => Sys2Proof.Machine.execCtxsave full a s
  | .ctxrest a => Sys2Proof.Machine.execCtxrest a s
  | .einj kind st d a b => Sys2Proof.Machine.execEinj kind st d a b s
  | .copyExecute die eng => Sys2Proof.Machine.execCopyExecute die eng s
  | .matrixOperationStart arr => Sys2Proof.Machine.execMatrixOperationStart arr s
  | .operationFinishes k => Sys2Proof.Machine.execOperationFinishes k s
  | .spanPacketReceipt n => Sys2Proof.Machine.execSpanPacketReceipt n s
  | .preEmption drove elem => Sys2Proof.Machine.execPreEmption drove elem s
  | .outriderIssue n => Sys2Proof.Machine.execOutriderIssue n s
  | .loadPerformed p => Sys2Proof.Machine.execLoadPerformed p s
  | .drovePlacement sad node cores => Sys2Proof.Machine.execDrovePlacement sad node cores s
  | .bindingFill o => Sys2Proof.Machine.execBindingFill o s
  | .restore drove cores => Sys2Proof.Machine.execRestore drove cores s
  | .droveRetirement drove => Sys2Proof.Machine.execDroveRetirement drove s
  | .nodeComplete sad node => Sys2Proof.Machine.execNodeComplete sad node s
  | .copyNodeStart sad node => Sys2Proof.Machine.execCopyNodeStart sad node s
  | .hostEventPost sad node => Sys2Proof.Machine.execHostEventPost sad node s
  | .triggerNodeWrite sad node => Sys2Proof.Machine.execTriggerNodeWrite sad node s
  | .adapterPrefetch die sad id => Sys2Proof.Machine.execAdapterPrefetch die sad id s
  | .hostPostedWrite sad va data => Sys2Proof.Machine.execHostPostedWrite sad va data s
  | .lineFetch ahead => Sys2Proof.Machine.execLineFetch ahead s
  | .waitSatisfied k => Sys2Proof.Machine.execWaitSatisfied k s
  | .l1Eviction line => Sys2Proof.Machine.execL1Eviction line s
  | .timerExpiry drove elem => Sys2Proof.Machine.execTimerExpiry drove elem s
  | .go sad node => Sys2Proof.Machine.execGo sad node s
  | .timer sad v => Sys2Proof.Machine.execTimer sad v s
  | .adaptN sad v => Sys2Proof.Machine.execAdaptN sad v s
  | .counterClear sad off v => Sys2Proof.Machine.execCounterClear sad off v s
  | .barRegisterWrite sad off pf v => Sys2Proof.Machine.execBarRegisterWrite sad off pf v s
  | .spanTimeout sad id => Sys2Proof.Machine.execSpanTimeout sad id s
  | .flitReceipt port flit => Sys2Proof.Machine.execFlitReceipt port flit s
  | .linkRetrain port => Sys2Proof.Machine.execLinkRetrain port s
  | .packetLifetimeExpiry n => Sys2Proof.Machine.execPacketLifetimeExpiry n s
  | .uncorrectableError e => Sys2Proof.Machine.execUncorrectableError e s
  | .correctableError kind inst => Sys2Proof.Machine.execCorrectableError kind inst s
  | .channelFailure ch => Sys2Proof.Machine.execChannelFailure ch s
  | .expanderRemoval port => Sys2Proof.Machine.execExpanderRemoval port s
  | .recoveryImageWrite img => Sys2Proof.Machine.execRecoveryImageWrite img s
  | .dieUp die => Sys2Proof.Machine.execDieUp die s
  | .dieCalibrated die => Sys2Proof.Machine.execDieCalibrated die s
  | .tlbCapacityDrop core n => Sys2Proof.Machine.execTlbCapacityDrop core n s
  | .harnessPortFailure port => Sys2Proof.Machine.execHarnessPortFailure port s
  | .spdmRequest fn msg => Sys2Proof.Machine.execSpdmRequest fn msg s
  | .droveRemoval drove => Sys2Proof.Machine.execDroveRemoval drove s
  | .drrRound => Sys2Proof.Machine.execDrrRound s
  | .powerOn => Sys2Proof.Machine.execPowerOn s
  | .coolantOutOfRange => Sys2Proof.Machine.execCoolantOutOfRange s
  | .coolantRestored => Sys2Proof.Machine.execCoolantRestored s
  | .illegalInstruction => Sys2Proof.Machine.execIllegalInstruction s
  | .nop => Sys2Proof.Machine.execNop s
  | .halt => Sys2Proof.Machine.execHalt s
  | .sret => Sys2Proof.Machine.execSret s
  | .mret => Sys2Proof.Machine.execMret s
  | .tlbiSad => Sys2Proof.Machine.execTlbiSad s
  | .tlbiAll => Sys2Proof.Machine.execTlbiAll s
  | .idle => Sys2Proof.Machine.execIdle s

end Machine
end Sys2Proof
end

