-- ==== Sys2Proof/Machine/Turn.lean ====
section
/-! DEFINITION. Which agent acts in a step: the agenda, the sheet in focus with its chain groups (R187 to R190), and what the module
does of itself when the sheet in focus cannot go on.
-/
namespace Sys2Proof
namespace Machine

/-- What a step does: it is over, or it runs an instruction or an event at a state. -/
inductive Plan where
  | done (o : Out3)
  | run (i : Instr) (s : State)

/-! ### Chain groups (R187, R190) -/

/-- The slot n places after the one at the PC. -/
def State.slotAhead (s : State) (n : Nat) : Word := Nat.repeat nextPc n s.sh.pc

/-- The word n body positions or slots after the one at the PC: none past the end of the iteration, or in a line that the sheet has
not fetched. -/
def State.wordAhead (s : State) (n : Nat) : Option IWord :=
  let r := s.sh.spr.rpst
  if rpDrives r then (if rpPos r + n < rpLen r then s.sh.rbuf[rpPos r + n]? else none)
  else (s.sh.lineAt (s.slotAhead n)).map fun l => l.word (slotOf (s.slotAhead n))

/-- The first of n slots from the PC on whose line has not been fetched; none in a loop. -/
def State.unfetched (s : State) (n : Nat) : Option Word :=
  if rpDrives s.sh.spr.rpst then none
  else ((List.range n).map s.slotAhead).find? fun pc => (s.sh.lineAt pc).isNone

/-- The next line is fetched, and kept, for the members that may stand there; a fault of it ends the group (R50, R187). -/
def State.fetchMembers (s : State) : Option State :=
  (s.unfetched 4).bind fun pc => match s.fetchLine pc pc with
    | .ok (l, t) => some { t with sh := t.sh.keepLine l }
    | .error _ => none

/-- The members that follow one, at most n, from k places ahead. -/
def State.members (s : State) : Nat → Nat → VecOp → List VecOp
  | 0, _, _ => []
  | n + 1, k, prev =>
    match ((s.wordAhead k).bind decode).bind vecOp with
    | some op => if op.follows prev then op :: s.members n (k + 1) op else []
    | none => []

/-- Every member reads the destination of the one before it. -/
def chained : List VecOp → Bool
  | a :: b :: l => b.follows a && chained (b :: l)
  | _ => true

/-- The causes that an instruction's own checks raise, before it makes an access; a protection trap that names no address is one
(R280). -/
def checkCause (c : Nat) (faddr : Word) : Bool :=
  c = 0x01 || c = 0x02 || c = 0x04 || (0x20 ≤ c && c < 0x30) || c = 0x40 || c = 0x41 || c = 0x50 || (c = 0x14 && faddr = 0)

/-- The trap that the checks of the word k places ahead raise: cause, TVAL and FADDR of the trap that it takes at its own slot
(R66, R190). The marks in TCAUSE and TSTATUS tell a trap entry from every other effect. DEDUCED: log 44. -/
def State.checkOf (s : State) (k : Nat) (w : IWord) : Option (Nat × Word × Word) :=
  let pc := s.slotAhead k
  match decode w with
  | none => some (0x01, 0, BitVec.ofNat 64 (s.recOff pc))
  | some i =>
    let mark : State := { s with sh := { s.sh with
      pc := pc, spr := { s.sh.spr with tcause := 256, tstatus := s.sh.spr.tstatus ||| 1 <<< 63 } } }
    match exec i mark with
    | .next t =>
      let p := t.sh.spr
      if p.tcause.toNat < 256 ∧ fld p.tstatus 63 1 = 0 ∧ t.sh.pc = p.tvec ∧ checkCause p.tcause.toNat p.faddr then
        some (p.tcause.toNat, p.tval, p.faddr)
      else none
    | .fault f => nomatch f
    | .refused _ => none

/-- An interrupted group of n resumes; the first member that fails its own checks traps, and a set that is no group traps 0x01 when
none does (R190). DEDUCED: log 44. -/
def State.resumeGroup (s : State) (n : Nat) : Out3 :=
  match s.unfetched n with
  | some pc => match s.fetchLine pc pc with
    | .ok (l, t) => .next { t with sh := t.sh.keepLine l }
    | .error st => .next (st.takeFetch pc)
  | none =>
    let ws := (List.range n).map s.wordAhead
    match (List.range n).findSome? fun k => (s.wordAhead k).bind (s.checkOf k) with
    | some (c, tv, fa) => .next ((s.takeTrap c tv fa s.sh.pc).mapSpr fun p => { p with faddr := fa })
    | none =>
      let ops := ws.filterMap fun w => (w.bind decode).bind vecOp
      if ops.length = n ∧ chained ops then s.runChain ops else .next (s.takeTrap 0x01 0 0 s.sh.pc)

/-- The instruction at the PC, on its own or as the head of its group. DEDUCED: log 44. -/
def State.groupTurn (s : State) (w : IWord) (i : Instr) : Plan :=
  let p := s.sh.spr
  let cls := (w.extractLsb' 92 4).toNat
  if p.epos = 0 then
    match vecOp i with
    | none => .run i s
    | some op =>
      if !op.joins then .run i s
      else match s.fetchMembers with
        | some t => .done (.next t)
        | none => match s.members 3 1 op with
          | [] => .run i s
          | l => .done (s.runChain (op :: l))
  else if 2 ≤ p.grpl.toNat && (cls = 5 || cls = 7) then .done (s.resumeGroup p.grpl.toNat)
  else .run i s

/-- The turn of the sheet in focus: a stop that waits for it (R282), the fetch it needs, or its next instruction. -/
def State.sheetTurn (s : State) : Plan :=
  match s.sh.run with
  | .off => .done (.next s)
  | .halted => .done (.next s)
  | .ready | .waiting =>
    match s.sh.irq with
    | some (.timer, none) => .done (.next (s.takeTrap 0x32 0 0 s.sh.pc))
    | some (.preempt, none) => .done (.next s)
    | _ =>
      match s.nextWord with
      | none => .done s.supply
      | some w =>
        match decode w with
        | none => .run .illegalInstruction s
        | some i => s.groupTurn w i

/-- A number of the oldest stores in flight of the sheet in focus are performed (R199, R203); one that must wait stays. -/
def State.storesTurn (s : State) (n : Nat) : State :=
  match s.performV n with
  | .ok t => t
  | .error (.wait t) => t
  | .error st => st.take

/-- A line leaves its line cache for memory. -/
def State.lineOut (s : State) (line : Nat) : State := { s with lcache := s.lcache.filter fun q => q.line ≠ line }

/-- Adapters that operations in the core's queues, or an `mmula` at the PC, name and lack (R319, R396). -/
def State.wantedAds (s : State) : List Turn :=
  let queued := s.core.queue.toList.flatMap fun q => q.flatMap fun o => match o.kind with
    | .mmula _ ids _ _ => ids
    | _ => []
  let named := match s.nextWord.bind decode with
    | some (.mmula _ _ a _ _) => s.sh.adapterIds a
    | _ => []
  (((queued ++ named).dedup).filter fun id => 0 ≤ id && (s.shelfAd s.pdie s.coreSad id).isNone).map fun id =>
    .ev (.adapterPrefetch s.pdie s.coreSad id.toNat)

/-- The launch nodes of a saddle that wait for a predecessor, as they would stand when ready. -/
def State.waitingCands (s : State) (sad : Nat) : List Cand :=
  (s.nodes.filter fun n => n.sad = sad && n.st = 1 && recKind n.body = 0).map fun n =>
    ⟨sad, recClass n.body, s.ids + n.num, recShape n.body, recCwin n.body, false, n.num⟩

/-- A saddle's ready and waiting launch nodes, up to 16 launches ahead in the order of R393 (R396). -/
def State.launches (s : State) (sad : Nat) : List Cand :=
  ((s.waitingCands sad).foldl (fun l c => insCand c l) (s.cands.filter fun c => c.sad = sad && !c.saved)).take 16

/-- The adapters that coming launches name and that the dies where they will be placed lack (R396). DEDUCED: log 76. -/
def State.comingAds (s : State) : List Turn :=
  (List.range 64).flatMap fun sad => (s.launches sad).flatMap fun c =>
    let place := (s.pickCores s.coreFree c.shape c.cwin).orElse fun _ => s.pickCores (fun k => s.dieIn (dieOfCore k)) c.shape 0
    let ids := ((s.node? sad c.num).map fun n => recAdapts n.body).getD []
    ((place.getD []).map dieOfCore).dedup.flatMap fun die =>
      (ids.filter fun id => 0 ≤ id && (s.shelfAd die sad id).isNone && (s.adFind sad id).isSome).map fun id =>
        .ev (.adapterPrefetch die sad id.toNat)

/-- The work of the graph (R392): nodes that need no drove, and completions. -/
def State.nodeTurns (s : State) : List Turn :=
  s.nodes.filterMap fun n =>
    if n.st = 4 then some (.ev (.nodeComplete n.sad n.num))
    else if n.st = 2 then
      match recKind n.body with
      | 1 => some (.ev (.copyNodeStart n.sad n.num))
      | 2 => some (.ev (.hostEventPost n.sad n.num))
      | 3 => some (.ev (.triggerNodeWrite n.sad n.num))
      | _ => none
    else none

/-- The first drove that may be placed now, else the next round when one waits for it (R393). -/
def State.placeTurns (s : State) : List Turn :=
  let place := s.cands.findSome? fun c =>
    if s.mayPlace c.sad && s.firstOf c then (s.pickCores s.coreFree c.shape c.cwin).map fun l => Cand.turn (c, l) else none
  match place with
  | some t => [t]
  | none => if s.timeOn && !s.cands.isEmpty then [.ev .drrRound] else []

/-- What is under way for a sheet and its core: fills of bound streams, stores in flight, matrix operations and their ends. -/
def sheetWork (h : Sheet) (c : Core) : List Turn :=
  let fills := ((List.finRange 4).filter fun o => osBound h.o[o.val]).map fun o => Turn.ev (.bindingFill o)
  let stores := if h.vq.isEmpty then [] else [Turn.stores h.place h.vq.length]
  let arrays := [0, 1].filterMap fun a =>
    if (c.queue.toList.getD a []).isEmpty then none else some (Turn.ev (.matrixOperationStart (Fin.ofNat 2 a)))
  let ends := (List.range 16).filterMap fun k =>
    if (h.k.toList.getD k Tok.idle).st = .pending then some (Turn.ev (.operationFinishes (Fin.ofNat 16 k))) else none
  fills ++ stores ++ arrays ++ ends

/-- The turn of another sheet, and its work while it is in focus; none when it has neither. -/
def State.othersWork (s : State) (p : Nat) : List Turn :=
  match s.sheetAt p with
  | none => []
  | some h =>
    let work := sheetWork h ((s.coreAt (coreOf p)).getD Core.reset)
    if h.run = .ready ∨ h.run = .waiting ∨ !work.isEmpty then .run p :: work else []

/-- The places of the sheets out of focus, in the order of the cores from the sheet in focus on (R21). -/
def State.otherPlaces (s : State) : List Nat :=
  let l := s.rest.foldl (fun l h => insertNat h.place l) []
  (l.filter fun p => s.sh.place < p) ++ l.filter fun p => p < s.sh.place

/-- What the module does of itself, but for the turn of the sheet in focus. -/
def State.work (s : State) : List Turn :=
  let own := if s.sh.run = .off then [] else sheetWork s.sh s.core
  let ads := if s.wantedAds.isEmpty then s.comingAds else s.wantedAds
  let pkts := match s.packets.findIdx? fun p => !p.lost with
    | some n => [Turn.ev (.spanPacketReceipt n)]
    | none => []
  let ends := (s.droves.filter fun d => d.st = .resident && s.quiet d).map fun d => Turn.ev (.droveRetirement d.id)
  own ++ ads ++ s.copyTurns ++ pkts ++ ends ++ s.nodeTurns ++ s.placeTurns ++ s.otherPlaces.flatMap s.othersWork

/-- The module's own work, then the turn of the sheet in focus: every sheet that is ready has one turn a round (R21, R25). -/
def State.defaultAgenda (s : State) : List Turn :=
  s.work ++ if s.sh.run = .ready ∨ s.sh.run = .waiting then [.run s.sh.place] else []

/-- What TIME has brought on: the end of a round (R393), the timeouts of spans (R383), the end of a packet's lifetime (R387). -/
def State.due (s : State) : List Turn :=
  (if s.timeOn && s.roundAt.toNat + roundCounts ≤ s.time.toNat then [.ev .drrRound] else []) ++
    ((s.spans.filter s.spanDue).map fun sp => .ev (.spanTimeout sp.sad sp.id)) ++
    (s.packets.zipIdx.filter fun q => !q.1.lost && s.tooOld q.1).map fun q => .expire q.2

/-- The plan of one turn; a sheet that is no longer placed has none. DESIGN CHOICE: log 5. -/
def State.turnPlan (s : State) : Turn → Plan
  | .ev i => if i.fields.isSome then .done (.next s) else .run i s
  | .run p => match s.focus p with
    | none => .done (.next s)
    | some s => s.sheetTurn
  | .stores p n => match s.focus p with
    | none => .done (.next s)
    | some s => .done (.next (s.storesTurn n))
  | .lineOut line => .done (.next (s.lineOut line))
  | .expire n => .done (execPacketLifetimeExpiry n s)

/-- The plan of a step: what TIME has brought on; else the head of the agenda; with none, the sheet in focus while it is the only
one with anything to do; else the module's own work becomes the agenda, while time passes. DESIGN CHOICE: log 4, 5. -/
def State.plan (s : State) : Plan :=
  match s.due, s.agenda with
  | t :: _, _ => s.turnPlan t
  | [], t :: l => ({ s with agenda := l } : State).turnPlan t
  | [], [] =>
    if s.sh.run = .ready && s.work.isEmpty then s.sheetTurn
    else
      let s := s.elapse
      .done (.next { s with agenda := s.defaultAgenda })

/-- The sheet in focus with a word in the slot at its PC (the line it runs from), ready to run it next. DESIGN CHOICE: log 3. -/
def State.placeWord (s : State) (w : IWord) : State :=
  let n := slotOf s.sh.pc
  let body := (List.range 5).flatMap fun k => if k = n then bytesOfWord w else List.replicate 12 (0 : Byte)
  { s with
    agenda := [.run s.sh.place]
    sh := { s.sh with
      run := .ready
      irq := none
      lines := [⟨(lineAddr s.sh.pc).toNat, body ++ List.replicate 4 0, []⟩] } }

end Machine
end Sys2Proof
end

