-- ==== Sys2Proof/Machine/Errors.lean ====
section
/-! DEFINITION. One turn of the module, and the errors that `einj` plants, met by the next turn that reads the entry (R298).
-/
namespace Sys2Proof
namespace Machine

/-- One turn: the plan's instruction or event, or what the plan already gives. -/
def State.turn (s : State) : Out3 :=
  match s.plan with
  | .done o => o
  | .run i t => exec i t

/-! ### The entry of a planted error (R298) -/

/-- Some bytes of a memory changed, each by its place among them. -/
def Memory.mapBytes (m : Memory) (a n : Nat) (f : Nat → Byte → Byte) : Memory :=
  (List.range n).foldl (fun m k => m.setByte (a + k) (f k (m.byte (a + k)))) m

/-- The bytes of a number changed. -/
def mapNat (n : Nat) (f : Nat → Byte → Byte) (v : Nat) : Nat := leNat ((leBytes n v).mapIdx f)

/-- The core that a location names. -/
def Planted.core (p : Planted) : Nat := injDie p.loc * coresPerDie + injUnit p.loc
/-- The 64-bit word of a byte offset. -/
def Planted.word (p : Planted) (bytes : Nat) : Nat := injOff p.loc % bytes / 8 * 8
/-- The line of a physical address in the location. -/
def Planted.line (p : Planted) : Nat := if p.site.val = 6 then lineOf (injOff p.loc) else lineOf p.loc.toNat
/-- The place whose vector storage a location of the register store names: 128 KiB for each of a core's sheets (R30). -/
def Planted.place (p : Planted) : Nat := 4 * p.core + injOff p.loc / vstoreBytes

/-- The core holds dirty bytes of a line. -/
def Core.dirtyIn (c : Core) (line : Nat) : Bool := c.l1.any fun d => lineOf d.key = line

/-- An entry of a facet table changed. -/
def mapFacet (t : BitVec 4096) (e : Nat) (f : Nat → Byte → Byte) : BitVec 4096 :=
  let v := mapNat 2 f (wfld t (16 * e) 16)
  (t &&& ~~~(BitVec.ofNat 4096 (65535 * 2 ^ (16 * e)))) ||| BitVec.ofNat 4096 (v * 2 ^ (16 * e))

/-- A memory line changed. -/
def State.mapLine (s : State) (line : Nat) (f : Nat → Byte → Byte) : State := { s with mem := s.mem.mapBytes (64 * line) 64 f }

/-- A line of a scalar L1 changed: its dirty bytes, or, while the core is in focus and holds it clean, what stands at its home. -/
def State.mapL1 (s : State) (core line : Nat) (f : Nat → Byte → Byte) : State :=
  match s.coreAt core with
  | none => s
  | some c =>
    if c.dirtyIn line then
      s.onCore core fun c => { c with l1 := c.l1.map fun d => if lineOf d.key = line then { d with byte := f (d.key % 64) d.byte } else d }
    else if s.core.place = core then s.mapLine line f
    else s

/-- The elements of an adapter that a 64-bit word of it holds changed. -/
def Adapter.mapWord (a : Adapter) (w : Nat) (f : Nat → Byte → Byte) : Adapter :=
  let one := fun i v => if i / 4 = w then mapNat 2 (fun k => f (2 * (i % 4) + k)) v else v
  { a with dn := a.dn.mapIdx one, up := a.up.mapIdx fun i => one (a.dn.length + i) }

/-- The bytes of the entry changed: a line, the 64-bit word of a store, the row of an accumulator, the entry of a facet table. -/
def State.mapEntry (s : State) (p : Planted) (f : Nat → Byte → Byte) : State :=
  match p.site.val with
  | 0 => s.mapLine p.line f
  | 1 => s.mapLine p.line f
  | 4 => s.onSheet p.place fun h => { h with vstore := h.vstore.mapBytes (p.word vstoreBytes) 8 f }
  | 6 => s.mapL1 p.core p.line f
  | 7 =>
    let z := injOff p.loc / 64
    s.onCore p.core fun c => if h : z < 8 then
      { c with z := c.z.set z { c.z[z] with cells := c.z[z].cells.mapBytes (256 * (injOff p.loc % 64)) 256 f } } else c
  | 8 => s.setEngine (injDie p.loc * 4 + injUnit p.loc) fun (e : Engine) =>
      { e with facet := e.facet.map fun q => (q.1, mapFacet q.2 (injOff p.loc) f) }
  | _ => match (injStore p.site p.loc).bind fun q => s.tileAt q.1 q.2 (injOff p.loc) with
    | none => match if p.site.val = 2 then s.adapterAt (injDie p.loc) (injOff p.loc) else none with
      | none => s
      | some (a, o) => { s with adapters := s.adapters.map fun k => if k = a then k.mapWord (o / 8) f else k }
    | some (t, o) =>
      { s with tiles := s.tiles.map fun k => if k = t then { k with data := k.data.mapBytes (o / 8 * 8) 8 f } else k }

/-- The state with every bit of the entry flipped. -/
def State.flip (s : State) (p : Planted) : State := s.mapEntry p fun _ b => ~~~b
/-- The state without what the entry holds. -/
def State.mask (s : State) (p : Planted) : State := s.mapEntry p fun _ _ => 0

/-- The state with the entry changed: all of it, and one byte of each word. -/
def State.changed (s : State) (p : Planted) : List State :=
  s.flip p :: (List.range 8).map fun j => s.mapEntry p fun k b => if k % 8 = j then ~~~b else b

/-- The line of a planted error leaves its line cache. -/
def Planted.leaves (p : Planted) (s t : State) : Bool :=
  p.site.val = 1 && (s.lcache.any fun q => q.line = p.line) && !t.lcache.any fun q => q.line = p.line

/-- The sheet that has the turn, in focus. -/
def State.turnSheet (s : State) : Option State :=
  match s.due, s.agenda with
  | [], .run q :: _ => s.focus q
  | [], [] => some s
  | _, _ => none

/-- The instruction at its PC has completed: the sheet went on, and not to its handler. -/
def Sheet.wentOn (h : Sheet) (s : State) : Bool :=
  h.run = .ready && (h.pc ≠ s.sh.pc || rpDrives s.sh.spr.rpst) && !(h.pc = h.spr.tvec && h.spr.tpc = s.sh.pc)

/-- The turn reads a line: it ends otherwise when the line is poisoned. A scalar L1 is read by its core's own scalar loads. -/
def State.readsLine (s : State) (p : Planted) (t : State) : Bool :=
  let seen := match (s.poisonLine p.line).turn with
    | .next u => { t with poison := [] } ≠ { u with poison := [] }
    | _ => false
  match p.site.val with
  | 0 => seen
  | 1 => seen
  | 6 => seen && match s.turnSheet with
    | none => false
    | some f => coreOf f.sh.place = p.core && match f.nextWord.bind decode with
      | some (.ld ..) => true
      | some (.ldp ..) => true
      | some (.lda ..) => true
      | some (.dld ..) => true
      | _ => false
  | _ => false

/-- The turn's instruction reads the word as part of a group: a register that holds an element below AEC. -/
def State.readsGroup (s : State) (p : Planted) (t : State) : Bool :=
  p.site.val = 4 && match s.turnSheet, t.sheetAt p.place with
  | some f, some h => f.sh.place = p.place && h.wentOn f && match f.nextWord.bind decode with
    | none => false
    | some i =>
      let more := match vecOp i with
        | some op => if op.joins then (f.members 3 1 op).flatMap VecOp.reads else []
        | none => []
      let sp := f.sh.spr
      (readsOf f.sh i ++ more).any fun b => (List.range sp.rc).any fun k =>
        k * sp.vln < sp.aecn && b.val + k = p.word vstoreBytes / sp.rbytes
  | _, _ => false

/-- Steps of an operation on the accumulator that the turn takes read the row (R330). -/
def State.readsRow (s : State) (p : Planted) (t : State) : Bool :=
  p.site.val = 7 && match s.coreAt p.core, t.coreAt p.core with
  | some c, some c' => c.queue.toList.any fun q => q.any fun o =>
    let steps := fun (o : MatOp) => (o.prog.map OpProg.steps).getD 0
    o.z.val = injOff p.loc / 64 && injOff p.loc % 64 < o.mm &&
      match (c'.queue.toList.flatMap id).find? fun k => k.tok = o.tok && k.sheet = o.sheet with
      | some k => steps o < steps k
      | none => t.sheets.any fun h => h.place = 4 * p.core + o.sheet.val
  | _, _ => false

/-- The turn reads the entry: what it leaves, but for the entry itself, depends on what the entry holds; or it reads the line, the
group or the row whatever that holds; or the entry's line leaves the line cache. DEDUCED: log 33. -/
def State.readsEntry (s : State) (p : Planted) : Bool :=
  match s.turn with
  | .next t =>
    ((s.changed p).any fun (c : State) => match c.turn with
      | .next u => t.mask p ≠ u.mask p
      | _ => false) ||
    s.readsLine p t || s.readsGroup p t || s.readsRow p t || p.leaves s t
  | _ => false

/-- The turn writes the whole entry and does not read it: what it leaves does not depend on the entry at all. -/
def State.writesEntry (s : State) (p : Planted) (t : State) : Bool :=
  s.flip p ≠ s && match (s.flip p).turn with
    | .next u => t = u
    | _ => false

/-! ### Meeting it (R294 to R299, R330) -/

/-- The brand that the entry holds (R294): that of the sheet, the tile, the adapter, the core's drove or the facet table. -/
def State.entryBrand (s : State) (p : Planted) : Option (BitVec 12) :=
  match p.site.val with
  | 4 => (s.sheetAt p.place).map fun h => h.spr.brand12
  | 7 => (s.sheets.find? fun h => coreOf h.place = p.core).map fun h => h.spr.brand12
  | 8 => (s.engineAt (injDie p.loc * 4 + injUnit p.loc)).facet.map Prod.fst
  | _ => match (injStore p.site p.loc).bind fun q => s.tileAt q.1 q.2 (injOff p.loc) with
    | some q => some q.1.brand
    | none => if p.site.val = 2 then (s.adapterAt (injDie p.loc) (injOff p.loc)).map fun q => q.1.brand else none

/-- A planted error is found: corrected and counted, or handled by R296; a clean line is refetched, and a dirty one carries the brand
of its last writer. -/
def State.found (s : State) (p : Planted) : State :=
  let s := { s with planted := s.planted.erase p }
  let (kind, inst) := p.paddock
  if p.mild then s.countError kind inst
  else if p.kind = 3 then s.killEntry kind inst none 0
  else match p.site.val with
  | 0 => s.poisonLine p.line
  | 1 => match s.lcache.find? fun q => q.line = p.line with
    | some q => (s.lineOut p.line).dirtyError kind inst p.line (some q.brand)
    | none => s
  | 6 => match (s.coreAt p.core).bind fun c => c.l1.find? fun d => lineOf d.key = p.line with
    | some d => s.dirtyError kind inst p.line (some d.brand)
    | none => s
  | _ => match s.entryBrand p with
    | some b => s.killEntry kind inst (some b) 0
    | none => s

/-- A turn while errors are planted: the first that the turn would read is found instead; one whose entry it overwrites is gone. -/
def State.turnChecked (s : State) : Out3 :=
  match s.planted.find? s.readsEntry with
  | some p => .next (s.found p)
  | none => match s.turn with
    | .next t => .next { t with planted := t.planted.filter fun p => !(s.planted.contains p && s.writesEntry p t) }
    | o => o

end Machine
end Sys2Proof
end

