-- ==== Sys2Proof/Machine/Step.lean ====
section
/-! DEFINITION. One step of the module.
-/
namespace Sys2Proof
namespace Machine

/-- One step: a turn, checked against the errors that are planted while there are any. -/
def step (s : State) : Host.Outcome State Fault Refusal :=
  if s.planted.isEmpty then s.turn else s.turnChecked

/-- The state with an instruction's bits in the slot that the sheet in focus runs next. DESIGN CHOICE: log 3. -/
def State.withFetchWord (s : State) (nbits w : Nat) : State :=
  s.placeWord (BitVec.ofNat 96 (w % 2 ^ nbits))

end Machine
end Sys2Proof
end

