-- ==== Sys2Proof/Laws/Codec.lean ====
section
/-! SUPPORT. The field codes: each code read back from the bits it was written to (R51 to R57, R62, R63, R68).
-/
namespace Sys2Proof

@[simp] theorem regOf_reg6_4 (r : Fin 4) : regOf 4 (reg6 r) = some r := by revert r; decide
@[simp] theorem regOf_reg6_6 (r : Fin 6) : regOf 6 (reg6 r) = some r := by revert r; decide
@[simp] theorem regOf_reg6_8 (r : Fin 8) : regOf 8 (reg6 r) = some r := by revert r; decide
@[simp] theorem regOf_reg6_16 (r : Fin 16) : regOf 16 (reg6 r) = some r := by revert r; decide
@[simp] theorem regOf_reg6_24 (r : Fin 24) : regOf 24 (reg6 r) = some r := by revert r; decide
@[simp] theorem regOf_reg6_32 (r : Fin 32) : regOf 32 (reg6 r) = some r := by revert r; decide
@[simp] theorem regOf_reg6_64 (r : Fin 64) : regOf 64 (reg6 r) = some r := by revert r; decide

@[simp] theorem Fmt.ofCode_bits (t : Fmt) : Fmt.ofCode t.bits.toNat = some t := by cases t <;> rfl
@[simp] theorem Fmt.ofCode_bits6 (t : Fmt) : Fmt.ofCode t.bits6.toNat = some t := by cases t <;> rfl
@[simp] theorem Rnd.ofCode_bits (r : Rnd) : Rnd.ofCode r.bits.toNat = some r := by cases r <;> rfl
@[simp] theorem Cond.ofCode_bits (c : Cond) : Cond.ofCode c.bits.toNat = some c := by cases c <;> rfl
@[simp] theorem RedOp.ofCode_bits (o : RedOp) : RedOp.ofCode o.bits.toNat = some o := by cases o <;> rfl
@[simp] theorem Scope.ofCode_bits (s : Scope) : Scope.ofCode s.bits.toNat = some s := by cases s <;> rfl
@[simp] theorem Rnd.bits_rne : Rnd.bits .rne = 0#3 := rfl
@[simp] theorem bitOf_ofBit (b : Bool) : bitOf (ofBit b) = b := by cases b <;> rfl

/-! Bits [50:48] and [36:32]. -/

@[simp] theorem yBits_mp (m i : BitVec 1) : (yBits m i).extractLsb' 2 1 = m := by revert m i; decide
@[simp] theorem yBits_i (m i : BitVec 1) : (yBits m i).extractLsb' 0 1 = i := by revert m i; decide
@[simp] theorem yBits_49 (m i : BitVec 1) : (yBits m i).extractLsb' 1 1 = 0#1 := by revert m i; decide
@[simp] theorem yBits_imm (m : BitVec 1) : yBits m 0#1 ||| 1#3 = yBits m 1#1 := by revert m; decide
@[simp] theorem flBits_scp (s : BitVec 3) (o t : Bool) : (flBits s o t).extractLsb' 2 3 = s := by revert s o t; decide
@[simp] theorem flBits_ord (s : BitVec 3) (o t : Bool) : (flBits s o t).extractLsb' 1 1 = ofBit o := by revert s o t; decide
@[simp] theorem flBits_sat (s : BitVec 3) (o t : Bool) : (flBits s o t).extractLsb' 0 1 = ofBit t := by revert s o t; decide
@[simp] theorem flBits_zero : flBits 0#3 false false = 0#5 := rfl
@[simp] theorem ofBit_false : ofBit false = 0#1 := rfl
@[simp] theorem ofBit_true : ofBit true = 1#1 := rfl

/-! MK and MP. -/

@[simp] theorem mkBits_by_ne (m : MReg) (b : Bool) : (VMask.by m b).mkBits ≠ 31#5 := by revert m b; decide
@[simp] theorem mkBits_by_reg (m : MReg) (b : Bool) : regOf 24 ((VMask.by m b).mkBits.zeroExtend 6) = some m := by
  revert m b; decide
@[simp] theorem mkBits_none : VMask.none.mkBits = 31#5 := rfl
@[simp] theorem mpBit_none : VMask.none.mpBit = 0#1 := rfl
@[simp] theorem mpBit_by (m : MReg) (b : Bool) : (VMask.by m b).mpBit = ofBit b := rfl

/-! IMM32. -/

theorem extract_zeroExtend {n : Nat} (h : n ≤ 32) (k : BitVec n) : (k.setWidth 32).extractLsb' 0 n = k := by
  ext i hi
  simp [hi]
  omega

/-- The bits of IMM32 above a field of n bits are zero. -/
theorem zeroExtend_above {n : Nat} (k : BitVec n) : k.setWidth 32 &&& ~~~((BitVec.allOnes n).setWidth 32) = 0#32 := by
  ext i hi
  simp
  intro h1
  exact BitVec.lt_of_getLsbD h1

@[simp] theorem extract_imm6 (k : BitVec 6) : (k.setWidth 32).extractLsb' 0 6 = k := extract_zeroExtend (by decide) k
@[simp] theorem extract_imm8 (k : BitVec 8) : (k.setWidth 32).extractLsb' 0 8 = k := extract_zeroExtend (by decide) k
@[simp] theorem extract_imm10 (k : BitVec 10) : (k.setWidth 32).extractLsb' 0 10 = k := extract_zeroExtend (by decide) k
@[simp] theorem extract_imm12 (k : BitVec 12) : (k.setWidth 32).extractLsb' 0 12 = k := extract_zeroExtend (by decide) k
@[simp] theorem extract_imm20 (k : BitVec 20) : (k.setWidth 32).extractLsb' 0 20 = k := extract_zeroExtend (by decide) k
@[simp] theorem above_imm6 (k : BitVec 6) : k.setWidth 32 &&& 0xFFFFFFC0#32 = 0#32 := zeroExtend_above k
@[simp] theorem above_imm8 (k : BitVec 8) : k.setWidth 32 &&& 0xFFFFFF00#32 = 0#32 := zeroExtend_above k
@[simp] theorem above_imm10 (k : BitVec 10) : k.setWidth 32 &&& 0xFFFFFC00#32 = 0#32 := zeroExtend_above k
@[simp] theorem above_imm12 (k : BitVec 12) : k.setWidth 32 &&& 0xFFFFF000#32 = 0#32 := zeroExtend_above k
@[simp] theorem above_imm20 (k : BitVec 20) : k.setWidth 32 &&& 0xFFF00000#32 = 0#32 := zeroExtend_above k

@[simp] theorem extract_imm1 (b : Bool) : ((ofBit b).setWidth 32).extractLsb' 0 1 = ofBit b := by revert b; decide
@[simp] theorem above_imm1 (b : Bool) : (ofBit b).setWidth 32 &&& 0xFFFFFFFE#32 = 0#32 := by revert b; decide

/-! The two sets of `fence`. -/

@[simp] theorem extract_fence_before (b a : BitVec 6) :
    (b.setWidth 32 ||| a.setWidth 32 <<< 8).extractLsb' 0 6 = b := by
  ext i hi; interval_cases i <;> simp
@[simp] theorem extract_fence_after (b a : BitVec 6) :
    (b.setWidth 32 ||| a.setWidth 32 <<< 8).extractLsb' 8 6 = a := by
  ext i hi; interval_cases i <;> simp
@[simp] theorem above_fence (b a : BitVec 6) :
    (b.setWidth 32 ||| a.setWidth 32 <<< 8) &&& 0xFFFFC0C0#32 = 0#32 := by
  ext i hi; interval_cases i <;> simp

/-! The engine, the mode and the barrier name of a copy. -/

@[simp] theorem extract_facet (e : BitVec 2) : (e.setWidth 32 <<< 20).extractLsb' 20 2 = e := by
  ext i hi; interval_cases i <;> simp
@[simp] theorem above_facet (e : BitVec 2) : e.setWidth 32 <<< 20 &&& 0xFFCFFFFF#32 = 0#32 := by
  ext i hi; interval_cases i <;> simp

@[simp] theorem copyMode_st (e : BitVec 2) (b : XReg) (o n : BitVec 8) (d a c : BitVec 6) (k : BitVec 5) (y : BitVec 3)
    (t : BitVec 8) (r : BitVec 3) (sat : Bool) :
    Fields.copyMode ⟨o, n, d, a, reg6 b, c, k, y, t, r, flBits 0#3 false sat, e.setWidth 32 <<< 20⟩ = some (.st b) := by
  have h : (e.setWidth 32 <<< 20).extractLsb' 16 2 = 0#2 := by ext i hi; interval_cases i <;> simp
  have h' : (e.setWidth 32 <<< 20).extractLsb' 0 10 = 0#10 := by ext i hi; interval_cases i <;> simp
  simp [Fields.copyMode, h, h']
@[simp] theorem copyMode_gr (e : BitVec 2) (b : XReg) (o n : BitVec 8) (d a c : BitVec 6) (k : BitVec 5) (y : BitVec 3)
    (t : BitVec 8) (r : BitVec 3) (sat : Bool) :
    Fields.copyMode ⟨o, n, d, a, reg6 b, c, k, y, t, r, flBits 0#3 false sat, e.setWidth 32 <<< 20 ||| 131072#32⟩ =
      some (.gr b) := by
  have h : (e.setWidth 32 <<< 20 ||| 131072#32).extractLsb' 16 2 = 2#2 := by ext i hi; interval_cases i <;> simp
  have h' : (e.setWidth 32 <<< 20 ||| 131072#32).extractLsb' 0 10 = 0#10 := by ext i hi; interval_cases i <;> simp
  simp [Fields.copyMode, h, h']
@[simp] theorem copyMode_bar (e : BitVec 2) (m : BitVec 10) (s : Scope) (o n : BitVec 8) (d a c : BitVec 6) (k : BitVec 5)
    (y : BitVec 3) (t : BitVec 8) (r : BitVec 3) (sat : Bool) :
    Fields.copyMode ⟨o, n, d, a, 0#6, c, k, y, t, r, flBits s.bits false sat,
      e.setWidth 32 <<< 20 ||| 65536#32 ||| m.setWidth 32⟩ = some (.bar m s) := by
  have h : (e.setWidth 32 <<< 20 ||| 65536#32 ||| m.setWidth 32).extractLsb' 16 2 = 1#2 := by
    ext i hi; interval_cases i <;> simp
  have h' : (e.setWidth 32 <<< 20 ||| 65536#32 ||| m.setWidth 32).extractLsb' 0 10 = m := by
    ext i hi; interval_cases i <;> simp
  simp [Fields.copyMode, h, h']
@[simp] theorem flBits_or (s : BitVec 3) (b : Bool) : flBits 0#3 false b ||| flBits s false false = flBits s false b := by
  revert s b; decide
@[simp] theorem extract_eng_gr (e : BitVec 2) : (e.setWidth 32 <<< 20 ||| 131072#32).extractLsb' 20 2 = e := by
  ext i hi; interval_cases i <;> simp
@[simp] theorem extract_eng_bar (e : BitVec 2) (m : BitVec 10) :
    (e.setWidth 32 <<< 20 ||| 65536#32 ||| m.setWidth 32).extractLsb' 20 2 = e := by
  ext i hi; interval_cases i <;> simp
@[simp] theorem above_copy_st (e : BitVec 2) : e.setWidth 32 <<< 20 &&& 0xFFCCFC00#32 = 0#32 := by
  ext i hi; interval_cases i <;> simp
@[simp] theorem above_copy_gr (e : BitVec 2) : (e.setWidth 32 <<< 20 ||| 131072#32) &&& 0xFFCCFC00#32 = 0#32 := by
  ext i hi; interval_cases i <;> simp
@[simp] theorem above_copy_bar (e : BitVec 2) (m : BitVec 10) :
    (e.setWidth 32 <<< 20 ||| 65536#32 ||| m.setWidth 32) &&& 0xFFCCFC00#32 = 0#32 := by
  ext i hi; interval_cases i <;> simp

/-! IMM32 of the array class: RND, SAT, OP and [16]. -/

@[simp] theorem xrank_zeroExtend (x : BitVec 3) (o n : BitVec 8) (d a b c : BitVec 6) (y : BitVec 3) (t : BitVec 8)
    (r : BitVec 3) (fl : BitVec 5) (v : BitVec 32) :
    xrank ⟨o, n, d, a, b, c, x.setWidth 5, y, t, r, fl, v⟩ = some x := by
  have h : ∀ x : BitVec 3, (if (x.setWidth 5).toNat < 8 then some ((x.setWidth 5).extractLsb' 0 3) else none) = some x := by
    decide
  exact h x

/-- The word of `aimm` by its fields, for an OP below 32. -/
theorem aimm_fields (r : Rnd) (s : Bool) (o : Nat × Nat) (h1 : o.1 < 2) (h2 : o.2 < 32) :
    aimm r s o &&& 0xFFFE00F0#32 = 0#32 ∧ (aimm r s o).extractLsb' 0 3 = r.bits ∧
      (aimm r s o).extractLsb' 3 1 = ofBit s ∧ (aimm r s o).extractLsb' 8 8 = BitVec.ofNat 8 o.2 ∧
      (aimm r s o).extractLsb' 16 1 = BitVec.ofNat 1 o.1 ∧ (o.1 = 0 → aimm r s o &&& 0xFFFF00F0#32 = 0#32) := by
  obtain ⟨p, q⟩ := o
  have key : ∀ (a : Fin 2) (b : Fin 32), aimm r s (a.val, b.val) &&& 0xFFFE00F0#32 = 0#32 ∧
      (aimm r s (a.val, b.val)).extractLsb' 0 3 = r.bits ∧ (aimm r s (a.val, b.val)).extractLsb' 3 1 = ofBit s ∧
      (aimm r s (a.val, b.val)).extractLsb' 8 8 = BitVec.ofNat 8 b.val ∧
      (aimm r s (a.val, b.val)).extractLsb' 16 1 = BitVec.ofNat 1 a.val ∧
      (a.val = 0 → aimm r s (a.val, b.val) &&& 0xFFFF00F0#32 = 0#32) := by
    cases r <;> cases s <;> decide
  exact key ⟨p, h1⟩ ⟨q, h2⟩
@[simp] theorem above_aimm (r : Rnd) (s : Bool) : aimm r s (0, 0) &&& 0xFFFFFFF0#32 = 0#32 := by
  cases r <;> cases s <;> decide

theorem MapFn.op_lt (f : MapFn) : f.op.1 < 2 ∧ f.op.2 < 32 := by
  cases f with
  | un u => cases u <;> decide
  | bin u _ => cases u <;> simp [MapFn.op, MapBin.op]
  | _ => simp [MapFn.op]
theorem RedOp.code_lt (o : RedOp) : o.code < 32 := by cases o <;> decide
@[simp] theorem RedOp.ofCode_code (o : RedOp) : RedOp.ofCode (o.code % 256) = some o := by cases o <;> rfl

/-- The element function comes back from OP, [16], B and C. -/
theorem mapFn_fields (g : MapFn) (f : Fields) (hb : f.b = g.bBits) (hc : f.c = g.cBits)
    (h1 : (f.imm.extractLsb' 8 8).toNat = g.op.2) (h2 : (f.imm.extractLsb' 16 1).toNat = g.op.1) : mapFn f = some g := by
  unfold mapFn
  rw [h1, h2]
  cases g with
  | un u => cases u <;> simp_all [MapFn.op, MapUn.op, MapFn.bBits, MapFn.cBits]
  | bin u y => cases u <;> simp_all [MapFn.op, MapBin.op, MapFn.bBits, MapFn.cBits]
  | _ => simp_all [MapFn.op, MapFn.bBits, MapFn.cBits]

/-! The words of `dset`, `dshape`, `vassay`, `mmuls` and `einj`. -/

theorem imm_field (n : Fin 32) : BitVec.ofNat 32 (256 * n.val) &&& 0xFFFF00FF#32 = 0#32 ∧
    (BitVec.ofNat 32 (256 * n.val)).extractLsb' 8 8 = BitVec.ofNat 8 n.val := by revert n; decide

theorem assay_fields (m : Fin 3) (b : Bool) (w : BitVec 6) :
    (BitVec.ofNat 32 m.val ||| (ofBit b).setWidth 32 <<< 2 ||| w.setWidth 32 <<< 8) &&& 0xFFFFC0F8#32 = 0#32 ∧
      regOf 3 (((BitVec.ofNat 32 m.val ||| (ofBit b).setWidth 32 <<< 2 ||| w.setWidth 32 <<< 8).extractLsb' 0 2).setWidth 6) =
        some m ∧
      (BitVec.ofNat 32 m.val ||| (ofBit b).setWidth 32 <<< 2 ||| w.setWidth 32 <<< 8).extractLsb' 2 1 = ofBit b ∧
      (BitVec.ofNat 32 m.val ||| (ofBit b).setWidth 32 <<< 2 ||| w.setWidth 32 <<< 8).extractLsb' 8 6 = w := by
  revert w; cases b <;> revert m <;> decide

theorem mmuls_fields (l : BitVec 6) (n : Fin 4) :
    (l.setWidth 32 ||| BitVec.ofNat 32 n.val <<< 6) &&& 0xFFFFFF00#32 = 0#32 ∧
      (l.setWidth 32 ||| BitVec.ofNat 32 n.val <<< 6).extractLsb' 0 6 = l ∧
      regOf 4 (((l.setWidth 32 ||| BitVec.ofNat 32 n.val <<< 6).extractLsb' 6 2).setWidth 6) = some n := by
  revert l n; decide

theorem einj_fields (k : BitVec 2) (n : Fin 9) :
    (BitVec.ofNat 32 n.val ||| k.setWidth 32 <<< 4) &&& 0xFFFFFFC0#32 = 0#32 ∧
      (BitVec.ofNat 32 n.val ||| k.setWidth 32 <<< 4).extractLsb' 4 2 = k ∧
      (BitVec.ofNat 32 n.val ||| k.setWidth 32 <<< 4).extractLsb' 0 4 = BitVec.ofNat 4 n.val := by
  revert k n; decide

end Sys2Proof
end

