-- ==== Sys2Proof/Laws/PerInstr.lean ====
section
/-! SUPPORT. Per instruction: its fields decode to it (the encoding tables of R51 to R57 read both ways).
-/
namespace Sys2Proof.Laws.RoundTrip

set_option Elab.async false

/-- A well-formed instruction is what the decoder reads from the fields the encoder gives it; an event has no fields. -/
def Statement (i : Instr) : Prop := i.wf = true → i.fields.bind decodeFields = i.fields.map fun _ => i

theorem add (d : XReg) (a : XReg) (b : XSrc) : Statement (.add d a b) := by
  intro h; cases b <;> simp [Instr.fields, decodeFields, decodeOpc, decodeInt, h]
theorem sub (d : XReg) (a : XReg) (b : XSrc) : Statement (.sub d a b) := by
  intro h; cases b <;> simp [Instr.fields, decodeFields, decodeOpc, decodeInt, h]
theorem mul (d : XReg) (a : XReg) (b : XSrc) : Statement (.mul d a b) := by
  intro h; cases b <;> simp [Instr.fields, decodeFields, decodeOpc, decodeInt, h]
theorem mulh (ty : Fmt) (d : XReg) (a : XReg) (b : XSrc) : Statement (.mulh ty d a b) := by
  intro h; cases b <;> simp [Instr.fields, decodeFields, decodeOpc, decodeInt, h]
theorem div (ty : Fmt) (d : XReg) (a : XReg) (b : XSrc) : Statement (.div ty d a b) := by
  intro h; cases b <;> simp [Instr.fields, decodeFields, decodeOpc, decodeInt, h]
theorem rem (ty : Fmt) (d : XReg) (a : XReg) (b : XSrc) : Statement (.rem ty d a b) := by
  intro h; cases b <;> simp [Instr.fields, decodeFields, decodeOpc, decodeInt, h]
theorem and (d : XReg) (a : XReg) (b : XSrc) : Statement (.and d a b) := by
  intro h; cases b <;> simp [Instr.fields, decodeFields, decodeOpc, decodeInt, h]
theorem or (d : XReg) (a : XReg) (b : XSrc) : Statement (.or d a b) := by
  intro h; cases b <;> simp [Instr.fields, decodeFields, decodeOpc, decodeInt, h]
theorem xor (d : XReg) (a : XReg) (b : XSrc) : Statement (.xor d a b) := by
  intro h; cases b <;> simp [Instr.fields, decodeFields, decodeOpc, decodeInt, h]
theorem andn (d : XReg) (a : XReg) (b : XSrc) : Statement (.andn d a b) := by
  intro h; cases b <;> simp [Instr.fields, decodeFields, decodeOpc, decodeInt, h]
theorem shl (d : XReg) (a : XReg) (b : XSrc) : Statement (.shl d a b) := by
  intro h; cases b <;> simp [Instr.fields, decodeFields, decodeOpc, decodeInt, h]
theorem shr (d : XReg) (a : XReg) (b : XSrc) : Statement (.shr d a b) := by
  intro h; cases b <;> simp [Instr.fields, decodeFields, decodeOpc, decodeInt, h]
theorem sar (d : XReg) (a : XReg) (b : XSrc) : Statement (.sar d a b) := by
  intro h; cases b <;> simp [Instr.fields, decodeFields, decodeOpc, decodeInt, h]
theorem rol (d : XReg) (a : XReg) (b : XSrc) : Statement (.rol d a b) := by
  intro h; cases b <;> simp [Instr.fields, decodeFields, decodeOpc, decodeInt, h]
theorem ror (d : XReg) (a : XReg) (b : XSrc) : Statement (.ror d a b) := by
  intro h; cases b <;> simp [Instr.fields, decodeFields, decodeOpc, decodeInt, h]
theorem min (ty : Fmt) (d : XReg) (a : XReg) (b : XSrc) : Statement (.min ty d a b) := by
  intro h; cases b <;> simp [Instr.fields, decodeFields, decodeOpc, decodeInt, h]
theorem max (ty : Fmt) (d : XReg) (a : XReg) (b : XSrc) : Statement (.max ty d a b) := by
  intro h; cases b <;> simp [Instr.fields, decodeFields, decodeOpc, decodeInt, h]
theorem cmp (c : Cond) (d : XReg) (a : XReg) (b : XSrc) : Statement (.cmp c d a b) := by
  intro h; cases b <;> simp [Instr.fields, decodeFields, decodeOpc, decodeInt, h]
theorem clz (d : XReg) (a : XReg) : Statement (.clz d a) := by
  intro h; simp [Instr.fields, decodeFields, decodeOpc, decodeInt, h]
theorem ctz (d : XReg) (a : XReg) : Statement (.ctz d a) := by
  intro h; simp [Instr.fields, decodeFields, decodeOpc, decodeInt, h]
theorem popc (d : XReg) (a : XReg) : Statement (.popc d a) := by
  intro h; simp [Instr.fields, decodeFields, decodeOpc, decodeInt, h]
theorem bext (d : XReg) (a : XReg) (b : XSrc) : Statement (.bext d a b) := by
  intro h; cases b <;> simp [Instr.fields, decodeFields, decodeOpc, decodeInt, h]
theorem bins (d : XReg) (a : XReg) (b : XSrc) : Statement (.bins d a b) := by
  intro h; cases b <;> simp [Instr.fields, decodeFields, decodeOpc, decodeInt, h]
theorem sext (ty : Fmt) (d : XReg) (a : XReg) : Statement (.sext ty d a) := by
  intro h; simp [Instr.fields, decodeFields, decodeOpc, decodeInt, h]
theorem zext (ty : Fmt) (d : XReg) (a : XReg) : Statement (.zext ty d a) := by
  intro h; simp [Instr.fields, decodeFields, decodeOpc, decodeInt, h]
theorem movh (d : XReg) (a : XReg) (b : XSrc) : Statement (.movh d a b) := by
  intro h; cases b <;> simp [Instr.fields, decodeFields, decodeOpc, decodeInt, h]
theorem crcw (ty : Fmt) (d : XReg) (a : XReg) (b : XSrc) : Statement (.crcw ty d a b) := by
  intro h; cases b <;> simp [Instr.fields, decodeFields, decodeOpc, decodeInt, h]
theorem bswap (d : XReg) (a : XReg) : Statement (.bswap d a) := by
  intro h; simp [Instr.fields, decodeFields, decodeOpc, decodeInt, h]
theorem fadd (ty : Fmt) (rnd : Rnd) (d : FReg) (a : FReg) (b : FSrc) : Statement (.fadd ty rnd d a b) := by
  intro h; cases b <;> simp [Instr.fields, decodeFields, decodeOpc, decodeFloat, h]
theorem fsub (ty : Fmt) (rnd : Rnd) (d : FReg) (a : FReg) (b : FSrc) : Statement (.fsub ty rnd d a b) := by
  intro h; cases b <;> simp [Instr.fields, decodeFields, decodeOpc, decodeFloat, h]
theorem fmul (ty : Fmt) (rnd : Rnd) (d : FReg) (a : FReg) (b : FSrc) : Statement (.fmul ty rnd d a b) := by
  intro h; cases b <;> simp [Instr.fields, decodeFields, decodeOpc, decodeFloat, h]
theorem fdiv (ty : Fmt) (rnd : Rnd) (d : FReg) (a : FReg) (b : FSrc) : Statement (.fdiv ty rnd d a b) := by
  intro h; cases b <;> simp [Instr.fields, decodeFields, decodeOpc, decodeFloat, h]
theorem fsqrt (ty : Fmt) (rnd : Rnd) (d : FReg) (a : FReg) : Statement (.fsqrt ty rnd d a) := by
  intro h; simp [Instr.fields, decodeFields, decodeOpc, decodeFloat, h]
theorem frsqrt (ty : Fmt) (rnd : Rnd) (d : FReg) (a : FReg) : Statement (.frsqrt ty rnd d a) := by
  intro h; simp [Instr.fields, decodeFields, decodeOpc, decodeFloat, h]
theorem fexp2 (ty : Fmt) (rnd : Rnd) (d : FReg) (a : FReg) : Statement (.fexp2 ty rnd d a) := by
  intro h; simp [Instr.fields, decodeFields, decodeOpc, decodeFloat, h]
theorem flog2 (ty : Fmt) (rnd : Rnd) (d : FReg) (a : FReg) : Statement (.flog2 ty rnd d a) := by
  intro h; simp [Instr.fields, decodeFields, decodeOpc, decodeFloat, h]
theorem fma (ty : Fmt) (rnd : Rnd) (d : FReg) (a : FReg) (b : FSrc) (c : FReg) : Statement (.fma ty rnd d a b c) := by
  intro h; cases b <;> simp [Instr.fields, decodeFields, decodeOpc, decodeFloat, h]
theorem fmin (ty : Fmt) (d : FReg) (a : FReg) (b : FSrc) : Statement (.fmin ty d a b) := by
  intro h; cases b <;> simp [Instr.fields, decodeFields, decodeOpc, decodeFloat, h]
theorem fmax (ty : Fmt) (d : FReg) (a : FReg) (b : FSrc) : Statement (.fmax ty d a b) := by
  intro h; cases b <;> simp [Instr.fields, decodeFields, decodeOpc, decodeFloat, h]
theorem fneg (ty : Fmt) (d : FReg) (a : FReg) : Statement (.fneg ty d a) := by
  intro h; simp [Instr.fields, decodeFields, decodeOpc, decodeFloat, h]
theorem fabs (ty : Fmt) (d : FReg) (a : FReg) : Statement (.fabs ty d a) := by
  intro h; simp [Instr.fields, decodeFields, decodeOpc, decodeFloat, h]
theorem fcmp (c : Cond) (ty : Fmt) (d : XReg) (a : FReg) (b : FSrc) : Statement (.fcmp c ty d a b) := by
  intro h; cases b <;> simp [Instr.fields, decodeFields, decodeOpc, decodeFloat, h]
theorem fcvt (ty : Fmt) (src : Fmt) (rnd : Rnd) (d : FReg) (a : FReg) : Statement (.fcvt ty src rnd d a) := by
  intro h; simp [Instr.fields, decodeFields, decodeOpc, decodeFloat, h]
theorem fcvti (ty : Fmt) (src : Fmt) (rnd : Rnd) (sat : Bool) (d : XReg) (a : FReg) : Statement (.fcvti ty src rnd sat d a) := by
  intro h; simp [Instr.fields, decodeFields, decodeOpc, decodeFloat, h]
theorem fcvtf (ty : Fmt) (src : Fmt) (rnd : Rnd) (d : FReg) (a : XReg) : Statement (.fcvtf ty src rnd d a) := by
  intro h; simp [Instr.fields, decodeFields, decodeOpc, decodeFloat, h]
theorem fmvx (ty : Fmt) (d : XReg) (a : FReg) : Statement (.fmvx ty d a) := by
  intro h; simp [Instr.fields, decodeFields, decodeOpc, decodeFloat, h]
theorem fmvf (ty : Fmt) (d : FReg) (a : XReg) : Statement (.fmvf ty d a) := by
  intro h; simp [Instr.fields, decodeFields, decodeOpc, decodeFloat, h]
theorem br (c : Cond) (a : XReg) (b : XReg) (disp : BitVec 32) : Statement (.br c a b disp) := by
  intro h; simp [Instr.fields, decodeFields, decodeOpc, decodeControl, h]
theorem jmp (disp : BitVec 32) : Statement (.jmp disp) := by
  intro h; simp [Instr.fields, decodeFields, decodeOpc, decodeControl, h]
theorem jal (d : XReg) (disp : BitVec 32) : Statement (.jal d disp) := by
  intro h; simp [Instr.fields, decodeFields, decodeOpc, decodeControl, h]
theorem jr (a : XReg) : Statement (.jr a) := by
  intro h; simp [Instr.fields, decodeFields, decodeOpc, decodeControl, h]
theorem jalr (d : XReg) (a : XReg) : Statement (.jalr d a) := by
  intro h; simp [Instr.fields, decodeFields, decodeOpc, decodeControl, h]
theorem evwait (d : XReg) : Statement (.evwait d) := by
  intro h; simp [Instr.fields, decodeFields, decodeOpc, decodeControl, h]
theorem ld (ty : Fmt) (d : XReg) (a : XReg) (disp : BitVec 32) : Statement (.ld ty d a disp) := by
  intro h; simp [Instr.fields, decodeFields, decodeOpc, decodeSMem, h]
theorem st (ty : Fmt) (b : XReg) (a : XReg) (disp : BitVec 32) : Statement (.st ty b a disp) := by
  intro h; simp [Instr.fields, decodeFields, decodeOpc, decodeSMem, h]
theorem ldp (ty : Fmt) (d : XReg) (c : XReg) (a : XReg) (disp : BitVec 32) : Statement (.ldp ty d c a disp) := by
  intro h; simp [Instr.fields, decodeFields, decodeOpc, decodeSMem, h]
theorem stp (ty : Fmt) (b : XReg) (c : XReg) (a : XReg) (disp : BitVec 32) : Statement (.stp ty b c a disp) := by
  intro h; simp [Instr.fields, decodeFields, decodeOpc, decodeSMem, h]
theorem lda (ty : Fmt) (scp : Scope) (d : XReg) (a : XReg) (disp : BitVec 32) : Statement (.lda ty scp d a disp) := by
  intro h; simp [Instr.fields, decodeFields, decodeOpc, decodeSMem, h]
theorem stl (ty : Fmt) (scp : Scope) (b : XReg) (a : XReg) (disp : BitVec 32) : Statement (.stl ty scp b a disp) := by
  intro h; simp [Instr.fields, decodeFields, decodeOpc, decodeSMem, h]
theorem amoAdd (ty : Fmt) (scp : Scope) (d : XReg) (b : XReg) (a : XReg) (disp : BitVec 32) : Statement (.amoAdd ty scp d b a disp) := by
  intro h; simp [Instr.fields, decodeFields, decodeOpc, decodeAmo, h]
theorem amoAnd (ty : Fmt) (scp : Scope) (d : XReg) (b : XReg) (a : XReg) (disp : BitVec 32) : Statement (.amoAnd ty scp d b a disp) := by
  intro h; simp [Instr.fields, decodeFields, decodeOpc, decodeAmo, h]
theorem amoOr (ty : Fmt) (scp : Scope) (d : XReg) (b : XReg) (a : XReg) (disp : BitVec 32) : Statement (.amoOr ty scp d b a disp) := by
  intro h; simp [Instr.fields, decodeFields, decodeOpc, decodeAmo, h]
theorem amoXor (ty : Fmt) (scp : Scope) (d : XReg) (b : XReg) (a : XReg) (disp : BitVec 32) : Statement (.amoXor ty scp d b a disp) := by
  intro h; simp [Instr.fields, decodeFields, decodeOpc, decodeAmo, h]
theorem amoMin (ty : Fmt) (scp : Scope) (d : XReg) (b : XReg) (a : XReg) (disp : BitVec 32) : Statement (.amoMin ty scp d b a disp) := by
  intro h; simp [Instr.fields, decodeFields, decodeOpc, decodeAmo, h]
theorem amoMax (ty : Fmt) (scp : Scope) (d : XReg) (b : XReg) (a : XReg) (disp : BitVec 32) : Statement (.amoMax ty scp d b a disp) := by
  intro h; simp [Instr.fields, decodeFields, decodeOpc, decodeAmo, h]
theorem amoSwap (ty : Fmt) (scp : Scope) (d : XReg) (b : XReg) (a : XReg) (disp : BitVec 32) : Statement (.amoSwap ty scp d b a disp) := by
  intro h; simp [Instr.fields, decodeFields, decodeOpc, decodeAmo, h]
theorem cas (ty : Fmt) (scp : Scope) (d : XReg) (c : XReg) (b : XReg) (a : XReg) (disp : BitVec 32) : Statement (.cas ty scp d c b a disp) := by
  intro h; simp [Instr.fields, decodeFields, decodeOpc, decodeAmo, h]
theorem vset (ty : Fmt) (d : XReg) (a : XReg) (b : XReg) : Statement (.vset ty d a b) := by
  intro h; simp [Instr.fields, decodeFields, decodeOpc, decodeVConf, h]
theorem vset2d (ty : Fmt) (d : XReg) (a : XReg) (b : XReg) : Statement (.vset2d ty d a b) := by
  intro h; simp [Instr.fields, decodeFields, decodeOpc, decodeVConf, h]
theorem vcfg (d : XReg) (a : XReg) : Statement (.vcfg d a) := by
  intro h; simp [Instr.fields, decodeFields, decodeOpc, decodeVConf, h]
theorem replay (a : XReg) (k : BitVec 6) : Statement (.replay a k) := by
  intro h; simp [Instr.fields, decodeFields, decodeOpc, decodeVConf, h]
theorem ostrm (ty : Fmt) (d : OReg) (a : XReg) (b : XReg) (disp : BitVec 32) : Statement (.ostrm ty d a b disp) := by
  intro h; simp [Instr.fields, decodeFields, decodeOpc, decodeStream, h]
theorem bind (d : VReg) (a : OReg) : Statement (.bind d a) := by
  intro h; simp [Instr.fields, decodeFields, decodeOpc, decodeStream, h]
theorem unbind (a : OReg) : Statement (.unbind a) := by
  intro h; simp [Instr.fields, decodeFields, decodeOpc, decodeStream, h]
theorem vadd (m : VMod) (d : VReg) (a : VReg) (b : VSrc) : Statement (.vadd m d a b) := by
  intro h; obtain ⟨ty, rnd, sat, mask⟩ := m <;> cases mask <;> cases b <;> simp [Instr.fields, decodeFields, decodeOpc, decodeVInt, h]
theorem vsub (m : VMod) (d : VReg) (a : VReg) (b : VSrc) : Statement (.vsub m d a b) := by
  intro h; obtain ⟨ty, rnd, sat, mask⟩ := m <;> cases mask <;> cases b <;> simp [Instr.fields, decodeFields, decodeOpc, decodeVInt, h]
theorem vmul (m : VMod) (d : VReg) (a : VReg) (b : VSrc) : Statement (.vmul m d a b) := by
  intro h; obtain ⟨ty, rnd, sat, mask⟩ := m <;> cases mask <;> cases b <;> simp [Instr.fields, decodeFields, decodeOpc, decodeVInt, h]
theorem vmulh (m : VMod) (d : VReg) (a : VReg) (b : VSrc) : Statement (.vmulh m d a b) := by
  intro h; obtain ⟨ty, rnd, sat, mask⟩ := m <;> cases mask <;> cases b <;> simp [Instr.fields, decodeFields, decodeOpc, decodeVInt, h]
theorem vdiv (m : VMod) (d : VReg) (a : VReg) (b : VSrc) : Statement (.vdiv m d a b) := by
  intro h; obtain ⟨ty, rnd, sat, mask⟩ := m <;> cases mask <;> cases b <;> simp [Instr.fields, decodeFields, decodeOpc, decodeVInt, h]
theorem vrem (m : VMod) (d : VReg) (a : VReg) (b : VSrc) : Statement (.vrem m d a b) := by
  intro h; obtain ⟨ty, rnd, sat, mask⟩ := m <;> cases mask <;> cases b <;> simp [Instr.fields, decodeFields, decodeOpc, decodeVInt, h]
theorem vand (m : VMod) (d : VReg) (a : VReg) (b : VSrc) : Statement (.vand m d a b) := by
  intro h; obtain ⟨ty, rnd, sat, mask⟩ := m <;> cases mask <;> cases b <;> simp [Instr.fields, decodeFields, decodeOpc, decodeVInt, h]
theorem vor (m : VMod) (d : VReg) (a : VReg) (b : VSrc) : Statement (.vor m d a b) := by
  intro h; obtain ⟨ty, rnd, sat, mask⟩ := m <;> cases mask <;> cases b <;> simp [Instr.fields, decodeFields, decodeOpc, decodeVInt, h]
theorem vxor (m : VMod) (d : VReg) (a : VReg) (b : VSrc) : Statement (.vxor m d a b) := by
  intro h; obtain ⟨ty, rnd, sat, mask⟩ := m <;> cases mask <;> cases b <;> simp [Instr.fields, decodeFields, decodeOpc, decodeVInt, h]
theorem vshl (m : VMod) (d : VReg) (a : VReg) (b : VSrc) : Statement (.vshl m d a b) := by
  intro h; obtain ⟨ty, rnd, sat, mask⟩ := m <;> cases mask <;> cases b <;> simp [Instr.fields, decodeFields, decodeOpc, decodeVInt, h]
theorem vshr (m : VMod) (d : VReg) (a : VReg) (b : VSrc) : Statement (.vshr m d a b) := by
  intro h; obtain ⟨ty, rnd, sat, mask⟩ := m <;> cases mask <;> cases b <;> simp [Instr.fields, decodeFields, decodeOpc, decodeVInt, h]
theorem vsar (m : VMod) (d : VReg) (a : VReg) (b : VSrc) : Statement (.vsar m d a b) := by
  intro h; obtain ⟨ty, rnd, sat, mask⟩ := m <;> cases mask <;> cases b <;> simp [Instr.fields, decodeFields, decodeOpc, decodeVInt, h]
theorem vmin (m : VMod) (d : VReg) (a : VReg) (b : VSrc) : Statement (.vmin m d a b) := by
  intro h; obtain ⟨ty, rnd, sat, mask⟩ := m <;> cases mask <;> cases b <;> simp [Instr.fields, decodeFields, decodeOpc, decodeVInt, h]
theorem vmax (m : VMod) (d : VReg) (a : VReg) (b : VSrc) : Statement (.vmax m d a b) := by
  intro h; obtain ⟨ty, rnd, sat, mask⟩ := m <;> cases mask <;> cases b <;> simp [Instr.fields, decodeFields, decodeOpc, decodeVInt, h]
theorem vabs (m : VMod) (d : VReg) (a : VReg) : Statement (.vabs m d a) := by
  intro h; obtain ⟨ty, rnd, sat, mask⟩ := m <;> cases mask <;> simp [Instr.fields, decodeFields, decodeOpc, decodeVInt, h]
theorem vneg (m : VMod) (d : VReg) (a : VReg) : Statement (.vneg m d a) := by
  intro h; obtain ⟨ty, rnd, sat, mask⟩ := m <;> cases mask <;> simp [Instr.fields, decodeFields, decodeOpc, decodeVInt, h]
theorem vcmp (c : Cond) (m : VMod) (d : MReg) (a : VReg) (b : VSrc) : Statement (.vcmp c m d a b) := by
  intro h; obtain ⟨ty, rnd, sat, mask⟩ := m <;> cases mask <;> cases b <;> simp [Instr.fields, decodeFields, decodeOpc, decodeVInt, h]
theorem vsel (m : VMod) (d : VReg) (a : VReg) (b : VReg) (c : VReg) : Statement (.vsel m d a b c) := by
  intro h; obtain ⟨ty, rnd, sat, mask⟩ := m <;> cases mask <;> simp [Instr.fields, decodeFields, decodeOpc, decodeVInt, h]
theorem vmov (m : VMod) (d : VReg) (a : VSrc) : Statement (.vmov m d a) := by
  intro h; obtain ⟨ty, rnd, sat, mask⟩ := m <;> cases mask <;> cases a <;> simp [Instr.fields, decodeFields, decodeOpc, decodeVInt, h]
theorem vclz (m : VMod) (d : VReg) (a : VReg) : Statement (.vclz m d a) := by
  intro h; obtain ⟨ty, rnd, sat, mask⟩ := m <;> cases mask <;> simp [Instr.fields, decodeFields, decodeOpc, decodeVInt, h]
theorem vpopc (m : VMod) (d : VReg) (a : VReg) : Statement (.vpopc m d a) := by
  intro h; obtain ⟨ty, rnd, sat, mask⟩ := m <;> cases mask <;> simp [Instr.fields, decodeFields, decodeOpc, decodeVInt, h]
theorem vfadd (m : VMod) (d : VReg) (a : VReg) (b : VSrc) : Statement (.vfadd m d a b) := by
  intro h; obtain ⟨ty, rnd, sat, mask⟩ := m <;> cases mask <;> cases b <;> simp [Instr.fields, decodeFields, decodeOpc, decodeVFloat, h]
theorem vfsub (m : VMod) (d : VReg) (a : VReg) (b : VSrc) : Statement (.vfsub m d a b) := by
  intro h; obtain ⟨ty, rnd, sat, mask⟩ := m <;> cases mask <;> cases b <;> simp [Instr.fields, decodeFields, decodeOpc, decodeVFloat, h]
theorem vfmul (m : VMod) (d : VReg) (a : VReg) (b : VSrc) : Statement (.vfmul m d a b) := by
  intro h; obtain ⟨ty, rnd, sat, mask⟩ := m <;> cases mask <;> cases b <;> simp [Instr.fields, decodeFields, decodeOpc, decodeVFloat, h]
theorem vfdiv (m : VMod) (d : VReg) (a : VReg) (b : VSrc) : Statement (.vfdiv m d a b) := by
  intro h; obtain ⟨ty, rnd, sat, mask⟩ := m <;> cases mask <;> cases b <;> simp [Instr.fields, decodeFields, decodeOpc, decodeVFloat, h]
theorem vfsqrt (m : VMod) (d : VReg) (a : VReg) : Statement (.vfsqrt m d a) := by
  intro h; obtain ⟨ty, rnd, sat, mask⟩ := m <;> cases mask <;> simp [Instr.fields, decodeFields, decodeOpc, decodeVFloat, h]
theorem vfrsqrt (m : VMod) (d : VReg) (a : VReg) : Statement (.vfrsqrt m d a) := by
  intro h; obtain ⟨ty, rnd, sat, mask⟩ := m <;> cases mask <;> simp [Instr.fields, decodeFields, decodeOpc, decodeVFloat, h]
theorem vfexp2 (m : VMod) (d : VReg) (a : VReg) : Statement (.vfexp2 m d a) := by
  intro h; obtain ⟨ty, rnd, sat, mask⟩ := m <;> cases mask <;> simp [Instr.fields, decodeFields, decodeOpc, decodeVFloat, h]
theorem vflog2 (m : VMod) (d : VReg) (a : VReg) : Statement (.vflog2 m d a) := by
  intro h; obtain ⟨ty, rnd, sat, mask⟩ := m <;> cases mask <;> simp [Instr.fields, decodeFields, decodeOpc, decodeVFloat, h]
theorem vfma (m : VMod) (d : VReg) (a : VReg) (b : VSrc) (c : VReg) : Statement (.vfma m d a b c) := by
  intro h; obtain ⟨ty, rnd, sat, mask⟩ := m <;> cases mask <;> cases b <;> simp [Instr.fields, decodeFields, decodeOpc, decodeVFloat, h]
theorem vfmin (m : VMod) (d : VReg) (a : VReg) (b : VSrc) : Statement (.vfmin m d a b) := by
  intro h; obtain ⟨ty, rnd, sat, mask⟩ := m <;> cases mask <;> cases b <;> simp [Instr.fields, decodeFields, decodeOpc, decodeVFloat, h]
theorem vfmax (m : VMod) (d : VReg) (a : VReg) (b : VSrc) : Statement (.vfmax m d a b) := by
  intro h; obtain ⟨ty, rnd, sat, mask⟩ := m <;> cases mask <;> cases b <;> simp [Instr.fields, decodeFields, decodeOpc, decodeVFloat, h]
theorem vfabs (m : VMod) (d : VReg) (a : VReg) : Statement (.vfabs m d a) := by
  intro h; obtain ⟨ty, rnd, sat, mask⟩ := m <;> cases mask <;> simp [Instr.fields, decodeFields, decodeOpc, decodeVFloat, h]
theorem vfneg (m : VMod) (d : VReg) (a : VReg) : Statement (.vfneg m d a) := by
  intro h; obtain ⟨ty, rnd, sat, mask⟩ := m <;> cases mask <;> simp [Instr.fields, decodeFields, decodeOpc, decodeVFloat, h]
theorem vfcmp (c : Cond) (m : VMod) (d : MReg) (a : VReg) (b : VSrc) : Statement (.vfcmp c m d a b) := by
  intro h; obtain ⟨ty, rnd, sat, mask⟩ := m <;> cases mask <;> cases b <;> simp [Instr.fields, decodeFields, decodeOpc, decodeVFloat, h]
theorem vcvt (m : VMod) (src : Fmt) (d : VReg) (a : VReg) : Statement (.vcvt m src d a) := by
  intro h; obtain ⟨ty, rnd, sat, mask⟩ := m <;> cases mask <;> simp [Instr.fields, decodeFields, decodeOpc, decodeVConv, h]
theorem vwiden (m : VMod) (d : VReg) (a : VReg) : Statement (.vwiden m d a) := by
  intro h; obtain ⟨ty, rnd, sat, mask⟩ := m <;> cases mask <;> simp [Instr.fields, decodeFields, decodeOpc, decodeVConv, h]
theorem vnarrow (m : VMod) (d : VReg) (a : VReg) : Statement (.vnarrow m d a) := by
  intro h; obtain ⟨ty, rnd, sat, mask⟩ := m <;> cases mask <;> simp [Instr.fields, decodeFields, decodeOpc, decodeVConv, h]
theorem vpack4 (m : VMod) (src : Fmt) (d : VReg) (a : VReg) : Statement (.vpack4 m src d a) := by
  intro h; obtain ⟨ty, rnd, sat, mask⟩ := m <;> cases mask <;> simp [Instr.fields, decodeFields, decodeOpc, decodeVConv, h]
theorem vunpack4 (m : VMod) (d : VReg) (a : VReg) : Statement (.vunpack4 m d a) := by
  intro h; obtain ⟨ty, rnd, sat, mask⟩ := m <;> cases mask <;> simp [Instr.fields, decodeFields, decodeOpc, decodeVConv, h]
theorem vinga (m : VMod) (d : VReg) (a : VReg) (b : VReg) : Statement (.vinga m d a b) := by
  intro h; obtain ⟨ty, rnd, sat, mask⟩ := m <;> cases mask <;> simp [Instr.fields, decodeFields, decodeOpc, decodeIngot, h]
theorem vingr (m : VMod) (d : VReg) (a : VReg) : Statement (.vingr m d a) := by
  intro h; obtain ⟨ty, rnd, sat, mask⟩ := m <;> cases mask <;> simp [Instr.fields, decodeFields, decodeOpc, decodeIngot, h]
theorem mand (k : VMask) (d : MReg) (a : MReg) (b : MReg) : Statement (.mand k d a b) := by
  intro h; cases k <;> simp [Instr.fields, decodeFields, decodeOpc, decodeMask, h]
theorem mor (k : VMask) (d : MReg) (a : MReg) (b : MReg) : Statement (.mor k d a b) := by
  intro h; cases k <;> simp [Instr.fields, decodeFields, decodeOpc, decodeMask, h]
theorem mxor (k : VMask) (d : MReg) (a : MReg) (b : MReg) : Statement (.mxor k d a b) := by
  intro h; cases k <;> simp [Instr.fields, decodeFields, decodeOpc, decodeMask, h]
theorem mandn (k : VMask) (d : MReg) (a : MReg) (b : MReg) : Statement (.mandn k d a b) := by
  intro h; cases k <;> simp [Instr.fields, decodeFields, decodeOpc, decodeMask, h]
theorem mnot (k : VMask) (d : MReg) (a : MReg) : Statement (.mnot k d a) := by
  intro h; cases k <;> simp [Instr.fields, decodeFields, decodeOpc, decodeMask, h]
theorem mpop (k : VMask) (d : XReg) (a : MReg) : Statement (.mpop k d a) := by
  intro h; cases k <;> simp [Instr.fields, decodeFields, decodeOpc, decodeMask, h]
theorem mfirst (k : VMask) (d : XReg) (a : MReg) : Statement (.mfirst k d a) := by
  intro h; cases k <;> simp [Instr.fields, decodeFields, decodeOpc, decodeMask, h]
theorem mcopy (k : VMask) (d : MReg) (a : MReg) : Statement (.mcopy k d a) := by
  intro h; cases k <;> simp [Instr.fields, decodeFields, decodeOpc, decodeMask, h]
theorem vcompress (m : VMod) (d : VReg) (a : VReg) : Statement (.vcompress m d a) := by
  intro h; obtain ⟨ty, rnd, sat, mask⟩ := m <;> cases mask <;> simp [Instr.fields, decodeFields, decodeOpc, decodeVMove, h]
theorem vexpand (m : VMod) (d : VReg) (a : VReg) : Statement (.vexpand m d a) := by
  intro h; obtain ⟨ty, rnd, sat, mask⟩ := m <;> cases mask <;> simp [Instr.fields, decodeFields, decodeOpc, decodeVMove, h]
theorem vslideup (m : VMod) (d : VReg) (a : VReg) (b : XSrc) : Statement (.vslideup m d a b) := by
  intro h; obtain ⟨ty, rnd, sat, mask⟩ := m <;> cases mask <;> cases b <;> simp [Instr.fields, decodeFields, decodeOpc, decodeVMove, h]
theorem vslidedn (m : VMod) (d : VReg) (a : VReg) (b : XSrc) : Statement (.vslidedn m d a b) := by
  intro h; obtain ⟨ty, rnd, sat, mask⟩ := m <;> cases mask <;> cases b <;> simp [Instr.fields, decodeFields, decodeOpc, decodeVMove, h]
theorem vperm (m : VMod) (d : VReg) (a : VReg) (b : VReg) : Statement (.vperm m d a b) := by
  intro h; obtain ⟨ty, rnd, sat, mask⟩ := m <;> cases mask <;> simp [Instr.fields, decodeFields, decodeOpc, decodeVMove, h]
theorem vbcast (m : VMod) (d : VReg) (a : XSrc) : Statement (.vbcast m d a) := by
  intro h; obtain ⟨ty, rnd, sat, mask⟩ := m <;> cases mask <;> cases a <;> simp [Instr.fields, decodeFields, decodeOpc, decodeVMove, h]
theorem vext (m : VMod) (d : XReg) (a : VReg) (b : XSrc) : Statement (.vext m d a b) := by
  intro h; obtain ⟨ty, rnd, sat, mask⟩ := m <;> cases mask <;> cases b <;> simp [Instr.fields, decodeFields, decodeOpc, decodeVMove, h]
theorem vins (m : VMod) (d : VReg) (a : XReg) (b : XSrc) : Statement (.vins m d a b) := by
  intro h; obtain ⟨ty, rnd, sat, mask⟩ := m <;> cases mask <;> cases b <;> simp [Instr.fields, decodeFields, decodeOpc, decodeVMove, h]
theorem viota (m : VMod) (d : VReg) : Statement (.viota m d) := by
  intro h; obtain ⟨ty, rnd, sat, mask⟩ := m <;> cases mask <;> simp [Instr.fields, decodeFields, decodeOpc, decodeVMove, h]
theorem vred (op : RedOp) (ord : Bool) (m : VMod) (d : XReg) (a : VReg) : Statement (.vred op ord m d a) := by
  intro h; obtain ⟨ty, rnd, sat, mask⟩ := m <;> cases mask <;> simp [Instr.fields, decodeFields, decodeOpc, decodeVRed, h]
theorem vscan (op : RedOp) (ord : Bool) (m : VMod) (d : VReg) (a : VReg) : Statement (.vscan op ord m d a) := by
  intro h; obtain ⟨ty, rnd, sat, mask⟩ := m <;> cases mask <;> simp [Instr.fields, decodeFields, decodeOpc, decodeVRed, h]
theorem vld (ty : Fmt) (k : VMask) (trim : Bool) (d : VReg) (a : XReg) (disp : BitVec 32) : Statement (.vld ty k trim d a disp) := by
  intro h; cases k <;> simp [Instr.fields, decodeFields, decodeOpc, decodeVMem, h]
theorem vlds (ty : Fmt) (k : VMask) (trim : Bool) (d : VReg) (a : XReg) (c : XReg) (disp : BitVec 32) : Statement (.vlds ty k trim d a c disp) := by
  intro h; cases k <;> simp [Instr.fields, decodeFields, decodeOpc, decodeVMem, h]
theorem vldx (ty : Fmt) (k : VMask) (trim : Bool) (d : VReg) (a : XReg) (c : VReg) (disp : BitVec 32) : Statement (.vldx ty k trim d a c disp) := by
  intro h; cases k <;> simp [Instr.fields, decodeFields, decodeOpc, decodeVMem, h]
theorem vwgath (ty : Fmt) (k : VMask) (d : VReg) (a : XReg) (b : MReg) (c : VReg) (disp : BitVec 32) : Statement (.vwgath ty k d a b c disp) := by
  intro h; cases k <;> simp [Instr.fields, decodeFields, decodeOpc, decodeVMem, h]
theorem vst (ty : Fmt) (k : VMask) (d : VReg) (a : XReg) (disp : BitVec 32) : Statement (.vst ty k d a disp) := by
  intro h; cases k <;> simp [Instr.fields, decodeFields, decodeOpc, decodeVMem, h]
theorem vsts (ty : Fmt) (k : VMask) (d : VReg) (a : XReg) (c : XReg) (disp : BitVec 32) : Statement (.vsts ty k d a c disp) := by
  intro h; cases k <;> simp [Instr.fields, decodeFields, decodeOpc, decodeVMem, h]
theorem vstx (ty : Fmt) (k : VMask) (d : VReg) (a : XReg) (c : VReg) (disp : BitVec 32) : Statement (.vstx ty k d a c disp) := by
  intro h; cases k <;> simp [Instr.fields, decodeFields, decodeOpc, decodeVMem, h]
theorem tld (ty : Fmt) (k : VMask) (trim : Bool) (d : VReg) (a : XReg) (h : BitVec 12) : Statement (.tld ty k trim d a h) := by
  intro h; cases k <;> simp [Instr.fields, decodeFields, decodeOpc, decodeVMem, h]
theorem tst (ty : Fmt) (k : VMask) (d : VReg) (a : XReg) (h : BitVec 12) : Statement (.tst ty k d a h) := by
  intro h; cases k <;> simp [Instr.fields, decodeFields, decodeOpc, decodeVMem, h]
theorem vamo (op : RedOp) (ty : Fmt) (rnd : Rnd) (k : VMask) (d : VReg) (a : XReg) (b : VReg) (disp : BitVec 32) : Statement (.vamo op ty rnd k d a b disp) := by
  intro h; cases k <;> simp [Instr.fields, decodeFields, decodeOpc, decodeVamo, h]
theorem vassay (mode : Fin 3) (delta : Bool) (w : BitVec 6) (ty : Fmt) (d : VReg) (a : XReg) (b : XReg) (c : XReg) : Statement (.vassay mode delta w ty d a b c) := by
  intro h
  obtain ⟨h0, h1, h2, h3⟩ := assay_fields mode delta w
  simp [Instr.fields, decodeFields, decodeOpc, decodeAssay, h, h0, h1, h2, h3]
theorem vsegoff (ty : Fmt) (d : MReg) (a : VReg) (b : XReg) : Statement (.vsegoff ty d a b) := by
  intro h; simp [Instr.fields, decodeFields, decodeOpc, decodeSeg, h]
theorem vfibre (ty : Fmt) (d : MReg) (a : VReg) (b : XReg) (c : XReg) : Statement (.vfibre ty d a b c) := by
  intro h; simp [Instr.fields, decodeFields, decodeOpc, decodeSeg, h]
theorem vsred (op : RedOp) (ord : Bool) (m : VMod) (d : VReg) (a : VReg) (b : MReg) : Statement (.vsred op ord m d a b) := by
  intro h; obtain ⟨ty, rnd, sat, mask⟩ := m <;> cases mask <;> simp [Instr.fields, decodeFields, decodeOpc, decodeSeg, h]
theorem vsscan (op : RedOp) (ord : Bool) (m : VMod) (d : VReg) (a : VReg) (b : MReg) : Statement (.vsscan op ord m d a b) := by
  intro h; obtain ⟨ty, rnd, sat, mask⟩ := m <;> cases mask <;> simp [Instr.fields, decodeFields, decodeOpc, decodeSeg, h]
theorem vmaxi (ty : Fmt) (d : XReg) (a : VReg) (b : MReg) (c : XReg) : Statement (.vmaxi ty d a b c) := by
  intro h; simp [Instr.fields, decodeFields, decodeOpc, decodeSeg, h]
theorem vmaxiSeg (ty : Fmt) (d : MReg) (a : VReg) (b : MReg) (c : MReg) : Statement (.vmaxiSeg ty d a b c) := by
  intro h; simp [Instr.fields, decodeFields, decodeOpc, decodeSeg, h]
theorem vappend (ty : Fmt) (k : VMask) (d : XReg) (a : XReg) (b : XReg) : Statement (.vappend ty k d a b) := by
  intro h; cases k <;> simp [Instr.fields, decodeFields, decodeOpc, decodeSeg, h]
theorem gadd (ty : Fmt) (k : VMask) (a : VReg) (b : XSrc) : Statement (.gadd ty k a b) := by
  intro h; cases k <;> cases b <;> simp [Instr.fields, decodeFields, decodeOpc, decodeGate, h]
theorem gsnap (d : VReg) (a : XReg) : Statement (.gsnap d a) := by
  intro h; simp [Instr.fields, decodeFields, decodeOpc, decodeGate, h]
theorem gslot (d : XReg) (a : XReg) (b : XReg) (c : XReg) : Statement (.gslot d a b c) := by
  intro h; simp [Instr.fields, decodeFields, decodeOpc, decodeGate, h]
theorem dset (d : DReg) (a : XReg) (field : Fin 20) : Statement (.dset d a field) := by
  intro h
  obtain ⟨h0, h1⟩ := imm_field ⟨field.val, by omega⟩
  have h2 : field.val % 256 = field.val := by omega
  simp only at h0 h1
  simp [Instr.fields, decodeFields, decodeOpc, decodeDesc, h, h0, h1, h2]
theorem dld (d : DReg) (a : XReg) (disp : BitVec 32) : Statement (.dld d a disp) := by
  intro h; simp [Instr.fields, decodeFields, decodeOpc, decodeDesc, h]
theorem dst (d : DReg) (a : XReg) (disp : BitVec 32) : Statement (.dst d a disp) := by
  intro h; simp [Instr.fields, decodeFields, decodeOpc, decodeDesc, h]
theorem dshape (d : XReg) (a : DReg) (q : Fin 5) (axis : BitVec 3) : Statement (.dshape d a q axis) := by
  intro h
  obtain ⟨h0, h1⟩ := imm_field ⟨q.val, by omega⟩
  have h2 : q.val % 256 = q.val := by omega
  simp only at h0 h1
  simp [Instr.fields, decodeFields, decodeOpc, decodeDesc, h, h0, h1, h2]
theorem amap (f : MapFn) (d : DReg) (a : DReg) (xr : BitVec 3) (yr : BitVec 3) (rnd : Rnd) (sat : Bool) : Statement (.amap f d a xr yr rnd sat) := by
  intro h
  obtain ⟨h0, h1, h2, h3, h4, -⟩ := aimm_fields rnd sat f.op f.op_lt.1 f.op_lt.2
  have h5 := f.op_lt
  have hm : ∀ F : Fields, F.b = f.bBits → F.c = f.cBits → F.imm = aimm rnd sat f.op → mapFn F = some f := fun F hb hc hi =>
    mapFn_fields f F hb hc (by rw [hi, h3]; simp; omega) (by rw [hi, h4]; simp; omega)
  simp [Instr.fields, decodeFields, decodeOpc, decodeMapRed, h, h0, h1, h2, arnd, asat, hm]
theorem ared (op : RedOp) (d : DReg) (a : DReg) (xr : BitVec 3) (axis : BitVec 3) (rnd : Rnd) (sat : Bool) : Statement (.ared op d a xr axis rnd sat) := by
  intro h
  obtain ⟨-, h1, h2, h3, -, h5⟩ := aimm_fields rnd sat (0, op.code) (by simp) op.code_lt
  simp [Instr.fields, decodeFields, decodeOpc, decodeMapRed, h, h1, h2, h3, h5, arnd, asat]
theorem ascan (op : RedOp) (excl : Bool) (seg : Option DReg) (d : DReg) (a : DReg) (xr : BitVec 3) (axis : BitVec 3) (rnd : Rnd) (sat : Bool) : Statement (.ascan op excl seg d a xr axis rnd sat) := by
  intro h
  obtain ⟨-, h1, h2, h3, -, h5⟩ := aimm_fields rnd sat (0, op.code) (by simp) op.code_lt
  cases seg <;> simp [Instr.fields, decodeFields, decodeOpc, decodeMapRed, h, h1, h2, h3, h5, arnd, asat]
theorem agrade (dn : Bool) (d : DReg) (a : DReg) (xr : BitVec 3) (axis : BitVec 3) : Statement (.agrade dn d a xr axis) := by
  intro h; simp [Instr.fields, decodeFields, decodeOpc, decodeArray2, h]
theorem arotScalar (d : DReg) (a : DReg) (b : XReg) (xr : BitVec 3) (axis : BitVec 3) : Statement (.arotScalar d a b xr axis) := by
  intro h; simp [Instr.fields, decodeFields, decodeOpc, decodeArray2, h]
theorem arotVector (d : DReg) (a : DReg) (b : DReg) (xr : BitVec 3) (axis : BitVec 3) : Statement (.arotVector d a b xr axis) := by
  intro h; simp [Instr.fields, decodeFields, decodeOpc, decodeArray2, h]
theorem atake (d : DReg) (a : DReg) (b : XReg) (xr : BitVec 3) (axis : BitVec 3) : Statement (.atake d a b xr axis) := by
  intro h; simp [Instr.fields, decodeFields, decodeOpc, decodeArray2, h]
theorem adrop (d : DReg) (a : DReg) (b : XReg) (xr : BitVec 3) (axis : BitVec 3) : Statement (.adrop d a b xr axis) := by
  intro h; simp [Instr.fields, decodeFields, decodeOpc, decodeArray2, h]
theorem areshape (d : DReg) (a : DReg) (b : DReg) : Statement (.areshape d a b) := by
  intro h; simp [Instr.fields, decodeFields, decodeOpc, decodeArray2, h]
theorem atrans (d : DReg) (a : DReg) (b : XReg) : Statement (.atrans d a b) := by
  intro h; simp [Instr.fields, decodeFields, decodeOpc, decodeArray2, h]
theorem aouter (f : MapFn) (d : DReg) (a : DReg) (xr : BitVec 3) (yr : BitVec 3) (rnd : Rnd) (sat : Bool) : Statement (.aouter f d a xr yr rnd sat) := by
  intro h
  obtain ⟨h0, h1, h2, h3, h4, -⟩ := aimm_fields rnd sat f.op f.op_lt.1 f.op_lt.2
  have h5 := f.op_lt
  have hm : ∀ F : Fields, F.b = f.bBits → F.c = f.cBits → F.imm = aimm rnd sat f.op → mapFn F = some f := fun F hb hc hi =>
    mapFn_fields f F hb hc (by rw [hi, h3]; simp; omega) (by rw [hi, h4]; simp; omega)
  simp [Instr.fields, decodeFields, decodeOpc, decodeArray2, h, h0, h1, h2, arnd, asat, hm]
theorem asel (sel : SelBy) (d : DReg) (a : DReg) (c : XReg) : Statement (.asel sel d a c) := by
  intro h
  cases sel with
  | lim k x =>
    have h1 : k.val % 32 = k.val := by omega
    simp [Instr.fields, decodeFields, decodeOpc, decodeArray2, h, h1]
  | mask m => simp [Instr.fields, decodeFields, decodeOpc, decodeArray2, h]
theorem acomp (d : DReg) (a : DReg) (b : DReg) (c : XReg) (axis : BitVec 3) : Statement (.acomp d a b c axis) := by
  intro h; simp [Instr.fields, decodeFields, decodeOpc, decodeArray2, h]
theorem afrom (d : DReg) (a : DReg) (b : DReg) (axis : BitVec 3) : Statement (.afrom d a b axis) := by
  intro h; simp [Instr.fields, decodeFields, decodeOpc, decodeArray2, h]
theorem acat (d : DReg) (a : DReg) (b : DReg) (axis : BitVec 3) : Statement (.acat d a b axis) := by
  intro h; simp [Instr.fields, decodeFields, decodeOpc, decodeArray2, h]
theorem afill (d : DReg) (a : DReg) (b : XReg) : Statement (.afill d a b) := by
  intro h; simp [Instr.fields, decodeFields, decodeOpc, decodeArray2, h]
theorem aiota (d : DReg) (a : DReg) (axis : BitVec 3) (rnd : Rnd) (sat : Bool) : Statement (.aiota d a axis rnd sat) := by
  intro h
  obtain ⟨-, h1, h2, -⟩ := aimm_fields rnd sat (0, 0) (by decide) (by decide)
  simp [Instr.fields, decodeFields, decodeOpc, decodeArray2, h, h1, h2, arnd, asat]
theorem mset (ty : Fmt) (d : XReg) (a : XReg) (b : XReg) : Statement (.mset ty d a b) := by
  intro h; simp [Instr.fields, decodeFields, decodeOpc, decodeMatrix, h]
theorem wld (ty : Fmt) (sp : Bool) (d : WReg) (a : DReg) (b : XReg) (c : KReg) : Statement (.wld ty sp d a b c) := by
  intro h; simp [Instr.fields, decodeFields, decodeOpc, decodeMatrix, h]
theorem mmul (ty : Fmt) (d : ZReg) (a : VReg) (b : WReg) (c : KReg) : Statement (.mmul ty d a b c) := by
  intro h; simp [Instr.fields, decodeFields, decodeOpc, decodeMatrix, h]
theorem mmuls (ty : Fmt) (d : ZReg) (a : VReg) (b : WReg) (c : KReg) (lane : BitVec 6) (dens : Fin 4) : Statement (.mmuls ty d a b c lane dens) := by
  intro h
  obtain ⟨h0, h1, h2⟩ := mmuls_fields lane dens
  simp [Instr.fields, decodeFields, decodeOpc, decodeMatrix, h, h0, h1, h2]
theorem mmula (ty : Fmt) (d : ZReg) (a : VReg) (b : WReg) (c : KReg) : Statement (.mmula ty d a b c) := by
  intro h; simp [Instr.fields, decodeFields, decodeOpc, decodeMatrix, h]
theorem mmulc (d : ZReg) (a : XReg) (b : WReg) (c : KReg) : Statement (.mmulc d a b c) := by
  intro h; simp [Instr.fields, decodeFields, decodeOpc, decodeMatrix, h]
theorem mzero (d : ZReg) : Statement (.mzero d) := by
  intro h; simp [Instr.fields, decodeFields, decodeOpc, decodeMatrix, h]
theorem mdrainStrided (m : VMod) (d : ZReg) (a : XReg) (c : XReg) (disp : BitVec 32) : Statement (.mdrainStrided m d a c disp) := by
  intro h; obtain ⟨ty, rnd, sat, mask⟩ := m <;> cases mask <;> simp [Instr.fields, decodeFields, decodeOpc, decodeMatrix, h]
theorem mdrainIndexed (m : VMod) (d : ZReg) (a : XReg) (c : VReg) (disp : BitVec 32) : Statement (.mdrainIndexed m d a c disp) := by
  intro h; obtain ⟨ty, rnd, sat, mask⟩ := m <;> cases mask <;> simp [Instr.fields, decodeFields, decodeOpc, decodeMatrix, h]
theorem mdrv (m : VMod) (d : VReg) (a : ZReg) : Statement (.mdrv m d a) := by
  intro h; obtain ⟨ty, rnd, sat, mask⟩ := m <;> cases mask <;> simp [Instr.fields, decodeFields, decodeOpc, decodeMatrix, h]
theorem kwait (d : KReg) : Statement (.kwait d) := by
  intro h; simp [Instr.fields, decodeFields, decodeOpc, decodeMatrix, h]
theorem kpoll (d : XReg) (a : KReg) : Statement (.kpoll d a) := by
  intro h; simp [Instr.fields, decodeFields, decodeOpc, decodeMatrix, h]
theorem mgrp (ty : Fmt) (d : ZReg) (a : VReg) (c : KReg) : Statement (.mgrp ty d a c) := by
  intro h; simp [Instr.fields, decodeFields, decodeOpc, decodeMatrix, h]
theorem cutBand (ty : Fmt) (d : XReg) (a : XReg) (b : XReg) (c : KReg) : Statement (.cutBand ty d a b c) := by
  intro h; simp [Instr.fields, decodeFields, decodeOpc, decodeCut, h]
theorem cutSquare (ty : Fmt) (d : XReg) (a : XReg) (b : XReg) (c : KReg) : Statement (.cutSquare ty d a b c) := by
  intro h; simp [Instr.fields, decodeFields, decodeOpc, decodeCut, h]
theorem cocut (d : WReg) (a : DReg) (b : XReg) (c : KReg) : Statement (.cocut d a b c) := by
  intro h; simp [Instr.fields, decodeFields, decodeOpc, decodeCut, h]
theorem cutq (d : XReg) : Statement (.cutq d) := by
  intro h; simp [Instr.fields, decodeFields, decodeOpc, decodeCut, h]
theorem talloc (ty : Fmt) (lvl : Scope) (d : XReg) (a : XReg) (b : XReg) (h : BitVec 12) : Statement (.talloc ty lvl d a b h) := by
  intro h; simp [Instr.fields, decodeFields, decodeOpc, decodeTile, h]
theorem tfree (h : BitVec 12) : Statement (.tfree h) := by
  intro h; simp [Instr.fields, decodeFields, decodeOpc, decodeTile, h]
theorem tinfo (q : Fin 6) (d : XReg) (h : BitVec 12) : Statement (.tinfo q d h) := by
  intro h; simp [Instr.fields, decodeFields, decodeOpc, decodeTile, h]
theorem copy (mode : CopyMode) (d : DReg) (a : DReg) (rnd : Rnd) (sat : Bool) (eng : BitVec 2) : Statement (.copy mode d a rnd sat eng) := by
  intro h; cases mode <;> simp [Instr.fields, decodeFields, decodeOpc, decodeCopy, h]
theorem cgath (ty : Fmt) (mode : CopyMode) (d : DReg) (a : DReg) (c : VReg) (rnd : Rnd) (sat : Bool) (eng : BitVec 2) : Statement (.cgath ty mode d a c rnd sat eng) := by
  intro h; cases mode <;> simp [Instr.fields, decodeFields, decodeOpc, decodeCopy, h]
theorem facet (eng : BitVec 2) (a : XReg) : Statement (.facet eng a) := by
  intro h; simp [Instr.fields, decodeFields, decodeOpc, decodeCopy, h]
theorem swait (d : XReg) (a : XReg) (b : XReg) : Statement (.swait d a b) := by
  intro h; simp [Instr.fields, decodeFields, decodeOpc, decodeCopy, h]
theorem barexp (scp : Scope) (name : BitVec 10) (a : XReg) : Statement (.barexp scp name a) := by
  intro h; simp [Instr.fields, decodeFields, decodeOpc, decodeBar, h]
theorem barv (scp : Scope) (name : BitVec 10) : Statement (.barv scp name) := by
  intro h; simp [Instr.fields, decodeFields, decodeOpc, decodeBar, h]
theorem barw (scp : Scope) (name : BitVec 10) (a : XReg) : Statement (.barw scp name a) := by
  intro h; simp [Instr.fields, decodeFields, decodeOpc, decodeBar, h]
theorem wmpub (a : XReg) (w : BitVec 8) : Statement (.wmpub a w) := by
  intro h; simp [Instr.fields, decodeFields, decodeOpc, decodeGraph, h]
theorem wmwait (a : XReg) (w : BitVec 8) : Statement (.wmwait a w) := by
  intro h; simp [Instr.fields, decodeFields, decodeOpc, decodeGraph, h]
theorem gnode (d : XReg) (a : XReg) : Statement (.gnode d a) := by
  intro h; simp [Instr.fields, decodeFields, decodeOpc, decodeGraph, h]
theorem xalloc (scp : Scope) (pri : Bool) (d : XReg) (a : GReg) : Statement (.xalloc scp pri d a) := by
  intro h; simp [Instr.fields, decodeFields, decodeOpc, decodeSpan, h]
theorem xfree (a : GReg) : Statement (.xfree a) := by
  intro h; simp [Instr.fields, decodeFields, decodeOpc, decodeSpan, h]
theorem xall (op : RedOp) (ord : Bool) (ty : Fmt) (rnd : Rnd) (d : VReg) (a : VReg) (b : GReg) : Statement (.xall op ord ty rnd d a b) := by
  intro h; simp [Instr.fields, decodeFields, decodeOpc, decodeSpan, h]
theorem xred (op : RedOp) (ord : Bool) (ty : Fmt) (rnd : Rnd) (d : VReg) (a : VReg) (b : GReg) (root : BitVec 20) : Statement (.xred op ord ty rnd d a b root) := by
  intro h; simp [Instr.fields, decodeFields, decodeOpc, decodeSpan, h]
theorem xgath (ty : Fmt) (d : VReg) (a : VReg) (b : GReg) (root : BitVec 20) : Statement (.xgath ty d a b root) := by
  intro h; simp [Instr.fields, decodeFields, decodeOpc, decodeSpan, h]
theorem xscat (ty : Fmt) (d : VReg) (a : VReg) (b : GReg) (root : BitVec 20) : Statement (.xscat ty d a b root) := by
  intro h; simp [Instr.fields, decodeFields, decodeOpc, decodeSpan, h]
theorem xbcast (ty : Fmt) (d : VReg) (a : VReg) (b : GReg) (root : BitVec 20) : Statement (.xbcast ty d a b root) := by
  intro h; simp [Instr.fields, decodeFields, decodeOpc, decodeSpan, h]
theorem xsend (ty : Fmt) (a : VReg) (b : GReg) (c : XReg) : Statement (.xsend ty a b c) := by
  intro h; simp [Instr.fields, decodeFields, decodeOpc, decodeSpan, h]
theorem xrecv (ty : Fmt) (d : VReg) (b : GReg) (c : XReg) : Statement (.xrecv ty d b c) := by
  intro h; simp [Instr.fields, decodeFields, decodeOpc, decodeSpan, h]
theorem fence (before : BitVec 6) (after : BitVec 6) (scp : Scope) : Statement (.fence before after scp) := by
  intro h; simp [Instr.fields, decodeFields, decodeOpc, decodeOrder, h]
theorem hold (set : BitVec 6) : Statement (.hold set) := by
  intro h; simp [Instr.fields, decodeFields, decodeOpc, decodeOrder, h]
theorem trap (code : BitVec 12) : Statement (.trap code) := by
  intro h; simp [Instr.fields, decodeFields, decodeOpc, decodeSystem, h]
theorem srd (d : XReg) (n : BitVec 12) : Statement (.srd d n) := by
  intro h; simp [Instr.fields, decodeFields, decodeOpc, decodeSystem, h]
theorem swr (n : BitVec 12) (a : XReg) : Statement (.swr n a) := by
  intro hw
  have h := hw
  simp [Instr.wf] at h
  have h1 : n.toNat ≠ 16 := fun e => h.1.1 (BitVec.eq_of_toNat_eq e)
  have h2 : n.toNat ≠ 49 := fun e => h.1.2 (BitVec.eq_of_toNat_eq e)
  have h3 : n.toNat ≠ 50 := fun e => h.2 (BitVec.eq_of_toNat_eq e)
  simp [Instr.fields, decodeFields, decodeOpc, decodeSystem]
  exact hw
theorem swrVcfg (a : XReg) : Statement (.swrVcfg a) := by
  intro h; simp [Instr.fields, decodeFields, decodeOpc, decodeSystem, h]
theorem swrCutst (a : XReg) : Statement (.swrCutst a) := by
  intro h; simp [Instr.fields, decodeFields, decodeOpc, decodeSystem, h]
theorem swrXpos (a : XReg) : Statement (.swrXpos a) := by
  intro h; simp [Instr.fields, decodeFields, decodeOpc, decodeSystem, h]
theorem tlbiVa (a : XReg) : Statement (.tlbiVa a) := by
  intro h; simp [Instr.fields, decodeFields, decodeOpc, decodeSystem, h]
theorem ctxsave (full : Bool) (a : XReg) : Statement (.ctxsave full a) := by
  intro h; simp [Instr.fields, decodeFields, decodeOpc, decodeSystem, h]
theorem ctxrest (a : XReg) : Statement (.ctxrest a) := by
  intro h; simp [Instr.fields, decodeFields, decodeOpc, decodeSystem, h]
theorem einj (kind : BitVec 2) (st : Fin 9) (d : XReg) (a : XReg) (b : XReg) : Statement (.einj kind st d a b) := by
  intro h
  obtain ⟨h0, h1, h2⟩ := einj_fields kind st
  have h3 : regOf 9 ((BitVec.ofNat 4 st.val).setWidth 6) = some st := by clear h h0 h1 h2; revert st; decide
  simp [Instr.fields, decodeFields, decodeOpc, decodeSystem, h, h0, h1, h2, h3]
theorem copyExecute (die : Nat) (eng : Nat) : Statement (.copyExecute die eng) := fun _ => rfl
theorem matrixOperationStart (arr : Fin 2) : Statement (.matrixOperationStart arr) := fun _ => rfl
theorem operationFinishes (k : KReg) : Statement (.operationFinishes k) := fun _ => rfl
theorem spanPacketReceipt (n : Nat) : Statement (.spanPacketReceipt n) := fun _ => rfl
theorem preEmption (drove : Nat) (elem : Option Nat) : Statement (.preEmption drove elem) := fun _ => rfl
theorem outriderIssue (n : Nat) : Statement (.outriderIssue n) := fun _ => rfl
theorem loadPerformed (p : LoadStep) : Statement (.loadPerformed p) := fun _ => rfl
theorem drovePlacement (sad : Nat) (node : Nat) (cores : List Nat) : Statement (.drovePlacement sad node cores) := fun _ => rfl
theorem bindingFill (o : OReg) : Statement (.bindingFill o) := fun _ => rfl
theorem restore (drove : Nat) (cores : List Nat) : Statement (.restore drove cores) := fun _ => rfl
theorem droveRetirement (drove : Nat) : Statement (.droveRetirement drove) := fun _ => rfl
theorem nodeComplete (sad : Nat) (node : Nat) : Statement (.nodeComplete sad node) := fun _ => rfl
theorem copyNodeStart (sad : Nat) (node : Nat) : Statement (.copyNodeStart sad node) := fun _ => rfl
theorem hostEventPost (sad : Nat) (node : Nat) : Statement (.hostEventPost sad node) := fun _ => rfl
theorem triggerNodeWrite (sad : Nat) (node : Nat) : Statement (.triggerNodeWrite sad node) := fun _ => rfl
theorem adapterPrefetch (die : Nat) (sad : Nat) (id : Nat) : Statement (.adapterPrefetch die sad id) := fun _ => rfl
theorem hostPostedWrite (sad : Nat) (va : Word) (data : List Byte) : Statement (.hostPostedWrite sad va data) := fun _ => rfl
theorem lineFetch (ahead : Bool) : Statement (.lineFetch ahead) := fun _ => rfl
theorem waitSatisfied (k : Nat) : Statement (.waitSatisfied k) := fun _ => rfl
theorem l1Eviction (line : Nat) : Statement (.l1Eviction line) := fun _ => rfl
theorem timerExpiry (drove : Nat) (elem : Option Nat) : Statement (.timerExpiry drove elem) := fun _ => rfl
theorem go (sad : Nat) (node : Nat) : Statement (.go sad node) := fun _ => rfl
theorem timer (sad : Nat) (v : Word) : Statement (.timer sad v) := fun _ => rfl
theorem adaptN (sad : Nat) (v : Word) : Statement (.adaptN sad v) := fun _ => rfl
theorem counterClear (sad : Nat) (off : Nat) (v : Word) : Statement (.counterClear sad off v) := fun _ => rfl
theorem barRegisterWrite (sad : Nat) (off : Nat) (pf : Bool) (v : Word) : Statement (.barRegisterWrite sad off pf v) := fun _ => rfl
theorem spanTimeout (sad : Nat) (id : Nat) : Statement (.spanTimeout sad id) := fun _ => rfl
theorem flitReceipt (port : Nat) (flit : BitVec 2048) : Statement (.flitReceipt port flit) := fun _ => rfl
theorem linkRetrain (port : Nat) : Statement (.linkRetrain port) := fun _ => rfl
theorem packetLifetimeExpiry (n : Nat) : Statement (.packetLifetimeExpiry n) := fun _ => rfl
theorem uncorrectableError (e : ErrEntry) : Statement (.uncorrectableError e) := fun _ => rfl
theorem correctableError (kind : Nat) (inst : Nat) : Statement (.correctableError kind inst) := fun _ => rfl
theorem channelFailure (ch : Nat) : Statement (.channelFailure ch) := fun _ => rfl
theorem expanderRemoval (port : Nat) : Statement (.expanderRemoval port) := fun _ => rfl
theorem recoveryImageWrite (img : Nat) : Statement (.recoveryImageWrite img) := fun _ => rfl
theorem dieUp (die : Nat) : Statement (.dieUp die) := fun _ => rfl
theorem dieCalibrated (die : Nat) : Statement (.dieCalibrated die) := fun _ => rfl
theorem tlbCapacityDrop (core : Bool) (n : Nat) : Statement (.tlbCapacityDrop core n) := fun _ => rfl
theorem harnessPortFailure (port : Nat) : Statement (.harnessPortFailure port) := fun _ => rfl
theorem spdmRequest (fn : Nat) (msg : Nat) : Statement (.spdmRequest fn msg) := fun _ => rfl
theorem droveRemoval (drove : Nat) : Statement (.droveRemoval drove) := fun _ => rfl
theorem drrRound : Statement (.drrRound) := fun _ => rfl
theorem powerOn : Statement (.powerOn) := fun _ => rfl
theorem coolantOutOfRange : Statement (.coolantOutOfRange) := fun _ => rfl
theorem coolantRestored : Statement (.coolantRestored) := fun _ => rfl
theorem illegalInstruction : Statement (.illegalInstruction) := fun _ => rfl
theorem nop : Statement (.nop) := by
  intro h; simp [Instr.fields, decodeFields, decodeOpc, decodeControl, h]
theorem halt : Statement (.halt) := by
  intro h; simp [Instr.fields, decodeFields, decodeOpc, decodeControl, h]
theorem sret : Statement (.sret) := by
  intro h; simp [Instr.fields, decodeFields, decodeOpc, decodeSystem, h]
theorem mret : Statement (.mret) := by
  intro h; simp [Instr.fields, decodeFields, decodeOpc, decodeSystem, h]
theorem tlbiSad : Statement (.tlbiSad) := by
  intro h; simp [Instr.fields, decodeFields, decodeOpc, decodeSystem, h]
theorem tlbiAll : Statement (.tlbiAll) := by
  intro h; simp [Instr.fields, decodeFields, decodeOpc, decodeSystem, h]
theorem idle : Statement (.idle) := by
  intro h; simp [Instr.fields, decodeFields, decodeOpc, decodeSystem, h]

end Sys2Proof.Laws.RoundTrip
end

