-- ==== Sys2Proof/Safety.lean ====
section
/-! DEFINITION. What counts as a safe run, and the words that the claims are stated in: the answer of an instruction, what
every completion moves, the byte a reader sees, and the invariant of the memory.
-/
namespace Sys2Proof
namespace Machine

/-- A step that answers a next state. -/
def isNext (o : Host.Outcome State Fault Refusal) : Bool :=
  match o with
  | .next _ => true
  | .fault _ => false
  | .refused _ => false

/-- The memory and the record of its KEYs have their canonical form. -/
def State.Inv (s : State) : Prop := s.mem.wf = true ∧ s.seals.wf = true

/-- The instruction answers a next state that has P. -/
def Gives (i : Instr) (s : State) (P : State → Prop) : Prop := ∃ t, exec i s = .next t ∧ P t

/-- The sheet runs no replay loop. -/
def State.straight (s : State) : Prop := rpDrives s.sh.spr.rpst = false

/-- The sheet k but for what the completion of an instruction moves (R48, R175, R198, R286): PC, RPST, the distances of
run-ahead loads, the stop in hand, and the readiness, which are those of k2. -/
def Sheet.moved (k k2 : Sheet) : Sheet :=
  { k with pc := k2.pc, ahead := k2.ahead, irq := k2.irq, run := k2.run, spr := { k.spr with rpst := k2.spr.rpst } }

/-- The instruction at the PC of s is done in t: outside a loop the PC is that of the next slot, and inside one the PC and
RPST move as the loop says. -/
def Done (s t : State) : Prop :=
  t.sh.run = .ready ∧ (t.sh.pc, t.sh.spr.rpst) = advance s.sh.spr t.sh.xr s.sh.pc 1

/-- Only the sheet in focus differs, and of it only the PC and what completion moves, once its own changes are undone:
`u` puts the changed fields back. -/
def OnlyOf (s t : State) (u : Sheet → Sheet) : Prop := { t with sh := s.sh } = s ∧ s.sh.moved t.sh = u t.sh

/-- The x registers are those of s but for xD, which holds v unless it is x0. -/
def XIs (s t : State) (d : XReg) (v : Word) : Prop := ∀ r, t.xr r = if r = d ∧ d ≠ 0 then v else s.xr r

/-- The f registers are those of s but for fD. -/
def FIs (s t : State) (d : FReg) (v : Word) : Prop := ∀ r, t.fr r = if r = d then v else s.fr r

/-- The instruction completes with xD := v and changes nothing else. -/
def XDone (i : Instr) (s : State) (d : XReg) (v : Word) : Prop :=
  Gives i s fun t => Done s t ∧ XIs s t d v ∧ OnlyOf s t fun k => { k with x := s.sh.x }

/-- The instruction completes with fD := the pattern and its flags OR'd into FSTAT, and changes nothing else. -/
def FDone (i : Instr) (s : State) (d : FReg) (q : Nat × Flags) : Prop :=
  Gives i s fun t => Done s t ∧ FIs s t d (BitVec.ofNat 64 q.1) ∧
    t.sh.spr.fstat = s.sh.spr.fstat ||| q.2.zeroExtend 64 ∧
    OnlyOf s t fun k => { k with f := s.sh.f, spr := { k.spr with fstat := s.sh.spr.fstat } }

/-- The instruction traps: the state is that of R281's entry, and nothing of its own effect has happened. -/
def Traps (i : Instr) (s : State) (cause : Nat) (tval faddr : Word) : Prop :=
  exec i s = .next (s.takeTrap cause tval faddr s.sh.pc)

/-- The sheet waits at its PC (R22). -/
def Waits (i : Instr) (s : State) : Prop :=
  exec i s = .next { s with sh := { s.sh with run := .waiting, irq := settleIrq s.sh.irq } }

/-- The byte at a physical key as a read that recalls every dirty byte finds it (R161). -/
def State.view (s : State) (key : Nat) : Byte := (s.recallAll [lineOf key]).homeByte key

/-- An access of the sheet in focus to n bytes at va passes every check of R163, the bytes lying at the keys l. -/
def State.Reaches (s : State) (a : Acc1) (va : Word) (n al : Nat) (l : List Phys) : Prop :=
  va.toNat % al = 0 ∧ s.range a va n = .ok l ∧ (a ≠ .store → s.firstPoison l = none) ∧
    ∀ k ∈ physKeys l, s.owned (lineOf k) = false

/-- The bytes seen after writing pairs of key and byte, the last of an address counting; every other byte is as before. A byte read
under another KEY than it was written under is the free value of R249. -/
def Written (s t : State) (kvs : List (Nat × Byte)) : Prop :=
  ∀ k, t.view k = match kvs.reverse.find? fun q => addrOf q.1 = addrOf k with
    | some q => decipher (sealOf q.1) (sealOf k) (addrOf k) q.2
    | none => s.view k

/-- The lines of these keys are clean: what stands at their homes is what every reader sees. -/
def State.AtHome (s : State) (keys : List Nat) : Prop := ∀ j, ∀ k ∈ keys, lineOf j = lineOf k → s.homeByte j = s.view j

/-- A core but for what its scalar L1 holds. -/
def Core.sansL1 (c : Core) : Core := { c with l1 := [] }

/-- The state with what holds bytes of memory put back: memory, the KEYs, what the line caches hold of it, the scalar L1s. -/
def State.memBack (s t : State) : State :=
  { t with
    mem := s.mem, seals := s.seals, lcache := s.lcache, lineBrands := s.lineBrands
    core := { t.core with l1 := s.core.l1 }, cores := s.cores }

/-- Besides the sheet in focus, only where bytes are held (memory or a scalar L1) and the core's TLB may differ. -/
def OnlyMem (s t : State) : Prop :=
  { s.memBack t with sh := s.sh, core := { (s.memBack t).core with tlb := s.core.tlb } } = s ∧
    t.cores.map Core.sansL1 = s.cores.map Core.sansL1

/-- The instruction transfers control to a target with a link register, and changes nothing else. -/
def Jumps (i : Instr) (s : State) (target : Word) (link : XReg) : Prop :=
  Gives i s fun t => t.sh.pc = target ∧ t.sh.run = .ready ∧ XIs s t link (nextPc s.sh.pc) ∧ { t with sh := s.sh } = s ∧
    { t.sh with pc := s.sh.pc, lines := s.sh.lines, ahead := s.sh.ahead, irq := s.sh.irq, run := s.sh.run, x := s.sh.x } = s.sh

/-- A scalar load completes: the pattern of the n bytes at the keys goes where `put` says, and no byte changes. -/
def Loads (i : Instr) (s : State) (l : List Phys) (put : State → Nat → Prop) (u : Sheet → Sheet) : Prop :=
  Gives i s fun t => Done s t ∧ put t (leNat ((physKeys l).map s.view)) ∧ Written s t [] ∧ OnlyMem s t ∧
    s.sh.moved t.sh = { u t.sh with tlb := s.sh.tlb }

/-- The state from which a scalar store of bytes at an address writes: the translations of its pages are kept, and the weight loads of
the sheet that have yet to read one of the bytes have been read (R208); or what stops those reads. -/
def State.beforeStore (s : State) (va : Word) (l : List Phys) (bytes : List Byte) : Eff :=
  (s.fillAll (pageStarts va bytes.length)).settleFor [.mem (physUc l) ((physKeys l).zip bytes)]

/-- A scalar store completes: from the state before it, the bytes come to stand at the keys, and nothing else changes. It waits or
ends where that state's own reads do. -/
def Stores (i : Instr) (s : State) (va : Word) (l : List Phys) (bytes : List Byte) : Prop :=
  match s.beforeStore va l bytes with
  | .ok u => Gives i s fun t => Done s t ∧ Written u t ((physKeys l).zip bytes) ∧ OnlyMem u t ∧ u.sh.moved t.sh = t.sh
  | .error st => exec i s = .next st.take

/-- The sheet's release before an access to n bytes at an address is done in u: the translations of its pages are kept, and the
accesses of streams S, A and V that it issued have been performed (R210). -/
def State.releasedTo (s : State) (va : Word) (n : Nat) (u : State) : Prop := (s.fillAll (pageStarts va n)).release = .ok u

/-- A store that releases completes: from the state u that its release leaves, the bytes are stored at their home, and nothing else
changes. -/
def StoresHome (i : Instr) (s u : State) (l : List Phys) (bytes : List Byte) : Prop :=
  Gives i s fun t => Done s t ∧ Written u t ((physKeys l).zip bytes) ∧ t.AtHome (((physKeys l).zip bytes).map Prod.fst) ∧
    OnlyMem u t ∧ u.sh.moved t.sh = t.sh

/-- A read-modify-write completes: from the state u that its release leaves, xD takes the old pattern extended, and `new` is stored
at its home when there is one. -/
def Amos (i : Instr) (s u : State) (ty : Fmt) (d : XReg) (l : List Phys) (new : Nat → Option Nat) : Prop :=
  let old := leNat ((physKeys l).map u.view)
  Gives i s fun t => Done s t ∧ XIs s t d (Word.ofInt (ival ty old)) ∧
    Written u t (match new old with
      | some v => (physKeys l).zip (leBytes ty.ew v)
      | none => []) ∧ t.AtHome (physKeys l) ∧ OnlyMem u t ∧
    u.sh.moved t.sh = { t.sh with x := u.sh.x }

/-! Vector state. -/

/-- No stream is bound (R273). -/
def State.unbound (s : State) : Prop := ∀ n : Fin 4, osBound s.sh.o[n.val] = false

/-- VCFG is valid and VL and AEC stand in the relations of R42, no stream is bound, and vector storage has its canonical
form. -/
def State.vecReady (s : State) : Prop :=
  vcfgOk s.sh.spr.vcfg = true ∧ vlAecOk s.sh.spr.rc s.sh.spr.vln s.sh.spr.aecn = true ∧ s.unbound ∧ s.sh.vstore.wf = true

/-- The bits of a filled item and its validity: a filled fp4b block is invalid (R33, R170). -/
def fillOf (ty : Fmt) : Nat × Bool := (2 ^ ty.width - 1, ty != .fp4b)

/-- The items of a group (elements, or blocks with their validity) after an instruction that started at item lo: computed,
filled, or kept (R33, R168, R170). -/
def State.policy (s : State) (d : VReg) (ty : Fmt) (k : VMask) (lo : Nat) (f : Nat → Nat × Bool) (j : Nat) : Nat × Bool :=
  if j < lo then s.sh.getItem d ty j
  else match s.sh.act k (govern ty j) with
    | .compute => ((f j).1 % 2 ^ ty.width, (f j).2)
    | .fill => fillOf ty
    | .keep => s.sh.getItem d ty j

/-- What the tail policy makes of an item that an instruction does not reach (R33). -/
def State.tailItem (s : State) (d : VReg) (ty : Fmt) (j : Nat) : Nat × Bool :=
  if s.sh.spr.tail then fillOf ty else s.sh.getItem d ty j

/-- Every byte of vector storage outside the items of a group is as before. -/
def OutsideGroup (s t : State) (d : VReg) (ty : Fmt) : Prop :=
  ∀ off, (∀ j < s.sh.spr.items ty, off < s.sh.spr.itemOff d.val ty j ∨ s.sh.spr.itemOff d.val ty j + ty.ew ≤ off) →
    t.sh.vstore.byte off = s.sh.vstore.byte off

/-- The OR of the flags of the computed items from lo on. -/
def State.flagsOf (s : State) (ty : Fmt) (k : VMask) (lo : Nat) (fl : Nat → Flags) : Flags :=
  ((List.range (s.sh.spr.items ty)).filter fun j => lo ≤ j ∧ s.sh.act k (govern ty j) = .compute).foldl
    (fun a j => a ||| fl j) 0

/-- The sheet with its vector storage, tags, EPOS, GRPL and FSTAT put back. -/
def Sheet.vecBack (h k : Sheet) : Sheet :=
  { k with
    vstore := h.vstore, bvm := h.bvm, vdirty := h.vdirty, vtouch := h.vtouch
    spr := { k.spr with epos := h.spr.epos, grpl := h.spr.grpl, fstat := h.spr.fstat } }

/-- EPOS and GRPL are zero. -/
def State.eposZero (t : State) : Prop := t.sh.spr.epos = 0 ∧ t.sh.spr.grpl = 0

/-- The instruction completes with item j of the group at d being `r j` and FSTAT taking the flags; EPOS and GRPL are zero, and
nothing outside the group changes but its tags. -/
def GDone (i : Instr) (s : State) (d : VReg) (ty : Fmt) (r : Nat → Nat × Bool) (fl : Flags) : Prop :=
  Gives i s fun t => Done s t ∧ (∀ j < s.sh.spr.items ty, t.sh.getItem d ty j = r j) ∧ OutsideGroup s t d ty ∧ t.eposZero ∧
    t.sh.spr.fstat = s.sh.spr.fstat ||| fl.zeroExtend 64 ∧ OnlyOf s t s.sh.vecBack

/-- The instruction completes with item j of the group at d, from lo on, computed as the bits and validity of `f j`, and with
the flags of the computed items. -/
def VDone (i : Instr) (s : State) (d : VReg) (ty : Fmt) (k : VMask) (lo : Nat) (f : Nat → Nat × Bool × Flags) : Prop :=
  GDone i s d ty (s.policy d ty k lo fun j => ((f j).1, (f j).2.1)) (s.flagsOf ty k lo fun j => (f j).2.2)

/-- The item an elementwise instruction starts at: EPOS (R190). -/
def State.from_ (s : State) (ty : Fmt) : Nat := fld s.sh.spr.epos 0 15 / (if ty = .fp4b then 8 else 1)

/-- Results without flags, of elements. -/
def plainRes (f : Nat → Nat) (j : Nat) : Nat × Bool × Flags := (f j, true, 0)
/-- Results with flags, of elements. -/
def flagRes (f : Nat → Nat × Flags) (j : Nat) : Nat × Bool × Flags := ((f j).1, true, (f j).2)
/-- Items moved as they stand, without flags. -/
def moveRes (f : Nat → Nat × Bool) (j : Nat) : Nat × Bool × Flags := ((f j).1, (f j).2, 0)
/-- Results of blocks. -/
def blockRes (f : Nat → Nat × Flags × Bool) (j : Nat) : Nat × Bool × Flags := ((f j).1, (f j).2.2, (f j).2.1)

/-- The bits of a mask register after an instruction (R171). -/
def MBits (s t : State) (d : MReg) (k : VMask) (lo : Nat) (f : Nat → Bool) : Prop :=
  ∀ i, t.sh.mbit d i = if lo ≤ i ∧ i < s.sh.spr.flat then
      match s.sh.act k i with
        | .compute => f i
        | .fill => true
        | .keep => s.sh.mbit d i
    else s.sh.mbit d i

/-- The sheet with its masks, their tags, EPOS and GRPL put back. -/
def Sheet.maskBack (h k : Sheet) : Sheet :=
  { k with
    m := h.m, mdirty := h.mdirty, mtouch := h.mtouch
    spr := { k.spr with epos := h.spr.epos, grpl := h.spr.grpl } }

/-- The instruction completes with bit i of mD, from lo on, computed as `f i`, no other mask and nothing else changing. -/
def MDone (i : Instr) (s : State) (d : MReg) (k : VMask) (lo : Nat) (f : Nat → Bool) : Prop :=
  Gives i s fun t => Done s t ∧ MBits s t d k lo f ∧ (∀ m ≠ d, ∀ j, t.sh.mbit m j = s.sh.mbit m j) ∧
    t.eposZero ∧ OnlyOf s t s.sh.maskBack

/-- The instruction completes with xD := v, EPOS and GRPL zero, and changes nothing else. -/
def XvDone (i : Instr) (s : State) (d : XReg) (v : Word) : Prop :=
  Gives i s fun t => Done s t ∧ XIs s t d v ∧ t.eposZero ∧
    OnlyOf s t fun k => { k with x := s.sh.x, spr := { k.spr with epos := s.sh.spr.epos, grpl := s.sh.spr.grpl } }

/-- The instruction completes with VL, AEC and xD := AEC, EPOS and GRPL zero, and changes nothing else (R173). -/
def StripDone (i : Instr) (s : State) (d : XReg) (vl aec : Nat) : Prop :=
  Gives i s fun t => Done s t ∧ XIs s t d (BitVec.ofNat 64 aec) ∧ t.sh.spr.vl = BitVec.ofNat 64 vl ∧
    t.sh.spr.aec = BitVec.ofNat 64 aec ∧ t.eposZero ∧
    OnlyOf s t fun k => { k with
      x := s.sh.x
      spr := { k.spr with vl := s.sh.spr.vl, aec := s.sh.spr.aec, epos := s.sh.spr.epos, grpl := s.sh.spr.grpl } }

/-- An operand group of a vector instruction: its register is in range and aligned to RC, and VL fits its format (R30, R31,
R42). -/
def State.grp (s : State) (b : VReg) (ty : Fmt) : Prop := s.sh.groupOk b ty = true
/-- The same of operand B when it is a group. -/
def State.grpB (s : State) (b : VSrc) (ty : Fmt) : Prop := ∀ r ∈ b.regs, s.grp r ty
/-- Two groups share no register (R169). -/
def State.apart (s : State) (a b : VReg) : Prop := s.sh.overlap a b = false

/-- The instruction completes with a scalar result of a format: an f register for a float format, else an x register that takes
it extended; FSTAT takes the flags, EPOS and GRPL are zero, and nothing else changes. -/
def SvDone (i : Instr) (s : State) (ty : Fmt) (d : XReg) (v : Nat) (fl : Flags) : Prop :=
  Gives i s fun t => Done s t ∧
    (if ty.isFloat then t.sh.x = s.sh.x ∧ FIs s t (freg d.val) (BitVec.ofNat 64 v)
      else t.sh.f = s.sh.f ∧ XIs s t d (Word.ofInt (ival ty v))) ∧
    t.eposZero ∧ t.sh.spr.fstat = s.sh.spr.fstat ||| fl.zeroExtend 64 ∧
    OnlyOf s t fun k => { k with
      x := s.sh.x, f := s.sh.f
      spr := { k.spr with epos := s.sh.spr.epos, grpl := s.sh.spr.grpl, fstat := s.sh.spr.fstat } }

/-- The item a vector load or store starts at. -/
def State.startItem (s : State) (ty : Fmt) : Nat := s.sh.spr.epos.toNat / (if ty = .fp4b then 8 else 1)

/-- Every weight load of the sheet has made its reads (R318). -/
abbrev State.weightsRead (s : State) : Prop := ∀ w ∈ s.core.wloads, w.sheet = s.pos → w.got.isSome = true

/-- No run-ahead load, no pending weight load and no store in flight that holds it back stands between a load and memory
(R202, R206, R207). -/
def State.loadsSettled (s : State) (t : Touch) : Prop :=
  s.sh.ahead = [] ∧ s.weightsRead ∧ ∀ v ∈ s.sh.vq, v.holds t = false

/-- A vector load completes: the items of the group are `r`, a mask may take the outstanding bits, and no byte changes; the
TLBs keep the translations used. -/
def LDone (i : Instr) (s : State) (d : VReg) (ty : Fmt) (r : Nat → Nat × Bool) (out : Option (MReg × (Nat → Bool))) : Prop :=
  Gives i s fun t => Done s t ∧ (∀ j < s.sh.spr.items ty, t.sh.getItem d ty j = r j) ∧ OutsideGroup s t d ty ∧ t.eposZero ∧
    (match out with
      | none => t.sh.m = s.sh.m ∧ t.sh.mdirty = s.sh.mdirty ∧ t.sh.mtouch = s.sh.mtouch
      | some (b, f) => (∀ j, t.sh.mbit b j = f j) ∧ ∀ m ≠ b, ∀ j, t.sh.mbit m j = s.sh.mbit m j) ∧
    { t with sh := s.sh, core := { t.core with tlb := s.core.tlb } } = s ∧
    s.sh.moved t.sh = { s.sh.maskBack (s.sh.vecBack t.sh) with tlb := s.sh.tlb, spr := { t.sh.spr with
      epos := s.sh.spr.epos, grpl := s.sh.spr.grpl, rpst := t.sh.spr.rpst } }

/-- The sheet's own TLB maps each of n bytes at an address. -/
def State.held (s : State) (va : Word) (n : Nat) : Prop :=
  ∀ k < n, (tlbFind s.sh.tlb s.sh.spr.sad (va + BitVec.ofNat 64 k)).isSome = true

/-- The keys of n bytes at an address on which an access that the sheet's TLB serves passes its checks: translation,
permission, brand, poison where it reads, no line that a copy engine owns. -/
def State.heldAt (s : State) (a : Acc1) (va : Word) (n : Nat) (keys : List Nat) : Prop :=
  s.held va n ∧ (keys.map addrOf).Nodup ∧ ∃ l, s.range a va n = .ok l ∧ keys = physKeys l ∧ (a ≠ .store → s.firstPoison l = none) ∧
    ∀ k ∈ keys, s.owned (lineOf k) = false

/-- The sheet with EPOS and GRPL put back. -/
def Sheet.eposBack (h k : Sheet) : Sheet := { k with spr := { k.spr with epos := h.spr.epos, grpl := h.spr.grpl } }

/-- A vector store completes: its elements stand in stream V behind what was in flight, in order, and the first n of the stream have
been performed, none unless the elements lie on more than 64 pages (R203, R269). -/
def WDone (i : Instr) (s : State) (els : List VStore) (far : Bool) : Prop :=
  Gives i s fun t => Done s t ∧ t.eposZero ∧
    ∃ n v, (far = false → n = 0) ∧ (s.handV els).performV n = .ok v ∧ { t with sh := v.sh } = v ∧
      s.sh.moved t.sh = s.sh.eposBack { t.sh with vq := s.sh.vq, vdone := s.sh.vdone } ∧
      t.sh.vq = v.sh.vq ∧ t.sh.vdone = v.sh.vdone

/-! Array state. -/

/-- A place that holds a byte of an array operand: an offset in a tile of the sheet's drove, or a physical key. -/
abbrev Cell := Option (BitVec 12) × Nat

/-- The places of the element at an element offset, when an access to it passes: no copy engine owns them, and in memory the
sheet's TLB maps it, permission and brand allow it, and what is read is not poisoned. -/
def State.CellsAt (s : State) (m : Acc1) (a : Arr) (off : Int) (l : List Cell) : Prop :=
  match a.tile with
  | some h => ∃ q, s.tile? h = some q ∧ s.tileBusy q (a.tileOff off) a.t.ew = false ∧
      l = (List.range a.t.ew).map fun k => (some h, a.tileOff off + k)
  | none => ∃ keys, s.heldAt m (a.at_ off) a.t.ew keys ∧ l = keys.map fun k => (none, k)

/-- Where a place lies: two keys of one address, under whatever KEY, are one place. -/
def Cell.at_ (c : Cell) : Cell := (c.1, if c.1.isSome then c.2 else addrOf c.2)

/-- Two lists of places have none in common. -/
def cellsApart (l m : List Cell) : Prop := List.Disjoint (l.map Cell.at_) (m.map Cell.at_)

/-- The byte at a place as a reader sees it. -/
def State.cellByte (s : State) (c : Cell) : Byte :=
  match c.1 with
  | none => s.view c.2
  | some h => match s.tile? h with
    | some q => q.data.byte c.2
    | none => 0

/-- The bits of the element at an offset are v, and a read of it passes. -/
def State.ElemIs (s : State) (a : Arr) (off : Int) (v : Nat) : Prop :=
  ∃ l, s.CellsAt .load a off l ∧ v = leNat (l.map s.cellByte)

/-- An array instruction begins afresh: PROG and EBRK are zero, no stop is due, no store is in flight, the weight loads have made their
reads, and all that holds bytes is canonical. -/
def State.arrFresh (s : State) : Prop :=
  s.sh.spr.prog0 = 0 ∧ s.sh.spr.prog1 = 0 ∧ s.sh.spr.prog2 = 0 ∧ s.sh.spr.ebrk = 0 ∧ s.sh.irq = none ∧ s.sh.vq = [] ∧ s.weightsRead ∧ s.Inv ∧
    ∀ q ∈ s.tiles, q.data.wf = true

/-- The n elements of a destination can be written, lie apart, and those below i lie apart from what is read once i of them
are written. -/
def State.ArrReady (s : State) (d : Arr) (n : Nat) (dst : Nat → List Cell) (reads : Nat → List (Arr × Int)) : Prop :=
  (∀ i < n, s.CellsAt .store d i (dst i)) ∧ (∀ i < n, ∀ j < i, cellsApart (dst i) (dst j)) ∧
    ∀ i ≤ n, ∀ q ∈ reads i, ∃ l, s.CellsAt .load q.1 q.2 l ∧ ∀ j < i, cellsApart l (dst j)

/-- The same when every read stands apart from the whole destination. -/
def State.ArrApart (s : State) (d : Arr) (n : Nat) (dst : Nat → List Cell) (reads : List (Arr × Int)) : Prop :=
  s.ArrReady d n dst fun i => if i = n then reads else []

/-- The range that the store of element i of a destination holds back from later A-loads: the bytes of the destination up to it
(R121, R207). -/
def Arr.lockTo (d : Arr) (i : Nat) : Option (Nat × Nat) :=
  if d.tile.isSome then none else some (d.base.toNat, (d.at_ (i + 1)).toNat - 1)

/-- As stream V sees the bytes (its stores in flight performed), only the first n elements of a destination differ, element i being
v i; the stores still in flight are of these elements, and nothing but what holds bytes (memory, scalar L1s, tiles) differs. -/
def ArrWrote (s t : State) (d : Arr) (n : Nat) (dst : Nat → List Cell) (v : Nat → Nat) : Prop :=
  (∃ u, t.settleV = .ok u ∧ (∀ i < n, leNat ((dst i).map u.cellByte) = v i % 2 ^ d.t.width) ∧
      ∀ c : Cell, (∀ i < n, c.at_ ∉ (dst i).map Cell.at_) → u.cellByte c = s.cellByte c) ∧
    t.sh.vq.length ≤ n * max 1 (ceilDiv d.t.ew 8) ∧ (∀ q ∈ t.sh.vq, ∃ i < n, q.lock = d.lockTo i) ∧
    { s.memBack t with sh := s.sh, tiles := s.tiles } = s ∧ t.cores.map Core.sansL1 = s.cores.map Core.sansL1 ∧
    t.tiles.map (fun q => { q with data := [] }) = s.tiles.map fun q => { q with data := [] }

/-- The sheet after an array instruction: the destination's descriptor holds the result's shape, PROG and EBRK are zero, FSTAT
takes the flags, and nothing else changes but what `u` puts back (R14, R17). -/
def ArrSheet (s t : State) (r : DReg) (shape : List Nat) (count : Nat) (fl : Flags) (u : Sheet → Sheet) : Prop :=
  Done s t ∧ t.sh.d = s.sh.d.set r.val (resultDesc s.sh.d[r.val] shape count) ∧
    t.sh.spr.prog0 = 0 ∧ t.sh.spr.prog1 = 0 ∧ t.sh.spr.prog2 = 0 ∧ t.sh.spr.ebrk = 0 ∧
    t.sh.spr.fstat = s.sh.spr.fstat ||| fl.zeroExtend 64 ∧
    s.sh.moved t.sh = u { t.sh with
      d := s.sh.d, vq := s.sh.vq, vdone := s.sh.vdone
      spr := { t.sh.spr with
        prog0 := s.sh.spr.prog0, prog1 := s.sh.spr.prog1, prog2 := s.sh.spr.prog2, ebrk := s.sh.spr.ebrk
        fstat := s.sh.spr.fstat } }

/-- The OR of the flags of n elements. -/
def flagsUpTo (n : Nat) (v : Nat → Nat × Flags) : Flags := (List.range n).foldl (fun a i => a ||| (v i).2) 0

/-- An array instruction completes with a result of a shape, element i being v i. -/
def ArrDone (i : Instr) (s : State) (r : DReg) (d : Arr) (dst : Nat → List Cell) (shape : List Nat)
    (v : Nat → Nat × Flags) : Prop :=
  Gives i s fun t => ArrWrote s t d (prodL shape) dst (fun j => (v j).1) ∧
    ArrSheet s t r shape (prodL shape) (flagsUpTo (prodL shape) v) id

/-! Matrix state. -/

/-- The sheet in focus with some parts put back, everything else being as before and the PC having moved as completion says:
`u` puts back what may differ of the sheet, `v` of the core. -/
def OnlyHere (s t : State) (u : Sheet → Sheet) (v : Core → Core) : Prop :=
  { t with sh := s.sh, core := s.core } = s ∧ v t.core = s.core ∧ s.sh.moved t.sh = u t.sh

/-- The die of the sheet may run matrix and cutter instructions of a format (R398). -/
def State.calOk (s : State) (ty : Fmt) : Prop :=
  ty = .fp4b ∨ ty = .e4m3 ∨ ty = .e5m2 → s.cal.getLsbD s.pdie = true

/-- An operation may be issued now: its token is idle, its accumulator and slots are not in use, the slots are empty or of its
format, its array's queue has a place, and no stream is bound (R304, R319, R327). -/
def State.issuable (s : State) (ty : Fmt) (c : KReg) (z : ZReg) (ws : List WReg) : Prop :=
  s.unbound ∧ s.sh.k[c.val].st = .idle ∧ s.core.zuse[z.val] = none ∧ s.core.queue[(arrOf z).val].length < 4 ∧
    ∀ w ∈ ws, s.core.wuse[w.val] = none ∧ (s.core.w[w.val].wf = none ∨ s.core.w[w.val].wf = some ty)

/-- The rows of a group may be staged in a format, n elements of each of the first MM rows (R319). -/
def State.stageable (s : State) (ty : Fmt) (a : VReg) (n : Nat) : Prop :=
  s.calOk ty ∧ s.grp a ty ∧ s.sh.spr.mm ≤ s.sh.spr.rc ∧ n ≤ s.sh.spr.vln ∧ (ty = .fp4b → s.sh.spr.mk_ % 8 = 0)

/-- The token of the operation, no cut's token any more, and the slots and the accumulator it names, come into use; it stands at the end
of its array's queue, or is complete at once, the sheet's release being done, when it has no waves (R210, R304, R314, R327, R339). -/
def Issued (i : Instr) (s : State) (ws : List WReg) (o : MatOp) (u : Sheet → Sheet) (v : Core → Core) (w : State → State) :
    Prop :=
  ∀ x, (if o.waves = 0 then s.release else .ok s) = .ok x → Gives i s fun t => Done s t ∧
    t.sh.ctok = setBit s.sh.ctok o.tok.val false ∧
    t.sh.k = s.sh.k.set o.tok.val (if o.waves = 0 then ⟨.complete, 0, 0, 0⟩ else ⟨.pending, 0, 0, 0⟩) ∧
    t.core.zuse = s.core.zuse.set o.z.val (some (s.pos, o.tok)) ∧
    (∀ r : WReg, t.core.wuse[r.val] = if r ∈ ws then some (s.pos, o.tok) else s.core.wuse[r.val]) ∧
    t.core.queue = s.core.queue.set (arrOf o.z).val
      (if o.waves = 0 then s.core.queue[(arrOf o.z).val] else s.core.queue[(arrOf o.z).val] ++ [o]) ∧
    OnlyHere x (w t) (fun k => { u k with k := s.sh.k, ctok := s.sh.ctok }) fun c =>
      { v c with zuse := s.core.zuse, wuse := s.core.wuse, queue := s.core.queue }

/-- A fresh operation of the sheet. -/
def State.newOp (s : State) (kind : MatKind) (ty : Fmt) (z : ZReg) (c : KReg) (rows : List (List Nat)) (waves : Nat) : MatOp :=
  { kind := kind, ty := ty, z := z, mm := s.sh.spr.mm, mn := s.sh.spr.mn, kk := s.sh.spr.mk_, rows := rows
    waves := if s.sh.spr.mm = 0 ∨ s.sh.spr.mn = 0 ∨ s.sh.spr.mk_ = 0 then 0 else waves
    sheet := s.pos, tok := c, prog := none }

/-- The staged elements: n of each of the first MM rows of a group; an element of fp4b with its block's scale, 0xFF when the
block is invalid (R319). -/
def State.staged (s : State) (ty : Fmt) (a : VReg) (n : Nat) : List (List Nat) :=
  (List.range s.sh.spr.mm).map fun i => (List.range n).map fun k =>
    let e := i * s.sh.spr.vln + k
    if ty = .fp4b then
      (if s.sh.blkOk a (e / 8) then s.sh.blk a (e / 8) / 2 ^ (8 + 4 * (e % 8)) % 16 + 16 * (s.sh.blk a (e / 8) % 256) else 0xFF0)
    else s.sh.elem a ty e

/-- The n bytes at an address, read at their home by an access of stream A that the sheet's TLB serves and that passes its checks,
are v. -/
def State.homeIs (s : State) (va : Word) (n v : Nat) : Prop :=
  s.held va n ∧ ∃ l, s.range .load va n = .ok l ∧ s.firstPoison l = none ∧
    (∀ k ∈ physKeys l, s.owned (lineOf k) = false) ∧ v = leNat ((physKeys l).map s.homeByte)

/-- A drain completes: as a vector store, with the flags of its elements. -/
def DrainDone (i : Instr) (s : State) (els : List VStore) (far : Bool) (fl : Flags) : Prop :=
  Gives i s fun t => Done s t ∧ t.eposZero ∧ t.sh.spr.fstat = s.sh.spr.fstat ||| fl.zeroExtend 64 ∧
    ∃ n v, (far = false → n = 0) ∧ (s.handV els).performV n = .ok v ∧ { t with sh := v.sh } = v ∧
      s.sh.moved t.sh = s.sh.eposBack { t.sh with
        vq := s.sh.vq, vdone := s.sh.vdone, spr := { t.sh.spr with fstat := s.sh.spr.fstat } } ∧
      t.sh.vq = v.sh.vq ∧ t.sh.vdone = v.sh.vdone

/-! Copies, tiles, barriers. -/

/-- The places of the bytes of an operand's element as an engine reaches them for a command: a tile of the command's drove, or the
physical keys under the command's brand: those of a store by the translations kept from its issue. -/
def State.cmdPlaces (s : State) (c : Cmd) (m : Acc1) (a : Arr) (e : Int) (l : List Cell) : Prop :=
  match a.tile with
  | some h => (s.cmdTile c h).isSome = true ∧
      l = (List.range (a.bytesAt e).2).map fun k => (some h, (a.bytesAt e).1.toNat + k)
  | none => ∃ p, (if m = .store then s.cmdDst c a e = .ok p
      else rangeOf m (s.xlateAs c.who m) (a.bytesAt e).1 (a.bytesAt e).2 = .ok p ∧ s.firstPoison p = none) ∧ l = (physKeys p).map fun k => (none, k)

/-- The byte at a place as an engine reads it: in memory, at its home. -/
def State.engineByte (s : State) (c : Cmd) (q : Cell) : Byte :=
  match q.1 with
  | none => s.homeByte q.2
  | some h => match s.cmdTile c h with
    | some t => t.data.byte q.2
    | none => 0

/-- No core holds a dirty byte of a line that has one of the keys. -/
def State.cleanAt (s : State) (keys : List Nat) : Prop :=
  ∀ c ∈ s.core :: s.cores, ∀ q ∈ c.l1, ∀ k ∈ keys, lineOf q.key ≠ lineOf k

/-- Writes at these keys leave every translation of a saddle as it is: they touch none of its tables. -/
def State.tablesApart (s : State) (sad : Nat) (keys : List Nat) : Prop :=
  ∀ m : Memory, (∀ k, k ∉ keys.map addrOf → m.byte k = s.mem.byte k) → ∀ va, ({ s with mem := m } : State).walk sad va = s.walk sad va

/-- The instruction waits at its PC after a change that a later attempt sees. -/
def WaitsOn (i : Instr) (s : State) (P : State → Prop) : Prop :=
  Gives i s fun t => t.sh.run = .waiting ∧ t.sh.pc = s.sh.pc ∧ t.sh.spr = s.sh.spr ∧ t.sh.x = s.sh.x ∧ P t

/-- Only the translations that the sheet and its core keep differ. -/
def OnlyTlb (s t : State) (u : Sheet → Sheet) : Prop :=
  { t with sh := s.sh, core := { t.core with tlb := s.core.tlb } } = s ∧ s.sh.moved t.sh = { u t.sh with tlb := s.sh.tlb }

/-! Spans. -/

/-- The collective that the sheet in focus executes on a live span, with no reason to abort or to trap (R375, R376, R384): its
register is valid, its operation agrees with what the others brought, and its groups pass their checks. -/
def State.joins (s : State) (o : XOp) (sp : Span) (x : XCtx) : Prop :=
  let g := s.sh.g[o.g.val]
  gValid g = true ∧ gAbort g = false ∧ s.span? s.sh.spr.sad (gId g) (gGen g) = some sp ∧ sp.abort = none ∧ sp.freed = [] ∧
    s.vecReady ∧ o.fieldsOk s.sh = true ∧ o.groupsOk s.sh = true ∧ x.o = o ∧ x.rank = gRank g ∧ x.count = sp.members.length ∧
    x.n = s.sh.spr.aecn ∧ x.vl = s.sh.spr.vln ∧ x.sig = o.sig s.sh.spr.aecn ∧ x.clash sp s.sh.spr.flat = false ∧
    match o.kind with
    | .send => x.pair = some (gRank g, o.peer) ∧ x.seq = countOf sp.sent (gRank g) o.peer ∧ o.peer ≠ gRank g
    | .recv => x.pair = some (o.peer, gRank g) ∧ x.seq = countOf sp.got o.peer (gRank g) ∧ o.peer ≠ gRank g
    | .all => x.pair = none ∧ x.seq = gSeq g
    | _ => x.pair = none ∧ x.seq = gSeq g ∧ o.peer < sp.members.length

/-- A part of a chunk has arrived, or it is on its way; a lost one counts as on its way while the sheet waits for it. -/
def State.partSent (s : State) (sp : Span) (x : XCtx) (c : Nat) (q : Nat × Nat) : Prop :=
  x.pairDone sp = true ∨ ((sp.chunk? x.pair x.seq c).bind fun ch => ch.part q.1).isSome = true ∨
    ∃ k ∈ s.packets, k.same (x.packet s sp c q.1 q.2) = true ∧ (s.sh.run = .waiting ∨ k.lost = false)

/-- The sheet stands in a collective at its last chunk c, its own parts sent, and rank 0's operation or the peer is known. -/
def State.atLast (s : State) (o : XOp) (sp : Span) (x : XCtx) (c : Nat) : Prop :=
  s.joins o sp x ∧ s.sh.spr.xAct = true ∧ s.sh.spr.xChunk = c ∧ c + 1 = x.nch ∧ x.begins sp c = false ∧
    (∀ q ∈ x.sends, s.partSent sp x c q) ∧
    (x.pair.isSome = true ∨ x.rank = 0 ∨ ∃ e ∈ sp.sigs, e.1 = 0 ∧ e.2.1 = none ∧ e.2.2.1 = x.seq)

/-- The collective completes: D's items are `w`, SEQ is one more, XPOS is zero, FSTAT takes the flags. -/
def XFinish (i : Instr) (s : State) (o : XOp) (w : Option (VReg × (Nat → Nat × Bool))) (fl : Flags) : Prop :=
  Gives i s fun t => Done s t ∧
    t.sh.g = s.sh.g.set o.g.val (wsetFld s.sh.g[o.g.val] 96 32 (gSeq s.sh.g[o.g.val] + 1)) ∧ t.sh.spr.xpos = 0 ∧
    t.sh.spr.fstat = s.sh.spr.fstat ||| fl.zeroExtend 64 ∧
    (match w with
      | none => t.sh.vstore = s.sh.vstore ∧ t.sh.bvm = s.sh.bvm
      | some (d, f) => (∀ j < s.sh.spr.items o.ty, t.sh.getItem d o.ty j = f j) ∧ OutsideGroup s t d o.ty) ∧
    { t with sh := s.sh, spans := s.spans } = s ∧
    s.sh.moved t.sh = { s.sh.vecBack t.sh with
      g := s.sh.g
      spr := { (s.sh.vecBack t.sh).spr with epos := t.sh.spr.epos, grpl := t.sh.spr.grpl, xpos := s.sh.spr.xpos } }

/-- The span once a member has come to a collective afresh: its operation is known, and its parts are to be sent from chunk 0 on. -/
def Span.enter (sp : Span) (x : XCtx) : Span := { sp with
  sigs := (x.rank, x.pair, x.seq, x.sig) :: sp.sigs.filter fun e => !(e.1 = x.rank && e.2.1 = x.pair && e.2.2.1 = x.seq)
  repeats := (x.rank, 0) :: sp.repeats.filter fun e => e.1 ≠ x.rank }

/-- A member that has just begun a collective waits: with its parts of chunk 0 sent when every receiver has a fabric slot free, with
nothing sent when one has not. -/
def XBegins (i : Instr) (s : State) (o : XOp) (x : XCtx) (sp : Span) : Prop :=
  let free := x.open_ ((s.setSpan (sp.enter x)).setXpos (mkXpos 0 o.g)) (sp.enter x) 0
  Gives i s fun t => t.sh.run = .waiting ∧ t.sh.pc = s.sh.pc ∧ t.sh.spr.xpos = mkXpos 0 o.g ∧ t.sh.vstore = s.sh.vstore ∧
    t.packets = s.packets ++ (if free then x.sends else []).map (fun q => {
      sad := sp.sad, id := sp.id, gen := sp.gen, seq := x.seq, chunk := 0, member := q.1, pair := x.pair
      from_ := s.sh.spr.flatIx, brand := s.sh.spr.brand12, sig := x.sig, lost := false, born := s.time.toNat
      elems := (List.range (x.hi 0)).map fun k => s.sh.getItem (o.a.getD 0) o.ty (q.2 + k) }) ∧
    { t with sh := s.sh, packets := s.packets, spans := s.spans } = s

end Machine
end Sys2Proof
end

