-- ==== Sys2Proof/Certificates/Slice0/Obligations.lean ====
section
/-! DEFINITION. The statements for the provers.
-/
open Sys2Proof Sys2Proof.Machine

/-! ### Encoding, the step, reset -/

/-- For every well-formed instruction, decoding its word gives it back, with every operand at every value the encoding admits
(the encoding tables, R51 to R57). -/
def Obligations.DecodeOfEncode : Prop :=
  ∀ (i : Instr) (w : IWord), i.wf = true → encode i = some w → decode w = some i

/-- Every word that the decoder accepts is the word the encoder gives for what it read, and that instruction is well-formed: no
bit of a word goes unread, and no forbidden field value passes (R52 to R57). -/
def Obligations.EncodeOfDecode : Prop :=
  ∀ (i : Instr) (w : IWord), decode w = some i → encode i = some w ∧ i.wf = true

/-- `nop`, the all-zero word and class 0xF as R60 says: NOP's bytes are eleven zeros and 0x20, and it changes nothing but the
PC; the all-zero word, like every word of class 0xF, decodes to nothing, and a slot that holds such a word traps 0x01.
Further words written out from the spec's encodings decode to their instructions: two of the packed example of R66, the
branch of R159's example, `halt` (R158). -/
def Obligations.WordsOfTheSpec : Prop :=
  decode 0x000114000001000000004000#96 = some (.add 5 0 (.imm 0x4000#32)) ∧
    decode 0x00011C000001000000000005#96 = some (.add 7 0 (.imm 5#32)) ∧
    decode 0x200100418800000000000004#96 = some (.br .leu 4 6 4#32) ∧
    decode 0x200600000000000000000000#96 = some .halt ∧
    decodeBytes (List.replicate 11 0 ++ [0x20]) = some .nop ∧ decode 0x200000000000000000000000#96 = some .nop ∧
    (∀ s : State, Gives .nop s fun t => Done s t ∧ OnlyOf s t id) ∧
    decode 0#96 = none ∧ (∀ w : IWord, w.extractLsb' 92 4 = 0xF#4 → decode w = none) ∧
    ∀ (s : State) (l : Line) (b : List Byte), s.sh.run ≠ .off → s.straight → s.sh.lineAt s.sh.pc = some l → l.recs = [] →
      b = l.slot (slotOf s.sh.pc) → (b = List.replicate 12 0 ∨ (wordOfBytes b).extractLsb' 92 4 = 0xF#4) →
      Traps .illegalInstruction s 0x01 0 0

/-- When the sheet in focus has its turn (the agenda names it next, or it alone has anything to do), no stop awaits it and no
element of a group is in hand, a step runs the instruction that the bytes of the slot at its PC decode to, at that very state but
for the agenda; an undecodable slot runs the ILLEGAL_INSTRUCTION event. In a loop the word comes from the replay buffer at
RPST.POS (R175). An elementwise instruction that heads no chain group runs alone, once the lines of the three slots after it have
been fetched or cannot be (R187). The model's readings it rests on: DESIGN CHOICE, log 3, 4 and 5; DEDUCED, log 33 and 42. -/
def Obligations.StepRunsDecoded : Prop :=
  ∀ (s : State) (l : List Turn) (w : IWord) (i : Instr), s.planted = [] → s.due = [] →
    (s.agenda = .run s.sh.place :: l ∨ s.agenda = [] ∧ l = [] ∧ s.work = []) → s.sh.run = .ready → s.sh.irq = none →
    s.sh.spr.epos = 0 →
    (s.straight ∧ (∃ ln, s.sh.lineAt s.sh.pc = some ln ∧ wordOfBytes (ln.slot (slotOf s.sh.pc)) = w) ∨
      rpDrives s.sh.spr.rpst = true ∧ s.sh.rbuf[rpPos s.sh.spr.rpst]? = some w) →
    (decode w = none → step s = exec .illegalInstruction { s with agenda := l }) ∧
    (decode w = some i → vecOp i = none → step s = exec i { s with agenda := l }) ∧
    (∀ op : VecOp, decode w = some i → vecOp i = some op →
      (op.joins = false ∨ s.fetchMembers = none ∧ s.members 3 1 op = []) → step s = exec i { s with agenda := l })

/-- No step stops the model: whatever the state, it answers a next state (every stop the spec describes is a trap, a wait or the
end of a drove), and it keeps the canonical form of memory and of the record of the KEYs under which it was written. The model's
readings it rests on: DESIGN CHOICE, log 1; log 107. -/
def Obligations.StepKeepsMemory : Prop :=
  ∀ s : State, ∃ t, step s = .next t ∧ (s.Inv → t.Inv)

/-- The state after reset: the invariant of `StepKeepsMemory`, and the values the spec gives: each saddle's WEIGHT 1 and its
other registers 0 (R389), service class 0 with no die up or calibrated and no event posted (R398), TIME not running (R41),
no drove placed. The model's readings it rests on: DESIGN CHOICE, log 2 and 3. -/
def Obligations.ResetValues : Prop :=
  let s := State.reset
  s.Inv ∧ s.up = 0 ∧ s.cal = 0 ∧ s.svc = 0 ∧ s.timeOn = false ∧ s.droves = [] ∧ s.sheets = [] ∧
    ∀ k < 64, s.barRead k 0x030 = 1 ∧ ∀ off ∈ [0x008, 0x010, 0x018, 0x020, 0x028, 0x038, 0x040, 0x048, 0x050, 0x058, 0x060, 0x068,
      0x070, 0x078, 0x080, 0x088, 0x090, 0x098, 0x0A0, 0x0A8], s.barRead k off = 0

/-- What completion moves (R48, R175): outside a loop the next slot; inside one the next position, and after the last one the
first slot of the body while the counter is positive, else the slot after the body with RPST zero. A slot's index and its
address determine each other, and the slot that follows has the next index (R48, R49). -/
def Obligations.CompletionMovesThePc : Prop :=
  (∀ (p : Spr) (x : XReg → Word) (pc : Word),
     (rpDrives p.rpst = false → advance p x pc 1 = (nextPc pc, p.rpst)) ∧
     (rpDrives p.rpst = true → rpPos p.rpst + 1 < rpLen p.rpst → rpPos p.rpst + 1 < 32 →
       (advance p x pc 1).1 = nextPc pc ∧ rpPos (advance p x pc 1).2 = rpPos p.rpst + 1 ∧
         rpLen (advance p x pc 1).2 = rpLen p.rpst ∧ rpDrives (advance p x pc 1).2 = true ∧
         rpReg (advance p x pc 1).2 = rpReg p.rpst) ∧
     (rpDrives p.rpst = true → rpLen p.rpst ≤ rpPos p.rpst + 1 → 0 < (x (xreg (rpReg p.rpst))).toInt →
       (advance p x pc 1).1 = Word.ofInt (pcOfSlot (slotIndex pc - (rpPos p.rpst : Nat))) ∧
         rpPos (advance p x pc 1).2 = 0 ∧ rpDrives (advance p x pc 1).2 = true) ∧
     (rpDrives p.rpst = true → rpLen p.rpst ≤ rpPos p.rpst + 1 → (x (xreg (rpReg p.rpst))).toInt ≤ 0 →
       advance p x pc 1 = (nextPc pc, 0))) ∧
  (∀ pc : Word, slotStart pc = true → pc.toInt < 2 ^ 54 → -(2 ^ 54) ≤ pc.toInt →
     Word.ofInt (pcOfSlot (slotIndex pc)) = pc ∧
       (pc.toInt + 16 < 2 ^ 54 → slotStart (nextPc pc) = true ∧ slotIndex (nextPc pc) = slotIndex pc + 1))

/-! ### The scalar classes -/

/-- `add` to `movh` (R150) give the values of R150's table in xD and change nothing else: no flag, no other register, no memory.
A read of x0 gives zero and a write of x0 is discarded; B is a register or the immediate, sign-extended (R54). `cmp` gives 1
when the condition holds between a and b and 0 otherwise, and a branch is decided by the same conditions: signed for eq to
gt, unsigned for ltu to gtu (R62). The model's readings it rests on: DEDUCED, log 21. -/
def Obligations.IntegerValues : Prop :=
  (∀ (s : State) (d a : XReg) (b : XSrc),
     (∀ r, s.xsrc (.reg r) = s.xr r) ∧ (∀ v : BitVec 32, s.xsrc (.imm v) = BitVec.ofInt 64 v.toInt) ∧ s.xr 0 = 0 ∧
     (∀ (x y : Word), x = s.xr a → y = s.xsrc b →
       XDone (.add d a b) s d (BitVec.ofNat 64 (x.toNat + y.toNat)) ∧
       XDone (.sub d a b) s d (BitVec.ofInt 64 (x.toInt - y.toInt)) ∧
       XDone (.mul d a b) s d (BitVec.ofNat 64 (x.toNat * y.toNat)) ∧
       XDone (.mulh .i64 d a b) s d (BitVec.ofInt 64 (x.toInt * y.toInt / 2 ^ 64)) ∧
       XDone (.mulh .n64 d a b) s d (BitVec.ofNat 64 (x.toNat * y.toNat / 2 ^ 64)) ∧
       XDone (.and d a b) s d (x &&& y) ∧ XDone (.or d a b) s d (x ||| y) ∧ XDone (.xor d a b) s d (x ^^^ y) ∧
       XDone (.andn d a b) s d (x &&& ~~~y) ∧
       XDone (.shl d a b) s d (BitVec.ofNat 64 (x.toNat * 2 ^ (y.toNat % 64))) ∧
       XDone (.shr d a b) s d (BitVec.ofNat 64 (x.toNat / 2 ^ (y.toNat % 64))) ∧
       XDone (.sar d a b) s d (BitVec.ofInt 64 (x.toInt / 2 ^ (y.toNat % 64))) ∧
       XDone (.rol d a b) s d (x <<< (y.toNat % 64) ||| x >>> (64 - y.toNat % 64)) ∧
       XDone (.ror d a b) s d (x >>> (y.toNat % 64) ||| x <<< (64 - y.toNat % 64)) ∧
       XDone (.min .i64 d a b) s d (if x.toInt ≤ y.toInt then x else y) ∧
       XDone (.min .n64 d a b) s d (if x.toNat ≤ y.toNat then x else y) ∧
       XDone (.max .i64 d a b) s d (if x.toInt ≤ y.toInt then y else x) ∧
       XDone (.max .n64 d a b) s d (if x.toNat ≤ y.toNat then y else x) ∧
       XDone (.movh d a b) s d (BitVec.ofNat 64 (y.toNat % 2 ^ 32 * 2 ^ 32 + x.toNat % 2 ^ 32)) ∧
       XDone (.sext .i8 d a) s d ((x.setWidth 8).signExtend 64) ∧
       XDone (.sext .i16 d a) s d ((x.setWidth 16).signExtend 64) ∧
       XDone (.sext .i32 d a) s d ((x.setWidth 32).signExtend 64) ∧
       XDone (.zext .n8 d a) s d ((x.setWidth 8).zeroExtend 64) ∧
       XDone (.zext .n16 d a) s d ((x.setWidth 16).zeroExtend 64) ∧
       XDone (.zext .n32 d a) s d ((x.setWidth 32).zeroExtend 64))) ∧
  ((∀ x y : Word,
     (condWord .eq x y = decide (x = y)) ∧ (condWord .ne x y = decide (x ≠ y)) ∧
     (condWord .lt x y = decide (x.toInt < y.toInt)) ∧ (condWord .ge x y = decide (y.toInt ≤ x.toInt)) ∧
     (condWord .le x y = decide (x.toInt ≤ y.toInt)) ∧ (condWord .gt x y = decide (y.toInt < x.toInt)) ∧
     (condWord .ltu x y = decide (x.toNat < y.toNat)) ∧ (condWord .geu x y = decide (y.toNat ≤ x.toNat)) ∧
     (condWord .leu x y = decide (x.toNat ≤ y.toNat)) ∧ (condWord .gtu x y = decide (y.toNat < x.toNat))) ∧
   (∀ (s : State) (c : Cond) (d a : XReg) (b : XSrc),
     XDone (.cmp c d a b) s d (if condWord c (s.xr a) (s.xsrc b) then 1 else 0)))

/-- `clz`, `ctz` and `popc` count, and `bswap` reverses the bytes (R150). `bext` and `bins` read and replace a field of w bits
at p, cut off at bit 63 (R152). `crcw` advances the state by the bytes of B, lowest first: by n8 one step, and by n16, n32
and n64 as two, four and eight steps by its bytes in order; one step by zero bits of a zero state leaves it zero, and the
check value of R153's example comes out. -/
def Obligations.IntegerBits : Prop :=
  (∀ (s : State) (d a : XReg),
     (∃ n ≤ 64, XDone (.clz d a) s d (BitVec.ofNat 64 n) ∧ (∀ j < n, (s.xr a).getLsbD (63 - j) = false) ∧
       (n < 64 → (s.xr a).getLsbD (63 - n) = true)) ∧
     (∃ n ≤ 64, XDone (.ctz d a) s d (BitVec.ofNat 64 n) ∧ (∀ j < n, (s.xr a).getLsbD j = false) ∧
       (n < 64 → (s.xr a).getLsbD n = true)) ∧
     XDone (.popc d a) s d (BitVec.ofNat 64 (Finset.univ.filter fun j : Fin 64 => (s.xr a).getLsbD j = true).card) ∧
     (∃ v : Word, XDone (.bswap d a) s d v ∧ ∀ j < 8, v.extractLsb' (8 * j) 8 = (s.xr a).extractLsb' (8 * (7 - j)) 8)) ∧
  (∀ (s : State) (d a : XReg) (b : XSrc) (p w : Nat), p = (s.xsrc b).toNat % 64 →
     w = (if (s.xsrc b).toNat / 256 % 64 = 0 then 64 else (s.xsrc b).toNat / 256 % 64) →
     (∃ v : Word, XDone (.bext d a b) s d v ∧
       ∀ j < 64, v.getLsbD j = (decide (j < w) && (s.xr a).getLsbD (p + j))) ∧
     (∃ v : Word, XDone (.bins d a b) s d v ∧
       ∀ j < 64, v.getLsbD j = if p ≤ j ∧ j < p + w then (s.xr a).getLsbD (j - p) else (s.xr d).getLsbD j)) ∧
  ((∀ (s : State) (ty : Fmt) (d a : XReg) (b : XSrc), ty.isN = true →
     ∃ v : Word, XDone (.crcw ty d a b) s d v ∧ v.toNat < 2 ^ 32 ∧
       v.setWidth 32 = crcBytes ((s.xr a).setWidth 32) (leBytes ty.ew (s.xsrc b).toNat)) ∧
   (∀ (c : BitVec 32) (l m : List Byte), crcBytes c (l ++ m) = crcBytes (crcBytes c l) m) ∧
   (∀ (c : BitVec 32) (b : Byte), crcBytes c [b] = Nat.repeat (fun c : BitVec 32 =>
     if c.getLsbD 0 then c >>> 1 ^^^ 0x82F63B78#32 else c >>> 1) 8 (c ^^^ b.setWidth 32)) ∧
   crcBytes (crcBytes (BitVec.allOnes 32) (leBytes 8 0x3837363534333231)) (leBytes 1 0x39) = 0x1CF96D7C#32)

/-- `div` and `rem` truncate toward zero and never trap; by zero they give all ones and the dividend, and −2^63 by −1 gives
−2^63 and 0 (R151). -/
def Obligations.Division : Prop :=
  ∀ (s : State) (d a : XReg) (b : XSrc) (x y : Word), x = s.xr a → y = s.xsrc b →
    ∃ qi ri qn rn : Word,
      XDone (.div .i64 d a b) s d qi ∧ XDone (.rem .i64 d a b) s d ri ∧
      XDone (.div .n64 d a b) s d qn ∧ XDone (.rem .n64 d a b) s d rn ∧
      (y = 0 → qi = BitVec.allOnes 64 ∧ ri = x ∧ qn = BitVec.allOnes 64 ∧ rn = x) ∧
      (x.toInt = -(2 ^ 63) → y.toInt = -1 → qi = x ∧ ri = 0) ∧
      (y ≠ 0 → ¬(x.toInt = -(2 ^ 63) ∧ y.toInt = -1) →
        x.toInt = qi.toInt * y.toInt + ri.toInt ∧ ri.toInt.natAbs < y.toInt.natAbs ∧ 0 ≤ ri.toInt * x.toInt) ∧
      (y ≠ 0 → x.toNat = qn.toNat * y.toNat + rn.toNat ∧ rn.toNat < y.toNat)

/-- Rounding to an integer multiple of a power of two is exact where it can be and otherwise keeps to its mode: nearest for rne
(ties to even) and rna (ties away), toward zero, down or up for the others (R73). The value of a finite pattern of a binary
format rounds to that pattern in every mode, with no flag (R72, R73). -/
def Obligations.RoundingIsExactOrNearest : Prop :=
  (∀ (r : Rnd) (neg : Bool) (m k : Nat), ∀ q, q = rint r neg m (-(k : Int)) →
     (q.2 = false ↔ m % 2 ^ k = 0) ∧ (q.2 = false → q.1 * 2 ^ k = m) ∧
     (q.1 * 2 ^ k < m + 2 ^ k ∧ m < q.1 * 2 ^ k + 2 ^ k) ∧
     (r = .rne ∨ r = .rna → 2 * (q.1 * 2 ^ k) ≤ 2 * m + 2 ^ k ∧ 2 * m ≤ 2 * (q.1 * 2 ^ k) + 2 ^ k) ∧
     (r = .rne → 2 * (m % 2 ^ k) = 2 ^ k → q.1 % 2 = 0) ∧
     (r = .rna → 2 * (m % 2 ^ k) = 2 ^ k → m < q.1 * 2 ^ k) ∧
     (r = .rtz → q.1 * 2 ^ k ≤ m) ∧
     (r = .rdn → if neg then m ≤ q.1 * 2 ^ k else q.1 * 2 ^ k ≤ m) ∧
     (r = .rup → if neg then q.1 * 2 ^ k ≤ m else m ≤ q.1 * 2 ^ k)) ∧
  (∀ (t : Fmt) (r : Rnd) (sat : Bool) (v : Nat), t.isFloat = true → v < 2 ^ t.width →
     (∃ n m e, fdecode t v = .fin n m e) → fround t r sat (fdecode t v) = (v, 0))

/-- The arithmetic float instructions compute the exact result and round it once to TY in the RND mode, into fD, with their
flags OR'd into FSTAT, and change nothing else (R155). `fneg` and `fabs` invert and clear the sign bit, and `fmin` and
`fmax` give one of their operands when neither is a NaN and they differ; a NaN operand of `fneg` or `fabs` gives the
canonical NaN. None sets a flag (R155). `fcmp` writes 1 or 0; `fcvt` and `fcvtf` round once to the destination; `fcvti`
rounds to the integer format and extends the result, with its flags in FSTAT (R155, R156). Nothing else changes. The model's
readings it rests on: DEDUCED, log 17, 22 and 115. -/
def Obligations.FloatClass : Prop :=
  (∀ (s : State) (ty : Fmt) (r : Rnd) (d a c : FReg) (b : FSrc) (x y z : FVal), ty.isF = true →
     x = fdecode ty (s.fr a).toNat → y = fdecode ty (s.fsrc ty b) → z = fdecode ty (s.fr c).toNat →
     let rounded := fun (q : FVal × Flags) => ((fround ty r false q.1).1, q.2 ||| (fround ty r false q.1).2)
     FDone (.fadd ty r d a b) s d (rounded (fAdd r x y)) ∧ FDone (.fsub ty r d a b) s d (rounded (fAdd r x y.neg)) ∧
     FDone (.fmul ty r d a b) s d (rounded (fMul x y)) ∧ FDone (.fdiv ty r d a b) s d (rounded (fDiv x y)) ∧
     FDone (.fma ty r d a b c) s d (rounded (fFma r x y z)) ∧ FDone (.fsqrt ty r d a) s d (rounded (fSqrt x)) ∧
     FDone (.frsqrt ty r d a) s d (rounded (fRsqrt x)) ∧ FDone (.fexp2 ty r d a) s d (rounded (fExp2 x)) ∧
     FDone (.flog2 ty r d a) s d (rounded (fLog2 x)) ∧
     (∀ v : BitVec 32, s.fsrc .f32 (.imm v) = v.toNat)) ∧
  (∀ (s : State) (ty : Fmt) (d a : FReg) (b : FSrc) (x y : Nat), ty.isF = true →
     x = (s.fr a).toNat % 2 ^ ty.width → y = s.fsrc ty b % 2 ^ ty.width →
     FDone (.fneg ty d a) s d (if (fdecode ty x).isNan then ty.nanPat else x ^^^ 2 ^ (ty.width - 1), 0) ∧
     FDone (.fabs ty d a) s d (if (fdecode ty x).isNan then ty.nanPat else x % 2 ^ (ty.width - 1), 0) ∧
     ((fdecode ty x).isNan = false → (fdecode ty y).isNan = false →
       (fLess (fdecode ty x) (fdecode ty y) = true →
         FDone (.fmin ty d a b) s d (x, 0) ∧ FDone (.fmax ty d a b) s d (y, 0)) ∧
       (fLess (fdecode ty y) (fdecode ty x) = true →
         FDone (.fmin ty d a b) s d (y, 0) ∧ FDone (.fmax ty d a b) s d (x, 0)))) ∧
  (∀ (s : State) (ty src : Fmt) (r : Rnd) (sat : Bool) (c : Cond) (dx ax : XReg) (df af : FReg) (b : FSrc), ty.isF = true →
     XDone (.fcmp c ty dx af b) s dx (if fCond c (fdecode ty (s.fr af).toNat) (fdecode ty (s.fsrc ty b)) then 1 else 0) ∧
     (src.isFloat = true → FDone (.fcvt ty src r df af) s df (fround ty r false (fdecode src (s.fr af).toNat))) ∧
     (src.isInt = true → FDone (.fcvtf ty src r df ax) s df (fround ty r false (FVal.ofInt (ival src (s.xr ax).toNat)))) ∧
     (src.isInt = true → ∃ q, q = fround src r sat (fdecode ty (s.fr af).toNat) ∧
       Gives (.fcvti src ty r sat dx af) s fun t => Done s t ∧ XIs s t dx (Word.ofInt (ival src q.1)) ∧
         t.sh.spr.fstat = s.sh.spr.fstat ||| q.2.zeroExtend 64 ∧
         OnlyOf s t fun k => { k with x := s.sh.x, spr := { k.spr with fstat := s.sh.spr.fstat } }))

/-- `fmvx` and `fmvf` copy bits between the register files without conversion, without NaN canonicalisation and without flags
(R157): an f64 register whole, an f32 pattern from bits [31:0], zero above. Nothing else changes. -/
def Obligations.MovesBetweenFiles : Prop :=
  ∀ (s : State) (dx ax : XReg) (df af : FReg),
    XDone (.fmvx .f64 dx af) s dx (s.fr af) ∧ XDone (.fmvx .f32 dx af) s dx ((s.fr af).setWidth 32 |>.zeroExtend 64) ∧
    FDone (.fmvf .f64 df ax) s df ((s.xr ax).toNat, 0) ∧ FDone (.fmvf .f32 df ax) s df ((s.xr ax).toNat % 2 ^ 32, 0)

/-- `br`, `jmp` and `jal` go to a canonical target, a slot start by its rule, and `jr` and `jalr` to one that is both; the link
register takes the following slot, the target of `jr` and `jalr` being read first. A branch whose condition does not hold
falls through (R159). A target that is not canonical traps 0x12 at the transferring instruction, with TVAL and FADDR the
target; a canonical target of `jr` or `jalr` that is no slot start traps 0x04 with TVAL the target and FADDR 0. The link
register is not written (R159). -/
def Obligations.ControlTransfers : Prop :=
  (∀ (s : State) (c : Cond) (d a b : XReg) (disp : BitVec 32) (t : Word),
     t = Word.ofInt (pcOfSlot (slotIndex s.sh.pc + disp.toInt)) →
     (canonical t = true →
       (condWord c (s.xr a) (s.xr b) = true → Jumps (.br c a b disp) s t 0) ∧
       Jumps (.jmp disp) s t 0 ∧ Jumps (.jal d disp) s t d) ∧
     (condWord c (s.xr a) (s.xr b) = false → Gives (.br c a b disp) s fun u => Done s u ∧ OnlyOf s u id) ∧
     (canonical (s.xr a) = true → slotStart (s.xr a) = true →
       Jumps (.jr a) s (s.xr a) 0 ∧ Jumps (.jalr d a) s (s.xr a) d)) ∧
  (∀ (s : State) (c : Cond) (d a b : XReg) (disp : BitVec 32) (t : Word),
     t = Word.ofInt (pcOfSlot (slotIndex s.sh.pc + disp.toInt)) →
     (canonical t = false →
       (condWord c (s.xr a) (s.xr b) = true → Traps (.br c a b disp) s 0x12 t t) ∧
       Traps (.jmp disp) s 0x12 t t ∧ Traps (.jal d disp) s 0x12 t t) ∧
     (canonical (s.xr a) = false → Traps (.jr a) s 0x12 (s.xr a) (s.xr a) ∧ Traps (.jalr d a) s 0x12 (s.xr a) (s.xr a)) ∧
     (canonical (s.xr a) = true → slotStart (s.xr a) = false →
       Traps (.jr a) s 0x04 (s.xr a) 0 ∧ Traps (.jalr d a) s 0x04 (s.xr a) 0))

/-- `nop` and `hold` do nothing; `halt` stops the sheet and keeps its state; `evwait` takes the oldest word with bit 63 telling
of a discarded post, or waits on an empty queue (R26, R158, R160, R213). That the PC of a halted sheet stays at its `halt`
is the model's choice. The model's readings it rests on: DEDUCED, log 25. -/
def Obligations.NopHaltEvwait : Prop :=
  ∀ (s : State) (d : XReg) (set : BitVec 6),
    (Gives .nop s fun t => Done s t ∧ OnlyOf s t id) ∧ (Gives (.hold set) s fun t => Done s t ∧ OnlyOf s t id) ∧
    (Gives .halt s fun t => t.sh.run = .halted ∧ { t with sh := { t.sh with run := s.sh.run, ahead := s.sh.ahead } } = s) ∧
    (∀ (w : Word) (l : List Word), s.sh.evq.words = w :: l →
      ∃ v : Word, (Gives (.evwait d) s fun t => Done s t ∧ XIs s t d v ∧ t.sh.evq.words = l ∧ t.sh.evq.lost = false ∧
        OnlyOf s t fun k => { k with x := s.sh.x, evq := s.sh.evq }) ∧
        (∀ j < 63, v.getLsbD j = w.getLsbD j) ∧ v.getLsbD 63 = s.sh.evq.lost) ∧
    (s.sh.evq.words = [] → Waits (.evwait d) s)

/-- A scalar load that passes R163's checks reads the bytes at va := xA + disp, lowest first, and puts them, extended, in the x
or the f register that TY names; `ldp` fills D then C; `dld` fills a descriptor. No byte of memory changes (R163, R164,
R99). The model's readings it rests on: DEDUCED, log 99. -/
def Obligations.ScalarLoads : Prop :=
  ∀ (s : State) (ty : Fmt) (scp : Scope) (d c a : XReg) (dd : DReg) (disp : BitVec 32) (va : Word) (l : List Phys), s.Inv →
    va = s.xr a + sext32 disp →
    (ty.isInt = true → s.Reaches .load va ty.ew ty.ew l →
      Loads (.ld ty d a disp) s l (fun t v => XIs s t d (Word.ofInt (ival ty v))) (fun k => { k with x := s.sh.x }) ∧
      Loads (.lda ty scp d a disp) s l (fun t v => XIs s t d (Word.ofInt (ival ty v))) (fun k => { k with x := s.sh.x })) ∧
    (ty.isF = true → s.Reaches .load va ty.ew ty.ew l →
      Loads (.ld ty d a disp) s l (fun t v => FIs s t (freg d.val) (BitVec.ofNat 64 v)) (fun k => { k with f := s.sh.f })) ∧
    (s.Reaches .load va 16 8 l → d ≠ c → ty.is64 = true →
      Loads (.ldp ty d c a disp) s l
        (fun t v => ∀ r, t.xr r = if r = 0 then 0 else if r = c then BitVec.ofNat 64 (v / 2 ^ 64)
          else if r = d then BitVec.ofNat 64 v else s.xr r) (fun k => { k with x := s.sh.x })) ∧
    (s.Reaches .load va 16 8 l → d.val < 16 → c.val < 16 → d ≠ c →
      Loads (.ldp .f64 d c a disp) s l
        (fun t v => ∀ r : FReg, t.fr r = if r.val = c.val then BitVec.ofNat 64 (v / 2 ^ 64)
          else if r.val = d.val then BitVec.ofNat 64 v else s.fr r) (fun k => { k with f := s.sh.f })) ∧
    (s.Reaches .load va 128 16 l →
      Loads (.dld dd a disp) s l
        (fun t v => t.sh.d[dd.val] = BitVec.ofNat 1024 v ∧ ∀ r : DReg, r ≠ dd → t.sh.d[r.val] = s.sh.d[r.val])
        (fun k => { k with d := s.sh.d }))

/-- A scalar store that passes R163's checks puts the low bytes of its register at va := xA + disp, lowest first; `stp` the
bytes of B then of C; `dst` a descriptor. A weight load of the sheet that has yet to read one of the bytes reads first (R208). `stl`
first releases: the accesses of streams S, A and V that the sheet has issued are
performed, its dirty lines written back, and it waits or ends as that does; then its bytes are at their home, where every reader
sees them, and no L1 holds the line dirty (R165, R210). No other byte, and no register, changes (R163 to R165, R99). The model's
readings it rests on: DEDUCED, log 99; DESIGN CHOICE, log 67 and 113. -/
def Obligations.ScalarStores : Prop :=
  ∀ (s : State) (ty : Fmt) (scp : Scope) (b c a : XReg) (dd : DReg) (disp : BitVec 32) (va : Word) (l : List Phys), s.Inv →
    va = s.xr a + sext32 disp →
    (ty.isInt = true → s.Reaches .store va ty.ew ty.ew l →
      Stores (.st ty b a disp) s va l (leBytes ty.ew (s.xr b).toNat) ∧
      (∀ u, s.releasedTo va ty.ew u →
        u.sh.vq = [] ∧ u.weightsRead ∧ u.core.l1.all (fun q => !q.of s.pos) = true ∧
        StoresHome (.stl ty scp b a disp) s u l (leBytes ty.ew (s.xr b).toNat)) ∧
      ∀ st, (s.fillAll (pageStarts va ty.ew)).release = .error st → exec (.stl ty scp b a disp) s = .next st.take) ∧
    (ty.isF = true → s.Reaches .store va ty.ew ty.ew l →
      Stores (.st ty b a disp) s va l (leBytes ty.ew (s.fr (freg b.val)).toNat)) ∧
    (ty.is64 = true → s.Reaches .store va 16 8 l →
      Stores (.stp ty b c a disp) s va l (leBytes 8 (s.xr b).toNat ++ leBytes 8 (s.xr c).toNat)) ∧
    (s.Reaches .store va 16 8 l →
      Stores (.stp .f64 b c a disp) s va l
        (leBytes 8 (s.fr (freg b.val)).toNat ++ leBytes 8 (s.fr (freg c.val)).toNat)) ∧
    (s.Reaches .store va 128 16 l → Stores (.dst dd a disp) s va l (leBytes 128 s.sh.d[dd.val].toNat))

/-- An `amo` or a `cas` that passes R163's checks releases, waiting or ending as that does, then puts the old value of its home,
extended, in xD and writes the new one there: the sum modulo the width, the bitwise result, the lesser or greater by the format's
sign, B, or for `cas` B when the old value is C's, and nothing otherwise (R166, R210). Its release rests on DESIGN CHOICE, log 67. -/
def Obligations.Atomics : Prop :=
  ∀ (s u : State) (ty : Fmt) (scp : Scope) (d c b a : XReg) (disp : BitVec 32) (va : Word) (l : List Phys) (w : Nat), s.Inv →
    ty.isWide = true → w = 2 ^ (8 * ty.ew) → va = s.xr a + sext32 disp → s.Reaches .rmw va ty.ew ty.ew l →
    (∀ st, (s.fillAll (pageStarts va ty.ew)).release = .error st →
      ∀ i ∈ [Instr.amoAdd ty scp d b a disp, .amoAnd ty scp d b a disp, .amoOr ty scp d b a disp, .amoXor ty scp d b a disp,
        .amoMin ty scp d b a disp, .amoMax ty scp d b a disp, .amoSwap ty scp d b a disp, .cas ty scp d c b a disp],
        exec i s = .next st.take) ∧
    (s.releasedTo va ty.ew u →
    let y := (s.xr b).toNat % w
    let sgn := fun v : Nat => if ty.isI = true ∧ w / 2 ≤ v then (v : Int) - w else v
    Amos (.amoAdd ty scp d b a disp) s u ty d l (fun o => some ((o + y) % w)) ∧
    Amos (.amoAnd ty scp d b a disp) s u ty d l (fun o => some (o &&& y)) ∧
    Amos (.amoOr ty scp d b a disp) s u ty d l (fun o => some (o ||| y)) ∧
    Amos (.amoXor ty scp d b a disp) s u ty d l (fun o => some (o ^^^ y)) ∧
    Amos (.amoMin ty scp d b a disp) s u ty d l (fun o => some (if sgn o ≤ sgn y then o else y)) ∧
    Amos (.amoMax ty scp d b a disp) s u ty d l (fun o => some (if sgn o ≤ sgn y then y else o)) ∧
    Amos (.amoSwap ty scp d b a disp) s u ty d l (fun _ => some y) ∧
    Amos (.cas ty scp d c b a disp) s u ty d l (fun o => if o = (s.xr c).toNat % w then some y else none))

/-- A scalar access to an address that is not a multiple of its width traps 0x04 with TVAL and FADDR that address, and one whose
bytes fail translation, permission or brand traps with that cause, TVAL the access's address and FADDR the first byte that
fails; the trap changes nothing else (R148, R163, R99). While the walk of a translation would read a line that a copy engine owns,
the access waits (R209). The model's readings it rests on: DEDUCED, log 101. -/
def Obligations.ScalarTraps : Prop :=
  ∀ (s : State) (ty : Fmt) (scp : Scope) (d c b a : XReg) (dd : DReg) (disp : BitVec 32) (va : Word), va = s.xr a + sext32 disp →
    let access := fun (m : Acc1) (i : Instr) (n al : Nat) => (va.toNat % al ≠ 0 → Traps i s 0x04 va va) ∧
      ∀ x f, va.toNat % al = 0 → s.range m va n = .error (x, f) → if x = walkWaits then Waits i s else Traps i s x va f
    let load := access .load
    let store := access .store
    let rmw := fun i => access .rmw i ty.ew ty.ew
    load (.dld dd a disp) 128 16 ∧ store (.dst dd a disp) 128 16 ∧ load (.ld ty d a disp) ty.ew ty.ew ∧ load (.lda ty scp d a disp) ty.ew ty.ew ∧ load (.ldp ty d c a disp) 16 8 ∧
      store (.st ty b a disp) ty.ew ty.ew ∧ store (.stl ty scp b a disp) ty.ew ty.ew ∧ (ty.is64 = true ∨ ty = .f64 → store (.stp ty b c a disp) 16 8) ∧
      rmw (.amoAdd ty scp d b a disp) ∧ rmw (.amoAnd ty scp d b a disp) ∧ rmw (.amoOr ty scp d b a disp) ∧
      rmw (.amoXor ty scp d b a disp) ∧ rmw (.amoMin ty scp d b a disp) ∧ rmw (.amoMax ty scp d b a disp) ∧
      rmw (.amoSwap ty scp d b a disp) ∧ rmw (.cas ty scp d c b a disp)

/-! ### The vector classes -/

/-- `vset` and `vset.2d` grant VL as the least of the row cap, VLMAX of the format and 16384 / RC, cut to a multiple of 8 for
fp4b, and AEC as what is left to do within it; a cap of 0 in `vset` means VLMAX (R42, R43, R173). `vcfg` and `swr VCFG`
accept a value with RC at most NREG and no other bit, set VL and AEC to zero, and when NREG changes take every register as
written whole, a block being valid where its byte 0 is not 255; any other value traps 0x01. `vcfg` gives the old VCFG (R34,
R35, R38, R174). -/
def Obligations.ConfigurationOfVectors : Prop :=
  (∀ (s : State) (ty : Fmt) (d a b : XReg),
     let rc := s.sh.spr.rc
     let top := vlmax s.sh.spr.rbytes ty
     let cut := fun n => if ty = .fp4b then n / 8 * 8 else n
     (∀ cap vl, cap = (if s.xr b = 0 then top else (s.xr b).toNat) → vl = cut (min (min cap top) (16384 / rc)) →
       StripDone (.vset ty d a b) s d vl (min (s.xr a).toNat (rc * vl))) ∧
     (∀ vl, vl = cut (min (min (s.xr b).toNat top) (16384 / rc)) →
       StripDone (.vset2d ty d a b) s d vl (min (s.xr a).toNat rc * vl))) ∧
  (∀ (s : State) (d a : XReg) (v : Word), v = s.xr a →
     let ok := v &&& ~~~(0xF3#64) = 0#64 ∧ fld v 5 3 ≠ 7 ∧ 2 ^ fld v 5 3 ≤ 8 * 2 ^ fld v 0 2
     let sets := fun (t : State) => t.sh.spr.vcfg = v ∧ t.sh.spr.vl = 0 ∧ t.sh.spr.aec = 0 ∧ t.sh.vstore = s.sh.vstore ∧
       (t.sh.spr.nreg = s.sh.spr.nreg → t.sh.bvm = s.sh.bvm ∧ t.sh.vdirty = s.sh.vdirty ∧ t.sh.vtouch = s.sh.vtouch) ∧
       (t.sh.spr.nreg ≠ s.sh.spr.nreg →
         (∀ r : Fin 64, t.sh.vdirty.getLsbD r.val = decide (r.val < t.sh.spr.nreg) ∧
           t.sh.vtouch[r.val] = if r.val < t.sh.spr.nreg then t.sh.spr.rbytes else 0) ∧
         (s.sh.vstore.wf = true → ∀ r < t.sh.spr.nreg, ∀ j < t.sh.spr.rbytes / 5,
           t.sh.bvm.getLsbD (r * (t.sh.spr.rbytes / 5) + j) = (s.sh.vstore.byte (r * t.sh.spr.rbytes + 5 * j) != 0xFF#8)))
     let back := fun (k : Sheet) (p : Spr) => { k with
       bvm := s.sh.bvm, vdirty := s.sh.vdirty, vtouch := s.sh.vtouch
       spr := { p with vcfg := s.sh.spr.vcfg, vl := s.sh.spr.vl, aec := s.sh.spr.aec } }
     (ok → Gives (.vcfg d a) s fun t => Done s t ∧ XIs s t d s.sh.spr.vcfg ∧ sets t ∧ t.eposZero ∧ OnlyOf s t fun k =>
       back { k with x := s.sh.x } { k.spr with epos := s.sh.spr.epos, grpl := s.sh.spr.grpl }) ∧
     (ok → Gives (.swrVcfg a) s fun t => Done s t ∧ sets t ∧ OnlyOf s t fun k => back k k.spr) ∧
     (¬ ok → Traps (.vcfg d a) s 0x01 0 0 ∧ Traps (.swrVcfg a) s 0x01 0 0))

/-- The integer elementwise instructions compute exact results that wrap, or saturate where SAT is set; shift amounts count
modulo the width; a quotient by zero is all ones and its remainder the dividend; no flag changes (R69, R151, R179). `vmov`
copies items, or gives every element the immediate; `vsel` takes A where C is not zero and else B; `vadd` of ingots adds
them exactly, with its flags (R88, R179). The model's readings it rests on: DEDUCED, log 21. -/
def Obligations.VectorIntegers : Prop :=
  (∀ (s : State) (m : VMod) (d a : VReg) (b : VSrc), s.vecReady → m.ty.isInt = true →
     s.grp d m.ty → s.grp a m.ty → s.grpB b m.ty →
     let w := m.ty.width
     let bound := fun z : Int => if m.ty.isI then max (-(2 ^ (w - 1))) (min z (2 ^ (w - 1) - 1)) else max 0 (min z (2 ^ w - 1))
     let fit := fun z : Int => if m.sat then bound z else z
     let p := fun j => s.sh.elem a m.ty j
     let q := fun j => s.sh.vsrc m.ty .rne b j
     let x := fun j => ival m.ty (p j)
     let y := fun j => ival m.ty (q j)
     let done := fun i (f : Nat → Int) =>
       VDone i s d m.ty m.mask (s.from_ m.ty) (plainRes fun j => (f j % (2 ^ w : Nat)).toNat)
     done (.vadd m d a b) (fun j => fit (x j + y j)) ∧ done (.vsub m d a b) (fun j => fit (x j - y j)) ∧
     done (.vmul m d a b) (fun j => fit (x j * y j)) ∧ done (.vmulh m d a b) (fun j => x j * y j / 2 ^ w) ∧
     done (.vdiv m d a b) (fun j => if y j = 0 then -1 else (x j).tdiv (y j)) ∧
     done (.vrem m d a b) (fun j => if y j = 0 then x j else (x j).tmod (y j)) ∧
     done (.vand m d a b) (fun j => (p j &&& q j : Nat)) ∧ done (.vor m d a b) (fun j => (p j ||| q j : Nat)) ∧
     done (.vxor m d a b) (fun j => (p j ^^^ q j : Nat)) ∧
     done (.vshl m d a b) (fun j => (p j * 2 ^ (q j % w) : Nat)) ∧
     done (.vshr m d a b) (fun j => (p j / 2 ^ (q j % w) : Nat)) ∧
     done (.vsar m d a b) (fun j => toSigned w (p j) / 2 ^ (q j % w)) ∧
     done (.vmin m d a b) (fun j => min (x j) (y j)) ∧ done (.vmax m d a b) (fun j => max (x j) (y j)) ∧
     done (.vabs m d a) (fun j => fit |x j|) ∧ done (.vneg m d a) (fun j => fit (-x j)) ∧
     done (.vclz m d a) (fun j => w - (p j).size) ∧
     done (.vpopc m d a) (fun j => ((Finset.range w).filter fun n => (p j).testBit n = true).card) ∧
     (∀ v j, b = .imm v → q j = if m.ty.isI then (v.toInt % (2 ^ w : Nat)).toNat else v.toNat % 2 ^ w)) ∧
  (∀ (s : State) (m : VMod) (d a b c : VReg), s.vecReady → s.grp d m.ty → s.grp a m.ty → s.grp b m.ty → s.grp c m.ty →
     VDone (.vmov m d (.reg a)) s d m.ty m.mask (s.from_ m.ty) (moveRes (s.sh.getItem a m.ty)) ∧
     (∀ v, m.ty.isNum = true → VDone (.vmov m d (.imm v)) s d m.ty m.mask (s.from_ m.ty)
       (plainRes fun _ => immBits m.ty m.rnd v)) ∧
     (m.ty ≠ .fp4b → VDone (.vsel m d a b c) s d m.ty m.mask (s.from_ m.ty)
       (plainRes fun j => if s.sh.elem c m.ty j = 0 then s.sh.elem b m.ty j else s.sh.elem a m.ty j)) ∧
     (m.ty = .ing → VDone (.vadd m d a (.reg b)) s d .ing m.mask (s.from_ .ing)
       (flagRes fun j => ingAdd (s.sh.elem a .ing j) (s.sh.elem b .ing j))))

/-- The float elementwise instructions compute the exact result of each element and round it once to TY in the RND mode, their
flags OR'd into FSTAT; `vfmin`, `vfmax`, `vfabs` and `vfneg` give an operand or change its sign, and SAT does not touch them (R73,
R79, R155, R180, R181). On fp4b a float instruction computes whole blocks: an invalid source block
gives an invalid block with NV, and else the eight values, +0 at inactive elements, are packed under one scale (R80 to R84,
R170, R181). `vpack4` packs elements so. The model's readings it rests on: DEDUCED, log 17, 18, 22 and 115; DESIGN CHOICE, log 110. -/
def Obligations.VectorFloats : Prop :=
  (∀ (s : State) (m : VMod) (d a : VReg) (b : VSrc) (c : VReg), s.vecReady → m.ty.isFloat = true →
     s.grp d m.ty → s.grp a m.ty → s.grpB b m.ty → s.grp c m.ty →
     let x := fun j => fdecode m.ty (s.sh.elem a m.ty j)
     let y := fun j => fdecode m.ty (s.sh.vsrc m.ty m.rnd b j)
     let z := fun j => fdecode m.ty (s.sh.elem c m.ty j)
     let under := fun (sat : Bool) i (f : Nat → FVal × Flags) => VDone i s d m.ty m.mask (s.from_ m.ty)
       (flagRes fun j => ((fround m.ty m.rnd sat (f j).1).1, (f j).2 ||| (fround m.ty m.rnd sat (f j).1).2))
     let done := under m.sat
     done (.vfadd m d a b) (fun j => fAdd m.rnd (x j) (y j)) ∧ done (.vfsub m d a b) (fun j => fAdd m.rnd (x j) (y j).neg) ∧
     done (.vfmul m d a b) (fun j => fMul (x j) (y j)) ∧ done (.vfdiv m d a b) (fun j => fDiv (x j) (y j)) ∧
     done (.vfma m d a b c) (fun j => fFma m.rnd (x j) (y j) (z j)) ∧
     done (.vfsqrt m d a) (fun j => fSqrt (x j)) ∧ done (.vfrsqrt m d a) (fun j => fRsqrt (x j)) ∧
     done (.vfexp2 m d a) (fun j => fExp2 (x j)) ∧ done (.vflog2 m d a) (fun j => fLog2 (x j)) ∧
     under false (.vfmin m d a b) (fun j => (fMinMax false (x j) (y j), 0)) ∧
     under false (.vfmax m d a b) (fun j => (fMinMax true (x j) (y j), 0)) ∧
     under false (.vfabs m d a) (fun j => ((x j).abs, 0)) ∧ under false (.vfneg m d a) (fun j => ((x j).neg, 0)) ∧
     (∀ v : BitVec 32, m.ty = .f32 → (fdecode .f32 v.toNat).isNan = false → s.sh.vsrc .f32 m.rnd (.imm v) 0 = v.toNat)) ∧
  (∀ (s : State) (m : VMod) (src : Fmt) (d a b : VReg), s.vecReady → m.ty = .fp4b →
     s.grp d .fp4b →
     let val := fun r j n => (fp4Vals (s.sh.blk r j)).getD n .nan
     let pack := fun j (f : Nat → FVal) => fp4Pack m.rnd m.sat
       ((List.range 8).map fun n => if s.sh.active m.mask (8 * j + n) then f n else .zero false)
     let bin := fun i (f : FVal → FVal → FVal) => VDone i s d .fp4b m.mask (s.from_ .fp4b) (blockRes fun j =>
       if s.sh.blkOk a j ∧ s.sh.blkOk b j then pack j fun n => f (val a j n) (val b j n) else (0xFF, flNV, false))
     let un := fun i (f : FVal → FVal) => VDone i s d .fp4b m.mask (s.from_ .fp4b) (blockRes fun j =>
       if s.sh.blkOk a j then pack j fun n => f (val a j n) else (0xFF, flNV, false))
     (s.grp a .fp4b → s.grp b .fp4b →
       bin (.vfadd m d a (.reg b)) (fun x y => (fAdd m.rnd x y).1) ∧
       bin (.vfsub m d a (.reg b)) (fun x y => (fAdd m.rnd x y.neg).1) ∧
       bin (.vfmul m d a (.reg b)) (fun x y => (fMul x y).1) ∧ bin (.vfmin m d a (.reg b)) (fMinMax false) ∧
       bin (.vfmax m d a (.reg b)) (fMinMax true) ∧ un (.vfabs m d a) FVal.abs ∧ un (.vfneg m d a) FVal.neg) ∧
     (src.isFloat = true → s.grp a src → s.apart d a →
       VDone (.vpack4 m src d a) s d .fp4b m.mask (s.from_ .fp4b)
         (blockRes fun j => pack j fun n => fdecode src (s.sh.elem a src (8 * j + n)))))

/-- The conversions round each element once to the destination format: integers by value, floats and ingots by their exact
value; an invalid block and an invalid ingot give the NaN with NV; `vinga` adds the exact product of its operands to its
destination (R77, R84, R87, R88, R183 to R186). An ingot holds a sum exactly: adding two whose sum stays inside the format
gives the ingot of the sum, with no flag; an invalid operand gives the invalid ingot (R87, R88). The model's readings it
rests on: DEDUCED, log 17 and 18. -/
def Obligations.Conversions : Prop :=
  (∀ (s : State) (m : VMod) (src : Fmt) (d a b : VReg), s.vecReady →
     let conv := fun (u v : Fmt) (r : Rnd) (sat : Bool) (x : Nat) =>
       if u.isInt ∧ v.isInt then (((if sat then max (intMin v) (min (ival u x) (intMax v)) else ival u x) %
         (2 ^ v.width : Nat)).toNat, 0) else fround v r sat (fdecode u x)
     (src.isNum = true → m.ty.isNum = true → s.grp d m.ty → s.grp a src → (src.ew ≠ m.ty.ew → s.apart d a) →
       VDone (.vcvt m src d a) s d m.ty m.mask (s.from_ m.ty)
         (flagRes fun j => conv src m.ty m.rnd m.sat (s.sh.elem a src j))) ∧
     (m.ty.narrow = true → s.grp d m.ty.wide → s.grp a m.ty → s.apart d a →
       VDone (.vwiden m d a) s d m.ty.wide m.mask (s.from_ m.ty.wide)
         (flagRes fun j => conv m.ty m.ty.wide .rne false (s.sh.elem a m.ty j))) ∧
     (m.ty.narrow = true → s.grp d m.ty → s.grp a m.ty.wide → s.apart d a →
       VDone (.vnarrow m d a) s d m.ty m.mask (s.from_ m.ty)
         (flagRes fun j => conv m.ty.wide m.ty m.rnd m.sat (s.sh.elem a m.ty.wide j))) ∧
     (m.ty.isFloat = true → s.grp d m.ty → s.grp a .fp4b → s.apart d a →
       VDone (.vunpack4 m d a) s d m.ty m.mask (s.from_ m.ty) (flagRes fun j =>
         if s.sh.blkOk a (j / 8) then fround m.ty m.rnd false ((fp4Vals (s.sh.blk a (j / 8))).getD (j % 8) .nan)
         else (m.ty.nanPat, flNV))) ∧
     (s.grp d .ing → s.grp a .f32 → s.grp b .f32 → s.apart d a → s.apart d b →
       VDone (.vinga m d a b) s d .ing m.mask (s.from_ .ing) (flagRes fun j =>
         ingAcc (s.sh.elem d .ing j) (fdecode .f32 (s.sh.elem a .f32 j)) (fdecode .f32 (s.sh.elem b .f32 j)))) ∧
     (m.ty.isFloat = true → s.grp d m.ty → s.grp a .ing → s.apart d a →
       VDone (.vingr m d a) s d m.ty m.mask (s.from_ m.ty) (flagRes fun j =>
         if s.sh.elem a .ing j = 2 ^ 191 then (m.ty.nanPat, flNV)
         else fround m.ty m.rnd m.sat (fdecode .ing (s.sh.elem a .ing j))))) ∧
  (∀ (a b : Nat), a < 2 ^ 192 → b < 2 ^ 192 →
     (a ≠ 2 ^ 191 → b ≠ 2 ^ 191 → (toSigned 192 a + toSigned 192 b).natAbs < 2 ^ 191 →
       toSigned 192 (ingAdd a b).1 = toSigned 192 a + toSigned 192 b ∧ (ingAdd a b).2 = 0) ∧
     ((a = 2 ^ 191 ∨ b = 2 ^ 191) → (ingAdd a b).1 = 2 ^ 191))

/-- `vcmp` and `vfcmp` write one bit per element under the mask's policies, and no other mask register (R62, R171). The mask
logic writes the bits of the group under the policies and starts at element 0; `mpop` counts the bits set at active elements
and `mfirst` gives the first, or all ones (R191). -/
def Obligations.Masks : Prop :=
  (∀ (s : State) (c : Cond) (m : VMod) (d : MReg) (a : VReg) (b : VSrc), s.vecReady → s.grp a m.ty → s.grpB b m.ty →
     (m.ty.isInt = true → MDone (.vcmp c m d a b) s d m.mask (fld s.sh.spr.epos 0 15) fun j =>
       iCondP c m.ty (s.sh.elem a m.ty j) (s.sh.vsrc m.ty .rne b j)) ∧
     (m.ty.isFloat = true → MDone (.vfcmp c m d a b) s d m.mask (fld s.sh.spr.epos 0 15) fun j =>
       fCond c (fdecode m.ty (s.sh.elem a m.ty j)) (fdecode m.ty (s.sh.vsrc m.ty .rne b j)))) ∧
  (∀ (s : State) (k : VMask) (d a b : MReg) (x : XReg),
     vlAecOk s.sh.spr.rc s.sh.spr.vln s.sh.spr.aecn = true →
     let p := s.sh.mbit a
     let q := s.sh.mbit b
     let hits := (Finset.range s.sh.spr.aecn).filter fun i => s.sh.maskBit k i = true ∧ p i = true
     MDone (.mand k d a b) s d k 0 (fun i => p i && q i) ∧ MDone (.mor k d a b) s d k 0 (fun i => p i || q i) ∧
     MDone (.mxor k d a b) s d k 0 (fun i => xor (p i) (q i)) ∧ MDone (.mandn k d a b) s d k 0 (fun i => p i && !q i) ∧
     MDone (.mnot k d a) s d k 0 (fun i => !p i) ∧ MDone (.mcopy k d a) s d k 0 p ∧
     XvDone (.mpop k x a) s x (BitVec.ofNat 64 hits.card) ∧
     (hits = ∅ → XvDone (.mfirst k x a) s x (BitVec.allOnes 64)) ∧
     (∀ i ∈ hits, (∀ j ∈ hits, i ≤ j) → XvDone (.mfirst k x a) s x (BitVec.ofNat 64 i)))

/-- The moves and permutes place items (elements or blocks) as R193 says: compress, expand, slides, permute by index, broadcast,
extract, insert and iota (R192, R193). -/
def Obligations.VectorPermutes : Prop :=
  ∀ (s : State) (m : VMod) (d a b : VReg) (x : XReg) (y : XSrc), s.vecReady → s.grp d m.ty →
    let on := fun j => s.sh.maskBit m.mask (govern m.ty j)
    let n := s.sh.spr.below m.ty
    let N := (s.xsrc y).toNat
    let item := s.sh.getItem a m.ty
    let keep := s.sh.getItem d m.ty
    let flat := s.sh.spr.flat
    (s.grp a m.ty → s.apart d a →
      (∀ sel, sel = (List.range n).filter on → GDone (.vcompress m d a) s d m.ty
        (fun j => if j < sel.length then item (sel.getD j 0) else s.tailItem d m.ty j) 0) ∧
      VDone (.vexpand m d a) s d m.ty m.mask 0 (moveRes fun j => item ((List.range j).filter on).length) ∧
      GDone (.vslideup m d a y) s d m.ty (fun j =>
        if j < N ∧ s.sh.act m.mask (govern m.ty j) ≠ .fill then keep j
        else s.policy d m.ty m.mask 0 (fun j => item (j - N)) j) 0 ∧
      VDone (.vslidedn m d a y) s d m.ty m.mask 0 (moveRes fun j => if j + N < n then item (j + N) else (0, true)) ∧
      (∀ ix, ix = (if m.ty = .fp4b then Fmt.n16 else m.ty) → s.grp b ix → s.apart d b →
        VDone (.vperm m d a b) s d m.ty m.mask 0
          (moveRes fun j => if s.sh.elem b ix j < n then item (s.sh.elem b ix j) else (0, true)))) ∧
    (m.ty.isInt = true → VDone (.vbcast m d (.reg x)) s d m.ty m.mask 0 (plainRes fun _ => (s.xr x).toNat)) ∧
    (m.ty.isFloat = true → VDone (.vbcast m d (.reg x)) s d m.ty m.mask 0 (plainRes fun _ => (s.fr (freg x.val)).toNat)) ∧
    (m.ty.isNum = true → ∀ v, VDone (.vbcast m d (.imm v)) s d m.ty m.mask 0 (plainRes fun _ => immBits m.ty .rne v)) ∧
    (m.ty.isNum = true → s.grp a m.ty → SvDone (.vext m x a y) s m.ty x (if N < flat then s.sh.elem a m.ty N else 0) 0) ∧
    (m.ty.isNum = true → GDone (.vins m d x y) s d m.ty (fun j => if j = N then
      ((if m.ty.isFloat then (s.fr (freg x.val)).toNat else (s.xr x).toNat) % 2 ^ m.ty.width, true) else keep j) 0) ∧
    (m.ty.isInt = true → VDone (.viota m d) s d m.ty m.mask 0
      (plainRes fun j => if m.sat then (min (j : Int) (intMax m.ty)).toNat else j)) ∧
    (m.ty.isFloat = true → VDone (.viota m d) s d m.ty m.mask 0 (flagRes fun j => fround m.ty m.rnd m.sat (FVal.ofInt j)))

/-- The two orders of a reduction: ordered is the left fold in index order; the tree combines adjacent pairs level by level, an
odd last operand passing up. Integer operators that wrap give one result in both (R90). `vred` and `vscan` reduce the active
elements, in index order, by the operator, the format's identity standing for none; `vsred` and `vsscan` do so within each
segment, a boundary bit beginning one, and `vsred` packs its results from element 0 (R90, R108, R194 to R196, R352 to R355). -/
def Obligations.Reductions : Prop :=
  ((∀ (f : Nat → Nat → Nat × Flags) (a : Nat) (l : List Nat),
     reduceL f true (a :: l) = l.foldl (fun q b => ((f q.1 b).1, q.2 ||| (f q.1 b).2)) (a, 0)) ∧
   (∀ (f : Nat → Nat → Nat × Flags) (a : Nat), reduceL f false [a] = (a, 0)) ∧
   (∀ (f : Nat → Nat → Nat × Flags) (l : List Nat), 2 ≤ l.length →
     (reduceL f false l).1 = (reduceL f false (redLevel f l).1).1 ∧
     (redLevel f l).1.length = (l.length + 1) / 2 ∧
     (∀ k, 2 * k + 1 < l.length → (redLevel f l).1.getD k 0 = (f (l.getD (2 * k) 0) (l.getD (2 * k + 1) 0)).1) ∧
     (l.length % 2 = 1 → (redLevel f l).1.getD (l.length / 2) 0 = l.getD (l.length - 1) 0)) ∧
   (∀ (o : RedOp) (t : Fmt) (r : Rnd) (l : List Nat), t.isInt = true → o ≠ .swap → (∀ v ∈ l, v < 2 ^ t.width) →
     (reduceL (redStep o t r false) false l).1 = (reduceL (redStep o t r false) true l).1)) ∧
  (∀ (s : State) (m : VMod) (op : RedOp) (ord : Bool) (d a : VReg) (x : XReg) (b : MReg), s.vecReady → m.red op = true →
     s.grp a m.ty →
     let red := fun (l : List Nat) => if l = [] then ((redIdent op m.ty).getD 0, 0)
       else reduceL (redStep op m.ty m.rnd m.sat) ord l
     let els := fun (l : List Nat) => (l.filter (s.sh.active m.mask)).map (s.sh.elem a m.ty)
     let segs := s.sh.segments b
     let own := fun j => (List.range (j + 1)).filter fun i => (List.range (j + 1)).all fun q => q ≤ i || !s.sh.mbit b q
     SvDone (.vred op ord m x a) s m.ty x (red (els (List.range s.sh.spr.aecn))).1 (red (els (List.range s.sh.spr.aecn))).2 ∧
     (s.grp d m.ty → s.apart d a →
       VDone (.vscan op ord m d a) s d m.ty m.mask 0 (flagRes fun j => red (els (List.range (j + 1)))) ∧
       VDone (.vsscan op ord m d a b) s d m.ty m.mask 0 (flagRes fun j => red (els (own j))) ∧
       GDone (.vsred op ord m d a b) s d m.ty
         (fun j => if j < segs.length then ((red (els (segs.getD j []))).1 % 2 ^ m.ty.width, true) else s.tailItem d m.ty j)
         (segs.foldl (fun f l => f ||| (red (els l)).2) 0)) ∧
     segs.flatten = List.range s.sh.spr.aecn ∧
     (∀ l ∈ segs, ∃ i r, l = i :: r ∧ (i = 0 ∨ s.sh.mbit b i = true) ∧ ∀ j ∈ r, s.sh.mbit b j = false))

/-- `vsegoff` turns row offsets into boundary bits and `vfibre` packs as many whole rows as fit, setting AEC; `vmaxi` finds the
first greatest element among those a mask has and takes it out of the mask, and `vmaxi.seg` does so in each segment (R352,
R356, R357, R360). -/
def Obligations.SegmentsAndMaxima : Prop :=
  ∀ (s : State) (ty : Fmt) (d b c : MReg) (a : VReg) (x y : XReg), s.vecReady → s.grp a ty →
    let n := s.sh.spr.aecn
    let flat := s.sh.spr.flat
    let e := s.sh.elem a ty
    let heads := fun (t : State) (k : Nat) (p : Nat → Prop) => ∀ j, t.sh.mbit d j = true ↔
      if j < k then p j else if j < flat ∧ s.sh.spr.tail = true then True else s.sh.mbit d j = true
    let masksBut := fun (t : State) (l : List MReg) => ∀ r, r ∉ l → ∀ j, t.sh.mbit r j = s.sh.mbit r j
    let best := fun (p : Nat → Prop) (i : Nat) => p i ∧ (∀ j, p j → keyLess ty (e i) (e j) = false) ∧
      ∀ j < i, p j → keyLess ty (e j) (e i) = true
    let cand := fun j => j < n ∧ s.sh.mbit b j = true
    let seg := fun i j => (∀ q, i < q → q ≤ j → s.sh.mbit c q = false) ∧ ∀ q, j < q → q ≤ i → s.sh.mbit c q = false
    ((s.xr x).toNat ≤ flat → Gives (.vsegoff ty d a x) s fun t => Done s t ∧ t.eposZero ∧ OnlyOf s t s.sh.maskBack ∧
      heads t n (fun j => j = 0 ∨ ∃ g < (s.xr x).toNat, e g = j) ∧ masksBut t [d]) ∧
    (∃ rows ≤ min (s.xr x).toNat flat, ∃ sum : Nat → Nat, sum 0 = 0 ∧ (∀ r < rows, sum (r + 1) = sum r + e r) ∧
      sum rows ≤ flat ∧ (rows < min (s.xr x).toNat flat → flat < sum rows + e rows) ∧
      Gives (.vfibre ty d a x y) s fun t => Done s t ∧ t.eposZero ∧ XIs s t y (BitVec.ofNat 64 rows) ∧
        t.sh.spr.aec = BitVec.ofNat 64 (sum rows) ∧ heads t (sum rows) (fun j => ∃ r < rows, sum r = j) ∧ masksBut t [d] ∧
        OnlyOf s t fun k => { s.sh.maskBack k with
          x := s.sh.x, spr := { k.spr with aec := s.sh.spr.aec, epos := s.sh.spr.epos, grpl := s.sh.spr.grpl } }) ∧
    (ty.isNum = true → ∃ (i : Word) (v : Nat) (w : Nat → Prop), ((∀ j, ¬ cand j) → i = BitVec.allOnes 64 ∧ v = (redIdent .max ty).getD 0 ∧ ∀ j, ¬ w j) ∧
      ((∃ j, cand j) → ∃ k, best cand k ∧ i = BitVec.ofNat 64 k ∧ v = e k ∧ ∀ j, w j ↔ j = k) ∧
      Gives (.vmaxi ty x a b y) s fun t => Done s t ∧ t.eposZero ∧ masksBut t [b] ∧
        (∀ j, t.sh.mbit b j = true ↔ s.sh.mbit b j = true ∧ ¬ w j) ∧
        (∀ r, t.xr r = if r = 0 then 0 else if r = y ∧ ty.isInt = true then Word.ofInt (ival ty v) else if r = x then i
          else s.xr r) ∧
        (∀ r, t.fr r = if ty.isFloat = true ∧ r = freg y.val then BitVec.ofNat 64 v else s.fr r) ∧
        OnlyOf s t fun k => { s.sh.maskBack k with x := s.sh.x, f := s.sh.f }) ∧
    (ty.isNum = true → d ≠ b → d ≠ c → b ≠ c → Gives (.vmaxiSeg ty d a b c) s fun t =>
      Done s t ∧ t.eposZero ∧ masksBut t [b, d] ∧ OnlyOf s t s.sh.maskBack ∧
      ∀ i, (t.sh.mbit b i = true ↔ s.sh.mbit b i = true ∧ ¬ best (fun j => cand j ∧ seg i j) i) ∧
        (t.sh.mbit d i = true ↔ s.sh.mbit d i = true ∨ best (fun j => cand j ∧ seg i j) i))

/-- A vector load that every item passes puts the bits at the items' addresses into the group under the policies, beginning at
EPOS: contiguous, strided, indexed, windowed with its outstanding mask, and from a tile. The bytes are those at their home
(R205, R233, R252 to R255, R264 to R266). The first item from EPOS on, in order, that any of these loads cannot read stops it: the
earlier items are written, EPOS names that item, and the trap gives the item's index in TVAL (an address beyond the span of a tile
there) and its address in FADDR; with TRIM and an active item before it the load completes and AEC becomes that index (R266, R268).
A load reads after the sheet's earlier weight loads and the stores in flight that hold it back (R202, R206, R207). The model's
readings it rests on: DEDUCED, log 16, 38, 39 and 98; DESIGN CHOICE, log 67. -/
def Obligations.VectorLoadsAndFaults : Prop :=
  (∀ (s : State) (ty : Fmt) (k : VMask) (trim : Bool) (d c : VReg) (a x : XReg) (b : MReg) (disp : BitVec 32) (h : BitVec 12)
     (q : Tile) (v : Nat → Nat), s.vecReady → s.grp d ty →
     let lo := s.startItem ty
     let base := s.xr a + sext32 disp
     let serves := fun (tile : Option Tile) (gather : Bool) (at_ : Nat → Option Word) =>
       s.loadsSettled (touchOf ty gather (s.sh.addrsOf ty k at_) (tile.map Tile.handle)) ∧
       ∀ j < s.sh.spr.below ty, lo ≤ j → s.sh.maskBit k (govern ty j) = true → ∀ va, at_ j = some va →
         s.readAt ty tile va.toNat = .val (v j) ∧ s.busyAt ty tile va.toNat = false
     let res := s.policy d ty k lo fun j => (v j, ty != .fp4b || v j % 256 ≠ 255)
     (∀ at_, at_ = (fun j => some (base + BitVec.ofNat 64 (ty.ew * j))) → serves none false at_ → base.toNat % ty.align = 0 →
       LDone (.vld ty k trim d a disp) s d ty res none) ∧
     (∀ at_, at_ = (fun j => some (base + BitVec.ofNat 64 j * s.xr x)) → serves none false at_ → base.toNat % ty.align = 0 →
       (s.xr x).toNat % ty.align = 0 → LDone (.vlds ty k trim d a x disp) s d ty res none) ∧
     (∀ at_, at_ = (fun j => some (base + BitVec.ofNat 64 (s.sh.elem c ty j))) → serves none true at_ → s.grp c ty →
       LDone (.vldx ty k trim d a c disp) s d ty res none) ∧
     (∀ at_, at_ = (fun j => if s.sh.elem c ty j < s.sh.spr.flat then some (base + BitVec.ofNat 64 (ty.ew * s.sh.elem c ty j))
         else none) → serves none true at_ → s.grp c ty → ty ≠ .fp4b →
       LDone (.vwgath ty k d a b c disp) s d ty
         (fun j => if s.sh.act k j = .compute ∧ s.sh.spr.flat ≤ s.sh.elem c ty j then s.sh.getItem d ty j else res j)
         (some (b, fun j => if lo ≤ j ∧ j < s.sh.spr.flat then s.sh.active k j && s.sh.spr.flat ≤ s.sh.elem c ty j
           else s.sh.mbit b j))) ∧
     (∀ at_, at_ = (fun j => some (s.xr a + BitVec.ofNat 64 (ty.ew * j))) → serves (some q) false at_ → s.resolve h = .ok q →
       (s.xr a).toNat % ty.align = 0 → LDone (.tld ty k trim d a h) s d ty res none) ∧
     (∀ (va : Word) (l : List Phys), s.range .load va ty.ew = .ok l → s.firstPoison l = none → va.toNat % ty.align = 0 →
       s.readAt ty none va.toNat = .val (leNat ((physKeys l).map s.homeByte))) ∧
     (∀ off, off + ty.ew ≤ q.rows * q.rb → s.readAt ty (some q) off = .val (q.data.nat off ty.ew))) ∧
  (∀ (s : State) (ty : Fmt) (k : VMask) (trim : Bool) (d c : VReg) (a x : XReg) (b : MReg) (disp : BitVec 32) (h : BitVec 12)
     (q : Tile) (e cause : Nat) (fa : Word) (v : Nat → Nat), s.vecReady → s.grp d ty → cause ≠ walkWaits → cause ≠ 0x01 →
     let lo := s.startItem ty
     let base := s.xr a + sext32 disp
     let on := fun j => s.sh.maskBit k (govern ty j)
     lo ≤ e → e < s.sh.spr.below ty → on e = true →
     let fails := fun (tile : Option Tile) (gather : Bool) (at_ : Nat → Option Word) =>
       s.loadsSettled (touchOf ty gather (s.sh.addrsOf ty k at_) (tile.map Tile.handle)) ∧
       (∃ va, at_ e = some va ∧ s.readAt ty tile va.toNat = .flt cause fa ∧ s.busyAt ty tile va.toNat = false) ∧
       ∀ j < e, lo ≤ j → on j = true → ∀ va, at_ j = some va →
         s.readAt ty tile va.toNat = .val (v j) ∧ s.busyAt ty tile va.toNat = false
     let early := fun (t : State) (at_ : Nat → Option Word) => ∀ j < e, t.sh.getItem d ty j =
       if s.sh.act k (govern ty j) = .compute ∧ at_ j = none then s.sh.getItem d ty j
       else s.policy d ty k lo (fun j => (v j, ty != .fp4b || v j % 256 ≠ 255)) j
     let stops := fun (i : Instr) (at_ : Nat → Option Word) (tval : Word) => Gives i s fun t =>
       t.sh.pc = s.sh.spr.tvec ∧ t.sh.spr.tpc = s.sh.pc ∧ t.sh.spr.tcause = BitVec.ofNat 64 (cause % 256) ∧
       t.sh.spr.tval = tval ∧ t.sh.spr.faddr = fa ∧ t.sh.spr.epos = BitVec.ofNat 64 (govern ty e) ∧ t.sh.spr.grpl = 0 ∧
       early t at_ ∧ ∀ j, e ≤ j → j < s.sh.spr.items ty → t.sh.getItem d ty j = s.sh.getItem d ty j
     let trims := fun (i : Instr) (at_ : Nat → Option Word) => Gives i s fun t =>
       Done s t ∧ t.eposZero ∧ t.sh.spr.aec = BitVec.ofNat 64 (govern ty e) ∧ early t at_ ∧
       ∀ j, e ≤ j → j < s.sh.spr.items ty → t.sh.getItem d ty j = s.tailItem d ty j
     let ends := fun (i : Instr) (at_ : Nat → Option Word) (tval : Word) =>
       ((trim = false ∨ ∀ j < e, on j = false) → stops i at_ tval) ∧ (trim = true → (∃ j < e, on j = true) → trims i at_)
     let ix : Word := BitVec.ofNat 64 (govern ty e)
     (∀ at_, at_ = (fun j => some (base + BitVec.ofNat 64 (ty.ew * j))) → fails none false at_ → base.toNat % ty.align = 0 →
       ends (.vld ty k trim d a disp) at_ ix) ∧
     (∀ at_, at_ = (fun j => some (base + BitVec.ofNat 64 j * s.xr x)) → fails none false at_ → base.toNat % ty.align = 0 →
       (s.xr x).toNat % ty.align = 0 → ends (.vlds ty k trim d a x disp) at_ ix) ∧
     (∀ at_, at_ = (fun j => some (base + BitVec.ofNat 64 (s.sh.elem c ty j))) → fails none true at_ → s.grp c ty →
       ends (.vldx ty k trim d a c disp) at_ ix) ∧
     (∀ at_, at_ = (fun j => if s.sh.elem c ty j < s.sh.spr.flat then some (base + BitVec.ofNat 64 (ty.ew * s.sh.elem c ty j))
         else none) → fails none true at_ → s.grp c ty → ty ≠ .fp4b → stops (.vwgath ty k d a b c disp) at_ ix) ∧
     (∀ at_, at_ = (fun j => some (s.xr a + BitVec.ofNat 64 (ty.ew * j))) → fails (some q) false at_ → s.resolve h = .ok q →
       (s.xr a).toNat % ty.align = 0 →
       ends (.tld ty k trim d a h) at_ (if cause = 0x14 then s.xr a + BitVec.ofNat 64 (ty.ew * e) else ix))) ∧
  (∀ (s u : State) (ty : Fmt) (k : VMask) (trim : Bool) (d c : VReg) (a x : XReg) (b : MReg) (disp : BitVec 32)
     (h : BitVec 12) (q : Tile), s.vecReady → s.grp d ty → s.sh.ahead = [] →
     let base := s.xr a + sext32 disp
     let after := fun (i : Instr) (tile : Option Tile) (gather : Bool) (at_ : Nat → Option Word) =>
       (∃ o ∈ s.sh.addrsOf ty k at_, o.isSome = true) →
       (s.settleW.bind fun w => w.interlock (touchOf ty gather (s.sh.addrsOf ty k at_) (tile.map Tile.handle))) = .ok u →
       exec i s = exec i u
     (base.toNat % ty.align = 0 → after (.vld ty k trim d a disp) none false (s.sh.vldAt ty base)) ∧
     (base.toNat % ty.align = 0 → (s.xr x).toNat % ty.align = 0 →
       after (.vlds ty k trim d a x disp) none false (s.sh.vldsAt base (s.xr x))) ∧
     (s.grp c ty → after (.vldx ty k trim d a c disp) none true (s.sh.vldxAt ty base c) ∧
       after (.vwgath ty k d a b c disp) none true (s.sh.vwgathAt ty base c)) ∧
     ((s.xr a).toNat % ty.align = 0 → s.resolve h = .ok q →
       after (.tld ty k trim d a h) (some q) false (s.sh.vldAt ty (s.xr a))))

/-- A vector store whose elements pass their checks hands the active elements, from EPOS on and in order, to stream V, each with its
bytes and where they go, and changes nothing else; an invalid block is written as an invalid one; `vst` and `vsts` hold later loads
of their range back, from the least byte to the greatest (R84, R203, R207, R233, R262, R269). An element is performed when a turn of
the stream comes to it: its bytes are then at their home, or in the tile, and nothing else changes; one whose line or tile unit a
copy engine owns waits (R204, R209); the increment of a `gadd` reaches its counter so (R343). A weight load of the sheet that has yet
to read a byte which the store would change reads first (R208). The model's readings it rests on: DEDUCED, log 16 and 98; DESIGN
CHOICE, log 4 and 67. -/
def Obligations.VectorStores : Prop :=
  (∀ (s : State) (ty : Fmt) (k : VMask) (d c : VReg) (a x : XReg) (disp : BitVec 32) (h : BitVec 12) (q : Tile)
    (keys : Nat → List Nat) (uc : Nat → Bool), s.vecReady → s.grp d ty →
    let ix := (List.range (s.sh.spr.below ty)).filter fun j => s.startItem ty ≤ j ∧ s.sh.maskBit k (govern ty j) = true
    let base := s.xr a + sext32 disp
    let bytes := fun j => leBytes ty.ew (if (s.sh.getItem d ty j).2 then (s.sh.getItem d ty j).1 else 0xFF)
    let goes := fun (at_ : Nat → Word) => ∀ j ∈ ix, s.heldAt .store (at_ j) ty.ew (keys j) ∧ (at_ j).toNat % ty.align = 0 ∧
      ∀ l, s.range .store (at_ j) ty.ew = .ok l → uc j = physUc l
    let done := fun (i : Instr) (at_ : Nat → Word) (locks : Bool) =>
      let far := decide (64 < (ix.flatMap fun j => (pageStarts (at_ j) ty.ew).map s.pageId).dedup.length)
      let els := ix.map fun j => (⟨.mem (uc j) ((keys j).zip (bytes j)),
        if locks then rangeOfAddrs ty.ew (ix.map fun j => (at_ j).toNat) else none⟩ : VStore)
      (s.weightsRead → (far = true → ∃ w, s.settleV = .ok w) → WDone i s els far) ∧
      ∀ u, far = false → s.settleFor (els.map VStore.to_) = .ok u →
        (∀ j ∈ ix, ∀ k ∈ keys j, u.owned (lineOf k) = false) → exec i s = exec i u
    (∀ at_, at_ = (fun j => base + BitVec.ofNat 64 (ty.ew * j)) → goes at_ → base.toNat % ty.align = 0 →
      done (.vst ty k d a disp) at_ true) ∧
    (∀ at_, at_ = (fun j => base + BitVec.ofNat 64 j * s.xr x) → goes at_ → base.toNat % ty.align = 0 →
      (s.xr x).toNat % ty.align = 0 → done (.vsts ty k d a x disp) at_ true) ∧
    (∀ at_, at_ = (fun j => base + BitVec.ofNat 64 (s.sh.elem c ty j)) → goes at_ → s.grp c ty →
      done (.vstx ty k d a c disp) at_ false) ∧
    (s.resolve h = .ok q → (s.xr a).toNat % ty.align = 0 →
      (∀ j ∈ ix, (s.xr a).toNat + ty.ew * (j + 1) ≤ q.rows * q.rb ∧ q.rows * q.rb < 2 ^ 64 ∧
        s.tileBusy q ((s.xr a).toNat + ty.ew * j) ty.ew = false) → s.weightsRead →
      WDone (.tst ty k d a h) s (ix.map fun j => ⟨.tile h ((s.xr a).toNat + ty.ew * j) (bytes j), none⟩) false)) ∧
  (∀ (s : State) (l : List VStore) (lock : Option (Nat × Nat)), s.Inv →
    (∀ uc kvs, s.sh.vq = ⟨.mem uc kvs, lock⟩ :: l →
      ((∀ e ∈ kvs, s.owned (lineOf e.1) = false) → let t := s.storesTurn 1
        Written s t kvs ∧ t.AtHome (kvs.map Prod.fst) ∧ OnlyMem s t ∧ t.sh = { s.sh with vq := l, vdone := s.sh.vdone + 1 } ∧
        t.core.tlb = s.core.tlb) ∧
      ((∃ e ∈ kvs, s.owned (lineOf e.1) = true) → s.storesTurn 1 = s)) ∧
    (∀ h off bytes q, s.sh.vq = ⟨.tile h off bytes, lock⟩ :: l → s.tile? h = some q → q.data.wf = true →
      (s.tileBusy q off bytes.length = false → let t := s.storesTurn 1
        { t with sh := s.sh, tiles := s.tiles } = s ∧ t.sh = { s.sh with vq := l, vdone := s.sh.vdone + 1 } ∧
        ∃ m : Memory, t.tiles = s.tiles.map (fun r => if r.same q then { r with data := m } else r) ∧
          ∀ o, m.byte o = if off ≤ o ∧ o < off + bytes.length then bytes.getD (o - off) 0 else q.data.byte o) ∧
      (s.tileBusy q off bytes.length = true → s.storesTurn 1 = s)) ∧
    (∀ die ix inc, s.sh.vq = ⟨.gate die ix inc, lock⟩ :: l → let t := s.storesTurn 1
      { t with sh := s.sh, windows := s.windows } = s ∧ t.sh = { s.sh with vq := l, vdone := s.sh.vdone + 1 } ∧
      t.windows.length = s.windows.length ∧ ∀ p ∈ s.windows.zip t.windows, p.2 = { p.1 with ctr := p.2.ctr } ∧
        (¬ (p.1.drove = s.sh.droveId ∧ p.1.die = die) → p.2 = p.1) ∧
        (p.1.drove = s.sh.droveId → p.1.die = die → p.2.ctr = sparseSet p.1.ctr ix (sparseGet p.1.ctr ix + inc))) ∧
    (∀ (n : Nat) (r : List Turn), s.planted = [] → s.due = [] → s.agenda = .stores s.sh.place n :: r → s.sh.run ≠ .off →
      step s = .next (({ s with agenda := r } : State).storesTurn n)))

/-- `vamo` performs the stores of the sheet in flight, then applies its operator to memory element by element in index order, each
seeing what the ones before it wrote, and the group takes the old values (R203, R271). The model's readings it rests on: DEDUCED,
log 98. -/
def Obligations.VectorAtomics : Prop :=
  ∀ (s u : State) (op : RedOp) (ty : Fmt) (rnd : Rnd) (k : VMask) (d b : VReg) (a : XReg) (disp : BitVec 32)
    (keys : Nat → List Nat), s.vecReady → s.Inv → ty.isNum = true → s.sh.spr.epos = 0 → s.grp d ty → s.grp b ty →
    s.apart d b → s.weightsRead → s.settleV = .ok u →
    let ix := (List.range s.sh.spr.aecn).filter fun j => s.sh.maskBit k j
    let va := fun j => s.xr a + sext32 disp + BitVec.ofNat 64 (s.sh.elem b ty j)
    (∀ j ∈ ix, u.heldAt .rmw (va j) ty.ew (keys j) ∧ (va j).toNat % ty.align = 0) →
    (∀ i ∈ ix, ∀ j ∈ ix, keys i = keys j ∨ List.Disjoint ((keys i).map addrOf) ((keys j).map addrOf)) →
    ∃ old : Nat → Nat,
      let new := fun j => if op = .swap then (s.sh.elem d ty j, 0) else redStep op ty rnd false (old j) (s.sh.elem d ty j)
      (∀ j ∈ ix, old j = match (ix.filter fun i => i < j ∧ keys i = keys j).getLast? with
        | some i => (new i).1 % 2 ^ ty.width
        | none => leNat ((keys j).map u.view)) ∧
      Gives (.vamo op ty rnd k d a b disp) s fun t => Done s t ∧ t.eposZero ∧
        Written u t (ix.flatMap fun j => (keys j).zip (leBytes ty.ew (new j).1)) ∧
        (∀ j < s.sh.spr.flat, t.sh.getItem d ty j = s.policy d ty k 0 (fun j => (old j, true)) j) ∧ OutsideGroup s t d ty ∧
        t.sh.spr.fstat = s.sh.spr.fstat ||| (s.flagsOf ty k 0 fun j => (new j).2).zeroExtend 64 ∧
        OnlyMem u t ∧ u.sh.moved t.sh = s.sh.vecBack t.sh

/-- `vassay` decodes one value per element below AEC from the bytes at xA: base-128 numbers lowest digit first, zigzag numbers,
or fields of w bits; with delta each is the running sum from xB. xC takes the bytes used (R278, R279). The model's readings
it rests on: DEDUCED, log 98. -/
def Obligations.Assay : Prop :=
  ∀ (s : State) (mode : Fin 3) (delta : Bool) (w : BitVec 6) (ty : Fmt) (d : VReg) (a b c : XReg) (byte : Nat → Nat)
    (pos : Nat → Nat) (raw run : Nat → Nat), s.vecReady →
    s.loadsSettled (touchOf .n8 false (assayAddrs (s.xr a) (assayBytes mode (assayW w) s.sh.spr.aecn)) none) → ty.isInt = true → s.grp d ty → s.sh.spr.epos = 0 →
    let n := s.sh.spr.aecn
    let W := if w = 0 then 64 else w.toNat
    let used := if mode = 2 then (pos n + 7) / 8 else pos n
    (∀ j < used, s.readElem (s.xr a + BitVec.ofNat 64 j) 1 = .val (byte j) ∧
      s.elemBusy (s.xr a + BitVec.ofNat 64 j) 1 = false ∧ byte j < 256) →
    pos 0 = 0 → run 0 = (s.xr b).toNat →
    (∀ i < n, run (i + 1) = if delta then (run i + raw i) % 2 ^ 64 else raw i) →
    (∀ i < n, if mode = 2 then
        pos (i + 1) = pos i + W ∧ raw i = (Finset.range W).sum fun q =>
          if (byte ((pos i + q) / 8)).testBit ((pos i + q) % 8) then 2 ^ q else 0
      else ∃ z last, last ≤ 9 ∧ pos (i + 1) = pos i + last + 1 ∧ (∀ q < last, 128 ≤ byte (pos i + q)) ∧
        (last < 9 → byte (pos i + last) < 128) ∧
        z = ((Finset.range (last + 1)).sum fun q => byte (pos i + q) % 128 * 2 ^ (7 * q)) % 2 ^ 64 ∧
        raw i = if mode = 1 then (if z % 2 = 0 then z / 2 else 2 ^ 64 - 1 - z / 2) else z) →
    Gives (.vassay mode delta w ty d a b c) s fun t => Done s t ∧ t.eposZero ∧ XIs s t c (BitVec.ofNat 64 used) ∧
      (∀ j < s.sh.spr.flat, t.sh.getItem d ty j =
        if j < n then (run (j + 1) % 2 ^ ty.width, true) else s.tailItem d ty j) ∧ OutsideGroup s t d ty ∧
      { t with sh := s.sh } = s ∧ s.sh.moved t.sh = { s.sh.vecBack t.sh with x := s.sh.x }

/-- `gadd` hands stream V an increment for each active element, in order; once they are performed, the counter of each index has grown
as often as the index occurs. `gsnap` reads counters and zeroes them, and `gslot` takes a number below its limit, both after the
stores and increments of the sheet in flight (R202); an index past the window traps 0x14 with the element or the operand in TVAL.
EPOS stays as it is (R343 to R346, R365 to R367). The model's readings it rests on: DEDUCED, log 16 and 65. -/
def Obligations.GateCounters : Prop :=
  ∀ (s u : State) (ty : Fmt) (k : VMask) (d a : VReg) (x y z r : XReg) (b : XSrc) (w : Window), s.vecReady →
    s.settleV = .ok u → (∀ q ∈ s.windows, (q.ctr.map Prod.fst).Pairwise (· < ·)) →
    let n := s.sh.spr.aecn
    let mine := fun (die : Nat) (q : Window) => q.drove = s.sh.droveId ∧ q.die = die
    let here := s.sh.spr.gDie
    let act := (List.range n).filter fun i => s.sh.active k i
    let ctr := fun (t : State) (die : Nat) => sparseGet (t.windowOf die).ctr
    let only := fun (t : State) (die : Nat) => { t with sh := u.sh, windows := u.windows } = u ∧
      t.windows.map (fun q => if mine die q then { q with ctr := [] } else q) =
        u.windows.map (fun q => if mine die q then { q with ctr := [] } else q)
    (s.windowOf here = w → s.grp a ty →
      ((∀ i ∈ act, s.sh.elem a ty i < w.len) → Gives (.gadd ty k a b) s fun t => Done s t ∧
        t.sh.vq = s.sh.vq ++ act.map (fun i => ⟨.gate here (s.sh.elem a ty i) (s.xsrc b), none⟩) ∧
        OnlyOf s t (fun h => { h with vq := s.sh.vq }) ∧
        ∃ v, t.settleV = .ok v ∧ only { v with sh := u.sh } here ∧ ∀ c < w.len, ctr v here c =
          ctr u here c + BitVec.ofNat 64 (act.filter fun i => s.sh.elem a ty i = c).length * s.xsrc b) ∧
      (∀ i ∈ act, w.len ≤ s.sh.elem a ty i → (∀ j ∈ act, j < i → s.sh.elem a ty j < w.len) →
        Traps (.gadd ty k a b) s 0x14 (BitVec.ofNat 64 i) 0)) ∧
    (s.windowOf here = w → s.grp d .n64 → (∃ q ∈ s.windows, mine here q) → (s.xr x).toNat + n ≤ w.len →
      Gives (.gsnap d x) s fun t => Done s t ∧ only t here ∧
        (∀ j < s.sh.spr.flat, t.sh.getItem d .n64 j = if j < n then ((ctr u here ((s.xr x).toNat + j)).toNat, true)
          else s.tailItem d .n64 j) ∧ OutsideGroup s t d .n64 ∧
        (∀ c, ctr t here c = if (s.xr x).toNat ≤ c ∧ c < (s.xr x).toNat + n then 0 else ctr u here c) ∧
        u.sh.moved t.sh = { s.sh.vecBack t.sh with spr := t.sh.spr }) ∧
    (s.windowOf here = w → s.grp d .n64 → w.len < (s.xr x).toNat + n → Traps (.gsnap d x) s 0x14 (s.xr x) 0) ∧
    (∀ die, die = s.sh.spr.lPkg * nDies s.sh.spr.drove + fld (s.xr x) 32 3 → s.windowOf die = w → w ∈ s.windows →
      s.xr x &&& ~~~(0x700000FFF#64) = 0#64 → fld (s.xr x) 32 3 < nDies s.sh.spr.drove → fld (s.xr x) 0 12 < w.len →
      let v := ctr u die (fld (s.xr x) 0 12)
      Gives (.gslot z x r y) s fun t => Done s t ∧ only t die ∧ OnlyOf { u with windows := t.windows } t
          (fun h => { h with x := s.sh.x }) ∧
        (v.toNat < (s.xr y).toNat → XIs s t z v ∧
          ∀ c, ctr t die c = if c = fld (s.xr x) 0 12 then v + 1 else ctr u die c) ∧
        ((s.xr y).toNat ≤ v.toNat → XIs s t z (BitVec.allOnes 64) ∧ ∀ c, ctr t die c = ctr u die c)) ∧
    (∀ die, die = s.sh.spr.lPkg * nDies s.sh.spr.drove + fld (s.xr x) 32 3 →
      s.xr x &&& ~~~(0x700000FFF#64) ≠ 0#64 ∨ nDies s.sh.spr.drove ≤ fld (s.xr x) 32 3 ∨
        (s.windowOf die).len ≤ fld (s.xr x) 0 12 → Traps (.gslot z x r y) s 0x14 (s.xr x) 0)

/-- `vappend` reserves room for the active elements at TAIL, writes xB + index into the entries below CAP, counts TAIL on, and
passes DONE over the reservation when it is the next one; past CAP it marks OVER. With no active element it only reads TAIL.
A header that is not well-formed traps 0x14. The stores of the sheet in flight are performed first (R203, R361 to R363). The model's
readings it rests on: DEDUCED, log 80 and 81. -/
def Obligations.Append : Prop :=
  ∀ (s u : State) (ty : Fmt) (k : VMask) (d a b : XReg) (l : List Phys) (keys : Nat → List Nat), s.Inv →
    ty = .n32 ∨ ty = .n64 → s.weightsRead → s.settleV = .ok u →
    let va := s.xr a
    let hk := physKeys l
    let hb := hk.map u.view
    let f := fun o n => leNat ((hb.drop o).take n)
    let act := (List.range s.sh.spr.aecn).filter fun i => s.sh.active k i
    let n := act.length
    let cap := f 8 8
    let tail := f 16 8
    va.toNat % 64 = 0 → s.held va 64 → s.range .store va 64 = .ok l → s.firstPoison l = none →
    (∀ q ∈ hk, s.owned (lineOf q) = false) →
    let ok := (∀ q ∈ hb.drop 48, q = 0#8) ∧ f 44 4 < 8 ∧ f 0 8 % ty.ew = 0
    let done := f 24 8
    let moved := if done = tail then (tail + n) % 2 ^ 64 else done
    let entry := fun j => BitVec.ofNat 64 (f 0 8 + (tail + j) % 2 ^ 64 * ty.ew)
    let room := (List.range n).filter fun j => (tail + j) % 2 ^ 64 < cap
    (ok → act = [] → Gives (.vappend ty k d a b) s fun t => Done s t ∧ XIs s t d (BitVec.ofNat 64 tail) ∧ Written u t [] ∧
      OnlyMem u t ∧ u.sh.moved t.sh = { t.sh with x := s.sh.x }) ∧
    (ok → act ≠ [] → (∀ j ∈ room, u.heldAt .store (entry j) ty.ew (keys j)) →
      (∀ r ∈ s.reserves, r.hdr ≠ hk.headD 0) →
      (s.reserves.filter fun r => r.unit = homeDie (lineOf (hk.headD 0))).length < 64 →
      (f 32 8 = 0 ∨ f 44 4 % 2 = 1 ∨ f 32 8 ≤ done ∨ moved < f 32 8) →
      Gives (.vappend ty k d a b) s fun t => Done s t ∧ XIs s t d (BitVec.ofNat 64 tail) ∧ OnlyMem { u with reserves := t.reserves } t ∧
        Written u t (room.flatMap (fun j => (keys j).zip (leBytes ty.ew (s.xr b + BitVec.ofNat 64 (act.getD j 0)).toNat)) ++
          hk.zip (hb.take 16 ++ leBytes 8 (tail + n) ++ leBytes 8 moved ++ (hb.drop 32).take 12 ++
            leBytes 4 (if cap < tail + n then f 44 4 ||| 2 else f 44 4) ++ hb.drop 48)) ∧
        u.sh.moved t.sh = { t.sh with x := s.sh.x }) ∧
    (¬ ok → exec (.vappend ty k d a b) s = .next (u.takeTrap 0x14 va va s.sh.pc))

/-- `replay` reads its body first: a word of class 0x2 other than `nop`, of class 0xE, or another `replay` traps 0x01 with its
place in TVAL; a count that is not positive passes the body; else the loop begins at the body's first slot (R175, R176). Of the lines
it reads, the one of its own slot and the next are kept (R50), and the translations used. The model's readings it rests on: DEDUCED,
log 24. -/
def Obligations.ReplayLoops : Prop :=
  ∀ (s u : State) (a : XReg) (k : BitVec 6) (ws : List IWord), 1 ≤ k.toNat → k.toNat ≤ 32 → rpAct s.sh.spr.rpst = false →
    s.slotWords (slotIndex s.sh.pc + 1) k.toNat = .ok (ws, u) →
    let slot := fun n : Nat => Word.ofInt (pcOfSlot (slotIndex s.sh.pc + 1 + n))
    let bad := fun (w : IWord) => (w.extractLsb' 92 4 = 2#4 ∧ w ≠ 0x200000000000000000000000#96) ∨ w.extractLsb' 92 4 = 0xE#4 ∨
      w.extractLsb' 80 16 = 0x4004#16
    (∀ j < k.toNat, bad (ws.getD j 0) → (∀ i < j, ¬ bad (ws.getD i 0)) →
      exec (.replay a k) s = .next (u.takeTrap 0x01 (BitVec.ofNat 64 (j + 1)) 0 s.sh.pc)) ∧
    ((∀ j < k.toNat, ¬ bad (ws.getD j 0)) →
      ((s.xr a).toInt ≤ 0 → Gives (.replay a k) s fun t => t.sh.run = .ready ∧ t.sh.pc = slot k.toNat ∧ t.eposZero ∧
        t.sh.spr.rpst = s.sh.spr.rpst ∧ t.sh.lines = u.sh.lines) ∧
      (0 < (s.xr a).toInt → Gives (.replay a k) s fun t => t.sh.run = .ready ∧ t.sh.pc = slot 0 ∧ t.eposZero ∧
        rpLen t.sh.spr.rpst = k.toNat ∧ rpReg t.sh.spr.rpst = a.val ∧ rpPos t.sh.spr.rpst = 0 ∧
        rpDrives t.sh.spr.rpst = true ∧ t.sh.rbuf = ws ∧ { t with sh := u.sh } = u ∧
        { u.sh with pc := t.sh.pc, ahead := t.sh.ahead, irq := t.sh.irq, run := t.sh.run, rbuf := t.sh.rbuf, spr := t.sh.spr } = t.sh ∧
        { t.sh.spr with rpst := s.sh.spr.rpst, epos := s.sh.spr.epos, grpl := s.sh.spr.grpl } = s.sh.spr)) ∧
    { u with sh := { u.sh with lines := s.sh.lines, tlb := s.sh.tlb }, core := { u.core with tlb := s.core.tlb } } = s ∧
    (∀ ln ∈ s.sh.lines, ln.near s.sh.pc = true → ∃ l ∈ u.sh.lines, l.addr = ln.addr) ∧
    ∀ j < k.toNat, ∀ pc, pc = Word.ofInt (pcOfSlot (slotIndex s.sh.pc + 1 + j)) →
      lineAddr pc = lineAddr s.sh.pc ∨ lineAddr pc = lineAddr s.sh.pc + 64 →
      (u.sh.lineAt pc).map (fun l => l.word (slotOf pc)) = some (ws.getD j 0)

/-- `ostrm` sets a stream's base, stride and format and its place to zero; `bind` ties it to a register and `unbind` frees it; a
read of the bound group then takes the slot the Outrider filled, and the stream moves on by AEC (R273 to R277). The model's
readings it rests on: DEDUCED, log 30. -/
def Obligations.Streams : Prop :=
  ∀ (s : State) (ty : Fmt) (o : OReg) (a b : XReg) (disp : BitVec 32) (v d : VReg),
    let base := s.xr a + sext32 disp
    let old := s.sh.o[o.val]
    let others := fun (t : State) => ∀ q : OReg, q ≠ o → t.sh.o[q.val] = s.sh.o[q.val]
    let frame := fun (t : State) => OnlyOf s t fun k => { k with
      o := s.sh.o, bslots := s.sh.bslots, spr := { k.spr with epos := s.sh.spr.epos, grpl := s.sh.spr.grpl } }
    let same := fun (p q : BitVec 256) (lo hi : Nat) => ∀ j, lo ≤ j → j < hi → p.getLsbD j = q.getLsbD j
    (osBound old = false → base.toNat % min ty.ew 8 = 0 → (s.xr b).toNat % min ty.ew 8 = 0 →
      Gives (.ostrm ty o a b disp) s fun t => Done s t ∧ t.eposZero ∧ frame t ∧ others t ∧ t.sh.bslots = s.sh.bslots ∧
        osBase t.sh.o[o.val] = base ∧ osStride t.sh.o[o.val] = s.xr b ∧ osFmt t.sh.o[o.val] = some ty ∧
        osNext t.sh.o[o.val] = 0 ∧ same t.sh.o[o.val] old 136 192) ∧
    (osBound old = true → Traps (.ostrm ty o a b disp) s 0x01 0 0) ∧
    (osBound old = false → wfld old 128 8 ≠ 0 → v.val < s.sh.spr.nreg →
      (∀ q : OReg, osBound s.sh.o[q.val] = true → osReg s.sh.o[q.val] ≠ v.val) →
      Gives (.bind v o) s fun t => Done s t ∧ t.eposZero ∧ frame t ∧ others t ∧ t.sh.bslots[o.val] = [] ∧
        osBound t.sh.o[o.val] = true ∧ osReg t.sh.o[o.val] = v.val ∧ same t.sh.o[o.val] old 0 136 ∧
        same t.sh.o[o.val] old 144 256) ∧
    (Gives (.unbind o) s fun t => Done s t ∧ t.eposZero ∧ frame t ∧ others t ∧ t.sh.bslots[o.val] = [] ∧
        osBound t.sh.o[o.val] = false ∧ same t.sh.o[o.val] old 0 143 ∧ same t.sh.o[o.val] old 144 256) ∧
    (∀ (m : VMod) (sl : BSlot) (rest : List BSlot) (f : Nat → Nat), vcfgOk s.sh.spr.vcfg = true →
      vlAecOk s.sh.spr.rc s.sh.spr.vln s.sh.spr.aecn = true → s.sh.vstore.wf = true → s.sh.spr.epos = 0 → m.ty.isNum = true →
      s.grp d m.ty → s.grp v m.ty → s.apart d v → osBound old = true → osReg old = v.val → osFmt old = some m.ty →
      (∀ q : OReg, q ≠ o → osBound s.sh.o[q.val] = false) → s.sh.bslots[o.val] = sl :: rest →
      sl.start = osNext old → sl.count = s.sh.spr.aecn → sl.taken = false → sl.elems = (List.range sl.count).map (fun j => .val (f j)) →
      Gives (.vmov m d (.reg v)) s fun t => Done s t ∧ t.eposZero ∧ others t ∧ t.sh.bslots[o.val] = rest ∧
        osNext t.sh.o[o.val] = (osNext old + s.sh.spr.aecn) % 2 ^ 48 ∧
        (∀ j < s.sh.spr.aecn, t.sh.getItem v m.ty j = (f j % 2 ^ m.ty.width, true)) ∧
        ∀ j < s.sh.spr.flat, t.sh.getItem d m.ty j = s.policy d m.ty m.mask 0 (fun j => (f j, true)) j)

/-- `dset` replaces one field of a descriptor and `dshape` reads one of a checked descriptor; at completion an array instruction
leaves RANK, SHAPE, dense strides and COUNT of its result in the destination's descriptor and keeps the rest (R14, R98 to
R101). The model's readings it rests on: DEDUCED, log 51 and 105. -/
def Obligations.Descriptors : Prop :=
  (∀ (s : State) (d : DReg) (a : XReg) (n : Fin 20), ∃ v, (Gives (.dset d a n) s fun t => Done s t ∧ t.sh.d = s.sh.d.set d.val v ∧
      OnlyOf s t fun k => { k with d := s.sh.d }) ∧
    wfld v (dField n.val).1 (dField n.val).2 = (s.xr a).toNat % 2 ^ (dField n.val).2 ∧
    ∀ j < 1024, j < (dField n.val).1 ∨ (dField n.val).1 + (dField n.val).2 ≤ j → v.getLsbD j = s.sh.d[d.val].getLsbD j) ∧
  (∀ (s : State) (x : XReg) (a : DReg) (axis : BitVec 3) (r : Arr) (k : Nat), s.srcD 1 a (fun _ => true) = .ok r →
    let v := s.sh.d[a.val]
    (k < r.shape.length → axis.toNat = k ∨ (axis = 7#3 ∧ k + 1 = r.shape.length) →
      XDone (.dshape x a 0 axis) s x (BitVec.ofNat 64 (dShape v k))) ∧
    XDone (.dshape x a 1 axis) s x (BitVec.ofNat 64 (dRank v)) ∧
    XDone (.dshape x a 2 axis) s x (BitVec.ofNat 64 (dShapes v).prod) ∧
    XDone (.dshape x a 3 axis) s x (BitVec.ofNat 64 (dCap v)) ∧
    XDone (.dshape x a 4 axis) s x (BitVec.ofNat 64 (dCount v))) ∧
  (∀ (d : BitVec 1024) (shape : List Nat) (count : Nat), shape.length ≤ 6 → (∀ n ∈ shape, n < 2 ^ 32) → count < 2 ^ 64 →
    let v := resultDesc d shape count
    dRank v = shape.length ∧ dShapes v = shape ∧ dCount v = count ∧ dBase v = dBase d ∧ dKind v = dKind d ∧
      dFmt v = dFmt d ∧ dFlags v = dFlags d ∧ dHandle v = dHandle d ∧ dCap v = dCap d ∧
      (∀ k < shape.length, (shape.drop (k + 1)).prod < 2 ^ 31 → dStride v k = ((shape.drop (k + 1)).prod : Nat)) ∧
      ∀ k, shape.length ≤ k → k < 6 → dShape v k = 0 ∧ dStride v k = 0)

/-- `amap` applies its function to the operands' elements, frames and cells agreeing, and rounds once to the destination; a
source may be the destination itself. `aouter` applies a function of two over every pair of frames (R104, R109 to R111,
R119, R134). One element of each function of R109: integer functions as the vector class computes them and moved to the
destination's format, float functions computed exactly and rounded once, comparisons giving 1 or 0, sums of ingots exact; in the
operation format `fmin`, `fmax`, `fabs` and `fneg` are untouched by SAT, as those of the vector class are (R109, R111). The bytes are
as stream V sees them, its stores in flight performed (R121, R203). The model's readings it rests on: DEDUCED, log 16, 17, 18, 21, 47, 48 and
115. -/
def Obligations.ArrayMapsAndFunctions : Prop :=
  (∀ (s : State) (f : MapFn) (d a : DReg) (xr yr : BitVec 3) (rnd : Rnd) (sat : Bool) (x dd : Arr) (rest : List (Nat × Arr))
     (dst : Nat → List Cell) (u : Nat → Nat → Nat), s.arrFresh →
     s.srcD 1 a (mapOpFmt f) = .ok x → s.srcDs (mapArgs f x.t) = .ok rest → s.dstD d sat (mapDstFmt f) = .ok dd →
     let px := splitRank x.shape xr
     let ops := x :: rest.map Prod.snd
     let parts := px :: rest.map fun q => splitRank q.2.shape yr
     (∀ (F C : List Nat), agreeAll s 0 px.1 (parts.tail.map Prod.fst) = .ok F →
       agreeAll s F.length px.2 (parts.tail.map Prod.snd) = .ok C → F.length + C.length ≤ 6 →
       let n := prodL (F ++ C)
       let at_ := fun i => (ops.zip parts).map fun q => (q.1, q.1.off
         ((unravel (F ++ C) i).take q.2.1.length ++ ((unravel (F ++ C) i).drop F.length).take q.2.2.length))
       s.fitsD dd n = .ok () → overlapE s dd n (((1, x) :: rest).filter fun q => !alias_ dd (F ++ C) q.2) = .ok () →
       s.ArrReady dd n dst (fun i => if i < n then at_ i else []) →
       (∀ i < n, ∀ k < ops.length, s.ElemIs ((at_ i).getD k (x, 0)).1 ((at_ i).getD k (x, 0)).2 (u i k)) →
       (∀ i < n, ∀ k, ops.length ≤ k → u i k = 0) →
       ArrDone (.amap f d a xr yr rnd sat) s d dd dst (F ++ C)
         (fun i => mapEl f x.t dd.t rnd sat (u i 0) (u i 1) (u i 2))) ∧
     (∀ (y : Arr) (C : List Nat), rest = [(2, y)] →
       let py := splitRank y.shape yr
       let shape := px.1 ++ py.1 ++ C
       let n := prodL shape
       let ix := fun i => (unravel shape i)
       let c := fun i => (ix i).drop (px.1.length + py.1.length)
       let xo := fun i => x.off ((ix i).take px.1.length ++ (c i).take px.2.length)
       let yo := fun i => y.off (((ix i).drop px.1.length).take py.1.length ++ (c i).take py.2.length)
       agreeE s (px.1.length + py.1.length) px.2 py.2 = .ok C → resultD s dd shape [(1, x), (2, y)] = .ok () →
       s.ArrApart dd n dst ((List.range n).flatMap fun i => [(x, xo i), (y, yo i)]) →
       (∀ i < n, s.ElemIs x (xo i) (u i 0) ∧ s.ElemIs y (yo i) (u i 1)) →
       ArrDone (.aouter f d a xr yr rnd sat) s d dd dst shape (fun i => mapEl f x.t dd.t rnd sat (u i 0) (u i 1) 0))) ∧
  (∀ (o t : Fmt) (r : Rnd) (sat : Bool) (x y z : Nat) (e g : DReg) (c : Cond),
     let round := fun (q : FVal × Flags) => ((fround t r sat q.1).1, q.2 ||| (fround t r sat q.1).2)
     let fit := fun z : Int => ((if sat then max (intMin o) (min z (intMax o)) else z) % (2 ^ o.width : Nat)).toNat
     (o.isInt = true → t.isInt = true → x < 2 ^ o.width → y < 2 ^ o.width →
       let into := fun v : Nat => if o = t then (v, 0) else
         (((if sat then max (intMin t) (min (ival o v) (intMax t)) else ival o v) % (2 ^ t.width : Nat)).toNat, (0 : Flags))
       let w := o.width
       let wrap := fun z : Int => (z % (2 ^ w : Nat)).toNat
       mapEl (.bin .add e) o t r sat x y z = into (fit (ival o x + ival o y)) ∧
       mapEl (.bin .sub e) o t r sat x y z = into (fit (ival o x - ival o y)) ∧
       mapEl (.bin .mul e) o t r sat x y z = into (fit (ival o x * ival o y)) ∧
       mapEl (.bin .and e) o t r sat x y z = into (x &&& y) ∧ mapEl (.bin .or e) o t r sat x y z = into (x ||| y) ∧
       mapEl (.bin .xor e) o t r sat x y z = into (x ^^^ y) ∧
       mapEl (.bin .mulh e) o t r sat x y z = into (wrap (ival o x * ival o y / 2 ^ w)) ∧
       mapEl (.bin .div e) o t r sat x y z = into (wrap (if ival o y = 0 then -1 else (ival o x).tdiv (ival o y))) ∧
       mapEl (.bin .rem e) o t r sat x y z = into (wrap (if ival o y = 0 then ival o x else (ival o x).tmod (ival o y))) ∧
       mapEl (.bin .shl e) o t r sat x y z = into (x * 2 ^ (y % w) % 2 ^ w) ∧
       mapEl (.bin .shr e) o t r sat x y z = into (x / 2 ^ (y % w)) ∧
       mapEl (.bin .sar e) o t r sat x y z = into (wrap (toSigned w x / 2 ^ (y % w))) ∧
       mapEl (.bin .min e) o t r sat x y z = into (wrap (min (ival o x) (ival o y))) ∧
       mapEl (.bin .max e) o t r sat x y z = into (wrap (max (ival o x) (ival o y))) ∧
       mapEl (.un .abs) o t r sat x y z = into (fit |ival o x|) ∧ mapEl (.un .clz) o t r sat x y z = into (w - x.size) ∧
       mapEl (.un .popc) o t r sat x y z = into ((Finset.range w).filter fun n => x.testBit n = true).card ∧
       mapEl (.un .neg) o t r sat x y z = into (fit (-ival o x)) ∧ mapEl (.un .mov) o t r sat x y z = into x ∧
       mapEl (.sel e g) o t r sat x y z = into (if z = 0 then y else x) ∧
       mapEl (.cmp c e) o .n8 r sat x y z = (if iCondP c o x y then 1 else 0, 0)) ∧
     (o.isFloat = true →
       mapEl (.bin .fadd e) o t r sat x y z = round (fAdd r (fdecode o x) (fdecode o y)) ∧
       mapEl (.bin .fsub e) o t r sat x y z = round (fAdd r (fdecode o x) (fdecode o y).neg) ∧
       mapEl (.bin .fmul e) o t r sat x y z = round (fMul (fdecode o x) (fdecode o y)) ∧
       mapEl (.bin .fdiv e) o t r sat x y z = round (fDiv (fdecode o x) (fdecode o y)) ∧
       (let pick := fun (v : FVal) => fround t r (sat && o != t) v
        mapEl (.bin .fmin e) o t r sat x y z = pick (fMinMax false (fdecode o x) (fdecode o y)) ∧
        mapEl (.bin .fmax e) o t r sat x y z = pick (fMinMax true (fdecode o x) (fdecode o y)) ∧
        mapEl (.un .fabs) o t r sat x y z = pick (fdecode o x).abs ∧
        mapEl (.un .fneg) o t r sat x y z = pick (fdecode o x).neg) ∧
       mapEl (.un .frsqrt) o t r sat x y z = round (fRsqrt (fdecode o x)) ∧
       mapEl (.un .fexp2) o t r sat x y z = round (fExp2 (fdecode o x)) ∧
       mapEl (.un .flog2) o t r sat x y z = round (fLog2 (fdecode o x)) ∧
       mapEl (.un .mov) o t r sat x y z = (if o = t then (x, 0) else fround t r sat (fdecode o x)) ∧
       mapEl (.fma e g) o t r sat x y z = round (fFma r (fdecode o x) (fdecode o y) (fdecode o z)) ∧
       mapEl (.un .fsqrt) o t r sat x y z = round (fSqrt (fdecode o x)) ∧
       mapEl (.sel e g) o t r sat x y z = mapEl (.un .mov) o t r sat (if z = 0 then y else x) 0 0 ∧
       mapEl (.fcmp c e) o .n8 r sat x y z = (if fCond c (fdecode o x) (fdecode o y) then 1 else 0, 0)) ∧
     (mapEl (.un .mov) .ing t r sat x y z = (if t = .ing then (x, 0) else convert .ing t r sat x) ∧
       mapEl (.bin .add e) .ing .ing r sat x y z = ingAdd x y))

/-- `ared` rounds the elements of a line into the accumulating format and combines them in tree order, an empty line giving the
identity; `ascan` carries each line in the accumulating format, inclusive or exclusive, a segment flag beginning it again
(R90, R108, R112, R113). The model's readings it rests on: DEDUCED, log 49. -/
def Obligations.ArrayReductions : Prop :=
  ∀ (s : State) (op : RedOp) (excl : Bool) (sg : Option DReg) (d a : DReg) (xr axis : BitVec 3) (rnd : Rnd) (sat : Bool)
    (x dd : Arr) (ax : Nat) (dst : Nat → List Cell) (v : List Nat → Nat), s.arrFresh →
    s.srcD 1 a (redFmt op) = .ok x → axisE s 1 x.shape xr axis = .ok ax →
    (∀ ix ∈ (List.range (prodL x.shape)).map (unravel x.shape), s.ElemIs x (x.off ix) (v ix)) →
    let all := (List.range (prodL x.shape)).map fun i => (x, x.off (unravel x.shape i))
    let m := x.shape.getD ax 0
    (∀ shape, shape = x.shape.eraseIdx ax → s.dstD d sat (redDst op x.t) = .ok dd → s.fitsD dd (prodL shape) = .ok () →
      overlapE s dd (prodL shape) [(1, x)] = .ok () → s.ArrApart dd (prodL shape) dst all →
      ArrDone (.ared op d a xr axis rnd sat) s d dd dst shape fun i =>
        let line := (List.range m).map fun j => convert x.t dd.t rnd sat (v (insertAt (unravel shape i) ax j))
        let q := reduceL (redStep op dd.t rnd sat) false (line.map Prod.fst)
        if m = 0 then ((redIdent op dd.t).getD 0, 0) else (q.1, (line.foldl (fun f e => f ||| e.2) 0) ||| q.2)) ∧
    (∀ (g : Arr) (w : Nat → Nat) (carry : Nat → Nat × Flags), (sg = none ∨ ∃ r, sg = some r ∧ s.srcD 3 r Fmt.isInt = .ok g ∧
        sameShapeE s g.shape x.shape = .ok () ∧
        ∀ i < prodL x.shape, s.ElemIs g (g.off (unravel x.shape i)) (w i)) →
      s.dstD d sat (fun t => t != .ing && redDst op x.t t) = .ok dd → s.fitsD dd (prodL x.shape) = .ok () →
      overlapE s dd (prodL x.shape) (if sg = none then [(1, x)] else [(1, x), (3, g)]) = .ok () →
      s.ArrApart dd (prodL x.shape) dst (all ++ if sg = none then [] else
        (List.range (prodL x.shape)).map fun i => (g, g.off (unravel x.shape i))) →
      let inner := prodL (x.shape.drop (ax + 1))
      let starts := fun i => (unravel x.shape i).getD ax 0 = 0 ∨ (sg ≠ none ∧ w i ≠ 0)
      (∀ i < prodL x.shape, carry i = if starts i then scanFirst x.t dd.t rnd sat (v (unravel x.shape i))
        else scanStep op x.t dd.t rnd sat (carry (i - inner)).1 (v (unravel x.shape i))) →
      ArrDone (.ascan op excl sg d a xr axis rnd sat) s d dd dst x.shape fun i =>
        (if excl then (if starts i then (redIdent op dd.t).getD 0 else (carry (i - inner)).1) else (carry i).1, (carry i).2))

/-- The instructions that place source elements: rotation by a scalar or by an array, take and drop (zeros past the end, from
the end for a negative count), reshape (the source over again, zeros when it is empty), transpose, join, and selection by
index (R130 to R133, R137, R138). `afill` gives every element of a shape the low bits of xB and `aiota` the index along an
axis, rounded; both take the shape from a descriptor (R139, R140). -/
def Obligations.ArrayPlacement : Prop :=
  (∀ (s : State) (d a b : DReg) (xb : XReg) (xr axis : BitVec 3) (x y dd : Arr) (dst : Nat → List Cell) (v : List Nat → Nat)
     (w : List Nat → Nat), s.arrFresh → s.srcD 1 a (fun _ => true) = .ok x → s.dstD d false (· == x.t) = .ok dd →
     (∀ i < prodL x.shape, s.ElemIs x (x.off (unravel x.shape i)) (v (unravel x.shape i))) →
     let all := (List.range (prodL x.shape)).map fun i => (x, x.off (unravel x.shape i))
     let both := all ++ (List.range (prodL y.shape)).map fun i => (y, y.off (unravel y.shape i))
     let ys := fun (ok : Fmt → Bool) => s.srcD 2 b ok = .ok y ∧
       ∀ i < prodL y.shape, s.ElemIs y (y.off (unravel y.shape i)) (w (unravel y.shape i))
     let c := (s.xr xb).toInt
     let gives := fun i (srcs : List (Nat × Arr)) (reads : List (Arr × Int)) (shape : List Nat) (f : List Nat → Nat) =>
       resultD s dd shape srcs = .ok () → s.ArrApart dd (prodL shape) dst reads →
         ArrDone i s d dd dst shape fun i => (f (unravel shape i), 0)
     (∀ ax m, axisE s 1 x.shape xr axis = .ok ax → m = x.shape.getD ax 0 →
       gives (.arotScalar d a xb xr axis) [(1, x)] all x.shape
         (fun ix => v (ix.set ax (((ix.getD ax 0 + c) % (m : Int)).toNat))) ∧
       (ys Fmt.isInt → sameShapeE s y.shape (x.shape.eraseIdx ax) = .ok () →
         gives (.arotVector d a b xr axis) [(1, x), (2, y)] both x.shape
           (fun ix => v (ix.set ax (((ix.getD ax 0 + ival y.t (w (ix.eraseIdx ax))) % (m : Int)).toNat)))) ∧
       gives (.atake d a xb xr axis) [(1, x)] all (x.shape.set ax c.natAbs) (fun ix =>
         let k : Int := if c < 0 then ix.getD ax 0 + m + c else ix.getD ax 0
         if 0 ≤ k ∧ k < m then v (ix.set ax k.toNat) else 0) ∧
       gives (.adrop d a xb xr axis) [(1, x)] all (x.shape.set ax (m - c.natAbs))
         (fun ix => v (ix.set ax (ix.getD ax 0 + c.toNat)))) ∧
     (∀ shape, s.shapeOperand 2 b = .ok shape → gives (.areshape d a b) [(1, x)] all shape (fun ix =>
       if prodL x.shape = 0 then 0 else v (unravel x.shape (ravel shape ix % prodL x.shape)))) ∧
     (∀ perm, permOf x.shape.length (s.xr xb) = some perm →
       gives (.atrans d a xb) [(1, x)] all (perm.map fun k => x.shape.getD k 0)
         (fun ix => v ((List.range x.shape.length).map fun k => ix.getD (perm.idxOf k) 0))) ∧
     (∀ ax m, axisE s 1 x.shape 7 axis = .ok ax → m = x.shape.getD ax 0 →
       (ys Fmt.isInt → (∀ i < prodL y.shape, -(m : Int) ≤ ival y.t (w (unravel y.shape i)) ∧ ival y.t (w (unravel y.shape i)) < m) →
         gives (.afrom d a b axis) [(1, x), (2, y)] both (x.shape.take ax ++ y.shape ++ x.shape.drop (ax + 1)) (fun ix =>
           let j := ival y.t (w ((ix.drop ax).take y.shape.length))
           v (ix.take ax ++ (if j < 0 then j + m else j).toNat :: ix.drop (ax + y.shape.length)))) ∧
       (ys (· == x.t) → x.shape.length = y.shape.length → (∀ k, k ≠ ax → x.shape.getD k 0 = y.shape.getD k 0) →
         gives (.acat d a b axis) [(1, x), (2, y)] both (x.shape.set ax (m + y.shape.getD ax 0)) (fun ix =>
           if ix.getD ax 0 < m then v ix else w (ix.set ax (ix.getD ax 0 - m)))))) ∧
  (∀ (s : State) (d a : DReg) (b : XReg) (axis : BitVec 3) (rnd : Rnd) (sat : Bool) (shape : List Nat) (dd : Arr)
     (dst : Nat → List Cell), s.arrFresh → s.shapeOperand 1 a = .ok shape → resultD s dd shape [] = .ok () →
     s.ArrApart dd (prodL shape) dst [] →
     (s.dstD d false (· != .ing) = .ok dd →
       ArrDone (.afill d a b) s d dd dst shape fun _ => ((s.xr b).toNat % 2 ^ dd.t.width, 0)) ∧
     (∀ ax, s.dstD d sat (fun _ => true) = .ok dd → (shape = [] ∧ axis = 7#3 ∧ ax = 0 ∨ axisE s 1 shape 7 axis = .ok ax) →
       ArrDone (.aiota d a axis rnd sat) s d dd dst shape fun i =>
         let j := (unravel shape i).getD ax 0
         if dd.t.isInt then (((if sat then min (j : Int) (intMax dd.t) else (j : Int)) % (2 ^ dd.t.width : Nat)).toNat, 0)
         else fround dd.t rnd sat (FVal.ofInt j)))

/-- `agrade` writes each line's positions in stable order of their keys, rising or falling, NaNs above every number; a long line
also uses the destination's second half as scratch (R126 to R129). `asel` gathers, in order, the elements that a limit or a
mask selects and `acomp` the positions along an axis that a vector selects; xC takes the number found, what is past CAP is
counted and not written, and STATUS.SHORT then says so; a result axis past 32 bits traps 0x21 for reason 5 (R124, R135, R136). The
model's readings it rests on: DEDUCED, log 50 and 103. -/
def Obligations.ArrayGradesAndSelects : Prop :=
  (∀ (s : State) (dn : Bool) (d a : DReg) (xr axis : BitVec 3) (x dd : Arr) (ax : Nat) (dst : Nat → List Cell)
     (v : Nat → Nat), s.arrFresh → s.srcD 1 a (fun _ => true) = .ok x → s.dstD d false Fmt.isInt = .ok dd →
     axisE s 1 x.shape xr axis = .ok ax →
     let m := x.shape.getD ax 0
     let n := prodL x.shape
     let size := if m > 4096 then 2 * n else n
     let before := fun p q => if dn then keyLess x.t q p else keyLess x.t p q
     let line := fun i j => (unravel x.shape i).set ax j
     (m = 0 ∨ ((m - 1 : Nat) : Int) ≤ intMax dd.t) → s.fitsD dd size = .ok () → overlapE s dd size [(1, x)] = .ok () →
     s.ArrApart dd size dst ((List.range n).map fun i => (x, x.off (unravel x.shape i))) →
     (m > 4096 → ∀ i < size, s.CellsAt .load dd i (dst i)) →
     (∀ i < n, s.ElemIs x (x.off (unravel x.shape i)) (v (ravel x.shape (unravel x.shape i)))) →
     ∃ out : Nat → Nat, (∀ i < n, out i < m) ∧
       (∀ i < n, ∀ i' < n, line i 0 = line i' 0 → i < i' →
         let p := v (ravel x.shape (line i (out i)))
         let q := v (ravel x.shape (line i (out i')))
         before q p = false ∧ (before p q = true ∨ out i < out i')) ∧
       Gives (.agrade dn d a xr axis) s fun t => ArrSheet s t d x.shape n 0 id ∧
         ∃ w : Nat → Nat, (∀ i < n, w i = out i) ∧ ArrWrote s t dd size dst w) ∧
  (∀ (s : State) (d a b : DReg) (c l : XReg) (q : Fin 4) (axis : BitVec 3) (x y dd : Arr) (dst : Nat → List Cell)
     (v w : Nat → Nat), s.arrFresh → s.dstD d false (· == x.t) = .ok dd →
     (∀ i < prodL x.shape, s.ElemIs x (x.off (unravel x.shape i)) (v i)) →
     let all := (List.range (prodL x.shape)).map fun i => (x, x.off (unravel x.shape i))
     let roomy := s.insideTile dd.tile (extent dd.t.ew (baseInt dd.tile.isSome dd.base) [dd.cap] [1]) = true
     let done := fun i (found : List Nat) (shape : List Nat) =>
       let out := if dd.cap < found.length then [dd.cap] else shape
       ((∀ n ∈ out, n < 2 ^ 32) → Gives i s fun t =>
         ArrWrote s t dd (min found.length dd.cap) dst (fun j => found.getD j 0) ∧
         XIs s t c (BitVec.ofNat 64 found.length) ∧
         (t.sh.spr.status = if dd.cap < found.length then setFld s.sh.spr.status 4 1 1 else s.sh.spr.status) ∧
         ArrSheet s t d out found.length 0 fun k => { k with x := s.sh.x, spr := { k.spr with status := s.sh.spr.status } }) ∧
       ((∃ n ∈ out, 2 ^ 32 ≤ n) → Gives i s fun t => t.sh.pc = s.sh.spr.tvec ∧ t.sh.spr.tpc = s.sh.pc ∧
         t.sh.spr.tcause = 0x21 ∧ t.sh.spr.tval = 0x500)
     let ready := fun (srcs : List (Nat × Arr)) (reads : List (Arr × Int)) =>
       roomy ∧ overlapE s dd (min (prodL x.shape) dd.cap) srcs = .ok () ∧
         s.ArrApart dd (min (prodL x.shape) dd.cap) dst reads
     let pick := fun (p : Nat → Bool) => ((List.range (prodL x.shape)).filter p).map v
     (s.srcD 1 a (fun t => t != .ing) = .ok x → ready [(1, x)] all →
       ∀ found, found = pick (fun i => let lim := (s.xr l).toNat % 2 ^ x.t.width
         if x.t.isInt then iCondP (selCond q) x.t (v i) lim else fCond (selCond q) (fdecode x.t (v i)) (fdecode x.t lim)) →
       done (.asel (.lim q l) d a c) found [found.length]) ∧
     (s.srcD 1 a (fun _ => true) = .ok x → s.srcD 2 b Fmt.isInt = .ok y → sameShapeE s y.shape x.shape = .ok () →
       (∀ i < prodL x.shape, s.ElemIs y (y.off (unravel y.shape i)) (w i)) →
       ready [(1, x), (2, y)] (all ++ (List.range (prodL x.shape)).map fun i => (y, y.off (unravel y.shape i))) →
       ∀ found, found = pick (fun i => w i != 0) → done (.asel (.mask b) d a c) found [found.length]) ∧
     (∀ ax m, s.srcD 1 a (fun _ => true) = .ok x → s.srcD 2 b Fmt.isInt = .ok y → axisE s 1 x.shape 7 axis = .ok ax →
       m = x.shape.getD ax 0 → sameShapeE s y.shape [m] = .ok () → (∀ j < m, s.ElemIs y (y.off [j]) (w j)) →
       ready [(1, x), (2, y)] (all ++ (List.range m).map fun j => (y, y.off [j])) →
       ∀ found, found = pick (fun i => w ((unravel x.shape i).getD ax 0) != 0) →
       done (.acomp d a b c axis) found (x.shape.set ax ((List.range m).filter fun j => w j != 0).length)))

/-- `mset` grants MM, MN and MK and writes them to MSHAPE and the three registers, D first; `mzero` clears an accumulator, and
one that is in use stops it by trap 0x40 with the token; `kpoll` reads a token; `kwait` waits for a pending token, frees a
complete one with its flags and resources, no cut's token any more, and traps with a recorded fault once the token is idle (R304,
R307, R314, R318, R324, R339). The model's readings it rests on: DEDUCED, log 68, 73, 74 and 79. -/
def Obligations.MatrixTokens : Prop :=
  ∀ (s : State) (ty : Fmt) (d a b x : XReg) (z : ZReg) (k : KReg),
    let w := fun v : Nat => BitVec.ofNat 64 v
    let kmax := if ty = .f32 then 64 else if ty = .bf16 then 128 else 256
    let tok := s.sh.k[k.val]
    let mine : Use := some (s.pos, k)
    let freed := fun (t : State) =>
      (∀ r : ZReg, t.core.zuse[r.val] = if s.core.zuse[r.val] = mine then none else s.core.zuse[r.val]) ∧
      (∀ r : WReg, t.core.wuse[r.val] = if s.core.wuse[r.val] = mine then none else s.core.wuse[r.val]) ∧
      (∀ r : Fin 2, t.core.suse[r.val] = if s.core.suse[r.val] = mine then none else s.core.suse[r.val]) ∧
      (∀ r : KReg, t.sh.ctok.getLsbD r.val = (s.sh.ctok.getLsbD r.val && r != k)) ∧
      t.sh.k = s.sh.k.set k.val ⟨.idle, 0, 0, 0⟩ ∧ t.sh.spr.fstat = s.sh.spr.fstat ||| tok.flags.zeroExtend 64
    let cback := fun c : Core => { c with zuse := s.core.zuse, wuse := s.core.wuse, suse := s.core.suse }
    (∀ m n kk, m = min (min (s.xr d).toNat 64) (2 ^ fld s.sh.spr.vcfg 5 3) → n = min (s.xr a).toNat 64 →
      kk = (if m = 0 then min (s.xr b).toNat kmax else min (min (s.xr b).toNat kmax) (16384 / m)) → s.calOk ty →
      Gives (.mset ty d a b) s fun t => Done s t ∧
        (∀ r, t.xr r = if r = 0 then 0 else if r = b then w kk else if r = a then w n else if r = d then w m else s.xr r) ∧
        t.sh.spr.mshape = w (m + n * 2 ^ 8 + kk * 2 ^ 16) ∧
        OnlyOf s t fun h => { h with x := s.sh.x, spr := { h.spr with mshape := s.sh.spr.mshape } }) ∧
    (s.core.zuse[z.val] = none → Gives (.mzero z) s fun t => Done s t ∧
      (∀ i j, t.core.z[z.val].get i j = 0) ∧ t.core.z[z.val].valid = BitVec.allOnes 64 ∧
      (∀ r : ZReg, r ≠ z → t.core.z[r.val] = s.core.z[r.val]) ∧ OnlyHere s t id fun c => { c with z := s.core.z }) ∧
    (∀ p q, s.core.zuse[z.val] = some (p, q) → Traps (.mzero z) s 0x40 (w q.val) 0) ∧
    XDone (.kpoll x k) s x (match tok.st with
      | .idle => 0
      | .pending => 1
      | .complete => 2) ∧
    (tok.st = .pending → Waits (.kwait k) s) ∧
    (tok.st = .idle → Gives (.kwait k) s fun t => Done s t ∧ OnlyOf s t id) ∧
    (tok.st = .complete → tok.cause = 0 → Gives (.kwait k) s fun t => Done s t ∧ freed t ∧
      OnlyHere s t (fun h => { h with k := s.sh.k, ctok := s.sh.ctok, spr := { h.spr with fstat := s.sh.spr.fstat } }) cback) ∧
    (tok.st = .complete → tok.cause ≠ 0 → Gives (.kwait k) s fun t => freed t ∧ t.sh.pc = s.sh.spr.tvec ∧
      t.sh.spr.tpc = s.sh.pc ∧ t.sh.spr.tcause = tok.cause.zeroExtend 64 ∧ t.sh.spr.tval = 0 ∧ t.sh.spr.faddr = tok.faddr ∧
      ∀ r : WReg, t.core.w[r.val] = if s.core.wuse[r.val] = mine then ⟨0, 0, none, Vector.replicate 4 0, []⟩ else s.core.w[r.val])

/-- The products are issued: their operands are staged, their token is pending (or complete, when there is nothing to do), and
what they name is in use. `mmuls` keeps the k that its masks select, `mmula` names an adapter by row, and `mgrp` gives every
row the slot of the group that holds its number, and its pass (R312, R319 to R323, R327, R368 to R370). One with nothing to do
releases first (R210). A token that is not idle traps 0x40. The model's readings it rests on: DEDUCED, log 68, 69 and 76; DESIGN
CHOICE, log 67. -/
def Obligations.MatrixIssue : Prop :=
  ∀ (s : State) (ty : Fmt) (d : ZReg) (a : VReg) (b : WReg) (c : KReg) (lane : BitVec 6) (dens : Fin 4),
    let p := s.sh.spr
    let mk := p.mk_
    let step := fun n : Nat => (if ty = .fp4b then n / 2 else n) * if ty = .f32 then 8 else if ty = .bf16 then 2 else 1
    let ctl := a.val + p.rc
    let byte := fun o n => leNat ((List.range n).map fun i => s.sh.vstore.byte (ctl * p.rbytes + o + i))
    (s.stageable ty a mk → s.issuable ty c d [b] →
      Issued (.mmul ty d a b c) s [b] (s.newOp (.mmul b) ty d c (s.staged ty a mk) (step mk)) id id id) ∧
    (s.stageable ty a mk → s.unbound → s.sh.k[c.val].st ≠ .idle →
      Traps (.mmul ty d a b c) s 0x40 (BitVec.ofNat 64 c.val) 0) ∧
    (∀ (keep : Nat) (sel : Nat → List Nat) (m : VReg), keep = 16 / 2 ^ dens.val → dens ≠ 3 → mk % 32 = 0 → m.val = ctl →
      ctl < p.nreg → s.grp m .n32 → lane.toNat + mk / 32 ≤ p.vln → s.stageable ty a (mk * keep / 32) → s.issuable ty c d [b] →
      let mask := fun i g => s.sh.elem m .n32 (i * p.vln + lane.toNat + g)
      (∀ i < p.mm, ∀ g < mk / 32, ((Finset.range 32).filter fun q => (mask i g).testBit q = true).card = keep) →
      (∀ i < p.mm, sel i = (List.range mk).filter fun k => (mask i (k / 32)).testBit (k % 32)) →
      Issued (.mmuls ty d a b c lane dens) s [b] (s.newOp (.mmuls b ((List.range p.mm).map sel)) ty d c
        (s.staged ty a (mk * keep / 32)) (step (mk * keep / 32))) id id id) ∧
    (∀ (ids : Nat → Int) (ad : Nat → Adapter), (∀ i < p.mm, ids i = (BitVec.ofNat 32 (byte (4 * i) 4)).toInt) → ctl < p.nreg →
      s.stageable ty a mk → s.issuable ty c d [b] → s.adTableBusy p.sad = false →
      (∀ i < p.mm, ids i = -1 ∨ s.shelfAd s.pdie p.sad (ids i) = some (ad i)) →
      let live := (List.range p.mm).filter fun i => ids i ≠ -1
      ((((live.map ids).dedup).map fun n => ((s.shelfAd s.pdie p.sad n).map Adapter.size).getD 0).sum ≤ s.sad.shelf.toNat) →
      let top := (live.map fun i => (ad i).rank).foldl max 0
      Issued (.mmula ty d a b c) s [b] (s.newOp (.mmula b ((List.range p.mm).map ids) (byte 256 4) (byte 260 4)) ty d c
        (s.staged ty a mk) (step mk + if top = 0 then 0 else 2 * (mk + top))) id id fun t => { t with adapters := s.adapters }) ∧
    (∀ (grp : Nat → Option Nat) (ws : List WReg), ctl < p.nreg → s.stageable ty a mk →
      let off := fun g => byte (4 * g) 4
      let n := byte 260 4
      let slot := fun g => byte (272 + g) 1
      let used := (Finset.range n).filter fun g => ∃ i ∈ List.range p.mm, grp i = some g
      1 ≤ n → n ≤ 64 → (∀ g < n, off g ≤ off (g + 1)) →
      (∀ i < p.mm, match grp i with
        | none => byte 264 4 + i < off 0 ∨ off n ≤ byte 264 4 + i
        | some g => g < n ∧ off g ≤ byte 264 4 + i ∧ byte 264 4 + i < off (g + 1)) →
      (∀ g ∈ used, slot g < 16) → (∀ w : WReg, w ∈ ws ↔ ∃ g ∈ used, slot g = w.val) → s.issuable ty c d ws →
      Issued (.mgrp ty d a c) s ws (s.newOp
        (.mgrp ((List.range p.mm).map fun i => (grp i).map fun g =>
          ((used.filter fun q => q < g).card / 4, (Fin.ofNat 16 (slot g) : WReg)))) ty d c (s.staged ty a mk)
        ((used.card + 3) / 4 * step mk)) id id id)

/-- `wld` makes its slot hold a matrix of the source's shape, with the side block's bands and masks, and waits for the elements. The
load's reads give W[k][j] the source's elements, a sparse source's rows standing where the masks have their ones, and
OPERATION_FINISHES, a release, puts them in the slot and completes the token (R210, R317, R318). The model's readings it rests on:
DESIGN CHOICE, log 67; DEDUCED, log 66 and 72. -/
def Obligations.WeightLoads : Prop :=
  ∀ (s u : State) (ty : Fmt) (sp : Bool) (d : WReg) (a : DReg) (b : XReg) (c : KReg) (q : Arr) (ks nw : Nat) (side : List Byte)
    (w : WLoad) (v : Nat → Nat → Nat),
    let kw := if sp then 2 * ks else ks
    let len := 64 + if sp then 4 * (kw / 32) * nw else 0
    let at_ := fun o n => leNat ((side.drop o).take n)
    let masks := if sp then (List.range (kw / 32 * nw)).map fun i => at_ (64 + 4 * i) 4 else []
    let ones := fun m : Nat => (List.range 32).filter m.testBit
    (s.calOk ty → s.weightsRead → dFmt s.sh.d[a.val] = ty.code → s.copyD 1 a false = .ok q → q.shape = [ks, nw] →
      kw ≤ ty.kmax → nw ≤ 64 → (sp = true → kw % 32 = 0 ∧ s.xr b ≠ 0) → s.sh.k[c.val].st = .idle → s.core.wuse[d.val] = none →
      (q.tile = none → ∀ i < ks, ∀ j < nw, ∃ l, s.range .load (q.bytesAt (q.off [i, j])).1 ty.ew = .ok l) →
      (s.xr b ≠ 0 → s.held (s.xr b) len ∧ (s.xr b).toNat % 64 = 0 ∧ ∃ l, s.range .load (s.xr b) len = .ok l ∧
        s.firstPoison l = none ∧ (∀ n ∈ physKeys l, s.owned (lineOf n) = false) ∧ side = (physKeys l).map s.homeByte ∧
        ∀ v ∈ s.sh.vq, v.holds (.mem [((s.xr b).toNat, (s.xr b).toNat + len - 1)]) = false) →
      (∀ m ∈ masks, (ones m).length = 16) →
      Gives (.wld ty sp d a b c) s fun t => Done s t ∧ t.sh.k = s.sh.k.set c.val ⟨.pending, 0, 0, 0⟩ ∧
        t.sh.ctok = setBit s.sh.ctok c.val false ∧
        t.core.wuse = s.core.wuse.set d.val (some (s.pos, c)) ∧
        (∃ band : Vector (BitVec 16) 4, t.core.w = s.core.w.set d.val ⟨kw, nw, some ty, band, []⟩ ∧
          ∀ i : Fin 4, band[i.val] = if s.xr b = 0 then 0x3F80 else BitVec.ofNat 16 (at_ (2 * i.val) 2)) ∧
        t.core.wloads = s.core.wloads ++ [⟨d, ty, q.tile, q.base, q.strides.getD 0 0, q.strides.getD 1 0, ks, nw, masks,
          s.pos, c, none, 0, 0⟩] ∧
        OnlyHere s t (fun h => { h with k := s.sh.k, ctok := s.sh.ctok }) fun k =>
          { k with w := s.core.w, wuse := s.core.wuse, wloads := s.core.wloads }) ∧
    (w.nw = nw → w.ks = ks → nw ≤ 64 → (∀ v ∈ s.sh.vq, v.holds w.touch = false) →
      (if sp then ks % 16 = 0 ∧ w.metas.length = kw / 32 * nw ∧ ks ≠ 0 ∧ nw ≠ 0 else w.metas = []) →
      (∀ m ∈ w.metas, (ones m).length = 16) →
      (∀ r < ks, ∀ j < nw, s.wElem w r j = .val (v r j) ∧ s.wBusy w r j = false) →
      let row := fun r j => if sp then 32 * (r / 16) + (ones (w.metas.getD (r / 16 * nw + j) 0)).getD (r % 16) 0 else r
      ∃ data, s.wDo w = .ok ({ w with got := some data }, s) ∧ ∀ band,
        (∀ r < ks, ∀ j < nw, (⟨kw, nw, some ty, band, data⟩ : WSlot).at_ (row r j) j = some (v r j)) ∧
        ∀ k < kw, ∀ j < nw, (∀ r < ks, row r j ≠ k) → (⟨kw, nw, some ty, band, data⟩ : WSlot).at_ k j = some 0) ∧
    (∀ data, s.begunAt 0 c = none → s.begunAt 1 c = none → w ∈ s.core.wloads → w.sheet = s.pos → w.tok = c →
      (∀ e, s.release = .error (.wait e) → exec (.operationFinishes c) s = .next s) ∧
      (s.release = .ok u → u.core.wloads.find? (fun q => q.sheet = s.pos && q.tok = c) = some { w with got := some data, cause := 0 } →
        Gives (.operationFinishes c) s fun t => t.sh = { u.sh with k := u.sh.k.set c.val ⟨.complete, 0, 0, w.addr⟩ } ∧
          t.core.w = u.core.w.set w.w.val { u.core.w[w.w.val] with data := data } ∧
          t.core.wloads = u.core.wloads.filter (fun q => !(q.sheet = s.pos && q.tok = c)) ∧
          { t with sh := u.sh, core := { t.core with w := u.core.w, wloads := u.core.wloads } } = u))

/-- A drain writes each active element r × VL + e as the conversion of the accumulator's cell (r, e), the NaN with NV where the
row is not valid: to memory, strided or indexed, through stream V, or to a group (R203, R207, R309, R324 to R326). The model's
readings it rests on: DEDUCED, log 16 and 75. -/
def Obligations.MatrixDrains : Prop :=
  ∀ (s : State) (m : VMod) (z : ZReg) (a x : XReg) (c d : VReg) (disp : BitVec 32) (keys : Nat → List Nat) (uc : Nat → Bool),
    s.vecReady → s.calOk m.ty → m.ty.isDrain = true → s.core.zuse[z.val] = none → s.sh.spr.vln ≤ 64 →
    let vl := s.sh.spr.vln
    let cell := fun i => if s.core.z[z.val].valid.getLsbD (i / vl) then convert .f32 m.ty m.rnd m.sat (s.core.z[z.val].get (i / vl) (i % vl))
      else (m.ty.nanPat, flNV)
    let ix := (List.range s.sh.spr.aecn).filter fun j => s.sh.spr.epos.toNat ≤ j ∧ s.sh.maskBit m.mask j = true
    let base := s.xr a + sext32 disp
    let goes := fun (at_ : Nat → Word) => ∀ j ∈ ix, s.heldAt .store (at_ j) m.ty.ew (keys j) ∧ (at_ j).toNat % m.ty.align = 0 ∧
      ∀ l, s.range .store (at_ j) m.ty.ew = .ok l → uc j = physUc l
    let fl := ix.foldl (fun f j => f ||| (cell j).2) 0
    let done := fun (i : Instr) (at_ : Nat → Word) (locks : Bool) =>
      let far := decide (64 < (ix.flatMap fun j => (pageStarts (at_ j) m.ty.ew).map s.pageId).dedup.length)
      s.weightsRead → (far = true → ∃ w, s.settleV = .ok w) →
      DrainDone i s (ix.map fun j => ⟨.mem (uc j) ((keys j).zip (leBytes m.ty.ew (cell j).1)),
        if locks then rangeOfAddrs m.ty.ew (ix.map fun j => (at_ j).toNat) else none⟩) far fl
    (∀ at_, at_ = (fun i => base + BitVec.ofNat 64 (i / vl) * s.xr x + BitVec.ofNat 64 (i % vl * m.ty.ew)) → goes at_ →
      done (.mdrainStrided m z a x disp) at_ true) ∧
    (∀ at_, at_ = (fun i => base + BitVec.ofNat 64 (s.sh.elem c .n32 i)) → s.grp c .n32 → goes at_ →
      done (.mdrainIndexed m z a c disp) at_ false) ∧
    (s.grp d m.ty → Gives (.mdrv m d z) s fun t => Done s t ∧
      (∀ j < s.sh.spr.flat, t.sh.getItem d m.ty j = s.policy d m.ty m.mask 0 (fun j => ((cell j).1, true)) j) ∧
      OutsideGroup s t d m.ty ∧
      t.sh.spr.fstat = s.sh.spr.fstat ||| (s.flagsOf m.ty m.mask 0 fun j => (cell j).2).zeroExtend 64 ∧
      OnlyOf s t fun k => { k with
        vstore := s.sh.vstore, bvm := s.sh.bvm, vdirty := s.sh.vdirty, vtouch := s.sh.vtouch
        spr := { k.spr with fstat := s.sh.spr.fstat } })

/-- MATRIX_OPERATION_START begins the operation at the head of an array's queue, once its adapters are on the shelf, and changes no
cell. OPERATION_FINISHES, a release, gives the cells their values: each takes the products of the steps still to be made one step
after another, two elements a step in fp4b, rounded to binary32 at every step, a term +0 where a cut packed no value, in `mmula` then
the up steps of its row's adapter on the down sums, which go on from where they stood; no other cell changes, and an invalid block takes the row's VALID bit. It
completes the token with the flags of all these steps and adds the waves to WAVES. ADAPTER_PREFETCH puts a valid adapter on a shelf
that has room (R210, R308, R312, R314, R320 to R324, R327 to R329, R333, R335, R370, R396). The model's readings it rests on: DEDUCED,
log 66, 70, 76 and 111. -/
def Obligations.MatrixOperations : Prop :=
  ∀ (s u : State) (arr : Fin 2) (o : MatOp) (l : List MatOp), s.core.queue[arr.val] = o :: l →
    (o.prog = none → s.adsHere o = true → s.core.z[o.z.val].cells.wf = true → o.mm ≤ 64 → o.mn ≤ 64 →
      Gives (.matrixOperationStart arr) s fun t => ∃ ts : List (List Nat), (∀ r ∈ ts, ∀ v ∈ r, v = 0) ∧
        t.core.queue = s.core.queue.set arr.val ({ o with prog := some ⟨0, 0, ts⟩ } :: l) ∧
        { t with core := { t.core with queue := s.core.queue } } = s) ∧
    (o.prog = none → s.adsHere o = false → exec (.matrixOperationStart arr) s = .next s) ∧
    (∀ n0 f0 ts, o.prog = some ⟨n0, f0, ts⟩ → o.sheet = s.pos → (arr = 1 → s.begunAt 0 o.tok = none) →
      (∀ e, s.release = .error (.wait e) → exec (.operationFinishes o.tok) s = .next s) ∧
      (s.release = .ok u → (∀ q ∈ s.adapters, q.stale = false) → s.adsHere o = true → n0 < o.steps →
        let old := u.core.z[o.z.val]
        let ends := fun (t : State) (f : Flags) =>
          t.core.queue = u.core.queue.set arr.val l ∧
          t.sh = { u.sh with
            k := u.sh.k.set o.tok.val ⟨.complete, f0 ||| f, 0, 0⟩
            spr := { u.sh.spr with waves := u.sh.spr.waves + BitVec.ofNat 64 o.waves } } ∧
          { t with sh := u.sh, core := { t.core with queue := u.core.queue, z := u.core.z, sbuf := u.core.sbuf } } = u ∧
          ∀ r : ZReg, r ≠ o.z → t.core.z[r.val] = u.core.z[r.val]
        let computes := fun (ty : Fmt) (gap : Nat → Nat → Bool) (row : Nat → List Nat) (plan : Nat → Option (Nat × WReg × List Nat))
            (at_ : Nat → Nat) (ad : Nat → Option Adapter) (koff noff : Nat) =>
          let main := fun i j => match plan i with
            | some (_, w, ks) => cellSteps (gap i) ty u.core.w[w.val] (row i) ks j
            | none => []
          let start := fun i => match plan i with
            | some (pass, _, _) => pass * stepsOf o.ty o.kk
            | none => 0
          let down := fun i => match ad i with
            | some a => a.down ty (row i) koff (n0 - o.mainSteps) (o.steps - o.mainSteps) (ts.getD i [])
            | none => ([], 0)
          let us := fun i => downRound (down i).1
          let ups := fun i j => match ad i with
            | some a => a.upSteps (us i).1 noff j
            | none => []
          let up := o.mainSteps + o.kk
          (∀ i < o.mm, start i < o.steps ∧ (ad i ≠ none → up ≤ o.steps) ∧ ∀ j < o.mn, start i + (main i j).length ≤ o.steps ∧
            (ad i ≠ none → up + (ups i j).length ≤ o.steps)) →
          let left := fun i j => (main i j).drop (n0 - start i) ++ (ups i j).drop (n0 - up)
          let cell := fun i j => accSteps (left i j) (old.get (at_ i) j) 0
          Gives (.operationFinishes o.tok) s fun t =>
            ends t ((List.range o.mm).foldl (fun f i => (List.range o.mn).foldl (fun f j => f ||| (cell i j).2)
              (f ||| (down i).2 ||| if n0 < up then (us i).2 else 0)) 0) ∧
            t.core.sbuf = u.core.sbuf ∧
            (∀ i < o.mm, ∀ j < o.mn, t.core.z[o.z.val].get (at_ i) j = (cell i j).1) ∧
            (∀ i j, i < 64 → j < 64 → ((∀ n < o.mm, at_ n ≠ i) ∨ o.mn ≤ j) → t.core.z[o.z.val].get i j = old.get i j) ∧
            (∀ i < o.mm, t.core.z[o.z.val].valid.getLsbD (at_ i) = (old.valid.getLsbD (at_ i) && match plan i with
              | none => true
              | some (_, w, _) => o.mn = 0 || !((row i).any (badEl ty) || u.core.w[w.val].spoils o.kk o.mn)))
        let rows := fun i => o.rows.getD i []
        let all := List.range o.kk
        let no := fun (_ _ : Nat) => false
        (o.mm ≤ 64 → o.mn ≤ 64 → old.cells.wf = true →
          (∀ w, o.kind = .mmul w → computes o.ty no rows (fun _ => some (0, w, all)) id (fun _ => none) 0 0) ∧
          (∀ w kept, o.kind = .mmuls w kept →
            computes o.ty no rows (fun i => some (0, w, kept.getD i [])) id (fun _ => none) 0 0) ∧
          (∀ w ids koff noff, o.kind = .mmula w ids koff noff →
            computes o.ty no rows (fun _ => some (0, w, all)) id (fun i => s.adOf (ids.getD i (-1))) koff noff) ∧
          (∀ ws, o.kind = .mgrp ws →
            computes o.ty no rows (fun i => (ws.getD i none).map fun q => (q.1, q.2, all)) id (fun _ => none) 0 0) ∧
          (∀ w row0, o.kind = .mmulc w row0 → let buf := u.core.sbuf[arr.val]
            let val := fun i k => (buf.ents.find? fun e => e.row = i && e.col = k).map SpEnt.val
            computes (buf.fmt.getD o.ty) (fun i k => (val i k).isNone) (fun i => (List.range o.kk).map fun k => (val i k).getD 0)
              (fun _ => some (0, w, all)) (fun i => (row0 + i) % 64) (fun _ => none) 0 0)) ∧
        (∀ ents, n0 = 0 → o.kind = .pack ents → Gives (.operationFinishes o.tok) s fun t => ends t 0 ∧ t.core.z = u.core.z ∧
          t.core.sbuf = u.core.sbuf.set arr.val ⟨some o.ty, ents⟩))) ∧
    (∀ (die sad id : Nat) (e : AdEnt) (dn up : List Nat), (∀ q ∈ s.adapters, q.stale = false) → s.adFind sad id = some e →
      s.adTableBusy sad = false → s.adBusy sad e = false →
      s.readBf sad e.dn (e.kh * e.rank) = some dn → s.readBf sad e.up (e.rank * e.nh) = some up →
      (∀ q ∈ s.adapters, ¬ (q.die = die ∧ q.sad = sad ∧ q.id = (id : Int))) →
      let n := (2 * (e.kh * e.rank + e.rank * e.nh) + 4095) / 4096 * 4096
      ((s.adapters.filter fun q => q.die = die ∧ q.sad = sad).map Adapter.size).sum + n ≤
        s.saddles[(sadOf sad).val].shelf.toNat →
      exec (.adapterPrefetch die sad id) s = .next { s with
        adapters := ⟨die, sad, e.id, e.rank, e.kh, e.nh, dn, up, n, false⟩ :: s.adapters })

/-- `cut` reads the row pointers and columns of its rows, sets the bounds block, the cut record and CUTST, and packs the entries
in its bounds; an empty cut completes its token at once. What the sheet's streams S, A and V have issued is performed first, and
the bytes are those at the home (R301, R303, R332 to R336, R338). The bounds of a cut (R303, R334). In band mode the rows are halved
until the first eight columns hold no more than the budget, and the columns then grow by eights while the band holds no
more; in square mode rows and columns grow in turns from at most eight of each. An empty range says so and runs to its
limits. No cut holds more than its budget, and none could grow. The model's readings it rests on: DEDUCED, log 102. -/
def Obligations.CutsAndBounds : Prop :=
  (∀ (s u : State) (sq : Bool) (ty : Fmt) (d a b : XReg) (c : KReg) (ptr col val : Nat → Nat), d.val ≤ 28 → a.val ≤ 28 →
     let x := fun (r : XReg) k => s.xr (xreg (r.val + k))
     let row0 := (x d 0).toNat
     let col0 := (x d 2).toNat
     let m := (x a 3).toNat % 2 ^ 32
     let k := (x a 3).toNat / 2 ^ 32
     let budget := (s.xr b).toNat % 2 ^ 14
     let arr : Fin 2 := if (s.xr b).getLsbD 16 = true then 1 else 0
     let hmax := min 64 (m - row0)
     let cmax := min (col0 + if ty = .f32 then 64 else if ty = .bf16 then 128 else 256) k
     let at_ := fun base (ew i : Nat) v => u.homeIs (base + BitVec.ofNat 64 (ew * i)) ew v
     let i : Instr := if sq then .cutSquare ty d a b c else .cutBand ty d a b c
     s.calOk ty → fld s.sh.spr.cutst 0 2 = 0 → 8 ≤ budget → budget ≤ 8192 → row0 < m → col0 < k → s.holder arr = none →
     s.sh.k[c.val].st = .idle → s.core.suse[arr.val] = none →
     (∀ st, s.release = .error st → exec i s = .next st.take) ∧
     (s.release = .ok u → u.core.queue[arr.val].length < 4 →
     (∀ i ≤ hmax, at_ (x a 0) 4 (row0 + i) (ptr i) ∧ (i < hmax → ptr i ≤ ptr (i + 1))) →
     (∀ i < hmax, ∀ p, ptr i ≤ p → p < ptr (i + 1) → at_ (x a 1) 4 p (col p) ∧ col p < k ∧ (ptr i < p → col (p - 1) < col p)) →
     let rows := (List.range hmax).map fun i => (ptr i, (List.range (ptr (i + 1) - ptr i)).map fun e => col (ptr i + e))
     ∀ h col1 empty, cutBounds sq rows budget hmax col0 k cmax = (h, col1, empty) →
     (empty = false → ∀ i < h, ∀ p, ptr i ≤ p → p < ptr (i + 1) → col0 ≤ col p → col p < col1 → at_ (x a 2) ty.ew p (val p)) →
     let ents := (List.range h).flatMap fun i => ((List.range (ptr (i + 1) - ptr i)).map fun e => ptr i + e).filterMap fun p =>
       if col0 ≤ col p ∧ col p < col1 then some (⟨i, col p - col0, val p⟩ : SpEnt) else none
     let w := fun n : Nat => BitVec.ofNat 64 n
     Gives i s fun t => Done s t ∧
       (∀ r, t.xr r = if r = 0 then 0 else if r = d then w row0 else if r.val = d.val + 1 then w (row0 + h)
         else if r.val = d.val + 2 then w col0 else if r.val = d.val + 3 then w col1 + (if empty then 2 ^ 63 else 0) else s.xr r) ∧
       t.core.cut = u.core.cut.set s.pos.val ⟨arr, ty, w row0, w (row0 + h), w col0, w col1, u.core.cut[s.pos.val].slot⟩ ∧
       (let q := t.sh.spr.cutst;
         fld q 0 2 = (if empty then 0 else 1) ∧ fld q 2 1 = arr.val ∧ fld q 3 1 = (if sq then 1 else 0) ∧
         fld q 4 1 = (if empty then 1 else 0) ∧ fld q 8 4 = fld s.sh.spr.cutst 8 4 ∧ fld q 16 7 = h ∧ fld q 23 9 = col1 - col0 ∧
         (empty = false → fld q 32 14 = ents.length)) ∧
       t.sh.k = u.sh.k.set c.val (if empty then ⟨.complete, 0, 0, 0⟩ else ⟨.pending, 0, 0, 0⟩) ∧
       t.sh.ctok = setBit u.sh.ctok c.val true ∧
       t.core.suse = (if empty then u.core.suse else u.core.suse.set arr.val (some (s.pos, c))) ∧
       (t.core.queue = if empty then u.core.queue else u.core.queue.set arr.val (u.core.queue[arr.val] ++
         [⟨.pack ents, ty, if arr = 0 then 0 else 4, 0, 0, 0, [], 0, s.pos, c, none⟩])) ∧
       OnlyHere u t (fun h => { h with
           x := u.sh.x, k := u.sh.k, ctok := u.sh.ctok, spr := { h.spr with cutst := u.sh.spr.cutst } }) fun h =>
         { h with cut := u.core.cut, suse := u.core.suse, queue := u.core.queue })) ∧
  (∀ (rows : List (Nat × List Nat)) (b hmax col0 k cmax : Nat), (∀ r ∈ rows, r.2.Pairwise (· < ·)) → 8 ≤ b → 1 ≤ hmax → hmax ≤ 64 →
     col0 < cmax → cmax ≤ col0 + 256 → cmax ≤ k →
     let N := fun h e => ((rows.take h).map fun r => (r.2.filter fun c => col0 ≤ c && c < e).length).sum
     let full := fun (q : Nat × Nat × Bool) => (q.2.2 = true → q.2.1 = cmax) ∧
       (q.2.2 = false → N q.1 q.2.1 ≤ b ∧ col0 < q.2.1 ∧ q.2.1 ≤ cmax ∧ (q.2.1 = cmax ∨ b < N q.1 (min (q.2.1 + 8) cmax)))
     (∀ q, q = cutBounds false rows b hmax col0 k cmax → full q ∧ 1 ≤ q.1 ∧ q.1 ≤ hmax ∧ (q.2.2 = true ↔ N q.1 cmax = 0) ∧
       N q.1 (min (col0 + 8) k) ≤ b ∧ ∃ j, q.1 = hmax / 2 ^ j ∧ ∀ i < j, b < N (hmax / 2 ^ i) (min (col0 + 8) k)) ∧
     (∀ q, q = cutBounds true rows b hmax col0 k cmax → full q ∧ 1 ≤ q.1 ∧ q.1 ≤ hmax ∧ (q.2.2 = true ↔ N hmax cmax = 0) ∧
       (q.2.2 = true → q.1 = hmax) ∧ (q.2.2 = false → q.1 = hmax ∨ b < N (min (q.1 + 8) hmax) q.2.1)))

/-- `cocut` loads the partner rows that match the cut's columns, rows past the partner's end being zero, and the state is
Matched; `mmulc` issues the product of the sparse buffer and that slot and the state is Idle again; `cutq` reads the bounds
block. In another state, or with bounds that do not match, `mmulc` traps 0x41 with the state found (R305, R306, R308, R337,
R340). The model's readings it rests on: DEDUCED, log 71. -/
def Obligations.MatchedProducts : Prop :=
  ∀ (s : State) (d : WReg) (z : ZReg) (a : DReg) (b x : XReg) (w : WReg) (c : KReg) (q : Arr) (v : Nat → Nat → Nat),
    let r := s.core.cut[s.pos.val]
    let st := fld s.sh.spr.cutst 0 2
    let n := (r.col1 - r.col0).toNat
    let xs := fun (g : XReg) k => s.xr (xreg (g.val + k))
    let rows := q.shape.getD 0 0
    let nw := q.shape.getD 1 0
    (st = 1 → xs b 2 = r.col0 → xs b 3 = r.col1 → dFmt s.sh.d[a.val] = r.ty.code → dKind s.sh.d[a.val] = 0 →
      s.srcD 1 a (fun _ => true) = .ok q → q.shape.length = 2 → nw ≤ 64 → s.sh.k[c.val].st = .idle → s.core.wuse[d.val] = none →
      s.weightsRead →
      (∀ k < n, r.col0.toNat + k < rows → ∀ j < nw,
        let p := (q.bytesAt (q.off [r.col0.toNat + k, j])).1
        s.homeIs p r.ty.ew (v k j) ∧ ∀ e ∈ s.sh.vq, e.holds (.mem [(p.toNat, p.toNat + r.ty.ew - 1)]) = false) →
      Gives (.cocut d a b c) s fun t => Done s t ∧ t.sh.k = s.sh.k.set c.val ⟨.pending, 0, 0, 0⟩ ∧
        t.core.wuse = s.core.wuse.set d.val (some (s.pos, c)) ∧
        t.core.w = s.core.w.set d.val ⟨n, nw, some r.ty, Vector.replicate 4 0x3F80, []⟩ ∧
        (∃ got, t.core.wloads = s.core.wloads ++ [⟨d, r.ty, none, q.base, 0, 0, 0, nw, [], s.pos, c, some got, 0, 0⟩] ∧
          ∀ k < n, ∀ j < nw, ((got.find? fun e => e.1 = k * 64 + j).map Prod.snd).getD 0 =
            if r.col0.toNat + k < rows then v k j else 0) ∧
        t.core.cut = s.core.cut.set s.pos.val { r with slot := d } ∧
        fld t.sh.spr.cutst 0 2 = 2 ∧ fld t.sh.spr.cutst 8 4 = d.val ∧ t.sh.ctok = setBit s.sh.ctok c.val true ∧
        (∀ i, 12 ≤ i ∨ (2 ≤ i ∧ i < 8) → t.sh.spr.cutst.getLsbD i = s.sh.spr.cutst.getLsbD i) ∧
        OnlyHere s t (fun h => { h with k := s.sh.k, ctok := s.sh.ctok, spr := { h.spr with cutst := s.sh.spr.cutst } }) fun k =>
          { k with w := s.core.w, wuse := s.core.wuse, wloads := s.core.wloads, cut := s.core.cut }) ∧
    (let fits := st = 2 ∧ arrOf z = r.arr ∧ w = r.slot ∧ xs x 0 = r.row0 ∧ xs x 1 = r.row1 ∧ xs x 2 = r.col0 ∧
        xs x 3 = r.col1 &&& ~~~(1#64 <<< 63);
      (fits → s.sh.k[c.val].st = .idle → s.core.zuse[z.val] = none → s.core.wuse[w.val] = none → s.core.suse[r.arr.val] = none →
        s.core.queue[r.arr.val].length < 4 → ∃ o : MatOp, o = ⟨.mmulc w r.row0.toNat, r.ty, z, (r.row1 - r.row0).toNat,
            s.sh.spr.mn, n, [], if s.sh.spr.mn = 0 then 0 else n * if r.ty = .f32 then 8 else if r.ty = .bf16 then 2 else 1,
            s.pos, c, none⟩ ∧
          Issued (.mmulc z x w c) s [w] o (fun h => { h with spr := { h.spr with cutst := s.sh.spr.cutst } })
            (fun k => { k with suse := s.core.suse }) id ∧
          ∀ u, (if o.waves = 0 then s.release else .ok s) = .ok u → Gives (.mmulc z x w c) s fun t => t.core.suse = s.core.suse.set r.arr.val (some (s.pos, c)) ∧
            fld t.sh.spr.cutst 0 2 = 0 ∧ ∀ i, 2 ≤ i → t.sh.spr.cutst.getLsbD i = s.sh.spr.cutst.getLsbD i) ∧
      (¬ fits → Traps (.mmulc z x w c) s 0x41 (BitVec.ofNat 64 (0x100 + st * 2 ^ 16)) 0)) ∧
    (∀ g : XReg, g.val ≤ 28 → Gives (.cutq g) s fun t => Done s t ∧
      (∀ q, t.xr q = if q = 0 then 0 else if q = g then r.row0 else if q.val = g.val + 1 then r.row1
        else if q.val = g.val + 2 then r.col0 else if q.val = g.val + 3 then setFld r.col1 63 1 (fld s.sh.spr.cutst 4 1)
        else s.xr q) ∧ OnlyOf s t fun h => { h with x := s.sh.x })

/-- `talloc` takes room for a tile of ROWS × RB bytes in the sheet's own store, or writes 1 when there is none; a handle in use
and a size out of range trap 0x24. `tfree` releases a tile that no copy and no weight load names, and else waits; `tinfo`
answers its queries. A handle with no entry traps 0x24, and one of another instance 0x23 (R229 to R232). The model's
readings it rests on: DEDUCED, log 32; DESIGN CHOICE, log 97. -/
def Obligations.Tiles : Prop :=
  ∀ (s : State) (ty : Fmt) (scp : Scope) (d a b : XReg) (h : BitVec 12) (q : Tile),
    let rows := (s.xr a).toNat
    let rb := (s.xr b).toNat
    let lvl := levelOf scp
    let room := (rows * rb + 4095) / 4096 * 4096
    let sized := 1 ≤ rows ∧ rows ≤ 65536 ∧ 1 ≤ rb ∧ rb ≤ 65536 ∧ rb % ty.ew = 0
    let mine := fun t : Tile => t.drove = s.sh.droveId ∧ t.die = s.sh.spr.gDie ∧ t.handle = h
    let why := fun n : Nat => BitVec.ofNat 64 (h.toNat + n * 65536)
    let named := s.engines.toList.any (fun e => e.queue.any fun c => c.drove = q.drove && c.die = q.die &&
      (namesTile c.src h || namesTile c.dst h)) || s.core.wloads.any fun w => w.sheet = s.pos && w.tile = some h
    let inside := s.sh.spr.instOf q.level = q.inst
    ((∀ t ∈ s.tiles, ¬ mine t) → sized → room ≤ s.storeFree lvl (s.site lvl) → Gives (.talloc ty scp d a b h) s fun t =>
      Done s t ∧ XIs s t d 0 ∧
      t.tiles = s.tiles ++ [⟨s.sh.droveId, s.sh.spr.gDie, h, lvl, s.sh.spr.instOf lvl, rows, rb, ty, s.sh.spr.brand12, []⟩] ∧
      { t with sh := s.sh, tiles := s.tiles } = s ∧ s.sh.moved t.sh = { t.sh with x := s.sh.x }) ∧
    ((∀ t ∈ s.tiles, ¬ mine t) → sized → s.storeFree lvl (s.site lvl) < room → XDone (.talloc ty scp d a b h) s d 1) ∧
    ((∀ t ∈ s.tiles, ¬ mine t) → ¬ sized → Traps (.talloc ty scp d a b h) s 0x24 (why 3) 0) ∧
    ((∃ t ∈ s.tiles, mine t) → Traps (.talloc ty scp d a b h) s 0x24 (why 2) 0) ∧
    (s.tile? h = some q → inside → named = false → Gives (.tfree h) s fun t => Done s t ∧ s.sh.moved t.sh = t.sh ∧
      t.tiles = s.tiles.filter (fun t => !t.same q) ∧ { t with sh := s.sh, tiles := s.tiles } = s) ∧
    (s.tile? h = some q → inside → named = true → Waits (.tfree h) s) ∧
    (s.tile? h = some q → inside → XDone (.tinfo 0 d h) s d 1 ∧ XDone (.tinfo 1 d h) s d (BitVec.ofNat 64 q.rows) ∧
      XDone (.tinfo 2 d h) s d (BitVec.ofNat 64 q.rb) ∧ XDone (.tinfo 3 d h) s d (BitVec.ofNat 64 q.fmt.code) ∧
      XDone (.tinfo 4 d h) s d (BitVec.ofNat 64 q.level) ∧
      XDone (.tinfo 5 d h) s d (BitVec.ofNat 64 ((q.rows * q.rb + 4095) / 4096 * 4096))) ∧
    (s.tile? h = none → XDone (.tinfo 0 d h) s d 0 ∧ Traps (.tfree h) s 0x24 (why 1) 0 ∧ Traps (.tinfo 1 d h) s 0x24 (why 1) 0) ∧
    (s.tile? h = some q → ¬ inside → XDone (.tinfo 0 d h) s d 2 ∧ Traps (.tfree h) s 0x23 (BitVec.ofNat 64 h.toNat) 0 ∧
      Traps (.tinfo 1 d h) s 0x23 (BitVec.ofNat 64 h.toNat) 0)

/-- `copy` and `cgath` check their operands and enter a command into the engine, which then owns the lines it will write and keeps
the translations of their pages, up to the first page that fails; a full queue makes them wait. `facet` loads an engine's table,
and `swait` waits until a stamp has reached a number (R209, R235, R241 to R243). COPY_EXECUTE runs an engine's oldest command:
every destination item takes the source's value in its format, no other byte changes, and its lines are released; then it
reports: a stamp takes the sequence number with the flags, once the accesses before the copy are performed, and the command
leaves the queue. What an item's value is, in formats without blocks and tables: the source's bits, or their conversion (R210,
R235 to R239). The model's readings it rests on: DESIGN CHOICE, log 53; DEDUCED, log 54, 55, 56 and 114. -/
def Obligations.CopiesAndExecution : Prop :=
  (∀ (s : State) (ty : Fmt) (mode : CopyMode) (d a : DReg) (v : VReg) (rnd : Rnd) (sat : Bool) (eng : BitVec 2) (x y : Arr)
     (rep : Report) (keys : Nat → List Nat) (m : Nat) (bad : Option (Nat × Word)),
     let n := s.pdie * 4 + eng.toNat
     let p := s.sh.spr
     let width := x.shape.getD 1 0
     let cmd := fun idx : Option (List Int) => (⟨p.sad, p.brand12, s.sh.droveId, BitVec.ofNat 2 (fld p.status 0 2), p.flatIx, p.gDie,
       s.sh.d[a.val], s.sh.d[d.val], idx, width, rnd, sat, rep, [], [], [], none, s.before, none⟩ : Cmd)
     let ok := s.copyD 1 a false = .ok x ∧ s.copyD 0 d true = .ok y ∧ copyPair x.t y.t = true ∧ (sat = true → y.t.noSat = false) ∧
       copyClash y x = false ∧ s.reportOf mode = .ok rep ∧ n < 24
     let elem := fun i => y.off (unravel y.shape (if y.t = .fp4b then 8 * i else i))
     let dest := fun (c : Cmd) i => rangeOf .store (s.xlateAs c.who .store) (y.bytesAt (elem i)).1 (y.bytesAt (elem i)).2
     let lands := fun (c : Cmd) => y.tile = none ∧ (∀ i < m, ∃ l, dest c i = .ok l ∧ keys i = physKeys l) ∧
       (∀ i < m, ∀ k ∈ keys i, s.owned (lineOf k) = false) ∧
       (m = c.items ∧ bad = none ∨ m < c.items ∧ ∃ f, dest c m = .error f ∧ f.1 ≠ walkWaits ∧ bad = some f)
     let entered := fun (i : Instr) (c : Cmd) => Gives i s fun t => Done s t ∧ s.sh.moved t.sh = t.sh ∧
       (∃ o pg, (∀ l, l ∈ o ↔ ∃ i < m, ∃ k ∈ keys i, lineOf k = l) ∧
         (∀ q, q ∈ pg ↔ ∃ i < m, ∃ va ∈ pageStarts (y.bytesAt (elem i)).1 (y.bytesAt (elem i)).2, s.cmdPage c va = some q) ∧
         t.engineAt n =
           { s.engineAt n with queue := (s.engineAt n).queue ++ [{ c with owned := o, pages := pg, bad := bad }] }) ∧
       (∀ q, q ≠ n → t.engineAt q = s.engineAt q) ∧ Written s t [] ∧ OnlyMem { s with engines := t.engines } t
     (ok → (prodL x.shape = prodL y.shape) → prodL y.shape ≠ 0 → s.Inv → lands (cmd none) → (s.engineAt n).queue.length < 64 →
       entered (.copy mode d a rnd sat eng) (cmd none)) ∧
     (ok → prodL x.shape = prodL y.shape → prodL y.shape ≠ 0 → 64 ≤ (s.engineAt n).queue.length → Waits (.copy mode d a rnd sat eng) s) ∧
     (∀ idx, ok → s.unbound → s.grp v ty → idx = (List.range p.aecn).map (fun i => ival ty (s.sh.elem v ty i)) → x.shape.length = 2 →
       idx.length * width = prodL y.shape → prodL y.shape ≠ 0 → s.Inv → lands (cmd (some idx)) → (s.engineAt n).queue.length < 64 →
       entered (.cgath ty mode d a v rnd sat eng) (cmd (some idx))) ∧
     (∀ (b e : XReg) (l : List Phys), n < 24 → s.Reaches .load (s.xr b) 512 64 l →
       ((s.engineAt n).queue = [] → Gives (.facet eng b) s fun t => Done s t ∧ OnlyTlb { s with engines := t.engines } t id ∧
         t.engineAt n = ⟨[], some (p.brand12, BitVec.ofNat 4096 (leNat ((physKeys l).map s.homeByte))), []⟩ ∧
         ∀ q, q ≠ n → t.engineAt q = s.engineAt q) ∧
       ((s.engineAt n).queue ≠ [] → WaitsOn (.facet eng b) s fun t => t.engines = s.engines)) ∧
     (∀ (b c e : XReg) (l : List Phys) (w : Word), s.Reaches .load (s.xr b) 8 8 l → w.toNat = leNat ((physKeys l).map s.homeByte) →
       ((s.xr c).toNat % 2 ^ 48 ≤ w.toNat % 2 ^ 48 → Gives (.swait e b c) s fun t => Done s t ∧ XIs s t e w ∧
         OnlyTlb s t fun h => { h with x := s.sh.x }) ∧
       (w.toNat % 2 ^ 48 < (s.xr c).toNat % 2 ^ 48 → WaitsOn (.swait e b c) s fun t => t.mem = s.mem))) ∧
  (∀ (s v : State) (die eng : Nat) (c : Cmd) (rest : List Cmd) (va : Word) (seq : BitVec 48) (stamp : List Phys)
     (dst : Nat → List Cell) (w : Nat → Nat × Flags) (e : Ended),
     let n := die * 4 + eng
     let a := cmdArr c.src
     let d := cmdArr c.dst
     let elem := fun i => d.off (unravel d.shape (if d.t = .fp4b then 8 * i else i))
     let items := List.range c.items
     let reads := fun i => (if d.t = .fp4b ∧ a.t ≠ .fp4b then (List.range 8).map (8 * i + ·) else if d.t = .fp4b then [8 * i] else [i])
     let keys := (items.flatMap dst).filterMap fun q => if q.1 = none then some q.2 else none
     let paid := { c with owned := [], ownedTile := [], pages := [], ended := some ⟨items.foldl (fun f i => f ||| (w i).2) 0, c.items, none⟩ }
     (n < 24 → (s.engineAt n).queue = [] → exec (.copyExecute die eng) s = .next s) ∧
     ((s.engineAt n).queue = c :: rest → c.ended = none → s.Inv → (∀ t ∈ s.tiles, t.data.wf = true) → s.posted = [] →
       s.tablesApart c.sad keys → s.cleanAt keys → (keys.map addrOf).Nodup →
       (∀ i ∈ items, s.cmdPlaces c .store d (elem i) (dst i)) → (∀ i ∈ items, ∀ j ∈ items, j < i → cellsApart (dst i) (dst j)) →
       (∀ i ∈ items, s.cmdItem (s.engineAt n) c i = .ok (w i)) →
       (∀ i ∈ items, ∀ e ∈ reads i, ∀ ix, c.srcIx e = some ix → ∃ l, s.cmdPlaces c .load a (a.off ix) l ∧
         ∀ j ∈ items, j < i → cellsApart l (dst j)) →
       ∃ t, exec (.copyExecute die eng) s = exec (.copyExecute die eng) t ∧
         (∀ i ∈ items, leNat ((dst i).map (t.engineByte c)) = (w i).1 % 2 ^ (8 * (d.bytesAt (elem i)).2)) ∧
         (∀ q : Cell, (∀ i ∈ items, q.at_ ∉ (dst i).map Cell.at_) → t.engineByte c q = s.engineByte c q) ∧
         t.engineAt n = { s.engineAt n with queue := paid :: rest } ∧ (∀ q, q ≠ n → t.engineAt q = s.engineAt q) ∧
         { s.memBack t with poison := s.poison, tiles := s.tiles, engines := s.engines } = s ∧
         t.tiles.map (fun q => { q with data := [] }) = s.tiles.map fun q => { q with data := [] }) ∧
     ((s.engineAt n).queue = c :: rest → c.ended = some e → e.fault = none → c.report = .stamp va seq → s.beforeReport c = .ok v →
       v.Inv → v.posted = [] → rangeOf .store ((v.popCopy n).xlateAs c.who .store) va 8 = .ok stamp → v.cleanAt (physKeys stamp) →
       (∀ k ∈ physKeys stamp, (v.popCopy n).owned (lineOf k) = false) →
       Gives (.copyExecute die eng) s fun t =>
         leNat ((physKeys stamp).map t.homeByte) = seq.toNat + e.flags.toNat * 2 ^ 48 ∧
         (∀ k, addrOf k ∉ (physKeys stamp).map addrOf → t.homeByte k = v.homeByte k) ∧
         t.engines = (v.popCopy n).engines ∧ { v.memBack t with engines := v.engines } = v) ∧
     ((s.engineAt n).queue = c :: rest → c.ended = some e → ∀ u, s.beforeReport c = .error (.wait u) →
       exec (.copyExecute die eng) s = .next s) ∧
     (c.report.releases = true → s.sh.run ≠ .off → s.sh.droveId = c.drove → s.sh.spr.flatIx = c.flat → s.beforeReport c = .ok v →
       (c.before.stores ≤ s.sh.vdone + s.sh.vq.length → c.before.stores ≤ v.sh.vdone) ∧
       (∀ q ∈ v.core.l1, q.of s.pos = false) ∧
       ∀ q ∈ v.core.wloads, q.sheet = s.pos → q.tok ∈ c.before.loads → q.got.isSome = true) ∧
     (∀ (i : Nat) (ix : List Nat) (l : List Cell), d.t ≠ .fp4b → a.t ≠ .fp4b → a.t ≠ .fct8 → c.srcIx i = some ix →
       s.cmdPlaces c .load a (a.off ix) l →
       let v := leNat (l.map (s.engineByte c))
       s.cmdItem (s.engineAt n) c i = .ok (if a.t = d.t then (v, 0) else convert a.t d.t c.rnd c.sat v)))

/-- `barexp` adds bytes to a barrier's pending count and `barv`, once the sheet's release is done, one arrival; a phase ends
when all sheets of the instance have arrived and nothing is pending. `barw` waits while the phase is the operand's. `wmpub`
raises a watermark after a release, and `wmwait` waits for one. `fence` performs and waits for the streams before it. `gnode`, after
a release, puts a record into the pool (R210 to R212, R244 to R247). The model's readings it rests on: DEDUCED, log 77 and 83. -/
def Obligations.Barriers : Prop :=
  ∀ (s u : State) (scp : Scope) (name : BitVec 10) (a d : XReg) (w : BitVec 8) (before after : BitVec 6) (q : Drove),
    let lvl := levelOf scp
    let b := s.barrier s.sh.droveId lvl (s.sh.spr.instOf lvl) name.toNat
    let all := participants q.shape lvl
    let ends := fun c : Barrier => if c.arrived = all ∧ c.pend = 0 then { c with phase := !b.phase, arrived := 0 } else c
    let sets := fun (u t : State) (c : Barrier) =>
      t.barrier s.sh.droveId lvl (s.sh.spr.instOf lvl) name.toNat = ends c ∧
      (∀ dr l i m, ¬ (dr = s.sh.droveId ∧ l = lvl ∧ i = s.sh.spr.instOf lvl ∧ m = name.toNat) → t.barrier dr l i m = s.barrier dr l i m) ∧
      { t with sh := u.sh, bars := s.bars } = u ∧ u.sh.moved t.sh = t.sh
    let relStops := fun i : Instr => ∀ st, s.release = .error st → exec i s = .next st.take
    let mark := fun t : State => sparseGet t.sad.marks w.toNat
    (s.drove? s.sh.droveId = some q →
      (Gives (.barexp scp name a) s fun t => Done s t ∧ sets s t { b with pend := b.pend + s.xr a }) ∧
      (s.release = .ok u → Gives (.barv scp name) s fun t => Done s t ∧ sets u t { b with arrived := b.arrived + 1 })) ∧
    relStops (.barv scp name) ∧ relStops (.wmpub a w) ∧
    ((b.phase = (s.xr a).getLsbD 0 → Waits (.barw scp name a) s) ∧
      (b.phase ≠ (s.xr a).getLsbD 0 → Gives (.barw scp name a) s fun t => Done s t ∧ OnlyOf s t id)) ∧
    ((s.sad.marks.map Prod.fst).Pairwise (· < ·) → s.release = .ok u → Gives (.wmpub a w) s fun t => Done s t ∧
      u.sh.moved t.sh = t.sh ∧
      mark t = (if (mark s).toNat < (s.xr a).toNat then s.xr a else mark s) ∧
      (∀ n, n ≠ w.toNat → sparseGet t.sad.marks n = sparseGet s.sad.marks n) ∧
      ({ t with sh := u.sh } : State).setSad s.sh.spr.sad (fun g => { g with marks := s.sad.marks }) = u) ∧
    ((mark s).toNat < (s.xr a).toNat → Waits (.wmwait a w) s) ∧
    ((s.xr a).toNat ≤ (mark s).toNat → Gives (.wmwait a w) s fun t => Done s t ∧ OnlyOf s t id) ∧
    (∀ v : State,
      let r : Eff := (if before.getLsbD 1 then s.settleW else .ok s).bind fun v =>
        let v := if before.getLsbD 0 then v.flushOwn else v
        if before.getLsbD 2 then v.settleV else .ok v
      let stuck := before.getLsbD 3 = true ∧ s.copiesOut = true ∨ before.getLsbD 4 = true ∧ s.chunksOut lvl = true
      (∀ st, r = .error st → exec (.fence before after scp) s = .next st.take) ∧
      (r = .ok v → (¬ stuck → Gives (.fence before after scp) s fun t => Done s t ∧ { t with sh := v.sh } = v ∧
          v.sh.moved t.sh = t.sh) ∧
        (stuck → WaitsOn (.fence before after scp) s fun t => { t with sh := v.sh } = v ∧ t.sh.vq = v.sh.vq)) ∧
      (r = .ok v → (before.getLsbD 0 = true → ∀ e ∈ v.core.l1, e.of s.pos = false) ∧
        (before.getLsbD 1 = true → ∀ e ∈ v.core.wloads, e.sheet = s.pos → e.got.isSome = true) ∧
        (before.getLsbD 2 = true → v.sh.vq = []))) ∧
    (∀ (l : List Phys), s.Reaches .load (s.xr a) 64 64 l → s.releasedTo (s.xr a) 64 u → s.Inv →
      let sad := s.sh.spr.sad
      (u.poolBusy sad = true → WaitsOn (.gnode d a) s fun t => { t with sh := u.sh } = u) ∧
      (u.poolBusy sad = false → u.freeRecord sad = none → Gives (.gnode d a) s fun t => Done s t ∧ XIs s t d 0 ∧
        { t with sh := u.sh } = u ∧ u.sh.moved t.sh = { t.sh with x := u.sh.x }) ∧
      (∀ (num : Nat) (rec_ : BitVec 512) (dest : List Phys), u.poolBusy sad = false → u.freeRecord sad = some num → num < 2 ^ 64 →
        u.posted = [] → rec_ = wsetFld (BitVec.ofNat 512 (leNat ((physKeys l).map u.homeByte))) 480 8 1 → recOk rec_ = true → recPred rec_ ≠ 0 →
        rangeOf .store (u.xlateAs (runtimeWho sad) .store) (u.recVa sad num) 64 = .ok dest →
        (∀ k ∈ physKeys dest, u.owned (lineOf k) = false) →
        Gives (.gnode d a) s fun t => Done s t ∧ XIs s t d (BitVec.ofNat 64 num) ∧
          t.nodes = u.nodes ++ [⟨sad, num, rec_, 1, recPred rec_, 0⟩] ∧
          Written u t ((physKeys dest).zip (leBytes 64 rec_.toNat)) ∧ OnlyMem { u with nodes := t.nodes } t ∧
          u.sh.moved t.sh = { t.sh with x := u.sh.x }))

/-- The collectives and the pairs send their parts and wait, and complete when the chunk in hand, their last, has what they
need: `xall` and the root of `xred` take the combined items, `xgath`'s root every member's, `xscat` and `xbcast` the root's,
`xrecv` the peer's; a part is sent once every receiver has a
fabric slot free (R259); the others wait only for their own part to be accepted, `xsend` also when its receiver has completed the pair.
The tail policy fills what is past the items. A group number that the configuration does not have traps 0x01 before a register
that holds no span traps 0x50 (R52, R58, R348, R375 to R379, R382). The model's readings it rests on: DEDUCED, log 58, 59, 60, 63
and 77. -/
def Obligations.Collectives : Prop :=
  ∀ (s : State) (op : RedOp) (ord : Bool) (ty : Fmt) (rnd : Rnd) (d a : VReg) (g : GReg) (root : BitVec 20) (cx : XReg) (sp : Span)
    (x : XCtx) (c : Nat) (ch : Chunk) (part : Nat → List (Nat × Bool)),
    let peer := (s.xr cx).toNat
    let mk := fun k r (d' a' : Option VReg) => (⟨k, .add, false, ty, .rne, d', a', g, r⟩ : XOp)
    let per := fun k : Nat => if ty = .fp4b then (k + 7) / 8 else k
    let n := per s.sh.spr.aecn
    let lo := per (c * s.sh.spr.vln)
    let it := fun v : Nat × Bool => (v.1 % 2 ^ ty.width, if ty = .fp4b then v.2 else true)
    let keep := s.sh.getItem d ty
    let one := fun (l : List (Nat × Bool)) j => if j < lo then keep j else if j < n then it (l.getD (j - lo) (0, true)) else s.tailItem d ty j
    let fl := (sp.chunks.filter fun q => q.pair = x.pair ∧ q.seq = x.seq).foldl (fun f q => f ||| q.flags) 0
    let here := fun o => s.atLast o sp x c ∧ sp.chunk? x.pair x.seq c = some ch
    let sized := fun l : List (Nat × Bool) => l.length = n - lo
    let has := fun m => ch.part m = some (part m)
    (∀ i o w f, (i, o) = (.xall op ord ty rnd d a g, ⟨.all, op, ord, ty, rnd, some d, some a, g, 0⟩) ∨
        ((i, o) = (.xred op ord ty rnd d a g root, ⟨.red, op, ord, ty, rnd, some d, some a, g, root.toNat⟩) ∧ x.rank = root.toNat) →
      here o → ch.result = some w → sized w → f = one w → XFinish i s o (some (d, f)) fl) ∧
    (∀ o, o = ⟨.red, op, ord, ty, rnd, some d, some a, g, root.toNat⟩ → x.rank ≠ root.toNat → here o → has x.rank →
      XFinish (.xred op ord ty rnd d a g root) s o none 0) ∧
    (∀ o, o = mk .gath root.toNat (some d) (some a) → here o →
      (x.rank ≠ root.toNat → has x.rank → XFinish (.xgath ty d a g root) s o none 0) ∧
      (x.rank = root.toNat → (∀ m < x.count, has m ∧ sized (part m)) → XFinish (.xgath ty d a g root) s o
        (some (d, fun j => if x.count * n ≤ j then s.tailItem d ty j else if j % n < lo then keep j
          else it ((part (j / n)).getD (j % n - lo) (0, true)))) fl)) ∧
    (∀ o, o = mk .scat root.toNat (some d) (some a) → here o → has x.rank → sized (part x.rank) →
      XFinish (.xscat ty d a g root) s o (some (d, one (part x.rank))) fl) ∧
    (∀ o, o = mk .bcast root.toNat (some d) (some a) → here o → has root.toNat → sized (part root.toNat) →
      XFinish (.xbcast ty d a g root) s o (some (d, one (part root.toNat))) fl) ∧
    (∀ o, o = mk .send peer none (some a) → (here o ∧ has x.rank) ∨ (s.atLast o sp x c ∧ x.seq < countOf sp.got x.rank peer) →
      XFinish (.xsend ty a g cx) s o none 0) ∧
    (∀ o, o = mk .recv peer (some d) none → here o → has peer → sized (part peer) →
      XFinish (.xrecv ty d g cx) s o (some (d, one (part peer))) fl) ∧
    (∀ i o, ((i, o) = (.xall op ord ty rnd d a g, ⟨.all, op, ord, ty, rnd, some d, some a, g, 0⟩) ∨
        (i, o) = (.xred op ord ty rnd d a g root, ⟨.red, op, ord, ty, rnd, some d, some a, g, root.toNat⟩) ∨
        (i, o) = (.xgath ty d a g root, mk .gath root.toNat (some d) (some a)) ∨
        (i, o) = (.xscat ty d a g root, mk .scat root.toNat (some d) (some a)) ∨
        (i, o) = (.xbcast ty d a g root, mk .bcast root.toNat (some d) (some a)) ∨
        (i, o) = (.xsend ty a g cx, mk .send peer none (some a)) ∨ (i, o) = (.xrecv ty d g cx, mk .recv peer (some d) none)) →
      (o.fieldsOk s.sh = false → Traps i s 0x01 0 0) ∧
      (o.fieldsOk s.sh = true → gValid s.sh.g[g.val] = false →
        Traps i s 0x50 (BitVec.ofNat 64 (gId s.sh.g[g.val] + 6 * 2 ^ 16)) 0) ∧
      (s.joins o sp x → s.sh.spr.xAct = false → sp.chunk? x.pair x.seq 0 = none → x.pairDone sp = false →
        (∀ p ∈ s.packets, ¬ (p.sad = sp.sad ∧ p.id = sp.id ∧ p.gen = sp.gen ∧ p.pair = x.pair ∧ p.seq = x.seq ∧ p.chunk = 0)) →
        XBegins i s o x sp))

/-- `xalloc` completes for the last sheet of the scope to arrive, with the id the first one chose, or with 1 in xD when there
was none; `xfree` makes the register invalid, and the span ends with its last member's. A packet that arrives adds its part
to its chunk, and the last part of `xall` or `xred` combines the members' items, by rank under ORD; a stale, a repeated and
a foreign packet only count. A span aborts once its clock has reached its time-out, and a packet older than its lifetime is lost (R347, R371, R372, R377, R380, R383, R387).
The model's readings it rests on: DEDUCED, log 57, 61 and 62. -/
def Obligations.SpanEvents : Prop :=
  ∀ (s : State) (scp : Scope) (pri : Bool) (d : XReg) (g : GReg) (n : Nat) (p : Packet) (sp : Span),
    let old := fun p : Packet => p.born + 4200000 < s.time.toNat
    let all := participants s.sh.spr.drove (levelOf scp)
    let inst := s.sh.spr.instOf (levelOf scp)
    let me := s.sh.spr.flatIx
    let v := s.sh.g[g.val]
    let kept := fun (t : State) => OnlyOf { s with xwaits := t.xwaits } t fun h => { h with x := s.sh.x, g := s.sh.g }
    let sad := fun (t : State) => t.saddles[(sadOf p.sad).val]
    let tmo := s.saddles[(sadOf sp.sad).val].spanTmo
    let limit := (if tmo = 0 then 4 else tmo.toNat) * 2100000
    (∀ w : XWait, (s.xwaits.find? fun w => w.is s.sh.droveId scp inst && !w.taken.contains me) = some w →
      (insertNat me w.arrived).length = all →
      (w.choice = none → Gives (.xalloc scp pri d g) s fun t => Done s t ∧ XIs s t d 1 ∧ t.sh.g = s.sh.g ∧ kept t) ∧
      (∀ id gen, w.choice = some (id, gen) → s.span? s.sh.spr.sad id gen = some sp → id < 2 ^ 16 → gen < 2 ^ 8 →
        sp.members.length < 2 ^ 20 → me - inst * all < 2 ^ 20 →
        Gives (.xalloc scp pri d g) s fun t => Done s t ∧ XIs s t d 0 ∧ kept t ∧
          (∀ r : GReg, r ≠ g → t.sh.g[r.val] = s.sh.g[r.val]) ∧
          (let q := t.sh.g[g.val]; gId q = id ∧ gGen q = gen ∧ gValid q = true ∧ gAbort q = false ∧ gSeq q = 0 ∧
            gRank q = me - inst * all ∧ wfld q 32 20 = sp.members.length))) ∧
    (gValid v = true → s.span? s.sh.spr.sad (gId v) (gGen v) = some sp → (s.spans.filter fun q => q.sad = sp.sad ∧ q.id = sp.id) = [sp] →
      Gives (.xfree g) s fun t => Done s t ∧ t.sh.g = s.sh.g.set g.val (wsetFld v 28 1 0) ∧
        (t.span? s.sh.spr.sad (gId v) (gGen v) = if (insertNat (gRank v) sp.freed).length = sp.members.length then none
          else some { sp with freed := insertNat (gRank v) sp.freed }) ∧
        s.sh.moved t.sh = { t.sh with g := s.sh.g } ∧
        { t with sh := s.sh, spans := s.spans, saddles := s.saddles } = s) ∧
    (gValid v = false → Gives (.xfree g) s fun t => Done s t ∧ OnlyOf s t id) ∧
    (s.packets[n]? = some p → p.lost = true ∨ old p → exec (.spanPacketReceipt n) s = .next s) ∧
    (s.packets[n]? = some p → p.lost = false → ¬ old p →
      let live := s.span? p.sad p.id p.gen = some sp
      let fresh := match p.pair with
        | none => s.seqInHand sp p.seq = true
        | some (a, b) => countOf sp.got a b ≤ p.seq
      let had := (sp.chunk? p.pair p.seq p.chunk).getD ⟨p.pair, p.seq, p.chunk, p.sig, [], none, 0⟩
      let gone := fun (t : State) => { t with spans := s.spans, saddles := s.saddles } = { s with packets := s.packets.eraseIdx n }
      (s.span? p.sad p.id p.gen = none ∨ (live ∧ ¬ fresh) → Gives (.spanPacketReceipt n) s fun t => gone t ∧ t.spans = s.spans ∧
        sad t = { sad s with stale := satInc (sad s).stale }) ∧
      (live → fresh → (had.part p.member).isSome = true → Gives (.spanPacketReceipt n) s fun t => gone t ∧ t.spans = s.spans ∧
        sad t = { sad s with dup := satInc (sad s).dup }) ∧
      (live → fresh → had.part p.member = none → p.brand ≠ sp.brand → Gives (.spanPacketReceipt n) s fun t => gone t ∧
        t.spans = s.spans ∧ sad t = { sad s with brandc := satInc (sad s).brandc }) ∧
      (live → fresh → had.part p.member = none → p.brand = sp.brand → Gives (.spanPacketReceipt n) s fun t =>
        gone t ∧ t.saddles = s.saddles ∧ ∃ (sp' : Span) (ch : Chunk), t.span? p.sad p.id p.gen = some sp' ∧
          sp'.chunk? p.pair p.seq p.chunk = some ch ∧ ch.parts = had.parts ++ [(p.member, p.elems)] ∧
          (p.sig.headD 0 ≠ 3 → p.sig.headD 0 ≠ 4 → ch.result = had.result) ∧
          (∀ (t : Fmt) (op : RedOp), p.sig = [3, t.code, op.code, 1, 0, p.sig.getD 5 0, 0] → t.isInt = true → op ≠ .swap →
            ch.parts.length = sp.members.length →
            ∃ r, ch.result = some r ∧ ∀ i < ((ch.part 0).getD []).length,
              r.getD i (0, true) = (match (List.range sp.members.length).map (fun m => (((ch.part m).getD []).getD i (0, true)).1) with
                | [] => 0
                | e :: l => l.foldl (fun v e => (redStep op t .rne false v e).1) e, true)))) ∧
    (∀ k, (s.spans.find? fun q => q.sad = k ∧ q.id = n) = none → exec (.spanTimeout k n) s = .next s) ∧
    (∀ k, (s.spans.find? fun q => q.sad = k && q.id = n) = some sp →
      sp.abort.isSome = true ∨ (∀ w ∈ sp.waiters, s.waitsIn sp w = false) ∨ sp.clock < limit → exec (.spanTimeout k n) s = .next s) ∧
    (∀ k w, (s.spans.find? fun q => q.sad = k && q.id = n) = some sp → sp.abort = none → w ∈ sp.waiters → s.waitsIn sp w = true →
      limit ≤ sp.clock → Gives (.spanTimeout k n) s fun t => t.span? sp.sad sp.id sp.gen = some { sp with
        abort := some 1, hits := (sp.waiters.filter (s.inHand sp)).map Prod.fst, waiters := [] } ∧
        ∀ h ∈ t.sheets, h.droveId = sp.drove → ∀ q ∈ h.g.toList, gValid q = true → gId q = sp.id → gGen q = sp.gen → gAbort q = true) ∧
    (s.packets[n]? = some p → ¬ old p → exec (.packetLifetimeExpiry n) s = .next s) ∧
    (s.packets[n]? = some p → old p → Gives (.packetLifetimeExpiry n) s fun t =>
      t.packets = s.packets.set n { p with lost := true } ∧ { t with packets := s.packets } = s)

/-- `srd` reads a register at the level its table row gives and traps 0x02 below it; MPOS gives the waves done by the sheet's oldest
operation of each array, which may come further meanwhile, and zero with none, and TIME is as it stands once it has passed. A number
with no register traps 0x01, in `srd` and in `swr` (R36 to R42, R261, R329).
`swr` writes a register at the level its row gives: bits that are not writable are left, a value that is not allowed traps
0x01 and writes nothing, a level too low traps 0x02, and a register that no level writes traps 0x01. A write of TIME moves the
next round of the fair shares with it, and one of RPST empties the replay buffer. A write of CUTST or XPOS must be 0 and abandons the cut or the
collective; one of CUTST traps 0x40 while a token of the cut is not idle (R36 to R42, R78, R115, R176, R188, R283, R307, R329, R339,
R382). The model's readings it rests on: DESIGN CHOICE, log 8, 10 and 123; DEDUCED, log 24 (the buffer), 37, 63, 79 and 85 (the
round). -/
def Obligations.SpecialRegisters : Prop :=
  (∀ (s : State) (d : XReg) (n : BitVec 12) (lvl : Nat) (v : Word),
     let p := s.sh.spr
     let table : List (Nat × Nat × Word) :=
       [(0x000, 0, setFld p.status 2 2 (if s.cal = BitVec.allOnes 6 then 2 else if s.up = 0 then 0 else 1)),
        (0x001, 0, p.brand), (0x002, 0, BitVec.ofNat 64 (fld p.brand 6 6)), (0x003, 0, p.sheetid), (0x004, 0, p.drove),
        (0x010, 0, p.vcfg), (0x011, 0, p.aec), (0x012, 0, p.vl), (0x013, 0, p.epos), (0x014, 0, p.grpl), (0x015, 0, p.fstat),
        (0x016, 0, p.rpst), (0x020, 0, p.prog0), (0x021, 0, p.prog1), (0x022, 0, p.prog2), (0x023, 0, p.ebrk),
        (0x031, 0, p.cutst), (0x032, 0, p.xpos), (0x033, 0, p.mshape), (0x040, 1, p.tcause), (0x041, 1, p.tval), (0x042, 1, p.tpc),
        (0x043, 1, p.tstatus), (0x044, 1, p.tvec), (0x045, 1, p.faddr), (0x050, 0, 24), (0x051, 0, s.sh.ostat (s.landedSlots s.sh false false + s.landedSlots s.sh true false)),
        (0x061, 0, p.waves)]
     ((n.toNat, lvl, v) ∈ table → (lvl ≤ fld p.status 0 2 → XDone (.srd d n) s d v) ∧
       (fld p.status 0 2 < lvl → Traps (.srd d n) s 0x02 0 0)) ∧
     ((∀ q ∈ table, q.1 ≠ n.toNat) → n ≠ 0x030#12 → n ≠ 0x060#12 → Traps (.srd d n) s 0x01 0 0) ∧
     (∃ v, Gives (.srd d 0x030#12) s fun t => Done s t ∧ XIs s t d v ∧
       (∀ arr : Fin 2, fld v (32 * arr.val) 24 = (match t.core.queue[arr.val].find? fun o => o.sheet = s.pos with
           | none => 0
           | some o => o.wavesAt ((o.prog.map OpProg.steps).getD 0) % 2 ^ 24) ∧
         t.core.queue[arr.val].map (fun o => { o with prog := none }) = s.core.queue[arr.val].map fun o => { o with prog := none }) ∧
       { t with sh := s.sh, free := s.free, core := { t.core with queue := s.core.queue, z := s.core.z, sbuf := s.core.sbuf } } = s ∧
       s.sh.moved t.sh = { t.sh with x := s.sh.x }) ∧
     (∃ v, Gives (.srd d 0x060#12) s fun t => Done s t ∧ XIs s t d v ∧ v = t.time ∧ (s.timeOn = false → v = s.time) ∧
       { t with sh := s.sh, time := s.time, free := s.free, saddles := s.saddles, spans := s.spans } = s ∧
       s.sh.moved t.sh = { t.sh with x := s.sh.x })) ∧
  (∀ (s : State) (a : XReg) (n : BitVec 12) (lvl : Nat) (ok : Prop) (q : Spr),
     let p := s.sh.spr
     let v := s.xr a
     let rc := 2 ^ fld p.vcfg 5 3
     let low := fun m : Nat => v.toNat < 2 ^ m
     let sized := fun (vl aec : Nat) => vl ≤ 16384 / rc ∧ aec ≤ 16384 ∧ aec ≤ rc * vl
     let priv := fld p.status 0 2
     let table : List (Nat × Nat × Prop × Spr) :=
       [(0x000, 0, True, { p with status := setFld p.status 4 1 (fld v 4 1) }),
        (0x011, 0, sized p.vl.toNat v.toNat, { p with aec := v }), (0x012, 0, sized v.toNat p.aec.toNat, { p with vl := v }),
        (0x013, 1, low 14, { p with epos := v }), (0x014, 1, v.toNat ≤ 4, { p with grpl := v }), (0x015, 0, low 6, { p with fstat := v }),
        (0x020, 1, True, { p with prog0 := v &&& 0xFFFFFFFFFFFF#64 }), (0x021, 1, True, { p with prog1 := v &&& 0xFFFFFFFFFF#64 }),
        (0x022, 1, True, { p with prog2 := v }), (0x023, 0, True, { p with ebrk := v }),
        (0x030, 1, v = 0 ∧ ∀ k : KReg, s.sh.k[k.val].st ≠ .pending, p),
        (0x033, 1, v &&& ~~~(0x1FF7F7F#64) = 0#64 ∧ fld v 0 7 ≤ 64 ∧ fld v 8 7 ≤ 64 ∧ fld v 16 9 ≤ 256, { p with mshape := v }),
        (0x040, 1, low 8, { p with tcause := v }), (0x041, 1, True, { p with tval := v }), (0x042, 1, True, { p with tpc := v }),
        (0x043, 1, low 6 ∧ fld v 0 2 ≠ 2 ∧ fld v 0 2 ≤ priv, { p with tstatus := v }),
        (0x044, 1, canonical v = true ∧ slotStart v = true, { p with tvec := v }), (0x045, 1, True, { p with faddr := v })]
     let rpst := v &&& ~~~(0x1F1FFF#64) = 0#64 ∧ rpLen v ≤ 32 ∧ (rpAct v = true → rpPos v < rpLen v)
     ((n.toNat, lvl, ok, q) ∈ table →
       (lvl ≤ priv → ok → Gives (.swr n a) s fun t => Done s t ∧ t.sh.spr = { q with rpst := t.sh.spr.rpst } ∧
         OnlyOf s t fun h => { h with spr := { p with rpst := h.spr.rpst } }) ∧
       (lvl ≤ priv → ¬ ok → Traps (.swr n a) s 0x01 0 0) ∧ (priv < lvl → Traps (.swr n a) s 0x02 0 0)) ∧
     (1 ≤ priv → rpst → Gives (.swr 0x016#12 a) s fun t => t.sh.pc = nextPc s.sh.pc ∧ t.sh.run = .ready ∧
       t.sh.spr = { p with rpst := v } ∧ t.sh.rbuf = [] ∧ OnlyOf s t fun h => { h with rbuf := s.sh.rbuf, spr := { p with rpst := v } }) ∧
     (1 ≤ priv → ¬ rpst → Traps (.swr 0x016#12 a) s 0x01 0 0) ∧ (priv = 0 → Traps (.swr 0x016#12 a) s 0x02 0 0) ∧
     (priv = 3 → Gives (.swr 0x060#12 a) s fun t => Done s t ∧ s.sh.moved t.sh = t.sh ∧
       { t with sh := s.sh } = { s with time := v, roundAt := s.roundAt + (v - s.time) }) ∧
     (priv < 3 → Traps (.swr 0x060#12 a) s 0x02 0 0) ∧
     (n.toNat ∈ [0x001, 0x002, 0x003, 0x004, 0x050, 0x051, 0x061] → Traps (.swr n a) s 0x01 0 0) ∧
     (n.toNat ∉ [0x000, 0x001, 0x002, 0x003, 0x004, 0x010, 0x011, 0x012, 0x013, 0x014, 0x015, 0x016, 0x020, 0x021, 0x022, 0x023, 0x030,
       0x031, 0x032, 0x033, 0x040, 0x041, 0x042, 0x043, 0x044, 0x045, 0x050, 0x051, 0x060, 0x061] → Traps (.swr n a) s 0x01 0 0) ∧
     (1 ≤ priv → v = 0 → (∀ k : KReg, s.sh.ctok.getLsbD k.val = true → s.sh.k[k.val].st = .idle) → Gives (.swrCutst a) s fun t =>
       Done s t ∧ fld t.sh.spr.cutst 0 2 = 0 ∧ (∀ i, 2 ≤ i → t.sh.spr.cutst.getLsbD i = p.cutst.getLsbD i) ∧
       OnlyOf s t fun h => { h with spr := { h.spr with cutst := p.cutst } }) ∧
     (1 ≤ priv → v = 0 → (∃ k : KReg, s.sh.ctok.getLsbD k.val = true ∧ s.sh.k[k.val].st ≠ .idle) → ∃ k : KReg,
       s.sh.ctok.getLsbD k.val = true ∧ s.sh.k[k.val].st ≠ .idle ∧ Traps (.swrCutst a) s 0x40 (BitVec.ofNat 64 k.val) 0) ∧
     (1 ≤ priv → v = 0 → Gives (.swrXpos a) s fun t => Done s t ∧ t.sh.spr.xpos = 0 ∧
       OnlyOf s t fun h => { h with spr := { h.spr with xpos := p.xpos } }) ∧
     (1 ≤ priv → v ≠ 0 → Traps (.swrCutst a) s 0x01 0 0 ∧ Traps (.swrXpos a) s 0x01 0 0) ∧
     (priv = 0 → Traps (.swrCutst a) s 0x02 0 0 ∧ Traps (.swrXpos a) s 0x02 0 0))

/-- Trap entry: `trap` raises 0x70 with its code, to resume at the next slot, and a word with no instruction raises 0x01, with
its record's place in a packed image, which FADDR takes at every 0x01. The trap registers take the cause, the value, the address, the
slot and STATUS with the loop's SUSP; U becomes S and S and M stay; a loop is suspended; the Outrider's work ahead is discarded but
for a fault that a reader took; a pre-emption that waited behind a timer trap stops the sheet next; the sheet goes on at TVEC, and no
other register changes (R58, R66, R260, R281, R282, R284). `sret` and `mret` return from a handler: PRIV and SUSP come from TSTATUS, the PC from TPC; SVC and
SHORT stay. A PRIV that is not allowed traps 0x01, a TPC that is no canonical slot start 0x04 with TVAL the TPC, and a level
too low 0x02. `idle` waits while the event queue is empty and takes nothing from it (R284, R285). The model's readings it
rests on: DEDUCED, log 27 and 30. -/
def Obligations.TrapsAndReturns : Prop :=
  ((∀ (s : State) (code : BitVec 12), exec (.trap code) s = .next (s.takeTrap 0x70 (code.zeroExtend 64) 0 (nextPc s.sh.pc))) ∧
   (∀ (s : State), s.sh.run ≠ .off → s.nextWord.bind decode = none → Traps .illegalInstruction s 0x01 0 0) ∧
   (∀ (s : State) (l : Line), s.sh.lineAt s.sh.pc = some l → s.recOff s.sh.pc = l.recs.getD (slotOf s.sh.pc) 0) ∧
   (∀ (s t : State) (cause : Nat) (value address slot : Word), cause < 256 → t = s.takeTrap cause value address slot →
     let p := s.sh.spr
     let q := t.sh.spr
     q.tcause = BitVec.ofNat 64 cause ∧ q.tval = value ∧ q.tpc = slot ∧
     q.faddr = (if cause = 0x01 then BitVec.ofNat 64 (s.recOff s.sh.pc) else address) ∧
     (∀ i, q.tstatus.getLsbD i = if i = 5 then p.rpst.getLsbD 6 else s.status.getLsbD i) ∧
     fld q.status 0 2 = (if fld p.status 0 2 = 0 then 1 else fld p.status 0 2) ∧
     (∀ i, 2 ≤ i → q.status.getLsbD i = p.status.getLsbD i) ∧
     (∀ i, q.rpst.getLsbD i = if i = 6 then p.rpst.getLsbD 6 || p.rpst.getLsbD 7 else p.rpst.getLsbD i) ∧
     t.sh.pc = p.tvec ∧ t.sh.run = .ready ∧ { t with sh := s.sh } = s ∧ t.sh.lines = [] ∧ t.sh.ahead = [] ∧ t.sh.rbuf = [] ∧
     (∀ n : Fin 4, t.sh.bslots[n.val] = (s.sh.bslots[n.val].take 1).filter fun sl => sl.taken) ∧
     t.sh.irq = (if cause ≠ 0x32 then settleIrq s.sh.irq else if s.sh.preAfter = true then some (.preempt, none) else none) ∧
     t.sh.preAfter = (s.sh.preAfter && cause != 0x32) ∧
     { t.sh with
       pc := s.sh.pc, run := s.sh.run, lines := s.sh.lines, rbuf := s.sh.rbuf, ahead := s.sh.ahead, irq := s.sh.irq
       bslots := s.sh.bslots, preAfter := s.sh.preAfter
       spr := { q with
         tcause := p.tcause, tval := p.tval, faddr := p.faddr, tpc := p.tpc, tstatus := p.tstatus, status := p.status
         rpst := p.rpst } } = s.sh)) ∧
  (∀ (s : State) (i : Instr) (least most : Nat), (i, least, most) = (.sret, 1, 1) ∨ (i, least, most) = (.mret, 3, 3) →
     let p := s.sh.spr
     let level := fld p.status 0 2
     let priv := fld p.tstatus 0 2
     let good := canonical p.tpc = true ∧ slotStart p.tpc = true
     (level < least → Traps i s 0x02 0 0) ∧
     (least ≤ level → priv = 2 ∨ most < priv → Traps i s 0x01 0 0) ∧
     (least ≤ level → priv ≠ 2 → priv ≤ most → ¬ good → Traps i s 0x04 p.tpc 0) ∧
     (least ≤ level → priv ≠ 2 → priv ≤ most → good → Gives i s fun t =>
       fld t.sh.spr.status 0 2 = priv ∧ (∀ j, 2 ≤ j → t.sh.spr.status.getLsbD j = p.status.getLsbD j) ∧
       (∀ j, t.sh.spr.rpst.getLsbD j = if j = 6 then p.tstatus.getLsbD 5 else p.rpst.getLsbD j) ∧ t.sh.pc = p.tpc ∧
       t.sh.run = .ready ∧ { t with sh := s.sh } = s ∧ t.sh.ahead = [] ∧
       (∀ n : Fin 4, t.sh.bslots[n.val] = (s.sh.bslots[n.val].take 1).filter fun sl => sl.taken) ∧
       { t.sh with
         pc := s.sh.pc, run := s.sh.run, lines := s.sh.lines, rbuf := s.sh.rbuf, ahead := s.sh.ahead, irq := s.sh.irq
         bslots := s.sh.bslots
         spr := { t.sh.spr with status := p.status, rpst := p.rpst } } = s.sh) ∧
     (1 ≤ level → s.sh.evq.words = [] → Waits .idle s) ∧
     (1 ≤ level → s.sh.evq.words ≠ [] → Gives .idle s fun t => Done s t ∧ OnlyOf s t id) ∧
     (level = 0 → Traps .idle s 0x02 0 0))

/-- `tlbi` removes from every sheet and every core the translations of a page, of a saddle or of all, once every probed store is
written and no copy in flight has a page of them still to write, and traps below its level, `tlbi.va` on an address that is not canonical with 0x10 and the address (DEDUCED, log 78);
`ctxsave`, after a release, writes the sheet's record and clears its tags, and `ctxrest`, after one, loads one whose fields are good,
TPC and TSTATUS coming from its PC and STATUS; `einj` plants an error where an entry is resident (R210, R272, R289 to R291, R293,
R298). The model's readings it rests on: DEDUCED, log 14, 33, 78 and 79; DESIGN CHOICE, log 34 and 35. -/
def Obligations.SystemClass : Prop :=
  ∀ (s u : State) (full : Bool) (a b d : XReg) (kind : BitVec 2) (st : Fin 9) (l : List Phys) (rec_ : List Byte),
    let va := s.xr a
    let level := fld s.sh.spr.status 0 2
    let sad := s.sh.spr.sad
    let v := s.drainAll
    let engine := fld va 61 3 * 4 + fld va 53 8
    let drops := fun (i : Instr) (gone : Xlate → Bool) =>
      let kept := ∃ e ∈ s.engines.toList, ∃ c ∈ e.queue, ∃ x ∈ c.pages, gone x = true
      ((∃ h ∈ v.sheets, h.vq ≠ []) ∨ kept → WaitsOn i s fun t => { t with sh := v.sh } = v) ∧
      ((∀ h ∈ v.sheets, h.vq = []) → ¬ kept → Gives i s fun t => Done s t ∧
        t.sh.tlb = (if s.sh.run = .off then s.sh.tlb else s.sh.tlb.filter fun x => !gone x) ∧
        t.rest = v.rest.map (fun h => { h with tlb := h.tlb.filter fun x => !gone x }) ∧
        t.core = { v.core with tlb := v.core.tlb.filter fun x => !gone x } ∧
        t.cores = v.cores.map (fun c => { c with tlb := c.tlb.filter fun x => !gone x }) ∧
        { t with sh := v.sh, rest := v.rest, core := v.core, cores := v.cores } = v ∧
        v.sh.moved t.sh = { t.sh with tlb := v.sh.tlb })
    (1 ≤ level → canonical va = true → drops (.tlbiVa a) fun x => x.sad = sad && x.vbase = va.toNat / 2 ^ x.bits) ∧
    (1 ≤ level → canonical va = false → Traps (.tlbiVa a) s 0x10 va va) ∧
    (1 ≤ level → drops .tlbiSad fun x => x.sad = sad) ∧ (level = 3 → drops .tlbiAll fun _ => true) ∧
    (level = 0 → Traps (.tlbiVa a) s 0x02 0 0 ∧ Traps .tlbiSad s 0x02 0 0 ∧ Traps (.ctxsave full a) s 0x02 0 0 ∧
      Traps (.ctxrest a) s 0x02 0 0) ∧
    (level < 3 → Traps .tlbiAll s 0x02 0 0 ∧ Traps (.einj kind st d a b) s 0x02 0 0) ∧
    (1 ≤ level → va.toNat % 4096 ≠ 0 → Traps (.ctxsave full a) s 0x04 va va ∧ Traps (.ctxrest a) s 0x04 va va) ∧
    (∀ st, s.release = .error st → 1 ≤ level → va.toNat % 4096 = 0 → exec (.ctxrest a) s = .next st.take ∧
      ((∀ k : KReg, s.sh.k[k.val].st ≠ .pending) → exec (.ctxsave full a) s = .next st.take)) ∧
    (1 ≤ level → va.toNat % 4096 = 0 → s.release = .ok u → u.Inv → (∀ k : KReg, s.sh.k[k.val].st ≠ .pending) →
      u.range .store va 187648 = .ok l → ((physKeys l).map addrOf).Nodup → (∀ k ∈ physKeys l, u.owned (lineOf k) = false) →
      let at_ := fun (t : State) o n => leNat ((((physKeys l).drop o).take n).map t.view)
      let p := s.sh.spr
      Gives (.ctxsave full a) s fun t => Done s t ∧ OnlyMem u t ∧
        u.sh.moved t.sh = { t.sh with
          tlb := u.sh.tlb, vdirty := s.sh.vdirty, vtouch := s.sh.vtouch, mdirty := s.sh.mdirty, mtouch := s.sh.mtouch } ∧
        t.sh.vdirty = 0 ∧ t.sh.mdirty = 0 ∧ (∀ r : Fin 64, t.sh.vtouch[r.val] = 0) ∧ (∀ r : MReg, t.sh.mtouch[r.val] = 0) ∧
        (∀ k, addrOf k ∉ (physKeys l).map addrOf → t.view k = u.view k) ∧
        at_ t 0 8 = 1 + p.brand12.toNat * 2 ^ 16 ∧ at_ t 8 8 = p.tpc.toNat ∧ at_ t 16 8 = p.tstatus.toNat ∧
        (∀ r : XReg, at_ t (0x20 + 8 * r.val) 8 = (s.xr r).toNat) ∧ (∀ r : FReg, at_ t (0x120 + 8 * r.val) 8 = (s.fr r).toNat) ∧
        at_ t 0x1A0 8 = p.vcfg.toNat ∧ at_ t 0x1A8 8 = p.aec.toNat ∧ at_ t 0x1B0 8 = p.vl.toNat ∧ at_ t 0x1D0 8 = p.rpst.toNat ∧
        at_ t 0x230 8 = p.tvec.toNat ∧ (∀ r : DReg, at_ t (0x1500 + 128 * r.val) 128 = s.sh.d[r.val].toNat) ∧
        (∀ r < p.nreg, ∀ o < p.rbytes, full = true ∨ o < s.sh.vtouch.toList.getD r 0 →
          at_ t (0xDD00 + r * p.rbytes + o) 1 = (s.sh.vstore.byte (r * p.rbytes + o)).toNat)) ∧
    (1 ≤ level → va.toNat % 4096 = 0 → s.release = .ok u → u.range .load va 187648 = .ok l → u.firstPoison l = none →
      (∀ k ∈ physKeys l, u.owned (lineOf k) = false) → rec_ = (physKeys l).map u.homeByte → (∀ q ∈ u.recChecks rec_, q.2 = true) →
      let w := fun o => BitVec.ofNat 64 (leNat ((rec_.drop o).take 8))
      Gives (.ctxrest a) s fun t => t.sh.pc = nextPc s.sh.pc ∧ t.sh.run = .ready ∧
        (∀ r : XReg, t.xr r = if r = 0 then 0 else w (0x20 + 8 * r.val)) ∧ (∀ r : FReg, t.fr r = w (0x120 + 8 * r.val)) ∧
        t.sh.spr.tpc = w 8 ∧ t.sh.spr.tstatus = w 16 ∧ t.sh.spr.vcfg = w 0x1A0 ∧ t.sh.spr.aec = w 0x1A8 ∧ t.sh.spr.vl = w 0x1B0 ∧
        t.sh.spr.tvec = w 0x230 ∧ t.sh.spr.status = s.sh.spr.status ∧ t.sh.spr.brand = s.sh.spr.brand ∧
        t.sh.spr.sheetid = s.sh.spr.sheetid ∧ t.sh.spr.drove = s.sh.spr.drove ∧ t.sh.vdirty = 0 ∧ t.sh.mdirty = 0 ∧
        (∀ k : KReg, t.sh.k[k.val].st ≠ .pending) ∧ (∀ o < 131072, t.sh.vstore.byte o = rec_.getD (0xDD00 + o) 0) ∧
        { t with sh := u.sh, core := { t.core with tlb := u.core.tlb } } = u) ∧
    (level = 3 → injOk st va = true → s.injResident st va = false → Gives (.einj kind st d a b) s fun t => Done s t ∧ XIs s t d 1 ∧
      { t with sh := s.sh, free := s.free } = s ∧ s.sh.moved t.sh = { t.sh with x := s.sh.x }) ∧
    (level = 3 → injOk st va = true → s.injResident st va = true → Gives (.einj kind st d a b) s fun t => Done s t ∧ XIs s t d 0 ∧
      s.sh.moved t.sh = { t.sh with x := s.sh.x } ∧
      (st.val = 0 ∧ kind = 1 → t.planted = s.planted ∧ lineOf va.toNat ∈ t.poison) ∧
      (st.val = 8 ∧ kind.toNat ≤ 1 → t.planted = s.planted ∧
        (t.engineAt engine).badCodes = insertNat (fld va 0 48) (s.engineAt engine).badCodes) ∧
      (¬ (st.val = 0 ∧ kind = 1) → ¬ (st.val = 8 ∧ kind.toNat ≤ 1) →
        { t with sh := s.sh, free := s.free } = { s with planted := s.planted ++ [⟨kind, st, va, s.xr b⟩] })) ∧
    (level = 3 → injOk st va = false → Traps (.einj kind st d a b) s 0x01 0 0)

/-- Only a trap raises a U-level sheet's level: an instruction that a sheet at level U executes leaves the sheet in focus at
level U, or at level S at its handler's slot (R27, R281, R285). -/
def Obligations.LevelsRiseByTraps : Prop :=
  ∀ (s t : State) (i : Instr), fld s.sh.spr.status 0 2 = 0 → (∃ w, encode i = some w) → exec i s = .next t →
    fld t.sh.spr.status 0 2 = 0 ∨ (fld t.sh.spr.status 0 2 = 1 ∧ t.sh.pc = s.sh.spr.tvec)

/-- What the units of a core do for a sheet. LINE_FETCH keeps a line whose seal is right; a wrong seal traps 0x03, and at TVEC
it ends the drove with a trap-loop event. A satisfied wait gives its sheet a turn. An evicted line's dirty bytes stand in
memory. A dropped translation is gone. The Outrider's loads and fills change no register and no memory: they take fabric slots, at
most 24 of a core, and hold what they read, a load some items at a time, a fill all the items of its read, anew when AEC differs
(R22, R47, R50, R161, R198, R199, R250, R259, R260, R267, R276, R281). The model's readings it rests on: DEDUCED, log 28, 36, 63 and
99. -/
def Obligations.CoreEvents : Prop :=
  ∀ (s : State) (p : Phys) (n k line : Nat) (o : OReg),
    let h := s.sh
    let b := (keysFrom p.key 64).map s.homeByte
    let read := ∀ w ∈ s.core.wloads, w.sheet = s.pos → w.got.isSome = true
    let crc := crc32c (b.take 60)
    let fetches := h.run ≠ .off ∧ h.lineAt h.pc = none ∧ s.packedLine (lineAddr h.pc) = none ∧
      s.xlate .fetch (lineAddr h.pc) = .ok p ∧ s.poisoned (lineOf p.key) = false ∧ s.owned (lineOf p.key) = false
    (fetches → leNat (b.drop 60) = crc.toNat → Gives (.lineFetch false) s fun t =>
      t.sh = { h with
        lines := ⟨(lineAddr h.pc).toNat, b, []⟩ :: h.lines.filter fun k => k.near h.pc && k.addr ≠ (lineAddr h.pc).toNat
        tlb := t.sh.tlb } ∧
      { t with sh := h, core := { t.core with tlb := s.core.tlb } } = s) ∧
    (fetches → leNat (b.drop 60) ≠ crc.toNat → h.pc ≠ h.spr.tvec →
      Traps (.lineFetch false) s 0x03 (crc.zeroExtend 64) (lineAddr h.pc)) ∧
    (fetches → leNat (b.drop 60) ≠ crc.toNat → h.pc = h.spr.tvec → s.posted = [] → ∃ u : State, (∀ k ∈ u.sheets, k.droveId ≠ h.droveId) ∧
      u.droves = s.droves.filter (fun d => d.id ≠ h.droveId) ∧ u.mem = s.mem ∧
      exec (.lineFetch false) s = .next (u.postEvent h.spr.sad 4 3 h.spr.brand12 h.spr.flatIx 0 h.spr.tvec.toNat)) ∧
    (∀ k, s.sheetAt n = some k → exec (.waitSatisfied n) s =
      .next (if k.run = .waiting then { s with agenda := .run n :: s.agenda } else s)) ∧
    (s.sheetAt n = none → exec (.waitSatisfied n) s = .next s) ∧
    (s.Inv → Gives (.l1Eviction line) s fun t => t.core.l1 = s.core.l1.filter (fun d => lineOf d.key ≠ line) ∧
      (∀ k, t.homeByte k = match s.core.l1.find? fun d => addrOf d.key = addrOf k ∧ lineOf d.key = line with
        | some d => decipher (sealOf d.key) (sealOf k) (addrOf k) d.byte
        | none => s.homeByte k) ∧
      { s.memBack t with core := { t.core with l1 := s.core.l1 } } = s ∧ t.cores = s.cores) ∧
    exec (.tlbCapacityDrop true n) s = .next { s with core := { s.core with tlb := s.core.tlb.eraseIdx n } } ∧
    exec (.tlbCapacityDrop false n) s = .next { s with sh := { h with tlb := h.tlb.eraseIdx n } } ∧
    (∀ i ∈ [Instr.outriderIssue n, .loadPerformed ⟨n, k⟩, .bindingFill o], i = .outriderIssue n ∨ read → Gives i s fun t =>
      { t.sh with ahead := h.ahead, bslots := h.bslots, tlb := h.tlb } = h ∧
      { t with sh := h, core := { t.core with tlb := s.core.tlb } } = s) ∧
    (∀ (q : LoadAt) (l : Look), s.loadAhead n = some (q, l) →
      let slots := slotsFor q.ty l.s.sh.spr.aecn
      (1 ≤ n → (∀ a ∈ h.ahead, a.dist ≠ n) → s.slotsHeld + slots ≤ 24 →
        Gives (.outriderIssue n) s fun t => t.sh.ahead = q.entry l n [] :: h.ahead) ∧
      (24 < s.slotsHeld + slots → exec (.outriderIssue n) s = .next s) ∧
      (∀ e : Ahead, (h.ahead.find? fun a => { a with got := [] } = q.entry l n []) = some e → l.waits = false →
        q.held l.locks = false → read →
        let tile := q.tile.bind s.tile?
        let todo := q.addrs.zipIdx.filterMap fun r => if (e.got.getD r.2 none).isSome then none else r.1.map fun a => (r.2, a)
        let now := readNext q.ty todo k todo.length
        s.readHeld q.ty tile q.ranges (q.addrs.zipIdx.map fun r => if now.contains r.2 then r.1 else none) = false →
        Gives (.loadPerformed ⟨n, k⟩) s fun t => ∃ got, t.sh.ahead = { e with got := got } :: h.ahead.filter (fun a => a.dist ≠ n) ∧
          got.length = q.addrs.length ∧ ∀ j < q.addrs.length, got.getD j none = match e.got.getD j none with
            | some v => some v
            | none => if j ∈ now then (q.addrs.getD j none).map (s.readAt q.ty tile) else none)) ∧
    (∀ (ty : Fmt) (l : Look), osFmt h.o[o.val] = some ty → s.readAhead o 0 = some l → l.cfg = true → l.waits = false → read →
      let m := l.s.sh.spr.aecn
      (∀ sl, h.bslots[o.val].head? = some sl → sl.start ≠ osNext h.o[o.val] ∨ sl.count ≠ m) →
      ((l.s.sh.pc = h.pc ∧ l.reads = []) ∨ s.slotsHeld + slotsFor ty m ≤ 24) →
      let addrs := (List.range m).map fun j =>
        some (osBase h.o[o.val] + BitVec.ofNat 64 (osNext h.o[o.val] + j) * osStride h.o[o.val]).toNat
      (LoadAt.whole ty addrs none).held l.locks = false → s.readHeld ty none (LoadAt.whole ty addrs none).ranges addrs = false →
      Gives (.bindingFill o) s fun t => t.sh.bslots = h.bslots.set o.val
        [⟨osNext h.o[o.val], m, addrs.map fun a => (a.map (s.readAt ty none)).getD (.val 0), false⟩])

/-- The life of a drove. Placement takes a ready launch node's sheets to free cores in the state of R36, with the launch's PC,
x1, level, brand and coordinates; pre-emption saves its sheets as they are and frees its cores, and restore gives them other
places; retirement, once the drove is quiet (DEDUCED, log 89), frees what it holds and leads to its node's completion, and removal
ends it with no event. A timer signals every sheet, a pre-emption standing behind it. A round, which TIME is made to reach (DESIGN
CHOICE, log 8), sets shares and deficits, and while coolant and service allow it pre-empts droves of saddles above their share until
the ready droves of saddles with a share fit, no two on one core (R23 to R26, R29, R36, R39, R282, R286, R288, R292, R392, R393).
Other readings of the model it rests on: DESIGN CHOICE, log 6, log 97 (the number of a drove), log 10; DEDUCED, log 85 to 88;
PRESUMED, log 90. -/
def Obligations.DroveEvents : Prop :=
  ∀ (s : State) (sad node id slot : Nat) (cores : List Nat) (c : Cand) (n : Node) (d : Drove) (img : Image) (ws : List Window)
    (elem : Option Nat),
    let u := s.elapse
    let gone := fun t : State => ∀ h ∈ t.sheets, h.droveId ≠ id
    let fires := fun (e : Option Nat) (h : Sheet) => match h.irq with
      | none => { h with irq := some (.timer, e) }
      | some (.preempt, k) => { h with irq := some (.timer, k), preAfter := true }
      | some (.timer, _) => h
    let holds := fun t : State => (∀ q ∈ t.tiles, q.drove ≠ id) ∧ (∀ q ∈ t.bars, q.drove ≠ id) ∧ (∀ q ∈ t.windows, q.drove ≠ id) ∧
      (∀ q ∈ t.spans, q.drove ≠ id) ∧ t.droves = s.droves.filter fun q => q.id ≠ id
    (u.cands.find? (fun q => q.sad = sad && !q.saved && q.num = node) = some c → u.node? sad node = some n → u.freeSlot sad = some slot →
      u.grantWindows (s.ids + 1) c.shape c.cwin cores (fun _ => []) = some ws → u.mayPlace sad = true → u.firstOf c = true →
      u.coresOk c.shape cores = true → Gives (.drovePlacement sad node cores) s fun t =>
        t.droves = s.droves ++ [⟨s.ids + 1, sad, slot, node, c.shape, c.cls, recLvl n.body, c.cwin, cores, .resident, s.ids + 1, false, false⟩] ∧
        t.windows = s.windows ++ ws ∧ t.node? sad node = some { n with st := 3 } ∧
        ∀ k < cores.length, ∀ p < nSheets c.shape, ∃ h ∈ t.rest, h.place = 4 * cores.getD k 0 + p ∧ h.droveId = s.ids + 1 ∧
          h.pc = recP0 n.body ∧ (∀ r : XReg, h.x[r.val] = if r = 1 then recP1 n.body else 0) ∧ h.run = .ready ∧
          h.spr = { Spr.reset with
            status := BitVec.ofNat 64 (recLvl n.body), brand := BitVec.ofNat 64 (sad * 64 + slot)
            sheetid := mkSheetId c.shape k p, drove := mkDrove c.shape, tvec := s.saddles[(sadOf sad).val].tvecDef } ∧
          h.f = Vector.replicate 16 0 ∧ h.vstore = [] ∧ h.m = Vector.replicate 24 0 ∧ h.d = Vector.replicate 16 0 ∧
          (∀ q : KReg, h.k[q.val].st = .idle) ∧ (∀ q : GReg, gValid h.g[q.val] = false) ∧ h.evq.words = []) ∧
    (u.coresOk c.shape cores = false → u.cands.find? (fun q => q.sad = sad && !q.saved && q.num = node) = some c →
      exec (.drovePlacement sad node cores) s = .next u) ∧
    (s.resident? id = some d → d.id = id → ∀ v, u.stopSheets ((u.sheets.filter fun h => h.droveId = id).map Sheet.place) = .ok v →
      Gives (.preEmption id none) s fun t => gone t ∧
        (∃ k, t.saved = v.saved ++ [k] ∧ k.drove = id ∧ k.recs = (v.sheets.filter fun h => h.droveId = id).map fun h => ⟨0x31, { h with
          lines := [], rbuf := [], ahead := [], bslots := Vector.replicate 4 [], vq := [], irq := none, preAfter := false, tlb := []
          run := if h.run = .halted then .halted else .ready }⟩) ∧
        (∀ q ∈ t.droves, q.id = id → q.st = .saved) ∧ t.spans = v.spans ∧ t.tiles = v.tiles) ∧
    (∀ k, s.resident? id = some d → s.sh.droveId = id → s.sh.run = .ready → Gives (.preEmption id (some k)) s fun t =>
      t.mem = s.mem ∧ t.sh = (match s.sh.irq with
        | some (.timer, e) => { s.sh with irq := some (.timer, e.map fun n => min n k), preAfter := true }
        | _ => { s.sh with irq := some (.preempt, some k) }) ∧
        t.agenda = .run s.sh.place :: .ev (.preEmption id none) :: s.agenda) ∧
    (s.resident? id = none → exec (.preEmption id elem) s = .next s) ∧
    (u.drove? id = some d → u.saved.find? (fun i => i.drove = id) = some img → u.cands.find? (fun q => q.saved && q.num = id) = some c →
      u.grantWindows id d.shape d.cwin cores (u.countersOf id) = some ws → u.mayPlace d.sad = true → u.firstOf c = true →
      u.coresOk d.shape cores = true → (∀ q ∈ s.tiles, q.drove ≠ id) → Gives (.restore id cores) s fun t =>
        (∀ r ∈ img.recs, let h := r.sheet; ∃ k ∈ t.rest, k.place = 4 * cores.getD (h.spr.flatIx / nSheets d.shape) 0 + h.spr.flatIx % nSheets d.shape ∧
          { k with place := h.place, irq := h.irq } = h ∧
          k.irq = if h.run ≠ .halted ∧ d.missed = true then some (.timer, none) else none) ∧
        (∀ q ∈ img.cores, ∃ k ∈ t.cores, { k with place := q.place } = q ∧ k.place = cores.getD q.place 0) ∧
        (∀ q ∈ t.droves, q.id = id → q.st = .resident ∧ q.cores = cores) ∧ t.saved = s.saved.filter fun i => i.drove ≠ id) ∧
    (s.drove? id = some d → d.timer = true → d.st = .resident → s.sh.droveId ≠ id → Gives (.timerExpiry id elem) s fun t =>
      t.rest = s.rest.map (fun h => if h.droveId = id ∧ h.run ≠ .halted then fires none h else h) ∧
        { t with rest := s.rest } = s) ∧
    (s.drove? id = some d → d.timer = true → d.st = .resident → s.sh.droveId = id → s.sh.run = .ready →
      Gives (.timerExpiry id elem) s fun t => t.sh = fires elem s.sh) ∧
    (s.drove? id = some d → d.timer = true → d.st = .saved → Gives (.timerExpiry id elem) s fun t =>
      t.droves = s.droves.map (fun q => if q.id = id then { q with missed := true } else q) ∧ { t with droves := s.droves } = s) ∧
    (∀ q, s.drove? id = some q → q.timer = false → exec (.timerExpiry id elem) s = .next s) ∧
    (s.resident? id = some d → s.quiet d = true → Gives (.droveRetirement id) s fun t =>
      gone t ∧ holds t ∧ t.agenda = .ev (.nodeComplete d.sad d.node) :: s.agenda ∧
        (∀ q, s.node? d.sad d.node = some q → t.node? d.sad d.node = some { q with st := 4 })) ∧
    (s.resident? id = some d → s.quiet d = false → exec (.droveRetirement id) s = .next s) ∧
    (s.drove? id = some d → Gives (.droveRemoval id) s fun t => gone t ∧ holds t ∧ t.out = s.out ∧
      (∀ e : Fin 24, ∀ q ∈ t.engines[e.val].queue, q.drove ≠ id)) ∧
    (s.timeOn = true → s.time.toNat ≤ s.roundAt.toNat + 2100000 → s.roundAt.toNat + 2100000 < 2 ^ 64 →
      Gives .drrRound s fun t => t.time = s.roundAt + 2100000#64 ∧ t.roundAt = t.time ∧
        (∀ k : Fin 64, s.hasWork k.val = true → t.saddles[k.val].share = 384 * 2100000 * s.saddles[k.val].weight.toNat / s.allWeight ∧
          t.saddles[k.val].deficit ≤ t.saddles[k.val].share ∧
          ((∀ q ∈ s.droves, q.sad < 64) → t.saddles[k.val].deficit = t.saddles[k.val].share +
            min (s.saddles[k.val].deficit - s.coresOf k.val * (s.roundAt.toNat + 2100000 - s.time.toNat : Nat)) 0)) ∧
        (∀ k : Fin 64, s.hasWork k.val = false → t.saddles[k.val].share = 0 ∧ t.saddles[k.val].deficit = 0) ∧
        { t with time := s.time, roundAt := s.roundAt, saddles := s.saddles, spans := s.spans, agenda := s.agenda } = s ∧
        ∃ (out : List Nat) (made : List (Cand × List Nat)),
          t.agenda = out.map (fun id => .ev (.preEmption id none)) ++ made.map Cand.turn ++ s.agenda ∧
          (s.coolantOk = false ∨ s.svc = 0 → out = [] ∧ made = []) ∧
          (s.coolantOk = true → s.svc ≠ 0 → (out, made) = makeRoom s.cands { t with agenda := s.agenda } [] [] []) ∧
          (∀ i ∈ out, ∃ q ∈ s.droves, q.id = i ∧ q.st = .resident ∧
            (t.saddles[(sadOf q.sad).val]).share < s.coresOf q.sad * 2100000) ∧
          (∀ q ∈ made, q.1 ∈ s.cands ∧ shapeCores q.1.shape * 2100000 ≤ (t.saddles[(sadOf q.1.sad).val]).share ∧
            ∀ i ∈ q.2, s.coreFree i = true ∨ ∃ h ∈ s.sheets, coreOf h.place = i ∧ h.droveId ∈ out) ∧
          made.Pairwise fun a b => List.Disjoint a.2 b.2) ∧
    (s.timeOn = false → exec .drrRound s = .next s)

/-- The nodes of a graph. GO, as time passes, copies a valid record, which is ready at once with no predecessor; it waits behind the
copies while one owns the record's line; a number out of range and a record that is not valid are node errors, of brand 0 (DESIGN
CHOICE, log 82). A node completes: it leaves, its record takes STATE 4, or 0 in the device pool, and its successors, one after another,
count one predecessor less and are ready at none. A copy node enters engine 0 of die 0; a host event enters a sheet's queue; a trigger
sets a header's threshold and node (R160, R364, R390 to R392). Other readings of the model it rests on: DESIGN CHOICE, log 8 and 84;
DEDUCED, log 91 and 92. -/
def Obligations.GraphEvents : Prop :=
  ∀ (s : State) (sad num k : Nat) (n m : Node) (p : Phys) (l : List Phys) (b : BitVec 512),
    let who := runtimeWho sad
    let g := s.saddles[(sadOf sad).val]
    let ready := fun kind => s.node? sad num = some n ∧ n.st = 2 ∧ recKind n.body = kind
    let finished := fun t : State => t.node? sad num = some { n with st := 4 } ∧ t.agenda = .ev (.nodeComplete sad num) :: s.agenda
    let u := s.elapse
    let busy := u.readBusy who (s.recVa sad num) 64
    let inRange := 1 ≤ num ∧ num ≤ g.devBase.toNat ∧ num ≤ g.graphN.toNat
    let good := u.readRec sad num = some b ∧ recState b = 1 ∧ recOk b = true
    let others := fun t : State => ∀ a i, (a, i) ≠ (sad, num) → t.node? a i = s.node? a i
    (inRange → busy = false → good → recPred b ≠ 0 → Gives (.go sad num) s fun t =>
      t.node? sad num = some ⟨sad, num, b, 1, recPred b, 0⟩ ∧ others t ∧ { t with nodes := s.nodes } = u) ∧
    (inRange → busy = false → good → recPred b = 0 → Gives (.go sad num) s fun t =>
      t.node? sad num = some ⟨sad, num, b, 2, 0, s.ids⟩ ∧ others t ∧ t.ids = s.ids + 1 ∧ t.agenda = s.agenda) ∧
    (inRange → busy = true → exec (.go sad num) s = .next { u with agenda := u.copyTurns ++ .ev (.go sad num) :: s.agenda }) ∧
    (¬ inRange → exec (.go sad num) s = .next (u.postEvent sad 5 0 0 num 0 0)) ∧
    (inRange → busy = false → (∀ r, u.readRec sad num = some r → recState r ≠ 1 ∨ recOk r = false) →
      exec (.go sad num) s = .next (u.postEvent sad 5 0 0 num 0 0)) ∧
    (s.node? sad num = some n → n.st = 4 → s.Inv → s.posted = [] →
      rangeOf .store (s.xlateAs who .store) (s.recVa sad num + 60) 1 = .ok [p] → s.owned (lineOf p.key) = false →
      (g.devBase.toNat < num → s.tablesApart sad [p.key]) → ∃ v, Written s v [(p.key, if num ≤ g.devBase.toNat then 4 else 0)] ∧
        v.nodes = s.nodes.filter (fun q => !(q.sad = sad && q.num = num)) ∧ OnlyMem { s with nodes := v.nodes } v ∧
        exec (.nodeComplete sad num) s =
          .next (((recSuccs n.body).filter fun q => q ≠ 0).foldl (fun t q => t.decPred sad q) v)) ∧
    (s.node? sad num = some n → n.st ≠ 4 → exec (.nodeComplete sad num) s = .next s) ∧
    (s.node? sad k = some m → m.st = 1 → (1 < m.pred → s.decPred sad k = s.setNode sad k fun q => { q with pred := q.pred - 1 }) ∧
      (m.pred = 1 → ∃ t, s.decPred sad k = t ∧ ∃ q, t.node? sad k = some q ∧ q.st = 2 ∧ q.pred = 0 ∧ q.body = m.body)) ∧
    ((s.node? sad k = none ∨ (s.node? sad k = some m ∧ (m.st ≠ 1 ∨ m.pred = 0))) → s.decPred sad k = s.postEvent sad 5 0 0 k 0 0) ∧
    (ready 1 → ∀ c t, s.nodeCmd n = .ok c → c.items ≠ 0 → s.enqueue 0 c = .ok t →
      Gives (.copyNodeStart sad num) s fun v => v.engines = t.engines ∧ v.node? sad num = some { n with st := 3 }) ∧
    (ready 1 → ∀ c t, s.nodeCmd n = .ok c → c.items ≠ 0 → s.enqueue 0 c = .error t → exec (.copyNodeStart sad num) s = .next s) ∧
    (ready 2 → ∀ d, s.droves.find? (fun d => d.sad = sad && d.node = fld (recP1 n.body) 0 32) = some d →
      fld (recP1 n.body) 32 20 < participants d.shape 5 → Gives (.hostEventPost sad num) s fun t => finished t ∧
        t.rest = s.rest.map (fun h => if h.droveId = d.id ∧ h.spr.flatIx = fld (recP1 n.body) 32 20 then { h with evq :=
          if h.evq.words.length < 8 then { h.evq with words := h.evq.words ++ [recP0 n.body &&& ~~~(1#64 <<< 63)] }
          else { h.evq with lost := true } } else h) ∧ t.mem = s.mem) ∧
    (ready 3 → s.readBusy who (recP0 n.body) 48 = true ∨ s.posted ≠ [] → exec (.triggerNodeWrite sad num) s = .next s) ∧
    (ready 3 → ∀ old : List Byte, s.Inv → s.readAs who (recP0 n.body + 44) 4 = some old → s.readBusy who (recP0 n.body) 48 = false →
      s.posted = [] → (∀ k ∈ physKeys l, s.owned (lineOf k) = false) → l.length = 16 → ((physKeys l).map addrOf).Nodup →
      rangeOf .store (s.xlateAs who .store) (recP0 n.body + 32) 12 = .ok (l.take 12) →
      s.tablesApart sad (physKeys l) → s.cleanAt (physKeys l) →
      rangeOf .store (s.xlateAs who .store) (recP0 n.body + 44) 4 = .ok (l.drop 12) →
      Gives (.triggerNodeWrite sad num) s fun t => finished t ∧ Written s t ((physKeys l).zip (leBytes 8 (recP1 n.body).toNat ++
        leBytes 4 (recNewNode n.body) ++ leBytes 4 (leNat old / 2 * 2))) ∧ OnlyMem { s with nodes := t.nodes, agenda := t.agenda } t)

/-- The saddle's registers. A write that its row allows sets the register; another, one at a read-only register or a reserved offset
among them, is dropped and counted in ERRS. TIMER arms the timer of the live drove that it names, or disarms it by a period of 0, one
timer for a saddle, and is dropped when it names no drove of the saddle (DEDUCED, log 88); ADAPT_N drops the shelves' copies, WEIGHT 0
pre-empts the saddle's droves, and a counter is cleared by 0. A host write reaches the bytes its address maps to, once no copy engine
owns them, and an event takes the next place of the ring or is counted as lost (R209, R389, R391, R393, R395, R396). Errors, failures
and bring-up. A memory line in error is poisoned, a dirty line of a line cache too, and its brand's droves end; an entry's brand ends,
or every brand with an entry in the paddock when it cannot be read; a corrected error is counted. A failed channel, expander or port is
recorded. Firmware runs once its image verifies, and TIME with it; a die that comes up or is calibrated changes the service class, and
every saddle is told; a coolant failure pre-empts every drove. Flits are taken in sequence with a right CRC; the link retrains after a
flit and 16 replays of it have failed, and one lost after a retraining is passed over (R296 to R299, R387, R397 to R400). Other readings of the model it rests on: DESIGN CHOICE, log 12, 35
and 95; DEDUCED, log 29, 33, 93, 94 and 112. -/
def Obligations.ModuleAndHost : Prop :=
  (∀ (s : State) (sad : Nat) (pf : Bool) (v va : Word) (data : List Byte) (l : List Phys) (type cause info count : Nat) (brand : BitVec 12)
     (addr : Word),
     let g := s.saddles[(sadOf sad).val]
     let idle := s.sadBusy sad = false
     let sets := fun (off : Nat) (ok : Prop) (q : Saddle) =>
       (ok → exec (.barRegisterWrite sad off pf v) s = .next (s.setSad sad fun _ => q)) ∧
       (¬ ok → exec (.barRegisterWrite sad off pf v) s = .next (s.setSad sad fun g => { g with errs := satInc g.errs }))
     let clears := fun (off : Nat) (q : Saddle) =>
       (v = 0 → exec (.counterClear sad off v) s = .next (s.setSad sad fun _ => q)) ∧
       (v ≠ 0 → exec (.counterClear sad off v) s = .next (s.setSad sad fun g => { g with errs := satInc g.errs }))
     let period := fld v 0 32
     let named := fun d : Drove => d.sad = sad ∧ d.node = fld v 32 32
     let e := { s with saddles := s.saddles.set (sadOf sad).val { g with events := g.events + 1 } }
     let who := runtimeWho sad
     let dropped := fun i : Instr => exec i s = .next (s.setSad sad fun g => { g with errs := satInc g.errs })
     let free := s.posted = [] ∧ ∀ k ∈ physKeys l, s.owned (lineOf k) = false
     (∀ off, off ∉ [0x000, 0x008, 0x010, 0x018, 0x020, 0x028, 0x030, 0x038, 0x040, 0x048, 0x050, 0x058, 0x060, 0x070, 0x078, 0x080, 0x088,
       0x090, 0x098, 0x0A8] → dropped (.barRegisterWrite sad off pf v)) ∧
     (pf = true → v = 0 → Gives (.barRegisterWrite sad 0x030 pf v) s fun t =>
       t.saddles = s.saddles.set (sadOf sad).val { g with weight := 0 } ∧
       t.agenda = ((s.droves.filter fun d => d.sad = sad && d.st = .resident).map fun d => .ev (.preEmption d.id none)) ++ s.agenda ∧
       { t with saddles := s.saddles, agenda := s.agenda } = s) ∧
     (pf = false → dropped (.barRegisterWrite sad 0x030 pf v)) ∧
     sets 0x008 (idle ∧ v.toNat % 64 = 0) { g with graphBase := v } ∧ sets 0x010 (idle ∧ v.toNat ≤ 2 ^ 20) { g with graphN := v } ∧
     sets 0x018 idle { g with devBase := v } ∧ sets 0x020 idle { g with ptRoot := v } ∧ sets 0x028 True { g with tvecDef := v } ∧
     sets 0x040 (v.toNat ≤ 64) { g with spanTmo := v } ∧ sets 0x050 (idle ∧ v.toNat % 32 = 0) { g with evqBase := v } ∧
     sets 0x058 (idle ∧ (v = 0 ∨ ∃ k, 4 ≤ k ∧ k ≤ 16 ∧ v.toNat = 2 ^ k)) { g with evqLen := v } ∧
     sets 0x060 True { g with evqHead := v } ∧ sets 0x070 (idle ∧ v.toNat % 64 = 0) { g with adaptBase := v } ∧
     (v ≠ 0 → sets 0x030 (pf = true ∧ v.toNat ≤ 64) { g with weight := v }) ∧ (s.adapters = [] → sets 0x048 (pf = true ∧ v.toNat % 4096 = 0) { g with shelf := v }) ∧
     clears 0x080 { g with stale := 0 } ∧ clears 0x088 { g with dup := 0 } ∧ clears 0x090 { g with brandc := 0 } ∧
     clears 0x098 { g with lost := 0 } ∧ clears 0x0A8 { g with errs := 0 } ∧
     ((∃ d ∈ s.droves, named d) → Gives (.timer sad v) s fun t => t.saddles = s.saddles.set (sadOf sad).val { g with timer := v } ∧
       (∀ d, d ∈ t.droves ↔ ∃ q ∈ s.droves, d =
         if q.sad = sad then { q with timer := decide (period ≠ 0 ∧ q.node = fld v 32 32) } else q) ∧
       { t with saddles := s.saddles, droves := s.droves } = s) ∧
     ((∀ d ∈ s.droves, ¬ named d) → dropped (.timer sad v)) ∧
     (v.toNat ≤ 4096 → Gives (.adaptN sad v) s fun t => t.saddles = s.saddles.set (sadOf sad).val { g with adaptN := v } ∧
       (∀ a ∈ t.adapters, a.sad = sad → a.stale = true ∧ s.adUsed a.die sad a.id = true) ∧ { t with saddles := s.saddles, adapters := s.adapters } = s) ∧
     (4096 < v.toNat → dropped (.adaptN sad v)) ∧
     (s.Inv → free → rangeOf .store (s.xlateAs who .store) va data.length = .ok l → Gives (.hostPostedWrite sad va data) s fun t =>
       Written s t ((physKeys l).zip data) ∧ OnlyMem s t) ∧
     (¬ free → rangeOf .store (s.xlateAs who .store) va data.length = .ok l → exec (.hostPostedWrite sad va data) s =
       .next { s with posted := s.posted ++ [⟨sad, who.brand, who.priv, va, data, none⟩] }) ∧
     (∀ x, x.1 ≠ walkWaits → rangeOf .store (s.xlateAs who .store) va data.length = .error x →
       exec (.hostPostedWrite sad va data) s = .next s) ∧
     (g.evqLen = 0 ∨ g.evqTail - g.evqHead = g.evqLen → s.postEvent sad type cause brand info addr count =
       e.setSad sad fun g => { g with lost := satInc g.lost }) ∧
     (g.evqLen ≠ 0 → g.evqTail - g.evqHead ≠ g.evqLen → s.Inv → free → rangeOf .store (s.xlateAs (runtimeWho sad) .store)
         (g.evqBase + BitVec.ofNat 64 (32 * (g.evqTail.toNat % g.evqLen.toNat))) 32 = .ok l →
       ∃ t, s.postEvent sad type cause brand info addr count = t ∧ Written s t ((physKeys l).zip
           (leBytes 1 type ++ leBytes 1 cause ++ leBytes 2 brand.toNat ++ leBytes 4 info ++ leBytes 8 addr.toNat ++ leBytes 8 count ++
             leBytes 8 (g.events + 1).toNat)) ∧
         t.saddles = s.saddles.set (sadOf sad).val { g with events := g.events + 1, evqTail := g.evqTail + 1 } ∧
         t.out = s.out ++ [.msix (sad % 64)])) ∧
  (∀ (s : State) (kind inst pa ch port img die fn msg : Nat) (brand : BitVec 12) (flit : BitVec 2048) (p : Port),
     let reason := if kind = 6 then 4 else 1
     let poisons := fun pa : Nat => { s with poison := insertNat (lineOf pa) s.poison }
     let seq := flit.toNat / 2 ^ (8 * 248) % 2 ^ 32
     let good := flit.toNat / 2 ^ (8 * 252) = (crc32c (leBytes 252 flit.toNat)).toNat
     let portIs := fun (t : State) (q : Port) => (∀ k : Fin 64, t.ports[k.val] = if k.val = port then q else s.ports[k.val]) ∧
       { t with ports := s.ports } = s
     let runs := fun (n : Nat) (t : State) => t = { s with
       fw := .running, image := n, timeOn := true, roundAt := s.time
       saddles := s.saddles.map fun g => { g with deficit := 0, share := 0 } }
     let told := fun t : State => t.postAll 7 (t.svc + t.up.toNat * 256 + t.cal.toNat * 65536)
     exec (.uncorrectableError (.cleanLine pa)) s = .next s ∧
     (s.planted = [] → exec (.uncorrectableError (.memLine pa)) s = .next (poisons pa)) ∧
     (s.planted = [] → exec (.uncorrectableError (.dirtyLine 1 inst pa (some brand))) s = .next (s.killBrand brand 1 inst 1 0)) ∧
     (s.planted = [] → kind ≠ 1 → exec (.uncorrectableError (.dirtyLine kind inst pa (some brand))) s =
       .next (if brand = 0 then s else (poisons pa).killBrand brand 7 inst 1 0)) ∧
     (s.planted = [] → exec (.uncorrectableError (.entry kind inst (some brand))) s = .next (s.killBrand brand kind inst reason 0)) ∧
     (s.planted = [] → exec (.uncorrectableError (.entry kind inst none)) s =
       .next ((s.brandsIn kind inst).foldl (fun u b => u.killBrand b kind inst 2 0) s)) ∧
     (∀ d ∈ s.droves, brand ≠ 0 → d.sad = brand.toNat / 64 → (brand.toNat % 64 = 63 ∨ d.slot = brand.toNat % 64) →
       ∀ q ∈ (s.killBrand brand kind inst reason 0).droves, q.id ≠ d.id) ∧
     (s.planted = [] → Gives (.correctableError kind inst) s fun t =>
       (∃ m, (kind, inst, m + 1) ∈ t.corrected ∧ (∀ q ∈ s.corrected, q.1 = kind → q.2.1 = inst → ∃ r ∈ s.corrected, r.1 = kind ∧ r.2.1 = inst ∧ r.2.2 = m) ∧
         ((∀ q ∈ s.corrected, ¬ (q.1 = kind ∧ q.2.1 = inst)) → m = 0)) ∧ { t with corrected := s.corrected } = s) ∧
     (ch < 192 → Gives (.channelFailure ch) s fun t => (∃ c ∈ t.deadChannels, c.val = ch) ∧ (∀ c ∈ s.deadChannels, c ∈ t.deadChannels) ∧
       { t with deadChannels := s.deadChannels } = s) ∧
     (port < 4 → Gives (.expanderRemoval port) s fun t => (∃ c ∈ t.deadPorts, c.val = port) ∧ (∀ c ∈ s.deadPorts, c ∈ t.deadPorts) ∧
       { t with deadPorts := s.deadPorts } = s) ∧
     (∀ k : Fin 64, k.val = port → s.ports[k.val] = p →
       (Gives (.harnessPortFailure port) s fun t => portIs t { p with failed := true }) ∧
       (Gives (.linkRetrain port) s fun t => portIs t (if 17 ≤ p.fails then { p with fails := 0, retrained := true } else p)) ∧
       (p.failed = true → exec (.flitReceipt port flit) s = .next s) ∧
       (p.failed = false → ¬ good → Gives (.flitReceipt port flit) s fun t => portIs t
         (if p.retrained then { p with seq := p.seq + 1, fails := 0, retrained := false } else { p with fails := min 17 (p.fails + 1) })) ∧
       (p.failed = false → good → seq = p.seq.toNat → Gives (.flitReceipt port flit) s fun t => portIs t
         { p with seq := p.seq + 1, fails := 0, retrained := false }) ∧
       (p.failed = false → good → seq ≠ p.seq.toNat → exec (.flitReceipt port flit) s = .next s)) ∧
     (s.fw = .off → Config.verifies 0 = true → Gives .powerOn s (runs 0)) ∧
     (s.fw = .off → Config.verifies 0 = false → exec .powerOn s = .next { s with fw := .recovery }) ∧
     (s.fw ≠ .off → exec .powerOn s = .next s) ∧
     (s.fw = .recovery → Config.verifies img = true → Gives (.recoveryImageWrite img) s (runs img)) ∧
     (s.fw ≠ .recovery ∨ Config.verifies img = false → exec (.recoveryImageWrite img) s = .next s) ∧
     (s.fw = .running → die < 6 → s.up.getLsbD die = false → ∃ v : BitVec 6, (∀ k, v.getLsbD k = (s.up.getLsbD k || decide (k = die))) ∧
       exec (.dieUp die) s = .next (told { s with up := v })) ∧
     (die < 6 → s.up.getLsbD die = true → s.cal.getLsbD die = false → ∃ v : BitVec 6,
       (∀ k, v.getLsbD k = (s.cal.getLsbD k || decide (k = die))) ∧ exec (.dieCalibrated die) s = .next (told { s with cal := v })) ∧
     exec .coolantOutOfRange s = .next (({ s with
       coolantOk := false
       agenda := ((s.droves.filter fun d => d.st = .resident).map fun d => .ev (.preEmption d.id none)) ++ s.agenda } : State).postAll 8 0) ∧
     exec .coolantRestored s = .next { s with coolantOk := true } ∧
     (fn ≤ 64 → exec (.spdmRequest fn msg) s =
       .next { s with out := s.out ++ [.spdm fn (Config.spdmReply fn msg s.image s.disabledUnits)] }) ∧
     (64 < fn → exec (.spdmRequest fn msg) s = .next s))
end

