-- ==== Sys2Proof/Laws/Memory.lean ====
section
/-! SUPPORT. The canonical form of memory: every operation keeps it, and a byte read after a write.
-/
namespace Sys2Proof.Machine

theorem Memory.wfFrom_mono {lo hi : Nat} (h : lo ≤ hi) : ∀ {m : Memory}, Memory.wfFrom hi m = true → Memory.wfFrom lo m = true
  | [], _ => rfl
  | (a, b) :: m, w => by
    simp [Memory.wfFrom] at w ⊢
    exact ⟨⟨by omega, w.1.2⟩, w.2⟩

theorem Memory.byte_below {k : Nat} : ∀ {lo : Nat} {m : Memory}, Memory.wfFrom lo m = true → k < lo → m.byte k = 0
  | _, [], _, _ => rfl
  | lo, (a, b) :: m, w, h => by
    simp [Memory.wfFrom] at w
    simp [Memory.byte, show a ≠ k by omega, show k < a by omega]

theorem Memory.setByte_wfFrom {k : Nat} {v : Byte} : ∀ {lo : Nat} {m : Memory}, Memory.wfFrom lo m = true → lo ≤ k →
    Memory.wfFrom lo (m.setByte k v) = true
  | lo, [], _, h => by
    by_cases hv : v = 0#8 <;> simp [Memory.setByte, Memory.wfFrom, hv, h]
  | lo, (a, b) :: m, w, h => by
    simp [Memory.wfFrom] at w
    obtain ⟨⟨h1, h2⟩, h3⟩ := w
    by_cases hak : a < k
    · have := Memory.setByte_wfFrom (v := v) h3 (by omega : a + 1 ≤ k)
      simp [Memory.setByte, Memory.wfFrom, hak, h1, h2, this]
    · by_cases hk : a = k
      · subst hk
        by_cases hv : v = 0#8
        · simp [Memory.setByte, hv, Memory.wfFrom_mono (by omega : lo ≤ a + 1) h3]
        · simp [Memory.setByte, Memory.wfFrom, hv, h1, h3]
      · by_cases hv : v = 0#8
        · simp [Memory.setByte, Memory.wfFrom, hak, hk, hv, h1, h2, h3]
        · simp [Memory.setByte, Memory.wfFrom, hak, hk, hv, h, h2, h3, show k + 1 ≤ a by omega]

/-- Setting a byte keeps the canonical form. -/
theorem Memory.setByte_wf {m : Memory} (w : m.wf = true) (k : Nat) (v : Byte) : (m.setByte k v).wf = true :=
  Memory.setByte_wfFrom w (Nat.zero_le k)

theorem Memory.byte_setByte_from {k j : Nat} {v : Byte} : ∀ {lo : Nat} {m : Memory}, Memory.wfFrom lo m = true →
    (m.setByte k v).byte j = if k = j then v else m.byte j
  | _, [], _ => by
    unfold Memory.setByte
    split
    · split <;> simp_all [Memory.byte]
    · by_cases h : k = j <;> simp [Memory.byte, h]
  | lo, (a, b) :: m, w => by
    simp [Memory.wfFrom] at w
    obtain ⟨⟨h1, h2⟩, h3⟩ := w
    unfold Memory.setByte
    by_cases hak : a < k
    · have ih := Memory.byte_setByte_from (k := k) (j := j) (v := v) h3
      simp only [hak, if_true, Memory.byte, ih]
      by_cases hj : a = j
      · simp [hj, show k ≠ j by omega]
      · by_cases hja : j < a
        · simp [hj, hja, show k ≠ j by omega]
        · simp [hj, hja]
    · by_cases hk : a = k
      · subst hk
        by_cases hv : v = 0#8
        · by_cases hj : a = j
          · subst hj
            simp [hv, Memory.byte_below h3 (Nat.lt_succ_self a)]
          · by_cases hja : j < a
            · simp [hv, hj, hja, Memory.byte, Memory.byte_below h3 (show j < a + 1 by omega)]
            · simp [hv, hj, hja, Memory.byte]
        · by_cases hj : a = j <;> simp [hv, hj, Memory.byte]
      · by_cases hv : v = 0#8
        · by_cases hj : k = j
          · subst hj
            simp [hak, hk, hv, Memory.byte, show k < a by omega]
          · simp [hak, hk, hv, hj]
        · by_cases hj : k = j
          · subst hj
            simp [hak, hk, hv, Memory.byte]
          · by_cases hjk : j < k
            · simp [hak, hk, hv, hj, hjk, Memory.byte, show a ≠ j by omega, show j < a by omega]
            · simp [hak, hk, hv, hj, hjk, Memory.byte]

/-- The byte read after a write: the one written there, else the one that stood. -/
theorem Memory.byte_setByte {m : Memory} (w : m.wf = true) (k j : Nat) (v : Byte) :
    (m.setByte k v).byte j = if k = j then v else m.byte j :=
  Memory.byte_setByte_from w

theorem Memory.setBytes_wf : ∀ (l : List Byte) {m : Memory} (a : Nat), m.wf = true → (m.setBytes a l).wf = true
  | [], _, _, w => w
  | b :: l, _, a, w => Memory.setBytes_wf l (a + 1) (Memory.setByte_wf w a b)

theorem Memory.setNat_wf {m : Memory} (w : m.wf = true) (a n v : Nat) : (m.setNat a n v).wf = true :=
  Memory.setBytes_wf _ a w

/-- A run of bytes read after it was written elsewhere or there. -/
theorem Memory.byte_setBytes (j : Nat) : ∀ (l : List Byte) {m : Memory} (a : Nat), m.wf = true →
    (m.setBytes a l).byte j = if a ≤ j ∧ j < a + l.length then l.getD (j - a) 0 else m.byte j
  | [], _, a, _ => by simp [Memory.setBytes]
  | b :: l, m, a, w => by
    rw [Memory.setBytes, Memory.byte_setBytes j l (a + 1) (Memory.setByte_wf w a b), Memory.byte_setByte w]
    by_cases h : a = j
    · subst h; simp
    · by_cases h1 : a + 1 ≤ j ∧ j < a + 1 + l.length
      · obtain ⟨n, hn⟩ : ∃ n, j - a = n + 1 := ⟨j - a - 1, by omega⟩
        simp [h1, show a ≤ j by omega, show j < a + (l.length + 1) by omega, hn, show j - (a + 1) = n by omega]
      · have h2 : ¬(a ≤ j ∧ j < a + (b :: l).length) := by simp; omega
        rw [if_neg h1, if_neg h, if_neg h2]

/-- What is at the homes is canonical: the bytes and the KEYs they were written under. -/
def State.homesWf (s : State) : Prop := s.mem.wf = true ∧ s.seals.wf = true

theorem State.setHome_wf {s : State} (w : s.homesWf) (kv : Nat × Byte) : (s.setHome kv).homesWf :=
  ⟨Memory.setByte_wf w.1 _ _, Memory.setByte_wf w.2 _ _⟩

/-- The byte at a home after one was set there or elsewhere: under its own KEY it reads as it was written (R249). -/
theorem State.homeByte_setHome {s : State} (w : s.homesWf) (kv : Nat × Byte) (k : Nat) :
    (s.setHome kv).homeByte k =
      if addrOf kv.1 = addrOf k then decipher (sealOf kv.1) (sealOf k) (addrOf k) kv.2 else s.homeByte k := by
  have hk : sealOf kv.1 % 256 = sealOf kv.1 := Nat.mod_mod _ _
  simp only [State.homeByte, State.setHome, Memory.byte_setByte w.1, Memory.byte_setByte w.2]
  by_cases h : addrOf kv.1 = addrOf k <;> simp [h, hk]

theorem decipher_self (k a : Nat) (b : Byte) : decipher k k a b = b := if_pos rfl

theorem State.setHomes_wf (l : List (Nat × Byte)) : ∀ {s : State}, s.homesWf → (l.foldl State.setHome s).homesWf := by
  induction l with
  | nil => exact fun w => w
  | cons q l ih => exact fun w => ih (State.setHome_wf w q)

/-! The accesses of the streams (R161, R204): what each leaves at the homes is canonical. -/

theorem State.poke_wf {s : State} (w : s.homesWf) (b : BitVec 12) (uc : Bool) (kvs : List (Nat × Byte)) : (s.poke b uc kvs).homesWf :=
  State.setHomes_wf kvs w

theorem State.writeBack_wf {s : State} (w : s.homesWf) (l : List Dirty) : (s.writeBack l).homesWf := by
  induction l with
  | nil => exact w
  | cons d l ih => exact State.poke_wf ih d.brand false [(d.key, d.byte)]

theorem State.flushHere_wf {s : State} (w : s.homesWf) (p : Dirty → Bool) : (s.flushHere p).homesWf := State.writeBack_wf w _

theorem State.flushOthers_wf {s : State} (w : s.homesWf) (p : Dirty → Bool) : (s.flushOthers p).homesWf := by
  have key : ∀ (cs : List Core) (t : State), t.homesWf → (cs.foldl (fun s c => s.writeBack (c.l1.filter p)) t).homesWf := by
    intro cs
    induction cs with
    | nil => exact fun _ w => w
    | cons c cs ih => exact fun t w => ih _ (State.writeBack_wf w _)
  exact key s.cores s w

theorem State.recallAll_wf {s : State} (w : s.homesWf) (ls : List Nat) : (s.recallAll ls).homesWf :=
  State.flushHere_wf (State.flushOthers_wf w _) _

theorem State.recallOthers_wf {s : State} (w : s.homesWf) (ls : List Nat) : (s.recallOthers ls).homesWf := State.flushOthers_wf w _

theorem State.flushOwn_wf {s : State} (w : s.homesWf) : s.flushOwn.homesWf := State.recallAll_wf w _

theorem State.trimL1_wf {s : State} (w : s.homesWf) : s.trimL1.homesWf := by
  unfold State.trimL1
  dsimp only
  split
  · exact w
  · exact State.flushHere_wf w _

theorem State.vWrite_wf {s : State} (w : s.homesWf) (b : BitVec 12) (uc : Bool) (kvs : List (Nat × Byte)) :
    (s.vWrite b uc kvs).homesWf :=
  State.poke_wf (State.recallAll_wf w _) b uc kvs

theorem State.vRead_wf {s : State} (w : s.homesWf) (keys : List Nat) : (s.vRead keys).2.homesWf := State.recallAll_wf w _

theorem State.sRead_wf {s : State} (w : s.homesWf) (uc : Bool) (keys : List Nat) : (s.sRead uc keys).2.homesWf := by
  cases uc
  · exact State.recallOthers_wf w _
  · exact State.recallAll_wf w _

theorem State.sWrite_wf {s : State} (w : s.homesWf) (uc : Bool) (kvs : List (Nat × Byte)) : (s.sWrite uc kvs).homesWf := by
  cases uc
  · exact State.trimL1_wf (s := { s.recallOthers _ with core := _ }) (State.recallOthers_wf w _)
  · exact State.poke_wf (State.recallAll_wf w _) _ _ kvs

@[simp] theorem State.fill_mem (s : State) (va : Word) : (s.fill va).mem = s.mem := by
  unfold State.fill
  split
  · rfl
  · split
    · rfl
    · split
      · rfl
      · split <;> rfl

@[simp] theorem State.fillAll_mem (l : List Word) : ∀ s : State, (s.fillAll l).mem = s.mem := by
  induction l with
  | nil => intro s; rfl
  | cons a l ih => intro s; exact (ih (s.fill a)).trans (s.fill_mem a)

end Sys2Proof.Machine
end

