-- ==== Sys2Proof/Laws/State.lean ====
section
/-! SUPPORT. One lemma per field of the state per update: what each update leaves and what it sets.
-/
namespace Sys2Proof.Machine

variable (s : State) (h : Sheet)

@[simp] theorem Sheet.setX_pc (r : XReg) (v : Word) : (h.setX r v).pc = h.pc := by unfold Sheet.setX; split <;> rfl
@[simp] theorem Sheet.setX_f (r : XReg) (v : Word) : (h.setX r v).f = h.f := by unfold Sheet.setX; split <;> rfl
@[simp] theorem Sheet.setX_vstore (r : XReg) (v : Word) : (h.setX r v).vstore = h.vstore := by unfold Sheet.setX; split <;> rfl
@[simp] theorem Sheet.setX_bvm (r : XReg) (v : Word) : (h.setX r v).bvm = h.bvm := by unfold Sheet.setX; split <;> rfl
@[simp] theorem Sheet.setX_m (r : XReg) (v : Word) : (h.setX r v).m = h.m := by unfold Sheet.setX; split <;> rfl
@[simp] theorem Sheet.setX_d (r : XReg) (v : Word) : (h.setX r v).d = h.d := by unfold Sheet.setX; split <;> rfl
@[simp] theorem Sheet.setX_k (r : XReg) (v : Word) : (h.setX r v).k = h.k := by unfold Sheet.setX; split <;> rfl
@[simp] theorem Sheet.setX_g (r : XReg) (v : Word) : (h.setX r v).g = h.g := by unfold Sheet.setX; split <;> rfl
@[simp] theorem Sheet.setX_o (r : XReg) (v : Word) : (h.setX r v).o = h.o := by unfold Sheet.setX; split <;> rfl
@[simp] theorem Sheet.setX_vdirty (r : XReg) (v : Word) : (h.setX r v).vdirty = h.vdirty := by unfold Sheet.setX; split <;> rfl
@[simp] theorem Sheet.setX_vtouch (r : XReg) (v : Word) : (h.setX r v).vtouch = h.vtouch := by unfold Sheet.setX; split <;> rfl
@[simp] theorem Sheet.setX_mdirty (r : XReg) (v : Word) : (h.setX r v).mdirty = h.mdirty := by unfold Sheet.setX; split <;> rfl
@[simp] theorem Sheet.setX_mtouch (r : XReg) (v : Word) : (h.setX r v).mtouch = h.mtouch := by unfold Sheet.setX; split <;> rfl
@[simp] theorem Sheet.setX_spr (r : XReg) (v : Word) : (h.setX r v).spr = h.spr := by unfold Sheet.setX; split <;> rfl
@[simp] theorem Sheet.setX_evq (r : XReg) (v : Word) : (h.setX r v).evq = h.evq := by unfold Sheet.setX; split <;> rfl
@[simp] theorem Sheet.setX_lines (r : XReg) (v : Word) : (h.setX r v).lines = h.lines := by unfold Sheet.setX; split <;> rfl
@[simp] theorem Sheet.setX_rbuf (r : XReg) (v : Word) : (h.setX r v).rbuf = h.rbuf := by unfold Sheet.setX; split <;> rfl
@[simp] theorem Sheet.setX_ahead (r : XReg) (v : Word) : (h.setX r v).ahead = h.ahead := by unfold Sheet.setX; split <;> rfl
@[simp] theorem Sheet.setX_bslots (r : XReg) (v : Word) : (h.setX r v).bslots = h.bslots := by unfold Sheet.setX; split <;> rfl
@[simp] theorem Sheet.setX_vq (r : XReg) (v : Word) : (h.setX r v).vq = h.vq := by unfold Sheet.setX; split <;> rfl
@[simp] theorem Sheet.setX_vdone (r : XReg) (v : Word) : (h.setX r v).vdone = h.vdone := by unfold Sheet.setX; split <;> rfl
@[simp] theorem Sheet.setX_irq (r : XReg) (v : Word) : (h.setX r v).irq = h.irq := by unfold Sheet.setX; split <;> rfl
@[simp] theorem Sheet.setX_preAfter (r : XReg) (v : Word) : (h.setX r v).preAfter = h.preAfter := by unfold Sheet.setX; split <;> rfl
@[simp] theorem Sheet.setX_ctok (r : XReg) (v : Word) : (h.setX r v).ctok = h.ctok := by unfold Sheet.setX; split <;> rfl
@[simp] theorem Sheet.setX_run (r : XReg) (v : Word) : (h.setX r v).run = h.run := by unfold Sheet.setX; split <;> rfl
@[simp] theorem Sheet.setX_place (r : XReg) (v : Word) : (h.setX r v).place = h.place := by unfold Sheet.setX; split <;> rfl
@[simp] theorem Sheet.setX_droveId (r : XReg) (v : Word) : (h.setX r v).droveId = h.droveId := by unfold Sheet.setX; split <;> rfl
@[simp] theorem Sheet.setX_tlb (r : XReg) (v : Word) : (h.setX r v).tlb = h.tlb := by unfold Sheet.setX; split <;> rfl
@[simp] theorem Sheet.setX_zero (v : Word) : h.setX 0 v = h := rfl
@[simp] theorem Sheet.setF_pc (r : FReg) (v : Word) : (h.setF r v).pc = h.pc := rfl
@[simp] theorem Sheet.setF_x (r : FReg) (v : Word) : (h.setF r v).x = h.x := rfl
@[simp] theorem Sheet.setF_f (r : FReg) (v : Word) : (h.setF r v).f = h.f.set r.val v := rfl
@[simp] theorem Sheet.setF_vstore (r : FReg) (v : Word) : (h.setF r v).vstore = h.vstore := rfl
@[simp] theorem Sheet.setF_bvm (r : FReg) (v : Word) : (h.setF r v).bvm = h.bvm := rfl
@[simp] theorem Sheet.setF_m (r : FReg) (v : Word) : (h.setF r v).m = h.m := rfl
@[simp] theorem Sheet.setF_d (r : FReg) (v : Word) : (h.setF r v).d = h.d := rfl
@[simp] theorem Sheet.setF_k (r : FReg) (v : Word) : (h.setF r v).k = h.k := rfl
@[simp] theorem Sheet.setF_g (r : FReg) (v : Word) : (h.setF r v).g = h.g := rfl
@[simp] theorem Sheet.setF_o (r : FReg) (v : Word) : (h.setF r v).o = h.o := rfl
@[simp] theorem Sheet.setF_vdirty (r : FReg) (v : Word) : (h.setF r v).vdirty = h.vdirty := rfl
@[simp] theorem Sheet.setF_vtouch (r : FReg) (v : Word) : (h.setF r v).vtouch = h.vtouch := rfl
@[simp] theorem Sheet.setF_mdirty (r : FReg) (v : Word) : (h.setF r v).mdirty = h.mdirty := rfl
@[simp] theorem Sheet.setF_mtouch (r : FReg) (v : Word) : (h.setF r v).mtouch = h.mtouch := rfl
@[simp] theorem Sheet.setF_spr (r : FReg) (v : Word) : (h.setF r v).spr = h.spr := rfl
@[simp] theorem Sheet.setF_evq (r : FReg) (v : Word) : (h.setF r v).evq = h.evq := rfl
@[simp] theorem Sheet.setF_lines (r : FReg) (v : Word) : (h.setF r v).lines = h.lines := rfl
@[simp] theorem Sheet.setF_rbuf (r : FReg) (v : Word) : (h.setF r v).rbuf = h.rbuf := rfl
@[simp] theorem Sheet.setF_ahead (r : FReg) (v : Word) : (h.setF r v).ahead = h.ahead := rfl
@[simp] theorem Sheet.setF_bslots (r : FReg) (v : Word) : (h.setF r v).bslots = h.bslots := rfl
@[simp] theorem Sheet.setF_vq (r : FReg) (v : Word) : (h.setF r v).vq = h.vq := rfl
@[simp] theorem Sheet.setF_vdone (r : FReg) (v : Word) : (h.setF r v).vdone = h.vdone := rfl
@[simp] theorem Sheet.setF_irq (r : FReg) (v : Word) : (h.setF r v).irq = h.irq := rfl
@[simp] theorem Sheet.setF_preAfter (r : FReg) (v : Word) : (h.setF r v).preAfter = h.preAfter := rfl
@[simp] theorem Sheet.setF_ctok (r : FReg) (v : Word) : (h.setF r v).ctok = h.ctok := rfl
@[simp] theorem Sheet.setF_run (r : FReg) (v : Word) : (h.setF r v).run = h.run := rfl
@[simp] theorem Sheet.setF_place (r : FReg) (v : Word) : (h.setF r v).place = h.place := rfl
@[simp] theorem Sheet.setF_droveId (r : FReg) (v : Word) : (h.setF r v).droveId = h.droveId := rfl
@[simp] theorem Sheet.setF_tlb (r : FReg) (v : Word) : (h.setF r v).tlb = h.tlb := rfl
@[simp] theorem State.setX_core (r : XReg) (v : Word) : (s.setX r v).core = s.core := rfl
@[simp] theorem State.setX_rest (r : XReg) (v : Word) : (s.setX r v).rest = s.rest := rfl
@[simp] theorem State.setX_cores (r : XReg) (v : Word) : (s.setX r v).cores = s.cores := rfl
@[simp] theorem State.setX_mem (r : XReg) (v : Word) : (s.setX r v).mem = s.mem := rfl
@[simp] theorem State.setX_seals (r : XReg) (v : Word) : (s.setX r v).seals = s.seals := rfl
@[simp] theorem State.setX_lcache (r : XReg) (v : Word) : (s.setX r v).lcache = s.lcache := rfl
@[simp] theorem State.setX_lineBrands (r : XReg) (v : Word) : (s.setX r v).lineBrands = s.lineBrands := rfl
@[simp] theorem State.setX_poison (r : XReg) (v : Word) : (s.setX r v).poison = s.poison := rfl
@[simp] theorem State.setX_deadChannels (r : XReg) (v : Word) : (s.setX r v).deadChannels = s.deadChannels := rfl
@[simp] theorem State.setX_deadPorts (r : XReg) (v : Word) : (s.setX r v).deadPorts = s.deadPorts := rfl
@[simp] theorem State.setX_planted (r : XReg) (v : Word) : (s.setX r v).planted = s.planted := rfl
@[simp] theorem State.setX_corrected (r : XReg) (v : Word) : (s.setX r v).corrected = s.corrected := rfl
@[simp] theorem State.setX_tiles (r : XReg) (v : Word) : (s.setX r v).tiles = s.tiles := rfl
@[simp] theorem State.setX_bars (r : XReg) (v : Word) : (s.setX r v).bars = s.bars := rfl
@[simp] theorem State.setX_engines (r : XReg) (v : Word) : (s.setX r v).engines = s.engines := rfl
@[simp] theorem State.setX_packets (r : XReg) (v : Word) : (s.setX r v).packets = s.packets := rfl
@[simp] theorem State.setX_spans (r : XReg) (v : Word) : (s.setX r v).spans = s.spans := rfl
@[simp] theorem State.setX_xwaits (r : XReg) (v : Word) : (s.setX r v).xwaits = s.xwaits := rfl
@[simp] theorem State.setX_windows (r : XReg) (v : Word) : (s.setX r v).windows = s.windows := rfl
@[simp] theorem State.setX_reserves (r : XReg) (v : Word) : (s.setX r v).reserves = s.reserves := rfl
@[simp] theorem State.setX_nodes (r : XReg) (v : Word) : (s.setX r v).nodes = s.nodes := rfl
@[simp] theorem State.setX_droves (r : XReg) (v : Word) : (s.setX r v).droves = s.droves := rfl
@[simp] theorem State.setX_saved (r : XReg) (v : Word) : (s.setX r v).saved = s.saved := rfl
@[simp] theorem State.setX_adapters (r : XReg) (v : Word) : (s.setX r v).adapters = s.adapters := rfl
@[simp] theorem State.setX_saddles (r : XReg) (v : Word) : (s.setX r v).saddles = s.saddles := rfl
@[simp] theorem State.setX_ports (r : XReg) (v : Word) : (s.setX r v).ports = s.ports := rfl
@[simp] theorem State.setX_fw (r : XReg) (v : Word) : (s.setX r v).fw = s.fw := rfl
@[simp] theorem State.setX_up (r : XReg) (v : Word) : (s.setX r v).up = s.up := rfl
@[simp] theorem State.setX_cal (r : XReg) (v : Word) : (s.setX r v).cal = s.cal := rfl
@[simp] theorem State.setX_coolantOk (r : XReg) (v : Word) : (s.setX r v).coolantOk = s.coolantOk := rfl
@[simp] theorem State.setX_time (r : XReg) (v : Word) : (s.setX r v).time = s.time := rfl
@[simp] theorem State.setX_timeOn (r : XReg) (v : Word) : (s.setX r v).timeOn = s.timeOn := rfl
@[simp] theorem State.setX_roundAt (r : XReg) (v : Word) : (s.setX r v).roundAt = s.roundAt := rfl
@[simp] theorem State.setX_packed (r : XReg) (v : Word) : (s.setX r v).packed = s.packed := rfl
@[simp] theorem State.setX_posted (r : XReg) (v : Word) : (s.setX r v).posted = s.posted := rfl
@[simp] theorem State.setX_image (r : XReg) (v : Word) : (s.setX r v).image = s.image := rfl
@[simp] theorem State.setX_out (r : XReg) (v : Word) : (s.setX r v).out = s.out := rfl
@[simp] theorem State.setX_free (r : XReg) (v : Word) : (s.setX r v).free = s.free := rfl
@[simp] theorem State.setX_agenda (r : XReg) (v : Word) : (s.setX r v).agenda = s.agenda := rfl
@[simp] theorem State.setX_ids (r : XReg) (v : Word) : (s.setX r v).ids = s.ids := rfl
@[simp] theorem State.setX_sh (r : XReg) (v : Word) : (s.setX r v).sh = s.sh.setX r v := rfl
@[simp] theorem State.setF_core (r : FReg) (v : Word) : (s.setF r v).core = s.core := rfl
@[simp] theorem State.setF_rest (r : FReg) (v : Word) : (s.setF r v).rest = s.rest := rfl
@[simp] theorem State.setF_cores (r : FReg) (v : Word) : (s.setF r v).cores = s.cores := rfl
@[simp] theorem State.setF_mem (r : FReg) (v : Word) : (s.setF r v).mem = s.mem := rfl
@[simp] theorem State.setF_seals (r : FReg) (v : Word) : (s.setF r v).seals = s.seals := rfl
@[simp] theorem State.setF_lcache (r : FReg) (v : Word) : (s.setF r v).lcache = s.lcache := rfl
@[simp] theorem State.setF_lineBrands (r : FReg) (v : Word) : (s.setF r v).lineBrands = s.lineBrands := rfl
@[simp] theorem State.setF_poison (r : FReg) (v : Word) : (s.setF r v).poison = s.poison := rfl
@[simp] theorem State.setF_deadChannels (r : FReg) (v : Word) : (s.setF r v).deadChannels = s.deadChannels := rfl
@[simp] theorem State.setF_deadPorts (r : FReg) (v : Word) : (s.setF r v).deadPorts = s.deadPorts := rfl
@[simp] theorem State.setF_planted (r : FReg) (v : Word) : (s.setF r v).planted = s.planted := rfl
@[simp] theorem State.setF_corrected (r : FReg) (v : Word) : (s.setF r v).corrected = s.corrected := rfl
@[simp] theorem State.setF_tiles (r : FReg) (v : Word) : (s.setF r v).tiles = s.tiles := rfl
@[simp] theorem State.setF_bars (r : FReg) (v : Word) : (s.setF r v).bars = s.bars := rfl
@[simp] theorem State.setF_engines (r : FReg) (v : Word) : (s.setF r v).engines = s.engines := rfl
@[simp] theorem State.setF_packets (r : FReg) (v : Word) : (s.setF r v).packets = s.packets := rfl
@[simp] theorem State.setF_spans (r : FReg) (v : Word) : (s.setF r v).spans = s.spans := rfl
@[simp] theorem State.setF_xwaits (r : FReg) (v : Word) : (s.setF r v).xwaits = s.xwaits := rfl
@[simp] theorem State.setF_windows (r : FReg) (v : Word) : (s.setF r v).windows = s.windows := rfl
@[simp] theorem State.setF_reserves (r : FReg) (v : Word) : (s.setF r v).reserves = s.reserves := rfl
@[simp] theorem State.setF_nodes (r : FReg) (v : Word) : (s.setF r v).nodes = s.nodes := rfl
@[simp] theorem State.setF_droves (r : FReg) (v : Word) : (s.setF r v).droves = s.droves := rfl
@[simp] theorem State.setF_saved (r : FReg) (v : Word) : (s.setF r v).saved = s.saved := rfl
@[simp] theorem State.setF_adapters (r : FReg) (v : Word) : (s.setF r v).adapters = s.adapters := rfl
@[simp] theorem State.setF_saddles (r : FReg) (v : Word) : (s.setF r v).saddles = s.saddles := rfl
@[simp] theorem State.setF_ports (r : FReg) (v : Word) : (s.setF r v).ports = s.ports := rfl
@[simp] theorem State.setF_fw (r : FReg) (v : Word) : (s.setF r v).fw = s.fw := rfl
@[simp] theorem State.setF_up (r : FReg) (v : Word) : (s.setF r v).up = s.up := rfl
@[simp] theorem State.setF_cal (r : FReg) (v : Word) : (s.setF r v).cal = s.cal := rfl
@[simp] theorem State.setF_coolantOk (r : FReg) (v : Word) : (s.setF r v).coolantOk = s.coolantOk := rfl
@[simp] theorem State.setF_time (r : FReg) (v : Word) : (s.setF r v).time = s.time := rfl
@[simp] theorem State.setF_timeOn (r : FReg) (v : Word) : (s.setF r v).timeOn = s.timeOn := rfl
@[simp] theorem State.setF_roundAt (r : FReg) (v : Word) : (s.setF r v).roundAt = s.roundAt := rfl
@[simp] theorem State.setF_packed (r : FReg) (v : Word) : (s.setF r v).packed = s.packed := rfl
@[simp] theorem State.setF_posted (r : FReg) (v : Word) : (s.setF r v).posted = s.posted := rfl
@[simp] theorem State.setF_image (r : FReg) (v : Word) : (s.setF r v).image = s.image := rfl
@[simp] theorem State.setF_out (r : FReg) (v : Word) : (s.setF r v).out = s.out := rfl
@[simp] theorem State.setF_free (r : FReg) (v : Word) : (s.setF r v).free = s.free := rfl
@[simp] theorem State.setF_agenda (r : FReg) (v : Word) : (s.setF r v).agenda = s.agenda := rfl
@[simp] theorem State.setF_ids (r : FReg) (v : Word) : (s.setF r v).ids = s.ids := rfl
@[simp] theorem State.setF_sh (r : FReg) (v : Word) : (s.setF r v).sh = s.sh.setF r v := rfl
@[simp] theorem State.mapSpr_core (g : Spr → Spr) : (s.mapSpr g).core = s.core := rfl
@[simp] theorem State.mapSpr_rest (g : Spr → Spr) : (s.mapSpr g).rest = s.rest := rfl
@[simp] theorem State.mapSpr_cores (g : Spr → Spr) : (s.mapSpr g).cores = s.cores := rfl
@[simp] theorem State.mapSpr_mem (g : Spr → Spr) : (s.mapSpr g).mem = s.mem := rfl
@[simp] theorem State.mapSpr_seals (g : Spr → Spr) : (s.mapSpr g).seals = s.seals := rfl
@[simp] theorem State.mapSpr_lcache (g : Spr → Spr) : (s.mapSpr g).lcache = s.lcache := rfl
@[simp] theorem State.mapSpr_lineBrands (g : Spr → Spr) : (s.mapSpr g).lineBrands = s.lineBrands := rfl
@[simp] theorem State.mapSpr_poison (g : Spr → Spr) : (s.mapSpr g).poison = s.poison := rfl
@[simp] theorem State.mapSpr_deadChannels (g : Spr → Spr) : (s.mapSpr g).deadChannels = s.deadChannels := rfl
@[simp] theorem State.mapSpr_deadPorts (g : Spr → Spr) : (s.mapSpr g).deadPorts = s.deadPorts := rfl
@[simp] theorem State.mapSpr_planted (g : Spr → Spr) : (s.mapSpr g).planted = s.planted := rfl
@[simp] theorem State.mapSpr_corrected (g : Spr → Spr) : (s.mapSpr g).corrected = s.corrected := rfl
@[simp] theorem State.mapSpr_tiles (g : Spr → Spr) : (s.mapSpr g).tiles = s.tiles := rfl
@[simp] theorem State.mapSpr_bars (g : Spr → Spr) : (s.mapSpr g).bars = s.bars := rfl
@[simp] theorem State.mapSpr_engines (g : Spr → Spr) : (s.mapSpr g).engines = s.engines := rfl
@[simp] theorem State.mapSpr_packets (g : Spr → Spr) : (s.mapSpr g).packets = s.packets := rfl
@[simp] theorem State.mapSpr_spans (g : Spr → Spr) : (s.mapSpr g).spans = s.spans := rfl
@[simp] theorem State.mapSpr_xwaits (g : Spr → Spr) : (s.mapSpr g).xwaits = s.xwaits := rfl
@[simp] theorem State.mapSpr_windows (g : Spr → Spr) : (s.mapSpr g).windows = s.windows := rfl
@[simp] theorem State.mapSpr_reserves (g : Spr → Spr) : (s.mapSpr g).reserves = s.reserves := rfl
@[simp] theorem State.mapSpr_nodes (g : Spr → Spr) : (s.mapSpr g).nodes = s.nodes := rfl
@[simp] theorem State.mapSpr_droves (g : Spr → Spr) : (s.mapSpr g).droves = s.droves := rfl
@[simp] theorem State.mapSpr_saved (g : Spr → Spr) : (s.mapSpr g).saved = s.saved := rfl
@[simp] theorem State.mapSpr_adapters (g : Spr → Spr) : (s.mapSpr g).adapters = s.adapters := rfl
@[simp] theorem State.mapSpr_saddles (g : Spr → Spr) : (s.mapSpr g).saddles = s.saddles := rfl
@[simp] theorem State.mapSpr_ports (g : Spr → Spr) : (s.mapSpr g).ports = s.ports := rfl
@[simp] theorem State.mapSpr_fw (g : Spr → Spr) : (s.mapSpr g).fw = s.fw := rfl
@[simp] theorem State.mapSpr_up (g : Spr → Spr) : (s.mapSpr g).up = s.up := rfl
@[simp] theorem State.mapSpr_cal (g : Spr → Spr) : (s.mapSpr g).cal = s.cal := rfl
@[simp] theorem State.mapSpr_coolantOk (g : Spr → Spr) : (s.mapSpr g).coolantOk = s.coolantOk := rfl
@[simp] theorem State.mapSpr_time (g : Spr → Spr) : (s.mapSpr g).time = s.time := rfl
@[simp] theorem State.mapSpr_timeOn (g : Spr → Spr) : (s.mapSpr g).timeOn = s.timeOn := rfl
@[simp] theorem State.mapSpr_roundAt (g : Spr → Spr) : (s.mapSpr g).roundAt = s.roundAt := rfl
@[simp] theorem State.mapSpr_packed (g : Spr → Spr) : (s.mapSpr g).packed = s.packed := rfl
@[simp] theorem State.mapSpr_posted (g : Spr → Spr) : (s.mapSpr g).posted = s.posted := rfl
@[simp] theorem State.mapSpr_image (g : Spr → Spr) : (s.mapSpr g).image = s.image := rfl
@[simp] theorem State.mapSpr_out (g : Spr → Spr) : (s.mapSpr g).out = s.out := rfl
@[simp] theorem State.mapSpr_free (g : Spr → Spr) : (s.mapSpr g).free = s.free := rfl
@[simp] theorem State.mapSpr_agenda (g : Spr → Spr) : (s.mapSpr g).agenda = s.agenda := rfl
@[simp] theorem State.mapSpr_ids (g : Spr → Spr) : (s.mapSpr g).ids = s.ids := rfl
@[simp] theorem State.mapSpr_sh_pc (g : Spr → Spr) : (s.mapSpr g).sh.pc = s.sh.pc := rfl
@[simp] theorem State.mapSpr_sh_x (g : Spr → Spr) : (s.mapSpr g).sh.x = s.sh.x := rfl
@[simp] theorem State.mapSpr_sh_f (g : Spr → Spr) : (s.mapSpr g).sh.f = s.sh.f := rfl
@[simp] theorem State.mapSpr_sh_vstore (g : Spr → Spr) : (s.mapSpr g).sh.vstore = s.sh.vstore := rfl
@[simp] theorem State.mapSpr_sh_bvm (g : Spr → Spr) : (s.mapSpr g).sh.bvm = s.sh.bvm := rfl
@[simp] theorem State.mapSpr_sh_m (g : Spr → Spr) : (s.mapSpr g).sh.m = s.sh.m := rfl
@[simp] theorem State.mapSpr_sh_d (g : Spr → Spr) : (s.mapSpr g).sh.d = s.sh.d := rfl
@[simp] theorem State.mapSpr_sh_k (g : Spr → Spr) : (s.mapSpr g).sh.k = s.sh.k := rfl
@[simp] theorem State.mapSpr_sh_g (g : Spr → Spr) : (s.mapSpr g).sh.g = s.sh.g := rfl
@[simp] theorem State.mapSpr_sh_o (g : Spr → Spr) : (s.mapSpr g).sh.o = s.sh.o := rfl
@[simp] theorem State.mapSpr_sh_vdirty (g : Spr → Spr) : (s.mapSpr g).sh.vdirty = s.sh.vdirty := rfl
@[simp] theorem State.mapSpr_sh_vtouch (g : Spr → Spr) : (s.mapSpr g).sh.vtouch = s.sh.vtouch := rfl
@[simp] theorem State.mapSpr_sh_mdirty (g : Spr → Spr) : (s.mapSpr g).sh.mdirty = s.sh.mdirty := rfl
@[simp] theorem State.mapSpr_sh_mtouch (g : Spr → Spr) : (s.mapSpr g).sh.mtouch = s.sh.mtouch := rfl
@[simp] theorem State.mapSpr_sh_spr (g : Spr → Spr) : (s.mapSpr g).sh.spr = g s.sh.spr := rfl
@[simp] theorem State.mapSpr_sh_evq (g : Spr → Spr) : (s.mapSpr g).sh.evq = s.sh.evq := rfl
@[simp] theorem State.mapSpr_sh_lines (g : Spr → Spr) : (s.mapSpr g).sh.lines = s.sh.lines := rfl
@[simp] theorem State.mapSpr_sh_rbuf (g : Spr → Spr) : (s.mapSpr g).sh.rbuf = s.sh.rbuf := rfl
@[simp] theorem State.mapSpr_sh_ahead (g : Spr → Spr) : (s.mapSpr g).sh.ahead = s.sh.ahead := rfl
@[simp] theorem State.mapSpr_sh_bslots (g : Spr → Spr) : (s.mapSpr g).sh.bslots = s.sh.bslots := rfl
@[simp] theorem State.mapSpr_sh_vq (g : Spr → Spr) : (s.mapSpr g).sh.vq = s.sh.vq := rfl
@[simp] theorem State.mapSpr_sh_vdone (g : Spr → Spr) : (s.mapSpr g).sh.vdone = s.sh.vdone := rfl
@[simp] theorem State.mapSpr_sh_irq (g : Spr → Spr) : (s.mapSpr g).sh.irq = s.sh.irq := rfl
@[simp] theorem State.mapSpr_sh_preAfter (g : Spr → Spr) : (s.mapSpr g).sh.preAfter = s.sh.preAfter := rfl
@[simp] theorem State.mapSpr_sh_ctok (g : Spr → Spr) : (s.mapSpr g).sh.ctok = s.sh.ctok := rfl
@[simp] theorem State.mapSpr_sh_run (g : Spr → Spr) : (s.mapSpr g).sh.run = s.sh.run := rfl
@[simp] theorem State.mapSpr_sh_place (g : Spr → Spr) : (s.mapSpr g).sh.place = s.sh.place := rfl
@[simp] theorem State.mapSpr_sh_droveId (g : Spr → Spr) : (s.mapSpr g).sh.droveId = s.sh.droveId := rfl
@[simp] theorem State.mapSpr_sh_tlb (g : Spr → Spr) : (s.mapSpr g).sh.tlb = s.sh.tlb := rfl
@[simp] theorem State.withSheet_core (k : Sheet) : (s.withSheet k).core = s.core := rfl
@[simp] theorem State.withSheet_rest (k : Sheet) : (s.withSheet k).rest = s.rest := rfl
@[simp] theorem State.withSheet_cores (k : Sheet) : (s.withSheet k).cores = s.cores := rfl
@[simp] theorem State.withSheet_mem (k : Sheet) : (s.withSheet k).mem = s.mem := rfl
@[simp] theorem State.withSheet_seals (k : Sheet) : (s.withSheet k).seals = s.seals := rfl
@[simp] theorem State.withSheet_lcache (k : Sheet) : (s.withSheet k).lcache = s.lcache := rfl
@[simp] theorem State.withSheet_lineBrands (k : Sheet) : (s.withSheet k).lineBrands = s.lineBrands := rfl
@[simp] theorem State.withSheet_poison (k : Sheet) : (s.withSheet k).poison = s.poison := rfl
@[simp] theorem State.withSheet_deadChannels (k : Sheet) : (s.withSheet k).deadChannels = s.deadChannels := rfl
@[simp] theorem State.withSheet_deadPorts (k : Sheet) : (s.withSheet k).deadPorts = s.deadPorts := rfl
@[simp] theorem State.withSheet_planted (k : Sheet) : (s.withSheet k).planted = s.planted := rfl
@[simp] theorem State.withSheet_corrected (k : Sheet) : (s.withSheet k).corrected = s.corrected := rfl
@[simp] theorem State.withSheet_tiles (k : Sheet) : (s.withSheet k).tiles = s.tiles := rfl
@[simp] theorem State.withSheet_bars (k : Sheet) : (s.withSheet k).bars = s.bars := rfl
@[simp] theorem State.withSheet_engines (k : Sheet) : (s.withSheet k).engines = s.engines := rfl
@[simp] theorem State.withSheet_packets (k : Sheet) : (s.withSheet k).packets = s.packets := rfl
@[simp] theorem State.withSheet_spans (k : Sheet) : (s.withSheet k).spans = s.spans := rfl
@[simp] theorem State.withSheet_xwaits (k : Sheet) : (s.withSheet k).xwaits = s.xwaits := rfl
@[simp] theorem State.withSheet_windows (k : Sheet) : (s.withSheet k).windows = s.windows := rfl
@[simp] theorem State.withSheet_reserves (k : Sheet) : (s.withSheet k).reserves = s.reserves := rfl
@[simp] theorem State.withSheet_nodes (k : Sheet) : (s.withSheet k).nodes = s.nodes := rfl
@[simp] theorem State.withSheet_droves (k : Sheet) : (s.withSheet k).droves = s.droves := rfl
@[simp] theorem State.withSheet_saved (k : Sheet) : (s.withSheet k).saved = s.saved := rfl
@[simp] theorem State.withSheet_adapters (k : Sheet) : (s.withSheet k).adapters = s.adapters := rfl
@[simp] theorem State.withSheet_saddles (k : Sheet) : (s.withSheet k).saddles = s.saddles := rfl
@[simp] theorem State.withSheet_ports (k : Sheet) : (s.withSheet k).ports = s.ports := rfl
@[simp] theorem State.withSheet_fw (k : Sheet) : (s.withSheet k).fw = s.fw := rfl
@[simp] theorem State.withSheet_up (k : Sheet) : (s.withSheet k).up = s.up := rfl
@[simp] theorem State.withSheet_cal (k : Sheet) : (s.withSheet k).cal = s.cal := rfl
@[simp] theorem State.withSheet_coolantOk (k : Sheet) : (s.withSheet k).coolantOk = s.coolantOk := rfl
@[simp] theorem State.withSheet_time (k : Sheet) : (s.withSheet k).time = s.time := rfl
@[simp] theorem State.withSheet_timeOn (k : Sheet) : (s.withSheet k).timeOn = s.timeOn := rfl
@[simp] theorem State.withSheet_roundAt (k : Sheet) : (s.withSheet k).roundAt = s.roundAt := rfl
@[simp] theorem State.withSheet_packed (k : Sheet) : (s.withSheet k).packed = s.packed := rfl
@[simp] theorem State.withSheet_posted (k : Sheet) : (s.withSheet k).posted = s.posted := rfl
@[simp] theorem State.withSheet_image (k : Sheet) : (s.withSheet k).image = s.image := rfl
@[simp] theorem State.withSheet_out (k : Sheet) : (s.withSheet k).out = s.out := rfl
@[simp] theorem State.withSheet_free (k : Sheet) : (s.withSheet k).free = s.free := rfl
@[simp] theorem State.withSheet_agenda (k : Sheet) : (s.withSheet k).agenda = s.agenda := rfl
@[simp] theorem State.withSheet_ids (k : Sheet) : (s.withSheet k).ids = s.ids := rfl
@[simp] theorem State.withSheet_sh (k : Sheet) : (s.withSheet k).sh = k := rfl
@[simp] theorem State.setRun_core (r : Run) : (s.setRun r).core = s.core := rfl
@[simp] theorem State.setRun_rest (r : Run) : (s.setRun r).rest = s.rest := rfl
@[simp] theorem State.setRun_cores (r : Run) : (s.setRun r).cores = s.cores := rfl
@[simp] theorem State.setRun_mem (r : Run) : (s.setRun r).mem = s.mem := rfl
@[simp] theorem State.setRun_seals (r : Run) : (s.setRun r).seals = s.seals := rfl
@[simp] theorem State.setRun_lcache (r : Run) : (s.setRun r).lcache = s.lcache := rfl
@[simp] theorem State.setRun_lineBrands (r : Run) : (s.setRun r).lineBrands = s.lineBrands := rfl
@[simp] theorem State.setRun_poison (r : Run) : (s.setRun r).poison = s.poison := rfl
@[simp] theorem State.setRun_deadChannels (r : Run) : (s.setRun r).deadChannels = s.deadChannels := rfl
@[simp] theorem State.setRun_deadPorts (r : Run) : (s.setRun r).deadPorts = s.deadPorts := rfl
@[simp] theorem State.setRun_planted (r : Run) : (s.setRun r).planted = s.planted := rfl
@[simp] theorem State.setRun_corrected (r : Run) : (s.setRun r).corrected = s.corrected := rfl
@[simp] theorem State.setRun_tiles (r : Run) : (s.setRun r).tiles = s.tiles := rfl
@[simp] theorem State.setRun_bars (r : Run) : (s.setRun r).bars = s.bars := rfl
@[simp] theorem State.setRun_engines (r : Run) : (s.setRun r).engines = s.engines := rfl
@[simp] theorem State.setRun_packets (r : Run) : (s.setRun r).packets = s.packets := rfl
@[simp] theorem State.setRun_spans (r : Run) : (s.setRun r).spans = s.spans := rfl
@[simp] theorem State.setRun_xwaits (r : Run) : (s.setRun r).xwaits = s.xwaits := rfl
@[simp] theorem State.setRun_windows (r : Run) : (s.setRun r).windows = s.windows := rfl
@[simp] theorem State.setRun_reserves (r : Run) : (s.setRun r).reserves = s.reserves := rfl
@[simp] theorem State.setRun_nodes (r : Run) : (s.setRun r).nodes = s.nodes := rfl
@[simp] theorem State.setRun_droves (r : Run) : (s.setRun r).droves = s.droves := rfl
@[simp] theorem State.setRun_saved (r : Run) : (s.setRun r).saved = s.saved := rfl
@[simp] theorem State.setRun_adapters (r : Run) : (s.setRun r).adapters = s.adapters := rfl
@[simp] theorem State.setRun_saddles (r : Run) : (s.setRun r).saddles = s.saddles := rfl
@[simp] theorem State.setRun_ports (r : Run) : (s.setRun r).ports = s.ports := rfl
@[simp] theorem State.setRun_fw (r : Run) : (s.setRun r).fw = s.fw := rfl
@[simp] theorem State.setRun_up (r : Run) : (s.setRun r).up = s.up := rfl
@[simp] theorem State.setRun_cal (r : Run) : (s.setRun r).cal = s.cal := rfl
@[simp] theorem State.setRun_coolantOk (r : Run) : (s.setRun r).coolantOk = s.coolantOk := rfl
@[simp] theorem State.setRun_time (r : Run) : (s.setRun r).time = s.time := rfl
@[simp] theorem State.setRun_timeOn (r : Run) : (s.setRun r).timeOn = s.timeOn := rfl
@[simp] theorem State.setRun_roundAt (r : Run) : (s.setRun r).roundAt = s.roundAt := rfl
@[simp] theorem State.setRun_packed (r : Run) : (s.setRun r).packed = s.packed := rfl
@[simp] theorem State.setRun_posted (r : Run) : (s.setRun r).posted = s.posted := rfl
@[simp] theorem State.setRun_image (r : Run) : (s.setRun r).image = s.image := rfl
@[simp] theorem State.setRun_out (r : Run) : (s.setRun r).out = s.out := rfl
@[simp] theorem State.setRun_free (r : Run) : (s.setRun r).free = s.free := rfl
@[simp] theorem State.setRun_agenda (r : Run) : (s.setRun r).agenda = s.agenda := rfl
@[simp] theorem State.setRun_ids (r : Run) : (s.setRun r).ids = s.ids := rfl
@[simp] theorem State.setRun_sh_pc (r : Run) : (s.setRun r).sh.pc = s.sh.pc := rfl
@[simp] theorem State.setRun_sh_x (r : Run) : (s.setRun r).sh.x = s.sh.x := rfl
@[simp] theorem State.setRun_sh_f (r : Run) : (s.setRun r).sh.f = s.sh.f := rfl
@[simp] theorem State.setRun_sh_vstore (r : Run) : (s.setRun r).sh.vstore = s.sh.vstore := rfl
@[simp] theorem State.setRun_sh_bvm (r : Run) : (s.setRun r).sh.bvm = s.sh.bvm := rfl
@[simp] theorem State.setRun_sh_m (r : Run) : (s.setRun r).sh.m = s.sh.m := rfl
@[simp] theorem State.setRun_sh_d (r : Run) : (s.setRun r).sh.d = s.sh.d := rfl
@[simp] theorem State.setRun_sh_k (r : Run) : (s.setRun r).sh.k = s.sh.k := rfl
@[simp] theorem State.setRun_sh_g (r : Run) : (s.setRun r).sh.g = s.sh.g := rfl
@[simp] theorem State.setRun_sh_o (r : Run) : (s.setRun r).sh.o = s.sh.o := rfl
@[simp] theorem State.setRun_sh_vdirty (r : Run) : (s.setRun r).sh.vdirty = s.sh.vdirty := rfl
@[simp] theorem State.setRun_sh_vtouch (r : Run) : (s.setRun r).sh.vtouch = s.sh.vtouch := rfl
@[simp] theorem State.setRun_sh_mdirty (r : Run) : (s.setRun r).sh.mdirty = s.sh.mdirty := rfl
@[simp] theorem State.setRun_sh_mtouch (r : Run) : (s.setRun r).sh.mtouch = s.sh.mtouch := rfl
@[simp] theorem State.setRun_sh_spr (r : Run) : (s.setRun r).sh.spr = s.sh.spr := rfl
@[simp] theorem State.setRun_sh_evq (r : Run) : (s.setRun r).sh.evq = s.sh.evq := rfl
@[simp] theorem State.setRun_sh_lines (r : Run) : (s.setRun r).sh.lines = s.sh.lines := rfl
@[simp] theorem State.setRun_sh_rbuf (r : Run) : (s.setRun r).sh.rbuf = s.sh.rbuf := rfl
@[simp] theorem State.setRun_sh_ahead (r : Run) : (s.setRun r).sh.ahead = s.sh.ahead := rfl
@[simp] theorem State.setRun_sh_bslots (r : Run) : (s.setRun r).sh.bslots = s.sh.bslots := rfl
@[simp] theorem State.setRun_sh_vq (r : Run) : (s.setRun r).sh.vq = s.sh.vq := rfl
@[simp] theorem State.setRun_sh_vdone (r : Run) : (s.setRun r).sh.vdone = s.sh.vdone := rfl
@[simp] theorem State.setRun_sh_irq (r : Run) : (s.setRun r).sh.irq = s.sh.irq := rfl
@[simp] theorem State.setRun_sh_preAfter (r : Run) : (s.setRun r).sh.preAfter = s.sh.preAfter := rfl
@[simp] theorem State.setRun_sh_ctok (r : Run) : (s.setRun r).sh.ctok = s.sh.ctok := rfl
@[simp] theorem State.setRun_sh_run (r : Run) : (s.setRun r).sh.run = r := rfl
@[simp] theorem State.setRun_sh_place (r : Run) : (s.setRun r).sh.place = s.sh.place := rfl
@[simp] theorem State.setRun_sh_droveId (r : Run) : (s.setRun r).sh.droveId = s.sh.droveId := rfl
@[simp] theorem State.setRun_sh_tlb (r : Run) : (s.setRun r).sh.tlb = s.sh.tlb := rfl
@[simp] theorem State.jumpTo_core (a : Word) : (s.jumpTo a).core = s.core := rfl
@[simp] theorem State.jumpTo_rest (a : Word) : (s.jumpTo a).rest = s.rest := rfl
@[simp] theorem State.jumpTo_cores (a : Word) : (s.jumpTo a).cores = s.cores := rfl
@[simp] theorem State.jumpTo_mem (a : Word) : (s.jumpTo a).mem = s.mem := rfl
@[simp] theorem State.jumpTo_seals (a : Word) : (s.jumpTo a).seals = s.seals := rfl
@[simp] theorem State.jumpTo_lcache (a : Word) : (s.jumpTo a).lcache = s.lcache := rfl
@[simp] theorem State.jumpTo_lineBrands (a : Word) : (s.jumpTo a).lineBrands = s.lineBrands := rfl
@[simp] theorem State.jumpTo_poison (a : Word) : (s.jumpTo a).poison = s.poison := rfl
@[simp] theorem State.jumpTo_deadChannels (a : Word) : (s.jumpTo a).deadChannels = s.deadChannels := rfl
@[simp] theorem State.jumpTo_deadPorts (a : Word) : (s.jumpTo a).deadPorts = s.deadPorts := rfl
@[simp] theorem State.jumpTo_planted (a : Word) : (s.jumpTo a).planted = s.planted := rfl
@[simp] theorem State.jumpTo_corrected (a : Word) : (s.jumpTo a).corrected = s.corrected := rfl
@[simp] theorem State.jumpTo_tiles (a : Word) : (s.jumpTo a).tiles = s.tiles := rfl
@[simp] theorem State.jumpTo_bars (a : Word) : (s.jumpTo a).bars = s.bars := rfl
@[simp] theorem State.jumpTo_engines (a : Word) : (s.jumpTo a).engines = s.engines := rfl
@[simp] theorem State.jumpTo_packets (a : Word) : (s.jumpTo a).packets = s.packets := rfl
@[simp] theorem State.jumpTo_spans (a : Word) : (s.jumpTo a).spans = s.spans := rfl
@[simp] theorem State.jumpTo_xwaits (a : Word) : (s.jumpTo a).xwaits = s.xwaits := rfl
@[simp] theorem State.jumpTo_windows (a : Word) : (s.jumpTo a).windows = s.windows := rfl
@[simp] theorem State.jumpTo_reserves (a : Word) : (s.jumpTo a).reserves = s.reserves := rfl
@[simp] theorem State.jumpTo_nodes (a : Word) : (s.jumpTo a).nodes = s.nodes := rfl
@[simp] theorem State.jumpTo_droves (a : Word) : (s.jumpTo a).droves = s.droves := rfl
@[simp] theorem State.jumpTo_saved (a : Word) : (s.jumpTo a).saved = s.saved := rfl
@[simp] theorem State.jumpTo_adapters (a : Word) : (s.jumpTo a).adapters = s.adapters := rfl
@[simp] theorem State.jumpTo_saddles (a : Word) : (s.jumpTo a).saddles = s.saddles := rfl
@[simp] theorem State.jumpTo_ports (a : Word) : (s.jumpTo a).ports = s.ports := rfl
@[simp] theorem State.jumpTo_fw (a : Word) : (s.jumpTo a).fw = s.fw := rfl
@[simp] theorem State.jumpTo_up (a : Word) : (s.jumpTo a).up = s.up := rfl
@[simp] theorem State.jumpTo_cal (a : Word) : (s.jumpTo a).cal = s.cal := rfl
@[simp] theorem State.jumpTo_coolantOk (a : Word) : (s.jumpTo a).coolantOk = s.coolantOk := rfl
@[simp] theorem State.jumpTo_time (a : Word) : (s.jumpTo a).time = s.time := rfl
@[simp] theorem State.jumpTo_timeOn (a : Word) : (s.jumpTo a).timeOn = s.timeOn := rfl
@[simp] theorem State.jumpTo_roundAt (a : Word) : (s.jumpTo a).roundAt = s.roundAt := rfl
@[simp] theorem State.jumpTo_packed (a : Word) : (s.jumpTo a).packed = s.packed := rfl
@[simp] theorem State.jumpTo_posted (a : Word) : (s.jumpTo a).posted = s.posted := rfl
@[simp] theorem State.jumpTo_image (a : Word) : (s.jumpTo a).image = s.image := rfl
@[simp] theorem State.jumpTo_out (a : Word) : (s.jumpTo a).out = s.out := rfl
@[simp] theorem State.jumpTo_free (a : Word) : (s.jumpTo a).free = s.free := rfl
@[simp] theorem State.jumpTo_agenda (a : Word) : (s.jumpTo a).agenda = s.agenda := rfl
@[simp] theorem State.jumpTo_ids (a : Word) : (s.jumpTo a).ids = s.ids := rfl
@[simp] theorem State.jumpTo_sh_pc (a : Word) : (s.jumpTo a).sh.pc = a := rfl
@[simp] theorem State.jumpTo_sh_x (a : Word) : (s.jumpTo a).sh.x = s.sh.x := rfl
@[simp] theorem State.jumpTo_sh_f (a : Word) : (s.jumpTo a).sh.f = s.sh.f := rfl
@[simp] theorem State.jumpTo_sh_vstore (a : Word) : (s.jumpTo a).sh.vstore = s.sh.vstore := rfl
@[simp] theorem State.jumpTo_sh_bvm (a : Word) : (s.jumpTo a).sh.bvm = s.sh.bvm := rfl
@[simp] theorem State.jumpTo_sh_m (a : Word) : (s.jumpTo a).sh.m = s.sh.m := rfl
@[simp] theorem State.jumpTo_sh_d (a : Word) : (s.jumpTo a).sh.d = s.sh.d := rfl
@[simp] theorem State.jumpTo_sh_k (a : Word) : (s.jumpTo a).sh.k = s.sh.k := rfl
@[simp] theorem State.jumpTo_sh_g (a : Word) : (s.jumpTo a).sh.g = s.sh.g := rfl
@[simp] theorem State.jumpTo_sh_o (a : Word) : (s.jumpTo a).sh.o = s.sh.o := rfl
@[simp] theorem State.jumpTo_sh_vdirty (a : Word) : (s.jumpTo a).sh.vdirty = s.sh.vdirty := rfl
@[simp] theorem State.jumpTo_sh_vtouch (a : Word) : (s.jumpTo a).sh.vtouch = s.sh.vtouch := rfl
@[simp] theorem State.jumpTo_sh_mdirty (a : Word) : (s.jumpTo a).sh.mdirty = s.sh.mdirty := rfl
@[simp] theorem State.jumpTo_sh_mtouch (a : Word) : (s.jumpTo a).sh.mtouch = s.sh.mtouch := rfl
@[simp] theorem State.jumpTo_sh_spr (a : Word) : (s.jumpTo a).sh.spr = s.sh.spr := rfl
@[simp] theorem State.jumpTo_sh_evq (a : Word) : (s.jumpTo a).sh.evq = s.sh.evq := rfl
@[simp] theorem State.jumpTo_sh_lines (a : Word) : (s.jumpTo a).sh.lines = [] := rfl
@[simp] theorem State.jumpTo_sh_rbuf (a : Word) : (s.jumpTo a).sh.rbuf = s.sh.rbuf := rfl
@[simp] theorem State.jumpTo_sh_ahead (a : Word) : (s.jumpTo a).sh.ahead = agedAhead 1 s.sh.ahead := rfl
@[simp] theorem State.jumpTo_sh_bslots (a : Word) : (s.jumpTo a).sh.bslots = s.sh.bslots := rfl
@[simp] theorem State.jumpTo_sh_vq (a : Word) : (s.jumpTo a).sh.vq = s.sh.vq := rfl
@[simp] theorem State.jumpTo_sh_vdone (a : Word) : (s.jumpTo a).sh.vdone = s.sh.vdone := rfl
@[simp] theorem State.jumpTo_sh_irq (a : Word) : (s.jumpTo a).sh.irq = settleIrq s.sh.irq := rfl
@[simp] theorem State.jumpTo_sh_preAfter (a : Word) : (s.jumpTo a).sh.preAfter = s.sh.preAfter := rfl
@[simp] theorem State.jumpTo_sh_ctok (a : Word) : (s.jumpTo a).sh.ctok = s.sh.ctok := rfl
@[simp] theorem State.jumpTo_sh_run (a : Word) : (s.jumpTo a).sh.run = .ready := rfl
@[simp] theorem State.jumpTo_sh_place (a : Word) : (s.jumpTo a).sh.place = s.sh.place := rfl
@[simp] theorem State.jumpTo_sh_droveId (a : Word) : (s.jumpTo a).sh.droveId = s.sh.droveId := rfl
@[simp] theorem State.jumpTo_sh_tlb (a : Word) : (s.jumpTo a).sh.tlb = s.sh.tlb := rfl
@[simp] theorem State.finishN_core (n : Nat) : (s.finishN n).core = s.core := rfl
@[simp] theorem State.finishN_rest (n : Nat) : (s.finishN n).rest = s.rest := rfl
@[simp] theorem State.finishN_cores (n : Nat) : (s.finishN n).cores = s.cores := rfl
@[simp] theorem State.finishN_mem (n : Nat) : (s.finishN n).mem = s.mem := rfl
@[simp] theorem State.finishN_seals (n : Nat) : (s.finishN n).seals = s.seals := rfl
@[simp] theorem State.finishN_lcache (n : Nat) : (s.finishN n).lcache = s.lcache := rfl
@[simp] theorem State.finishN_lineBrands (n : Nat) : (s.finishN n).lineBrands = s.lineBrands := rfl
@[simp] theorem State.finishN_poison (n : Nat) : (s.finishN n).poison = s.poison := rfl
@[simp] theorem State.finishN_deadChannels (n : Nat) : (s.finishN n).deadChannels = s.deadChannels := rfl
@[simp] theorem State.finishN_deadPorts (n : Nat) : (s.finishN n).deadPorts = s.deadPorts := rfl
@[simp] theorem State.finishN_planted (n : Nat) : (s.finishN n).planted = s.planted := rfl
@[simp] theorem State.finishN_corrected (n : Nat) : (s.finishN n).corrected = s.corrected := rfl
@[simp] theorem State.finishN_tiles (n : Nat) : (s.finishN n).tiles = s.tiles := rfl
@[simp] theorem State.finishN_bars (n : Nat) : (s.finishN n).bars = s.bars := rfl
@[simp] theorem State.finishN_engines (n : Nat) : (s.finishN n).engines = s.engines := rfl
@[simp] theorem State.finishN_packets (n : Nat) : (s.finishN n).packets = s.packets := rfl
@[simp] theorem State.finishN_spans (n : Nat) : (s.finishN n).spans = s.spans := rfl
@[simp] theorem State.finishN_xwaits (n : Nat) : (s.finishN n).xwaits = s.xwaits := rfl
@[simp] theorem State.finishN_windows (n : Nat) : (s.finishN n).windows = s.windows := rfl
@[simp] theorem State.finishN_reserves (n : Nat) : (s.finishN n).reserves = s.reserves := rfl
@[simp] theorem State.finishN_nodes (n : Nat) : (s.finishN n).nodes = s.nodes := rfl
@[simp] theorem State.finishN_droves (n : Nat) : (s.finishN n).droves = s.droves := rfl
@[simp] theorem State.finishN_saved (n : Nat) : (s.finishN n).saved = s.saved := rfl
@[simp] theorem State.finishN_adapters (n : Nat) : (s.finishN n).adapters = s.adapters := rfl
@[simp] theorem State.finishN_saddles (n : Nat) : (s.finishN n).saddles = s.saddles := rfl
@[simp] theorem State.finishN_ports (n : Nat) : (s.finishN n).ports = s.ports := rfl
@[simp] theorem State.finishN_fw (n : Nat) : (s.finishN n).fw = s.fw := rfl
@[simp] theorem State.finishN_up (n : Nat) : (s.finishN n).up = s.up := rfl
@[simp] theorem State.finishN_cal (n : Nat) : (s.finishN n).cal = s.cal := rfl
@[simp] theorem State.finishN_coolantOk (n : Nat) : (s.finishN n).coolantOk = s.coolantOk := rfl
@[simp] theorem State.finishN_time (n : Nat) : (s.finishN n).time = s.time := rfl
@[simp] theorem State.finishN_timeOn (n : Nat) : (s.finishN n).timeOn = s.timeOn := rfl
@[simp] theorem State.finishN_roundAt (n : Nat) : (s.finishN n).roundAt = s.roundAt := rfl
@[simp] theorem State.finishN_packed (n : Nat) : (s.finishN n).packed = s.packed := rfl
@[simp] theorem State.finishN_posted (n : Nat) : (s.finishN n).posted = s.posted := rfl
@[simp] theorem State.finishN_image (n : Nat) : (s.finishN n).image = s.image := rfl
@[simp] theorem State.finishN_out (n : Nat) : (s.finishN n).out = s.out := rfl
@[simp] theorem State.finishN_free (n : Nat) : (s.finishN n).free = s.free := rfl
@[simp] theorem State.finishN_agenda (n : Nat) : (s.finishN n).agenda = s.agenda := rfl
@[simp] theorem State.finishN_ids (n : Nat) : (s.finishN n).ids = s.ids := rfl
@[simp] theorem State.finishN_sh_pc (n : Nat) : (s.finishN n).sh.pc = (advance s.sh.spr s.sh.xr s.sh.pc n).1 := rfl
@[simp] theorem State.finishN_sh_x (n : Nat) : (s.finishN n).sh.x = s.sh.x := rfl
@[simp] theorem State.finishN_sh_f (n : Nat) : (s.finishN n).sh.f = s.sh.f := rfl
@[simp] theorem State.finishN_sh_vstore (n : Nat) : (s.finishN n).sh.vstore = s.sh.vstore := rfl
@[simp] theorem State.finishN_sh_bvm (n : Nat) : (s.finishN n).sh.bvm = s.sh.bvm := rfl
@[simp] theorem State.finishN_sh_m (n : Nat) : (s.finishN n).sh.m = s.sh.m := rfl
@[simp] theorem State.finishN_sh_d (n : Nat) : (s.finishN n).sh.d = s.sh.d := rfl
@[simp] theorem State.finishN_sh_k (n : Nat) : (s.finishN n).sh.k = s.sh.k := rfl
@[simp] theorem State.finishN_sh_g (n : Nat) : (s.finishN n).sh.g = s.sh.g := rfl
@[simp] theorem State.finishN_sh_o (n : Nat) : (s.finishN n).sh.o = s.sh.o := rfl
@[simp] theorem State.finishN_sh_vdirty (n : Nat) : (s.finishN n).sh.vdirty = s.sh.vdirty := rfl
@[simp] theorem State.finishN_sh_vtouch (n : Nat) : (s.finishN n).sh.vtouch = s.sh.vtouch := rfl
@[simp] theorem State.finishN_sh_mdirty (n : Nat) : (s.finishN n).sh.mdirty = s.sh.mdirty := rfl
@[simp] theorem State.finishN_sh_mtouch (n : Nat) : (s.finishN n).sh.mtouch = s.sh.mtouch := rfl
@[simp] theorem State.finishN_sh_spr (n : Nat) : (s.finishN n).sh.spr = { s.sh.spr with rpst := (advance s.sh.spr s.sh.xr s.sh.pc n).2 } := rfl
@[simp] theorem State.finishN_sh_evq (n : Nat) : (s.finishN n).sh.evq = s.sh.evq := rfl
@[simp] theorem State.finishN_sh_lines (n : Nat) : (s.finishN n).sh.lines = s.sh.lines := rfl
@[simp] theorem State.finishN_sh_rbuf (n : Nat) : (s.finishN n).sh.rbuf = s.sh.rbuf := rfl
@[simp] theorem State.finishN_sh_ahead (n : Nat) : (s.finishN n).sh.ahead = agedAhead n s.sh.ahead := rfl
@[simp] theorem State.finishN_sh_bslots (n : Nat) : (s.finishN n).sh.bslots = s.sh.bslots := rfl
@[simp] theorem State.finishN_sh_vq (n : Nat) : (s.finishN n).sh.vq = s.sh.vq := rfl
@[simp] theorem State.finishN_sh_vdone (n : Nat) : (s.finishN n).sh.vdone = s.sh.vdone := rfl
@[simp] theorem State.finishN_sh_irq (n : Nat) : (s.finishN n).sh.irq = settleIrq s.sh.irq := rfl
@[simp] theorem State.finishN_sh_preAfter (n : Nat) : (s.finishN n).sh.preAfter = s.sh.preAfter := rfl
@[simp] theorem State.finishN_sh_ctok (n : Nat) : (s.finishN n).sh.ctok = s.sh.ctok := rfl
@[simp] theorem State.finishN_sh_run (n : Nat) : (s.finishN n).sh.run = .ready := rfl
@[simp] theorem State.finishN_sh_place (n : Nat) : (s.finishN n).sh.place = s.sh.place := rfl
@[simp] theorem State.finishN_sh_droveId (n : Nat) : (s.finishN n).sh.droveId = s.sh.droveId := rfl
@[simp] theorem State.finishN_sh_tlb (n : Nat) : (s.finishN n).sh.tlb = s.sh.tlb := rfl
@[simp] theorem State.takeTrap_core (c : Nat) (tv fa p : Word) : (s.takeTrap c tv fa p).core = s.core := rfl
@[simp] theorem State.takeTrap_rest (c : Nat) (tv fa p : Word) : (s.takeTrap c tv fa p).rest = s.rest := rfl
@[simp] theorem State.takeTrap_cores (c : Nat) (tv fa p : Word) : (s.takeTrap c tv fa p).cores = s.cores := rfl
@[simp] theorem State.takeTrap_mem (c : Nat) (tv fa p : Word) : (s.takeTrap c tv fa p).mem = s.mem := rfl
@[simp] theorem State.takeTrap_seals (c : Nat) (tv fa p : Word) : (s.takeTrap c tv fa p).seals = s.seals := rfl
@[simp] theorem State.takeTrap_lcache (c : Nat) (tv fa p : Word) : (s.takeTrap c tv fa p).lcache = s.lcache := rfl
@[simp] theorem State.takeTrap_lineBrands (c : Nat) (tv fa p : Word) : (s.takeTrap c tv fa p).lineBrands = s.lineBrands := rfl
@[simp] theorem State.takeTrap_poison (c : Nat) (tv fa p : Word) : (s.takeTrap c tv fa p).poison = s.poison := rfl
@[simp] theorem State.takeTrap_deadChannels (c : Nat) (tv fa p : Word) : (s.takeTrap c tv fa p).deadChannels = s.deadChannels := rfl
@[simp] theorem State.takeTrap_deadPorts (c : Nat) (tv fa p : Word) : (s.takeTrap c tv fa p).deadPorts = s.deadPorts := rfl
@[simp] theorem State.takeTrap_planted (c : Nat) (tv fa p : Word) : (s.takeTrap c tv fa p).planted = s.planted := rfl
@[simp] theorem State.takeTrap_corrected (c : Nat) (tv fa p : Word) : (s.takeTrap c tv fa p).corrected = s.corrected := rfl
@[simp] theorem State.takeTrap_tiles (c : Nat) (tv fa p : Word) : (s.takeTrap c tv fa p).tiles = s.tiles := rfl
@[simp] theorem State.takeTrap_bars (c : Nat) (tv fa p : Word) : (s.takeTrap c tv fa p).bars = s.bars := rfl
@[simp] theorem State.takeTrap_engines (c : Nat) (tv fa p : Word) : (s.takeTrap c tv fa p).engines = s.engines := rfl
@[simp] theorem State.takeTrap_packets (c : Nat) (tv fa p : Word) : (s.takeTrap c tv fa p).packets = s.packets := rfl
@[simp] theorem State.takeTrap_spans (c : Nat) (tv fa p : Word) : (s.takeTrap c tv fa p).spans = s.spans := rfl
@[simp] theorem State.takeTrap_xwaits (c : Nat) (tv fa p : Word) : (s.takeTrap c tv fa p).xwaits = s.xwaits := rfl
@[simp] theorem State.takeTrap_windows (c : Nat) (tv fa p : Word) : (s.takeTrap c tv fa p).windows = s.windows := rfl
@[simp] theorem State.takeTrap_reserves (c : Nat) (tv fa p : Word) : (s.takeTrap c tv fa p).reserves = s.reserves := rfl
@[simp] theorem State.takeTrap_nodes (c : Nat) (tv fa p : Word) : (s.takeTrap c tv fa p).nodes = s.nodes := rfl
@[simp] theorem State.takeTrap_droves (c : Nat) (tv fa p : Word) : (s.takeTrap c tv fa p).droves = s.droves := rfl
@[simp] theorem State.takeTrap_saved (c : Nat) (tv fa p : Word) : (s.takeTrap c tv fa p).saved = s.saved := rfl
@[simp] theorem State.takeTrap_adapters (c : Nat) (tv fa p : Word) : (s.takeTrap c tv fa p).adapters = s.adapters := rfl
@[simp] theorem State.takeTrap_saddles (c : Nat) (tv fa p : Word) : (s.takeTrap c tv fa p).saddles = s.saddles := rfl
@[simp] theorem State.takeTrap_ports (c : Nat) (tv fa p : Word) : (s.takeTrap c tv fa p).ports = s.ports := rfl
@[simp] theorem State.takeTrap_fw (c : Nat) (tv fa p : Word) : (s.takeTrap c tv fa p).fw = s.fw := rfl
@[simp] theorem State.takeTrap_up (c : Nat) (tv fa p : Word) : (s.takeTrap c tv fa p).up = s.up := rfl
@[simp] theorem State.takeTrap_cal (c : Nat) (tv fa p : Word) : (s.takeTrap c tv fa p).cal = s.cal := rfl
@[simp] theorem State.takeTrap_coolantOk (c : Nat) (tv fa p : Word) : (s.takeTrap c tv fa p).coolantOk = s.coolantOk := rfl
@[simp] theorem State.takeTrap_time (c : Nat) (tv fa p : Word) : (s.takeTrap c tv fa p).time = s.time := rfl
@[simp] theorem State.takeTrap_timeOn (c : Nat) (tv fa p : Word) : (s.takeTrap c tv fa p).timeOn = s.timeOn := rfl
@[simp] theorem State.takeTrap_roundAt (c : Nat) (tv fa p : Word) : (s.takeTrap c tv fa p).roundAt = s.roundAt := rfl
@[simp] theorem State.takeTrap_packed (c : Nat) (tv fa p : Word) : (s.takeTrap c tv fa p).packed = s.packed := rfl
@[simp] theorem State.takeTrap_posted (c : Nat) (tv fa p : Word) : (s.takeTrap c tv fa p).posted = s.posted := rfl
@[simp] theorem State.takeTrap_image (c : Nat) (tv fa p : Word) : (s.takeTrap c tv fa p).image = s.image := rfl
@[simp] theorem State.takeTrap_out (c : Nat) (tv fa p : Word) : (s.takeTrap c tv fa p).out = s.out := rfl
@[simp] theorem State.takeTrap_free (c : Nat) (tv fa p : Word) : (s.takeTrap c tv fa p).free = s.free := rfl
@[simp] theorem State.takeTrap_agenda (c : Nat) (tv fa p : Word) : (s.takeTrap c tv fa p).agenda = s.agenda := rfl
@[simp] theorem State.takeTrap_ids (c : Nat) (tv fa p : Word) : (s.takeTrap c tv fa p).ids = s.ids := rfl
@[simp] theorem State.takeTrap_sh_pc (c : Nat) (tv fa p : Word) : (s.takeTrap c tv fa p).sh.pc = s.sh.spr.tvec := rfl
@[simp] theorem State.takeTrap_sh_x (c : Nat) (tv fa p : Word) : (s.takeTrap c tv fa p).sh.x = s.sh.x := rfl
@[simp] theorem State.takeTrap_sh_f (c : Nat) (tv fa p : Word) : (s.takeTrap c tv fa p).sh.f = s.sh.f := rfl
@[simp] theorem State.takeTrap_sh_vstore (c : Nat) (tv fa p : Word) : (s.takeTrap c tv fa p).sh.vstore = s.sh.vstore := rfl
@[simp] theorem State.takeTrap_sh_bvm (c : Nat) (tv fa p : Word) : (s.takeTrap c tv fa p).sh.bvm = s.sh.bvm := rfl
@[simp] theorem State.takeTrap_sh_m (c : Nat) (tv fa p : Word) : (s.takeTrap c tv fa p).sh.m = s.sh.m := rfl
@[simp] theorem State.takeTrap_sh_d (c : Nat) (tv fa p : Word) : (s.takeTrap c tv fa p).sh.d = s.sh.d := rfl
@[simp] theorem State.takeTrap_sh_k (c : Nat) (tv fa p : Word) : (s.takeTrap c tv fa p).sh.k = s.sh.k := rfl
@[simp] theorem State.takeTrap_sh_g (c : Nat) (tv fa p : Word) : (s.takeTrap c tv fa p).sh.g = s.sh.g := rfl
@[simp] theorem State.takeTrap_sh_o (c : Nat) (tv fa p : Word) : (s.takeTrap c tv fa p).sh.o = s.sh.o := rfl
@[simp] theorem State.takeTrap_sh_vdirty (c : Nat) (tv fa p : Word) : (s.takeTrap c tv fa p).sh.vdirty = s.sh.vdirty := rfl
@[simp] theorem State.takeTrap_sh_vtouch (c : Nat) (tv fa p : Word) : (s.takeTrap c tv fa p).sh.vtouch = s.sh.vtouch := rfl
@[simp] theorem State.takeTrap_sh_mdirty (c : Nat) (tv fa p : Word) : (s.takeTrap c tv fa p).sh.mdirty = s.sh.mdirty := rfl
@[simp] theorem State.takeTrap_sh_mtouch (c : Nat) (tv fa p : Word) : (s.takeTrap c tv fa p).sh.mtouch = s.sh.mtouch := rfl
@[simp] theorem State.takeTrap_sh_evq (c : Nat) (tv fa p : Word) : (s.takeTrap c tv fa p).sh.evq = s.sh.evq := rfl
@[simp] theorem State.takeTrap_sh_lines (c : Nat) (tv fa p : Word) : (s.takeTrap c tv fa p).sh.lines = [] := rfl
@[simp] theorem State.takeTrap_sh_rbuf (c : Nat) (tv fa p : Word) : (s.takeTrap c tv fa p).sh.rbuf = [] := rfl
@[simp] theorem State.takeTrap_sh_ahead (c : Nat) (tv fa p : Word) : (s.takeTrap c tv fa p).sh.ahead = [] := rfl
@[simp] theorem State.takeTrap_sh_bslots (c : Nat) (tv fa p : Word) : (s.takeTrap c tv fa p).sh.bslots = s.sh.heldSlots := rfl
@[simp] theorem State.takeTrap_sh_vq (c : Nat) (tv fa p : Word) : (s.takeTrap c tv fa p).sh.vq = s.sh.vq := rfl
@[simp] theorem State.takeTrap_sh_vdone (c : Nat) (tv fa p : Word) : (s.takeTrap c tv fa p).sh.vdone = s.sh.vdone := rfl
@[simp] theorem State.takeTrap_sh_irq (c : Nat) (tv fa p : Word) : (s.takeTrap c tv fa p).sh.irq =
    if c = 0x32 then (if s.sh.preAfter then some (.preempt, none) else none) else settleIrq s.sh.irq := rfl
@[simp] theorem State.takeTrap_sh_preAfter (c : Nat) (tv fa p : Word) :
    (s.takeTrap c tv fa p).sh.preAfter = (s.sh.preAfter && c != 0x32) := rfl
@[simp] theorem State.takeTrap_sh_ctok (c : Nat) (tv fa p : Word) : (s.takeTrap c tv fa p).sh.ctok = s.sh.ctok := rfl
@[simp] theorem State.takeTrap_sh_run (c : Nat) (tv fa p : Word) : (s.takeTrap c tv fa p).sh.run = .ready := rfl
@[simp] theorem State.takeTrap_sh_place (c : Nat) (tv fa p : Word) : (s.takeTrap c tv fa p).sh.place = s.sh.place := rfl
@[simp] theorem State.takeTrap_sh_droveId (c : Nat) (tv fa p : Word) : (s.takeTrap c tv fa p).sh.droveId = s.sh.droveId := rfl
@[simp] theorem State.takeTrap_sh_tlb (c : Nat) (tv fa p : Word) : (s.takeTrap c tv fa p).sh.tlb = s.sh.tlb := rfl

@[simp] theorem State.finish_eq : s.finish = s.finishN 1 := rfl
@[simp] theorem State.orFlags_eq (fl : BitVec 6) :
    s.orFlags fl = s.mapSpr fun p => { p with fstat := p.fstat ||| fl.zeroExtend 64 } := rfl
@[simp] theorem State.setEpos_eq (e g : Nat) :
    s.setEpos e g = s.mapSpr fun p => { p with epos := BitVec.ofNat 64 e, grpl := BitVec.ofNat 64 g } := rfl
@[simp] theorem State.clearEpos_eq : s.clearEpos = s.setEpos 0 0 := rfl

/-! Registers read after a write (R28). -/

@[simp] theorem Sheet.xr_zero : h.xr 0 = 0 := rfl
@[simp] theorem State.xr_zero : s.xr 0 = 0 := rfl
theorem Sheet.xr_setX (d r : XReg) (v : Word) : (h.setX d v).xr r = if r = d ∧ d ≠ 0 then v else h.xr r := by
  unfold Sheet.setX Sheet.xr
  by_cases hd : d = 0
  · simp [hd]
  · by_cases hr : r = d
    · subst hr; simp [hd]
    · have : ¬ d.val = r.val := fun e => hr (Fin.ext e.symm)
      simp [hd, hr, Vector.getElem_set, this]
theorem State.xr_setX (d r : XReg) (v : Word) : (s.setX d v).xr r = if r = d ∧ d ≠ 0 then v else s.xr r :=
  s.sh.xr_setX d r v
theorem Sheet.fr_setF (d r : FReg) (v : Word) : (h.setF d v).fr r = if r = d then v else h.fr r := by
  unfold Sheet.setF Sheet.fr
  by_cases hr : r = d
  · subst hr; simp
  · have : ¬ d.val = r.val := fun e => hr (Fin.ext e.symm)
    simp [hr, Vector.getElem_set, this]
theorem State.fr_setF (d r : FReg) (v : Word) : (s.setF d v).fr r = if r = d then v else s.fr r := s.sh.fr_setF d r v
@[simp] theorem State.finishN_xr (n : Nat) (r : XReg) : (s.finishN n).xr r = s.xr r := rfl
@[simp] theorem State.finishN_fr (n : Nat) (r : FReg) : (s.finishN n).fr r = s.fr r := rfl
@[simp] theorem State.mapSpr_xr (g : Spr → Spr) (r : XReg) : (s.mapSpr g).xr r = s.xr r := rfl
@[simp] theorem State.mapSpr_fr (g : Spr → Spr) (r : FReg) : (s.mapSpr g).fr r = s.fr r := rfl
@[simp] theorem State.setX_fr (d : XReg) (v : Word) (r : FReg) : (s.setX d v).fr r = s.fr r := by
  simp [State.fr, Sheet.fr]
@[simp] theorem State.setF_xr (d : FReg) (v : Word) (r : XReg) : (s.setF d v).xr r = s.xr r := rfl
@[simp] theorem State.jumpTo_xr (a : Word) (r : XReg) : (s.jumpTo a).xr r = s.xr r := rfl
@[simp] theorem State.takeTrap_xr (c : Nat) (tv fa p : Word) (r : XReg) : (s.takeTrap c tv fa p).xr r = s.xr r := rfl

end Sys2Proof.Machine
end

