-- ==== Sys2Proof/Laws/Ops.lean ====
section
/-! SUPPORT. What each shared operation can do, said once: the effects, transfers of control, the scalar access, the return
from a trap, the run of elementwise instructions.
-/
namespace Sys2Proof.Machine

@[simp] theorem need_true (s : State) : need s true = .ok () := rfl
@[simp] theorem need_false (s : State) : need s false = .error (.trap 0x01 0 0 s) := rfl
@[simp] theorem await_true (s : State) : await s true = .ok () := rfl
@[simp] theorem await_false (s : State) : await s false = .error (.wait s) := rfl
theorem need_ok {s : State} {b : Bool} {u : Unit} (h : need s b = .ok u) : b = true := by
  cases b
  · cases h
  · rfl
theorem await_ok {s : State} {b : Bool} {u : Unit} (h : await s b = .ok u) : b = true := by
  cases b
  · cases h
  · rfl

/-- An effect ends in the completed state or in what its stop comes to. -/
theorem runEff_next {e : Eff} {t : State} (h : runEff e = .next t) :
    (∃ s, e = .ok s ∧ t = s.finish) ∨ (∃ st, e = .error st ∧ t = st.take) := by
  cases e with
  | ok s => exact .inl ⟨s, rfl, by cases h; rfl⟩
  | error st => exact .inr ⟨st, rfl, by cases h; rfl⟩
@[simp] theorem runEff_ok (s : State) : runEff (.ok s) = .next s.finish := rfl
@[simp] theorem runEff_error (st : Stop) : runEff (.error st) = .next st.take := rfl
/-- Every effect ends in a next state. -/
theorem runEff_isNext (e : Eff) : ∃ t, runEff e = .next t := by cases e <;> exact ⟨_, rfl⟩
theorem runJump_isNext (e : Eff) : ∃ t, runJump e = .next t := by cases e <;> exact ⟨_, rfl⟩

/-- A transfer of control goes to its target, or traps 0x12 or 0x04 at the instruction. -/
theorem State.transfer_cases (s : State) (t : Word) (l : XReg) :
    (canonical t = true ∧ slotStart t = true ∧ s.transfer t l = .next ((s.setX l (nextPc s.sh.pc)).jumpTo t)) ∨
      (canonical t = false ∧ s.transfer t l = .next (s.takeTrap 0x12 t t s.sh.pc)) ∨
      (canonical t = true ∧ slotStart t = false ∧ s.transfer t l = .next (s.takeTrap 0x04 t 0 s.sh.pc)) := by
  unfold State.transfer
  cases h : canonical t <;> cases h' : slotStart t <;> simp

/-- A scalar access that passes its checks: aligned, every byte mapped and permitted, none poisoned for a read, none on a
line that a copy engine owns. -/
theorem State.scalar_ok {s s' : State} {a : Acc1} {va : Word} {n al : Nat} {l : List Phys}
    (h : s.scalar a va n al = .ok (l, s')) :
    va.toNat % al = 0 ∧ s.range a va n = .ok l ∧ (a ≠ .store → s.firstPoison l = none) ∧
      (linesOf (physKeys l)).any s.owned = false ∧ s' = s.fillAll (pageStarts va n) := by
  unfold State.scalar at h
  by_cases ha : va.toNat % al = 0
  · simp only [ha, bne_self_eq_false, Bool.false_eq_true, if_false] at h
    cases hr : s.range a va n with
    | error q =>
      rw [hr] at h
      simp only [faultE] at h
      split at h <;> cases h
    | ok k =>
      rw [hr] at h
      cases ho : (linesOf (physKeys k)).any s.owned with
      | true => simp only [ho] at h; cases h
      | false =>
        simp only [ho, Bool.not_false, await_true] at h
        by_cases hs : a = .store
        · subst hs
          cases h
          exact ⟨ha, rfl, fun e => absurd rfl e, ho, rfl⟩
        · cases hp : s.firstPoison k with
          | some q =>
            simp only [ne_eq, hs, not_false_eq_true, if_true, hp] at h
            cases h
          | none =>
            simp only [ne_eq, hs, not_false_eq_true, if_true, hp] at h
            cases h
            exact ⟨ha, rfl, fun _ => hp, ho, rfl⟩
  · have : (va.toNat % al != 0) = true := by simpa using ha
    simp only [this, if_true] at h
    cases h

/-- A return from a trap restores PRIV, the PC and RPST.SUSP, or stops with its cause. -/
theorem State.doReturn_ok {s t : State} {m : Nat} (h : s.doReturn m = .ok t) :
    fld s.sh.spr.tstatus 0 2 ≤ m ∧ fld s.sh.spr.tstatus 0 2 ≠ 2 ∧ canonical s.sh.spr.tpc = true ∧
      slotStart s.sh.spr.tpc = true ∧ t.sh.pc = s.sh.spr.tpc ∧
      t.sh.spr = { s.sh.spr with
        status := setFld s.sh.spr.status 0 2 (fld s.sh.spr.tstatus 0 2)
        rpst := setFld s.sh.spr.rpst 6 1 (fld s.sh.spr.tstatus 5 1) } := by
  simp only [State.doReturn] at h
  split at h
  · cases h
  · split at h
    · cases h
    · rename_i h1 h2
      simp at h1 h2
      cases h
      exact ⟨h1.1, h1.2, h2.1, h2.2, rfl, rfl⟩

end Sys2Proof.Machine
end

