-- ==== Sys2Proof/Laws/Stores.lean ====
section
/-! SUPPORT. What a write at the homes, a store of stream V and a release leave as it was: everything but the bytes and the windows'
counters, and of the sheet only its stores in flight and how many it has performed.
-/
namespace Sys2Proof.Machine

/-- Besides what holds bytes of memory, the contents of tiles and the counters of windows, nothing differs. -/
def OnlyBytes (s t : State) : Prop :=
  { s.memBack t with tiles := s.tiles, windows := s.windows } = s ∧ t.cores.map Core.sansL1 = s.cores.map Core.sansL1 ∧
    t.tiles.map (fun q => { q with data := [] }) = s.tiles.map (fun q => { q with data := [] }) ∧
    t.windows.map (fun w => { w with ctr := [] }) = s.windows.map fun w => { w with ctr := [] }

theorem OnlyBytes.refl (s : State) : OnlyBytes s s := ⟨rfl, rfl, rfl, rfl⟩

theorem OnlyBytes.trans {s t u : State} (h : OnlyBytes s t) (k : OnlyBytes t u) : OnlyBytes s u := by
  refine ⟨?_, k.2.1.trans h.2.1, k.2.2.1.trans h.2.2.1, k.2.2.2.trans h.2.2.2⟩
  have h1 := h.1
  have k1 := k.1
  rw [← h1, ← k1]
  rfl

theorem State.setHomes_only (l : List (Nat × Byte)) : ∀ s : State, OnlyBytes s (l.foldl State.setHome s) := by
  induction l with
  | nil => exact OnlyBytes.refl
  | cons q l ih => exact fun s => OnlyBytes.trans (t := s.setHome q) ⟨rfl, rfl, rfl, rfl⟩ (ih _)

theorem State.poke_only (s : State) (b : BitVec 12) (uc : Bool) (kvs : List (Nat × Byte)) : OnlyBytes s (s.poke b uc kvs) :=
  (State.setHomes_only kvs s).trans ⟨rfl, rfl, rfl, rfl⟩

theorem State.writeBack_only (s : State) (l : List Dirty) : OnlyBytes s (s.writeBack l) := by
  induction l with
  | nil => exact OnlyBytes.refl s
  | cons d l ih => exact ih.trans (State.poke_only _ _ _ _)

theorem State.flushHere_only (s : State) (p : Dirty → Bool) : OnlyBytes s (s.flushHere p) := by
  refine ⟨?_, (State.writeBack_only s (s.core.l1.filter p)).2⟩
  have h := (State.writeBack_only s (s.core.l1.filter p)).1
  exact congrArg (fun q : State => { q with core := s.core }) h

theorem State.flushOthers_only (s : State) (p : Dirty → Bool) : OnlyBytes s (s.flushOthers p) := by
  have key : ∀ (cs : List Core) (t : State), OnlyBytes t (cs.foldl (fun s c => s.writeBack (c.l1.filter p)) t) := by
    intro cs
    induction cs with
    | nil => exact OnlyBytes.refl
    | cons c cs ih => exact fun t => (State.writeBack_only t _).trans (ih _)
  have h := key s.cores s
  refine ⟨h.1, ?_, h.2.2⟩
  simp [State.flushOthers, Core.sansL1, Function.comp_def]

theorem State.recallAll_only (s : State) (ls : List Nat) : OnlyBytes s (s.recallAll ls) :=
  (State.flushOthers_only s _).trans (State.flushHere_only _ _)

theorem State.flushOwn_only (s : State) : OnlyBytes s s.flushOwn := State.recallAll_only s _

theorem State.vWrite_only (s : State) (b : BitVec 12) (uc : Bool) (kvs : List (Nat × Byte)) : OnlyBytes s (s.vWrite b uc kvs) :=
  (State.recallAll_only s _).trans (State.poke_only _ b uc kvs)

theorem State.setTile_only (s : State) (q : Tile) (m : Memory) : OnlyBytes s (s.setTile q m) := by
  refine ⟨rfl, rfl, ?_, rfl⟩
  simp only [State.setTile, List.map_map]
  refine List.map_congr_left fun a _ => ?_
  simp only [Function.comp_apply]
  split <;> rfl

theorem State.setWindow_only (s : State) (drove die : Nat) (g : List (Nat × Word) → List (Nat × Word)) :
    OnlyBytes s (s.setWindow drove die g) := by
  refine ⟨rfl, rfl, rfl, ?_⟩
  simp only [State.setWindow, List.map_map]
  refine List.map_congr_left fun a _ => ?_
  simp only [Function.comp_apply]
  split <;> rfl

/-- An element of stream V that is performed changes only bytes, or a counter. -/
theorem State.performOne_only {s t : State} {k : Sheet} {v : VStore} (h : s.performOne k v = some t) : OnlyBytes s t := by
  unfold State.performOne at h
  split at h
  · split at h
    · cases h
    · cases h; exact State.vWrite_only ..
  · split at h
    · cases h; exact OnlyBytes.refl s
    · split at h
      · cases h
      · cases h; exact State.setTile_only ..
  · cases h; exact State.setWindow_only ..

/-- What performing the oldest n elements can do: those elements are no longer in flight but among those performed, and besides that
only bytes differ; or the sheet waits with those it could perform gone. -/
theorem State.performV_ok {n : Nat} : ∀ {s t : State}, s.performV n = .ok t →
    t.sh = { s.sh with vq := s.sh.vq.drop n, vdone := s.sh.vdone + min n s.sh.vq.length } ∧ OnlyBytes s { t with sh := s.sh } := by
  induction n with
  | zero => intro s t h; cases h; exact ⟨by simp, OnlyBytes.refl s⟩
  | succ n ih =>
    intro s t h
    unfold State.performV at h
    split at h
    · rename_i hv; cases h
      exact ⟨by simp only [hv, List.drop_nil, List.length_nil, Nat.min_zero, Nat.add_zero]; rw [← hv], OnlyBytes.refl s⟩
    · rename_i v l hv
      split at h
      · cases h
      · rename_i u hu
        have hs : u.sh = s.sh := by
          have := congrArg State.sh (State.performOne_only hu).1
          exact this
        have key := ih h
        simp only at key
        have h2 := key.2
        refine ⟨?_, (State.performOne_only hu).trans
          ⟨by have := congrArg (fun q : State => { q with sh := u.sh }) h2.1; rw [← hs]; exact this, h2.2⟩⟩
        rw [key.1, hv, hs]
        simp only [List.drop_succ_cons, List.length_cons, Nat.add_min_add_right]
        congr 1; omega

/-- A release of stream V leaves no store in flight. -/
theorem State.settleV_ok {s t : State} (h : s.settleV = .ok t) :
    t.sh = { s.sh with vq := [], vdone := s.sh.vdone + s.sh.vq.length } ∧ OnlyBytes s { t with sh := s.sh } := by
  have := State.performV_ok h
  rwa [List.drop_length, Nat.min_self] at this

end Sys2Proof.Machine
end

