-- ==== Sys2Proof/Tests/Slice0.lean ====
section
/-! SUPPORT. Small tests: words of the spec's encodings, ill-formed terms, single steps, and a witness for the hypotheses of each
statement.
-/
namespace Sys2Proof
open Machine

set_option maxRecDepth 20000
set_option Elab.async false
set_option exponentiation.threshold 2000

/-! ### Words

Each word is laid out by hand from the encoding table of its instruction; a word with a rule's example is that example. -/

/-- R149. -/
def words_integer : List (IWord × Instr) := [
  (0x00011461C000000000000000#96, .add 5 6 (.reg 7)),
  (0x00027C6000010000FFFFFFFE#96, .sub 31 6 (.imm 0xFFFFFFFE)),
  (0x00031461C000000000000000#96, .mul 5 6 (.reg 7)),
  (0x00071461C000000000000000#96, .and 5 6 (.reg 7)),
  (0x00087C6000010000FFFFFFFE#96, .or 31 6 (.imm 0xFFFFFFFE)),
  (0x00091461C000000000000000#96, .xor 5 6 (.reg 7)),
  (0x000A7C6000010000FFFFFFFE#96, .andn 31 6 (.imm 0xFFFFFFFE)),
  (0x000B1461C000000000000000#96, .shl 5 6 (.reg 7)),
  (0x000C7C6000010000FFFFFFFE#96, .shr 31 6 (.imm 0xFFFFFFFE)),
  (0x000D1461C000000000000000#96, .sar 5 6 (.reg 7)),
  (0x000E7C6000010000FFFFFFFE#96, .rol 31 6 (.imm 0xFFFFFFFE)),
  (0x000F1461C000000000000000#96, .ror 5 6 (.reg 7)),
  (0x001A7C6000010000FFFFFFFE#96, .movh 31 6 (.imm 0xFFFFFFFE)),
  (0x00041461C000040000000000#96, .mulh .i64 5 6 (.reg 7)),
  (0x00051461C000080000000000#96, .div .n64 5 6 (.reg 7)),
  (0x00061461C000040000000000#96, .rem .i64 5 6 (.reg 7)),
  (0x00101461C000080000000000#96, .min .n64 5 6 (.reg 7)),
  (0x00111461C000040000000000#96, .max .i64 5 6 (.reg 7)),
  (0x00121461C900000000000000#96, .cmp .gtu 5 6 (.reg 7)),
  (0x001314600000000000000000#96, .clz 5 6),
  (0x001414600000000000000000#96, .ctz 5 6),
  (0x001514600000000000000000#96, .popc 5 6),
  (0x001C14600000000000000000#96, .bswap 5 6),
  (0x00160C400001000000000408#96, .bext 3 4 (.imm 0x0408)),
  (0x00170C424000000000000000#96, .bins 3 4 (.reg 9)),
  (0x001814600000020000000000#96, .sext .i16 5 6),
  (0x001914600000070000000000#96, .zext .n32 5 6),
  (0x001B1461C000080000000000#96, .crcw .n64 5 6 (.reg 7))]

theorem test_words_integer : ∀ q ∈ words_integer, decode q.1 = some q.2 ∧ encode q.2 = some q.1 := by decide

/-- R154. -/
def words_float : List (IWord × Instr) := [
  (0x10011461C000110000000000#96, .fadd .f32 .rne 5 6 (.reg 7)),
  (0x10021461C000112000000000#96, .fsub .f32 .rtz 5 6 (.reg 7)),
  (0x10031461C000114000000000#96, .fmul .f32 .rdn 5 6 (.reg 7)),
  (0x10041461C000116000000000#96, .fdiv .f32 .rup 5 6 (.reg 7)),
  (0x100514600000108000000000#96, .fsqrt .f64 .rna 5 6),
  (0x100614600000108000000000#96, .frsqrt .f64 .rna 5 6),
  (0x100714600000108000000000#96, .fexp2 .f64 .rna 5 6),
  (0x100814600000108000000000#96, .flog2 .f64 .rna 5 6),
  (0x10091460090110203FC00000#96, .fma .f64 .rtz 5 6 (.imm 0x3FC00000) 9),
  (0x100A1461C000110000000000#96, .fmin .f32 5 6 (.reg 7)),
  (0x100B1461C000110000000000#96, .fmax .f32 5 6 (.reg 7)),
  (0x100C14600000110000000000#96, .fneg .f32 5 6),
  (0x100D14600000110000000000#96, .fabs .f32 5 6),
  (0x100E7C61CA00110000000000#96, .fcmp .un .f32 31 6 (.reg 7)),
  (0x100F14601400114000000000#96, .fcvt .f32 .e4m3 .rdn 5 6),
  (0x101050601000052100000000#96, .fcvti .n8 .f64 .rtz true 20 6),
  (0x101115400400116000000000#96, .fcvtf .f32 .i64 .rup 5 20),
  (0x101250600000110000000000#96, .fmvx .f32 20 6),
  (0x101319400000100000000000#96, .fmvf .f64 6 20)]

theorem test_words_float : ∀ q ∈ words_float, decode q.1 = some q.2 ∧ encode q.2 = some q.1 := by decide

/-- R158. -/
def words_control : List (IWord × Instr) := [
  (0x200000000000000000000000#96, .nop),
  (0x2001005184000000FFFFFFFC#96, .br .le 5 6 0xFFFFFFFC),
  (0x200200000000000000000004#96, .jmp 4),
  (0x200304000000000000000007#96, .jal 1 7),
  (0x200400500000000000000000#96, .jr 5),
  (0x200504500000000000000000#96, .jalr 1 5),
  (0x200600000000000000000000#96, .halt),
  (0x200724000000000000000000#96, .evwait 9)]

theorem test_words_control : ∀ q ∈ words_control, decode q.1 = some q.2 ∧ encode q.2 = some q.1 := by decide

/-- R162, R166. -/
def words_scalarMemory : List (IWord × Instr) := [
  (0x3001146000000100FFFFFFFF#96, .ld .i8 5 6 0xFFFFFFFF),
  (0x30020061C000110000000008#96, .st .f32 7 6 8),
  (0x300314600900080000000010#96, .ldp .n64 5 9 6 16),
  (0x30040061C900040000000010#96, .stp .i64 7 9 6 16),
  (0x300514600000070800000004#96, .lda .n32 .qd 5 6 4),
  (0x30060061C000061000000002#96, .stl .n16 .pk 7 6 2),
  (0x31011461C000030400000004#96, .amoAdd .i32 .co 5 7 6 4),
  (0x31021461C000030800000004#96, .amoAnd .i32 .qd 5 7 6 4),
  (0x31031461C000030C00000004#96, .amoOr .i32 .di 5 7 6 4),
  (0x31041461C000031000000004#96, .amoXor .i32 .pk 5 7 6 4),
  (0x31051461C000030400000004#96, .amoMin .i32 .co 5 7 6 4),
  (0x31061461C000030800000004#96, .amoMax .i32 .qd 5 7 6 4),
  (0x31071461C000030C00000004#96, .amoSwap .i32 .di 5 7 6 4),
  (0x31081461C900080C00000008#96, .cas .n64 .di 5 9 7 6 8)]

theorem test_words_scalarMemory : ∀ q ∈ words_scalarMemory, decode q.1 = some q.2 ∧ encode q.2 = some q.1 := by decide

/-- R172, R274. -/
def words_configuration : List (IWord × Instr) := [
  (0x400114418000120000000000#96, .vset .bf16 5 4 6),
  (0x400214418000160000000000#96, .vset2d .fp4b 5 4 6),
  (0x400314400000000000000000#96, .vcfg 5 4),
  (0x40040040000000000000000B#96, .replay 4 11),
  (0x41010C5180001500FFFFFFF0#96, .ostrm .e5m2 3 5 6 0xFFFFFFF0),
  (0x410220300000000000000000#96, .bind 8 3),
  (0x410300300000000000000000#96, .unbind 3)]

theorem test_words_configuration : ∀ q ∈ words_configuration, decode q.1 = some q.2 ∧ encode q.2 = some q.1 := by decide

/-- R178. -/
def words_vectorInteger : List (IWord × Instr) := [
  (0x50012100001D01000000007F#96, .vadd ⟨.i8, .rne, false, .by 3 true⟩ 8 16 (.imm 0x7F)),
  (0x5002210600F8020000000000#96, .vsub ⟨.i16, .rne, false, .none⟩ 8 16 (.reg 24)),
  (0x50032100001D03000000007F#96, .vmul ⟨.i32, .rne, false, .by 3 true⟩ 8 16 (.imm 0x7F)),
  (0x5004210600F8040000000000#96, .vmulh ⟨.i64, .rne, false, .none⟩ 8 16 (.reg 24)),
  (0x50052100001D05000000007F#96, .vdiv ⟨.n8, .rne, false, .by 3 true⟩ 8 16 (.imm 0x7F)),
  (0x5006210600F8060000000000#96, .vrem ⟨.n16, .rne, false, .none⟩ 8 16 (.reg 24)),
  (0x50072100001D07000000007F#96, .vand ⟨.n32, .rne, false, .by 3 true⟩ 8 16 (.imm 0x7F)),
  (0x5008210600F8080000000000#96, .vor ⟨.n64, .rne, false, .none⟩ 8 16 (.reg 24)),
  (0x50092100001D01000000007F#96, .vxor ⟨.i8, .rne, false, .by 3 true⟩ 8 16 (.imm 0x7F)),
  (0x500A210600F8020000000000#96, .vshl ⟨.i16, .rne, false, .none⟩ 8 16 (.reg 24)),
  (0x500B2100001D03000000007F#96, .vshr ⟨.i32, .rne, false, .by 3 true⟩ 8 16 (.imm 0x7F)),
  (0x500C210600F8040000000000#96, .vsar ⟨.i64, .rne, false, .none⟩ 8 16 (.reg 24)),
  (0x500D2100001D05000000007F#96, .vmin ⟨.n8, .rne, false, .by 3 true⟩ 8 16 (.imm 0x7F)),
  (0x500E210600F8060000000000#96, .vmax ⟨.n16, .rne, false, .none⟩ 8 16 (.reg 24)),
  (0x500F210000F8030100000000#96, .vabs ⟨.i32, .rne, true, .none⟩ 8 16),
  (0x501021000000020000000000#96, .vneg ⟨.i16, .rne, false, .by 0 false⟩ 8 16),
  (0x50110D0606F8070000000000#96, .vcmp .ltu ⟨.n32, .rne, false, .none⟩ 3 16 (.reg 24)),
  (0x50122106201C140000000000#96, .vsel ⟨.e4m3, .rne, false, .by 3 true⟩ 8 16 24 32),
  (0x5013210000F8170000000000#96, .vmov ⟨.ing, .rne, false, .none⟩ 8 (.reg 16)),
  (0x5013200000F913403F800000#96, .vmov ⟨.f16, .rdn, false, .none⟩ 8 (.imm 0x3F800000)),
  (0x5014210000F8050000000000#96, .vclz ⟨.n8, .rne, false, .none⟩ 8 16),
  (0x5015210000F8080000000000#96, .vpopc ⟨.n64, .rne, false, .none⟩ 8 16)]

theorem test_words_vectorInteger : ∀ q ∈ words_vectorInteger, decode q.1 = some q.2 ∧ encode q.2 = some q.1 := by decide

/-- R180. -/
def words_vectorFloat : List (IWord × Instr) := [
  (0x51012106001C102000000000#96, .vfadd ⟨.f64, .rtz, false, .by 3 true⟩ 8 16 (.reg 24)),
  (0x51022106001C114000000000#96, .vfsub ⟨.f32, .rdn, false, .by 3 true⟩ 8 16 (.reg 24)),
  (0x51032106001C126000000000#96, .vfmul ⟨.bf16, .rup, false, .by 3 true⟩ 8 16 (.reg 24)),
  (0x51042106001C138000000000#96, .vfdiv ⟨.f16, .rna, false, .by 3 true⟩ 8 16 (.reg 24)),
  (0x5105210000F8122000000000#96, .vfsqrt ⟨.bf16, .rtz, false, .none⟩ 8 16),
  (0x5106210000F8122000000000#96, .vfrsqrt ⟨.bf16, .rtz, false, .none⟩ 8 16),
  (0x5107210000F8122000000000#96, .vfexp2 ⟨.bf16, .rtz, false, .none⟩ 8 16),
  (0x5108210000F8122000000000#96, .vflog2 ⟨.bf16, .rtz, false, .none⟩ 8 16),
  (0x5109210620F8140100000000#96, .vfma ⟨.e4m3, .rne, true, .none⟩ 8 16 (.reg 24) 32),
  (0x510A210000F9110040490FDB#96, .vfmin ⟨.f32, .rne, false, .none⟩ 8 16 (.imm 0x40490FDB)),
  (0x510B210600F8162000000000#96, .vfmax ⟨.fp4b, .rtz, false, .none⟩ 8 16 (.reg 24)),
  (0x510C21000000150000000000#96, .vfabs ⟨.e5m2, .rne, false, .by 0 false⟩ 8 16),
  (0x510D210000F8110000000000#96, .vfneg ⟨.f32, .rne, false, .none⟩ 8 16),
  (0x510E5D060BF8110000000000#96, .vfcmp .or ⟨.f32, .rne, false, .none⟩ 23 16 (.reg 24))]

theorem test_words_vectorFloat : ∀ q ∈ words_vectorFloat, decode q.1 = some q.2 ∧ encode q.2 = some q.1 := by decide

/-- R182, R186. -/
def words_conversions : List (IWord × Instr) := [
  (0x52012100111C144100000000#96, .vcvt ⟨.e4m3, .rdn, true, .by 3 true⟩ .f32 8 16),
  (0x5202210000F8020000000000#96, .vwiden ⟨.i16, .rne, false, .none⟩ 8 16),
  (0x5203210000F8132000000000#96, .vnarrow ⟨.f16, .rtz, false, .none⟩ 8 16),
  (0x5204210012F8168100000000#96, .vpack4 ⟨.fp4b, .rna, true, .none⟩ .bf16 8 16),
  (0x5205210000F8110000000000#96, .vunpack4 ⟨.f32, .rne, false, .none⟩ 8 16),
  (0x5301210600F8110000000000#96, .vinga ⟨.f32, .rne, false, .none⟩ 8 16 24),
  (0x5302210000F8126000000000#96, .vingr ⟨.bf16, .rup, false, .none⟩ 8 16)]

theorem test_words_conversions : ∀ q ∈ words_conversions, decode q.1 = some q.2 ∧ encode q.2 = some q.1 := by decide

/-- R191. -/
def words_masks : List (IWord × Instr) := [
  (0x60011461C01C000000000000#96, .mand (.by 3 true) 5 6 7),
  (0x60021461C01C000000000000#96, .mor (.by 3 true) 5 6 7),
  (0x60031461C01C000000000000#96, .mxor (.by 3 true) 5 6 7),
  (0x60041461C01C000000000000#96, .mandn (.by 3 true) 5 6 7),
  (0x6005146000F8000000000000#96, .mnot .none 5 6),
  (0x60067C600000000000000000#96, .mpop (.by 0 false) 31 6),
  (0x60077C6000F8000000000000#96, .mfirst .none 31 6),
  (0x6008157000F8000000000000#96, .mcopy .none 5 23)]

theorem test_words_masks : ∀ q ∈ words_masks, decode q.1 = some q.2 ∧ encode q.2 = some q.1 := by decide

/-- R192, R194. -/
def words_permutes : List (IWord × Instr) := [
  (0x610121000000160000000000#96, .vcompress ⟨.fp4b, .rne, false, .by 0 false⟩ 8 16),
  (0x610221000000110000000000#96, .vexpand ⟨.f32, .rne, false, .by 0 false⟩ 8 16),
  (0x61032101C0F8030000000000#96, .vslideup ⟨.i32, .rne, false, .none⟩ 8 16 (.reg 7)),
  (0x6104210000F9030000000005#96, .vslidedn ⟨.i32, .rne, false, .none⟩ 8 16 (.imm 5)),
  (0x61052106001C070000000000#96, .vperm ⟨.n32, .rne, false, .by 3 true⟩ 8 16 24),
  (0x610621F000F8030000000000#96, .vbcast ⟨.i32, .rne, false, .none⟩ 8 (.reg 31)),
  (0x61077D01C0F8030000000000#96, .vext ⟨.i32, .rne, false, .none⟩ 31 16 (.reg 7)),
  (0x610821F000F9010000000009#96, .vins ⟨.i8, .rne, false, .none⟩ 8 31 (.imm 9)),
  (0x6109200000F8132000000000#96, .viota ⟨.f16, .rtz, false, .none⟩ 8),
  (0x62011D0000F8114200000000#96, .vred .add true ⟨.f32, .rdn, false, .none⟩ 7 16),
  (0x6202210006F8050000000000#96, .vscan .xor false ⟨.n8, .rne, false, .none⟩ 8 16)]

theorem test_words_permutes : ∀ q ∈ words_permutes, decode q.1 = some q.2 ∧ encode q.2 = some q.1 := by decide

/-- R252, R262. -/
def words_vectorMemory : List (IWord × Instr) := [
  (0x70012060001C1702FFFFFFE8#96, .vld .ing (.by 3 true) true 8 6 0xFFFFFFE8),
  (0x7002206007F8110000000004#96, .vlds .f32 .none false 8 6 7 4),
  (0x700308D00300100000000000#96, .vldx .f64 (.by 0 false) false 2 13 3 0),
  (0x700408D000F8100000000000#96, .vwgath .f64 .none 2 13 0 0 0),
  (0x700520600000160000000005#96, .vst .fp4b (.by 0 false) 8 6 5),
  (0x7006206007F8060000000002#96, .vsts .n16 .none 8 6 7 2),
  (0x7007206018F8070000000004#96, .vstx .n32 .none 8 6 24 4),
  (0x7008206000F8030200000ABC#96, .tld .i32 .none true 8 6 0xABC),
  (0x7009206000F8030000000ABC#96, .tst .i32 .none 8 6 0xABC),
  (0x7101206607F8070000000004#96, .vamo .swap .n32 .rne .none 8 6 24 4),
  (0x72012061C9F8050000000906#96, .vassay 2 true 9 .n8 8 6 7 9)]

theorem test_words_vectorMemory : ∀ q ∈ words_vectorMemory, decode q.1 = some q.2 ∧ encode q.2 = some q.1 := by decide

/-- R344, R353. -/
def words_routing : List (IWord × Instr) := [
  (0x80011501C0F8070000000000#96, .vsegoff .n32 5 16 7),
  (0x80021501C9F8040000000000#96, .vfibre .i64 5 16 7 9),
  (0x80032101C318020200000000#96, .vsred .max true ⟨.i16, .rne, false, .by 3 false⟩ 8 16 7),
  (0x80042101C01C122000000000#96, .vsscan .add false ⟨.bf16, .rtz, false, .by 3 true⟩ 8 16 7),
  (0x80057D01C9F8110000000000#96, .vmaxi .f32 31 16 7 9),
  (0x80061501C9F8150000000000#96, .vmaxiSeg .e5m2 5 16 7 9),
  (0x80077C61C018080000000000#96, .vappend .n64 (.by 3 false) 31 6 7),
  (0x8101000000F9070000000001#96, .gadd .n32 .none 0 (.imm 1)),
  (0x8102040000F8080000000000#96, .gsnap 1 0),
  (0x81031461C9F8080000000000#96, .gslot 5 6 7 9)]

theorem test_words_routing : ∀ q ∈ words_routing, decode q.1 = some q.2 ∧ encode q.2 = some q.1 := by decide

/-- R98, R109 to R113, R122. -/
def words_arrays : List (IWord × Instr) := [
  (0x90013C600000000000001300#96, .dset 15 6 19),
  (0x9002146000000000FFFFFF80#96, .dld 5 6 0xFFFFFF80),
  (0x900314600000000000000080#96, .dst 5 6 128),
  (0x90045050000000A000000000#96, .dshape 20 5 0 5),
  (0x91010C00420F000000010901#96, .amap (.fma 1 2) 3 0 1 7 .rtz false),
  (0x91010C400038000000001308#96, .amap (.un .mov) 3 4 7 0 .rne true),
  (0x91010C424613000000001100#96, .amap (.cmp .ltu 9) 3 4 2 3 .rne false),
  (0x91010C424613000000001200#96, .amap (.sel 9 6) 3 4 2 3 .rne false),
  (0x91010C424013000000000E00#96, .amap (.bin .max 9) 3 4 2 3 .rne false),
  (0x91020C40003000A00000020A#96, .ared .min 3 4 6 5 .rdn true),
  (0x91030C40093000E300000000#96, .ascan .add true (some 9) 3 4 6 7 .rne false),
  (0x92010C40003800E100000000#96, .agrade true 3 4 7 7),
  (0x92020C450038002000000000#96, .arotScalar 3 4 20 7 1),
  (0x92020C424038002000000100#96, .arotVector 3 4 9 7 1),
  (0x92030C450038002000000000#96, .atake 3 4 20 7 1),
  (0x92040C450008000000000000#96, .adrop 3 4 20 1 0),
  (0x92050C424038000000000000#96, .areshape 3 4 9),
  (0x92060C450038000000000000#96, .atrans 3 4 20),
  (0x92070C424007000000010103#96, .aouter (.bin .fadd 9) 3 4 0 7 .rup false),
  (0x92080C45153F000300000000#96, .asel (.lim 3 20) 3 4 21),
  (0x92080C42553F000400000000#96, .asel (.mask 9) 3 4 21),
  (0x92090C42543F004000000000#96, .acomp 3 4 9 20 2),
  (0x920A0C42403F004000000000#96, .afrom 3 4 9 2),
  (0x920B0C42403F00E000000000#96, .acat 3 4 9 7),
  (0x920C0C450038000000000000#96, .afill 3 4 20),
  (0x920D0C400038002000000009#96, .aiota 3 4 1 .rtz true)]

theorem test_words_arrays : ∀ q ∈ words_arrays, decode q.1 = some q.2 ∧ encode q.2 = some q.1 := by decide

/-- R302, R315, R340, R368. -/
def words_matrix : List (IWord × Instr) := [
  (0xA0011461C000120000000000#96, .mset .bf16 5 6 7),
  (0xA0023C31C900140200000000#96, .wld .e4m3 true 15 3 7 9),
  (0xA0031D03C900110000000000#96, .mmul .f32 7 16 15 9),
  (0xA0041D03C9001600000000BF#96, .mmuls .fp4b 7 16 15 9 63 2),
  (0xA0051D03C900150000000000#96, .mmula .e5m2 7 16 15 9),
  (0xA00611400300000000000000#96, .mmulc 4 20 0 3),
  (0xA0071C000000000000000000#96, .mzero 7),
  (0xA00810200308110000000000#96, .mdrainStrided ⟨.f32, .rne, false, .by 1 false⟩ 4 2 3 0),
  (0xA008102018F81423FFFFFFFC#96, .mdrainIndexed ⟨.e4m3, .rtz, true, .none⟩ 4 2 24 0xFFFFFFFC),
  (0xA0092070001C138000000000#96, .mdrv ⟨.f16, .rna, false, .by 3 true⟩ 8 7),
  (0xA00A0C000000000000000000#96, .kwait 3),
  (0xA00B50F00000000000000000#96, .kpoll 20 15),
  (0xA00C00800200120000000000#96, .mgrp .bf16 0 8 2),
  (0xA10150A38100120000000000#96, .cutBand .bf16 20 10 14 1),
  (0xA10150A38100140000000001#96, .cutSquare .e4m3 20 10 14 1),
  (0xA10200050200000000000000#96, .cocut 0 0 20 2),
  (0xA10350000000000000000000#96, .cutq 20)]

theorem test_words_matrix : ∀ q ∈ words_matrix, decode q.1 = some q.2 ∧ encode q.2 = some q.1 := by decide

/-- R227. -/
def words_tilesAndCopies : List (IWord × Instr) := [
  (0xB0011461C000120C00000FFF#96, .talloc .bf16 .di 5 6 7 0xFFF),
  (0xB00200000000000000000123#96, .tfree 0x123),
  (0xB00314000500000000000123#96, .tinfo 5 5 0x123),
  (0xB1010C478000002100300000#96, .copy (.st 30) 3 4 .rtz true 3),
  (0xB1010C4000000008002100FF#96, .copy (.bar 255 .qd) 3 4 .rne false 2),
  (0xB1020C425800070000120000#96, .cgath .n32 (.gr 9) 3 4 24 .rne false 1),
  (0xB10300600000000000200000#96, .facet 2 6),
  (0xB1041461C000000000000000#96, .swait 5 6 7),
  (0xB201006000000004000003FF#96, .barexp .co 1023 6),
  (0xB20200000000000C0000003F#96, .barv .di 63),
  (0xB2030060000000100000000F#96, .barw .pk 15 6),
  (0xB301006000000010000000FF#96, .wmpub 6 255),
  (0xB302006000000010000000FF#96, .wmwait 6 255),
  (0xB30314600000000000000000#96, .gnode 5 6)]

theorem test_words_tilesAndCopies : ∀ q ∈ words_tilesAndCopies, decode q.1 = some q.2 ∧ encode q.2 = some q.1 := by decide

/-- R344, R373. -/
def words_spans : List (IWord × Instr) := [
  (0xC00124000000001000000000#96, .xalloc .pk false 9 0),
  (0xC00124700000000800000001#96, .xalloc .qd true 9 7),
  (0xC00200700000000000000000#96, .xfree 7),
  (0xC00308100000080000000000#96, .xall .add false .n64 .rne 2 1 0),
  (0xC0042101C2001102000FFFFF#96, .xred .min true .f32 .rne 8 16 7 0xFFFFF),
  (0xC0052101C000160000000003#96, .xgath .fp4b 8 16 7 3),
  (0xC0062101C000010000000003#96, .xscat .i8 8 16 7 3),
  (0xC0072101C000170000000003#96, .xbcast .ing 8 16 7 3),
  (0xC0080101C900150000000000#96, .xsend .e5m2 16 7 9),
  (0xC0092001C900150000000000#96, .xrecv .e5m2 8 7 9)]

theorem test_words_spans : ∀ q ∈ words_spans, decode q.1 = some q.2 ∧ encode q.2 = some q.1 := by decide

/-- R212, R213, R284. -/
def words_system : List (IWord × Instr) := [
  (0xD00100000000000400000201#96, .fence 1 2 .co),
  (0xD0010000000000140000203F#96, .fence 0x3F 0x20 .pd),
  (0xD00200000000000000000002#96, .hold 2),
  (0xE00100000000000000000ABC#96, .trap 0xABC),
  (0xE00200000000000000000000#96, .sret),
  (0xE00300000000000000000000#96, .mret),
  (0xE00428000000000000000040#96, .srd 10 0x040),
  (0xE00500200000000000000044#96, .swr 0x044 2),
  (0xE00500200000000000000010#96, .swrVcfg 2),
  (0xE00500200000000000000031#96, .swrCutst 2),
  (0xE00500200000000000000032#96, .swrXpos 2),
  (0xE00600600000000000000000#96, .tlbiVa 6),
  (0xE00600000000000000000001#96, .tlbiSad),
  (0xE00600000000000000000002#96, .tlbiAll),
  (0xE00700600000000000000001#96, .ctxsave true 6),
  (0xE00700600000000000000000#96, .ctxsave false 6),
  (0xE00800600000000000000000#96, .ctxrest 6),
  (0xE0091461C000000000000038#96, .einj 3 8 5 6 7),
  (0xE00A00000000000000000000#96, .idle)]

theorem test_words_system : ∀ q ∈ words_system, decode q.1 = some q.2 ∧ encode q.2 = some q.1 := by decide

/-- Words that the spec forbids, with the rule that does. -/
def forbidden_words0 : List IWord := [
  0xF00100000000000000000000#96 /- R60: class 0xF -/,
  0x200800000000000000000000#96 /- R60: an unassigned FN of class 0x2 -/,
  0x10011461C00011A000000000#96 /- R53: RND 5 -/,
  0x5001210600C0030000000000#96 /- R53: MK 24 -/,
  0x5001210600FC030000000000#96 /- R55: MP 1 with MK 31 -/,
  0x00011461C001000000000000#96 /- R54: I 1 with B not zero -/,
  0x00011461C000000000000001#96 /- R54: IMM32 without I -/,
  0x00011461C002000000000000#96 /- R53: bit 49 -/,
  0x00018061C000000000000000#96 /- R52: x32 -/,
  0x900140600000000000000000#96 /- R52: d16 -/]

theorem test_forbidden_words0 : (forbidden_words0.all fun w => (decode w).isNone) = true := by decide

/-- Words that the spec forbids, with the rule that does. -/
def forbidden_words1 : List IWord := [
  0x00121461CA00000000000000#96 /- R62: cmp.un -/,
  0x100E1461C600110000000000#96 /- R62: fcmp.ltu -/,
  0x00011461C000040000000000#96 /- R53: TY on an instruction without a format -/,
  0x5201210010F8110100000000#96 /- R77: SAT to f32 -/,
  0x62011D0007F8030000000000#96 /- R63: operator 7 of vred -/,
  0x62011D0004F8110000000000#96 /- R194: and of floats -/,
  0x91020C40000000C000000000#96 /- R57: AXIS 6 -/,
  0x92080C45153F000500000000#96 /- R57: asel condition 5 -/,
  0x300314600500080000000000#96 /- R162: ldp with D = C -/,
  0x300514600000070000000000#96 /- R162: lda without scope -/]

theorem test_forbidden_words1 : (forbidden_words1.all fun w => (decode w).isNone) = true := by decide

/-- Words that the spec forbids, with the rule that does. -/
def forbidden_words2 : List IWord := [
  0x400400400000000000000000#96 /- R172: replay #0 -/,
  0xB20200000000001000000010#96 /- R227: a barrier name past its level -/,
  0xB1010C414000000000000000#96 /- R227: an odd stamp register -/,
  0xD00100000000000000000001#96 /- R212: an empty set -/,
  0xE00600000000000000000003#96 /- R284: tlbi 3 -/,
  0x5109210620F8160000000000#96 /- R180: vfma of fp4b -/,
  0xA10174A38100120000000000#96 /- R302: cut block at x29 -/,
  0xC0080101C900010000000001#96 /- R373: xsend with a root -/,
  0x72012061C918050000000000#96 /- R262: a mask on vassay -/]

theorem test_forbidden_words2 : (forbidden_words2.all fun w => (decode w).isNone) = true := by decide

/-! ### Well-formedness

One ill-formed term for each check of `Instr.wf`, with the rule it breaks. -/

def illFormed0 : List Instr := [
  .mulh .i32 5 6 (.reg 7), .cmp .un 5 6 (.reg 7), .sext .n8 5 6, .zext .i8 5 6, .bext 5 6 (.imm 0x40), .bins 5 6 (.imm 0x4000),
  .crcw .i8 5 6 (.reg 7), .fadd .bf16 .rne 5 6 (.reg 7), .fsqrt .f16 .rne 5 6, .fma .i32 .rne 5 6 (.reg 7) 9,
  .fmin .bf16 5 6 (.reg 7), .fneg .n64 5 6, .fcmp .ltu .f32 5 6 (.reg 7), .fcmp .eq .bf16 5 6 (.reg 7),
  .fcvt .bf16 .f32 .rne 5 6, .fcvt .f32 .i8 .rne 5 6, .fcvti .f32 .f64 .rne false 5 6, .fcvti .i8 .bf16 .rne false 5 6,
  .fcvtf .bf16 .i8 .rne 5 6, .fcvtf .f32 .f64 .rne 5 6, .fmvx .i64 5 6, .br .or 5 6 4, .ld .bf16 5 6 0, .ld .f32 16 6 0,
  .st .ing 5 6 0, .st .f64 31 6 0, .ldp .i32 5 9 6 0, .ldp .f64 5 16 6 0, .ldp .f64 16 5 6 0, .ldp .n64 5 5 6 0,
  .stp .n32 5 9 6 0, .stp .f64 16 9 6 0, .stp .f64 9 16 6 0, .lda .f32 .co 5 6 0, .stl .i64 .ln 5 6 0,
  .amoAdd .i16 .co 5 7 6 0, .amoMin .i32 .pd 5 7 6 0, .cas .n8 .co 5 9 7 6 0, .cas .n32 .ln 5 9 7 6 0]

theorem test_illFormed0 : (illFormed0.all fun i => !i.wf && (encode i).elim true fun w => (decode w).isNone) = true := by decide

def illFormed1 : List Instr := [
  .vset .fct8 5 4 6, .replay 4 0, .replay 4 33, .ostrm .fp4b 3 5 6 0,
  .vadd ⟨.f32, .rne, false, .none⟩ 8 16 (.reg 24), .vadd ⟨.i32, .rtz, false, .none⟩ 8 16 (.reg 24),
  .vadd ⟨.ing, .rne, false, .none⟩ 8 16 (.imm 1), .vadd ⟨.ing, .rne, true, .none⟩ 8 16 (.reg 24),
  .vsub ⟨.ing, .rne, false, .none⟩ 8 16 (.reg 24), .vand ⟨.i32, .rne, true, .none⟩ 8 16 (.reg 24),
  .vabs ⟨.f32, .rne, false, .none⟩ 8 16, .vcmp .un ⟨.i32, .rne, false, .none⟩ 3 16 (.reg 24),
  .vcmp .eq ⟨.f32, .rne, false, .none⟩ 3 16 (.reg 24), .vsel ⟨.fp4b, .rne, false, .none⟩ 8 16 24 32,
  .vsel ⟨.i8, .rne, true, .none⟩ 8 16 24 32, .vmov ⟨.fct8, .rne, false, .none⟩ 8 (.reg 16),
  .vmov ⟨.i8, .rne, true, .none⟩ 8 (.reg 16), .vmov ⟨.ing, .rne, false, .none⟩ 8 (.imm 0),
  .vmov ⟨.f32, .rtz, false, .none⟩ 8 (.reg 16), .vclz ⟨.i8, .rne, true, .none⟩ 8 16,
  .vfadd ⟨.fp4b, .rne, false, .none⟩ 8 16 (.imm 0), .vfadd ⟨.f32, .rne, true, .none⟩ 8 16 (.reg 24),
  .vfdiv ⟨.fp4b, .rne, false, .none⟩ 8 16 (.reg 24), .vfsqrt ⟨.i32, .rne, false, .none⟩ 8 16,
  .vfma ⟨.fp4b, .rne, false, .none⟩ 8 16 (.reg 24) 32, .vfmin ⟨.f32, .rtz, false, .none⟩ 8 16 (.reg 24),
  .vfabs ⟨.f32, .rtz, false, .none⟩ 8 16, .vfcmp .ltu ⟨.f32, .rne, false, .none⟩ 3 16 (.reg 24),
  .vfcmp .eq ⟨.f32, .rup, false, .none⟩ 3 16 (.reg 24), .vfcmp .eq ⟨.fp4b, .rne, false, .none⟩ 3 16 (.reg 24)]

theorem test_illFormed1 : (illFormed1.all fun i => !i.wf && (encode i).elim true fun w => (decode w).isNone) = true := by decide

def illFormed2 : List Instr := [
  .vcvt ⟨.fp4b, .rne, false, .none⟩ .f32 8 16, .vcvt ⟨.f32, .rne, false, .none⟩ .ing 8 16,
  .vcvt ⟨.f32, .rne, true, .none⟩ .f64 8 16, .vwiden ⟨.i64, .rne, false, .none⟩ 8 16, .vwiden ⟨.i8, .rtz, false, .none⟩ 8 16,
  .vnarrow ⟨.f64, .rne, false, .none⟩ 8 16, .vnarrow ⟨.f16, .rne, true, .none⟩ 8 16,
  .vpack4 ⟨.f32, .rne, false, .none⟩ .f32 8 16, .vpack4 ⟨.fp4b, .rne, false, .none⟩ .f64 8 16,
  .vunpack4 ⟨.e4m3, .rne, false, .none⟩ 8 16, .vunpack4 ⟨.f32, .rne, true, .none⟩ 8 16,
  .vinga ⟨.f64, .rne, false, .none⟩ 8 16 24, .vingr ⟨.f64, .rne, false, .none⟩ 8 16, .vingr ⟨.f32, .rne, true, .none⟩ 8 16,
  .vcompress ⟨.i8, .rne, false, .none⟩ 8 16, .vcompress ⟨.i8, .rne, false, .by 3 true⟩ 8 16,
  .vexpand ⟨.i8, .rne, false, .none⟩ 8 16, .vslideup ⟨.fct8, .rne, false, .none⟩ 8 16 (.reg 7),
  .vperm ⟨.ing, .rne, false, .none⟩ 8 16 24, .vbcast ⟨.ing, .rne, false, .none⟩ 8 (.reg 7),
  .vbcast ⟨.f32, .rne, false, .none⟩ 8 (.reg 16), .vext ⟨.i8, .rne, false, .by 3 false⟩ 5 16 (.reg 7),
  .vext ⟨.f32, .rne, false, .none⟩ 16 16 (.reg 7), .vins ⟨.i8, .rne, false, .by 3 false⟩ 8 5 (.reg 7),
  .vins ⟨.f32, .rne, false, .none⟩ 8 16 (.reg 7), .viota ⟨.e4m3, .rne, false, .none⟩ 8, .viota ⟨.f32, .rne, true, .none⟩ 8,
  .vred .swap false ⟨.i8, .rne, false, .none⟩ 5 16, .vred .and false ⟨.f32, .rne, false, .none⟩ 5 16,
  .vred .add false ⟨.i8, .rtz, false, .none⟩ 5 16, .vred .add false ⟨.f32, .rne, true, .none⟩ 5 16,
  .vred .add false ⟨.f32, .rne, false, .none⟩ 16 16, .vscan .add false ⟨.ing, .rne, false, .none⟩ 8 16]

theorem test_illFormed2 : (illFormed2.all fun i => !i.wf && (encode i).elim true fun w => (decode w).isNone) = true := by decide

def illFormed3 : List Instr := [
  .vld .fct8 .none false 8 6 0, .vlds .fp4b .none false 8 6 7 0, .vldx .ing .none false 8 6 24 0,
  .vamo .add .i16 .rne .none 8 6 24 0, .vamo .mul .i32 .rne .none 8 6 24 0, .vamo .xor .f32 .rne .none 8 6 24 0,
  .vamo .max .f32 .rtz .none 8 6 24 0, .vassay 2 false 9 .f32 8 6 7 9, .vassay 0 false 9 .i8 8 6 7 9,
  .vsegoff .n16 5 16 7, .vsred .add false ⟨.i8, .rne, false, .by 3 true⟩ 8 16 7, .vsscan .swap false ⟨.i8, .rne, false, .none⟩ 8 16 7,
  .vmaxi .ing 5 16 7 9, .vmaxi .f32 5 16 7 16, .vmaxiSeg .fp4b 5 16 7 9, .vappend .i32 .none 5 6 7,
  .vappend .n32 (.by 3 true) 5 6 7, .gadd .n8 .none 16 (.reg 7), .dshape 5 6 0 6, .dshape 5 6 1 1,
  .amap (.cmp .un 9) 3 4 7 7 .rne false, .amap (.fcmp .ltu 9) 3 4 7 7 .rne false, .amap (.un .mov) 3 4 7 7 .rne false,
  .ared .swap 3 4 7 7 .rne false, .ared .add 3 4 7 6 .rne false, .ascan .swap false none 3 4 7 7 .rne false,
  .ascan .add false none 3 4 7 6 .rne false, .agrade false 3 4 7 6, .arotScalar 3 4 20 7 6, .aouter (.un .mov) 3 4 7 7 .rne false,
  .aouter (.cmp .or 9) 3 4 7 7 .rne false, .aouter (.fcmp .geu 9) 3 4 7 7 .rne false, .acomp 3 4 9 20 6]

theorem test_illFormed3 : (illFormed3.all fun i => !i.wf && (encode i).elim true fun w => (decode w).isNone) = true := by decide

def illFormed4 : List Instr := [
  .mset .f64 5 6 7, .mmulc 4 29 0 3, .mdrainStrided ⟨.f64, .rne, false, .none⟩ 4 2 3 0, .mdrainStrided ⟨.f32, .rne, true, .none⟩ 4 2 3 0,
  .mdrainIndexed ⟨.f32, .rne, false, .by 3 true⟩ 4 2 24 0, .mdrv ⟨.i8, .rne, false, .none⟩ 8 7, .mdrv ⟨.bf16, .rne, true, .none⟩ 8 7,
  .cutBand .fp4b 20 10 14 1, .cutBand .f32 0 10 14 1, .cutSquare .f32 29 10 14 1, .cutSquare .f32 20 29 14 1, .cocut 0 0 29 2,
  .cutq 0, .cutq 29, .talloc .fct8 .co 5 6 7 0, .talloc .i8 .pk 5 6 7 0, .copy (.st 5) 3 4 .rne false 0, .copy (.st 0) 3 4 .rne false 0,
  .copy (.bar 0 .ln) 3 4 .rne false 0, .copy (.bar 64 .di) 3 4 .rne false 0, .cgath .n8 (.gr 9) 3 4 24 .rne false 0,
  .cgath .f32 (.gr 9) 3 4 24 .rne false 0, .barexp .ln 0 6, .barv .qd 256, .xalloc .ln false 9 0, .xall .add false .e4m3 .rne 8 16 7,
  .xall .swap false .i8 .rne 8 16 7, .xall .min false .ing .rne 8 16 7, .xred .add false .i8 .rtz 8 16 7 0, .xgath .fct8 8 16 7 0,
  .fence 0 1 .pk, .fence 1 0 .pk, .hold 0, .swr 0x010 2, .swr 0x031 2, .swr 0x032 2]

theorem test_illFormed4 : (illFormed4.all fun i => !i.wf && (encode i).elim true fun w => decode w != some i) = true := by decide

/-- The value of a field at the end of its range is accepted, and the one past it is not. -/
theorem test_wf_boundaries : (Instr.replay 4 1).wf ∧ (Instr.replay 4 32).wf ∧ (Instr.cutq 1).wf ∧ (Instr.cutq 28).wf ∧
    (Instr.barv .co 1023).wf ∧ (Instr.barv .qd 255).wf ∧ (Instr.barv .di 63).wf ∧ (Instr.barv .pk 15).wf ∧
    (Instr.barv .di 64).wf = false ∧ (Instr.barv .pk 16).wf = false ∧ (Instr.copy (.st 30) 3 4 .rne false 3).wf ∧
    (Instr.vred .add false ⟨.f32, .rne, false, .none⟩ 15 16).wf := by decide

/-! ### A small state

One ready sheet of drove 1 of saddle 0, at level U, whose local memory maps to itself by one page that the drove and the
saddle's runtime may read, write and execute; the sheet's TLB holds that page. -/

def wE : Word := 0x03F000000000001F

def wSaddle : Saddle := { Saddle.reset with ptRoot := 0x100000, devBase := 4, graphN := 8, graphBase := 0x40000 }

def wDrove : Drove := ⟨1, 0, 1, 1, 0, 0, 0, 4, [0], .resident, 1, false, false⟩

def w0 : State :=
  { State.reset with
    sh := { Sheet.reset with
      pc := 0x20000C, run := .ready, droveId := 1, tlb := [⟨0, 0, 42, wE⟩]
      spr := { Spr.reset with brand := 1, tvec := 0x300000, vcfg := 0, vl := 4, aec := 3 } }
    mem := [(0x100000, 0x1F), (0x100006, 0xF0), (0x100007, 0x03)]
    saddles := State.reset.saddles.set 0 wSaddle
    droves := [wDrove], fw := .running, up := 1, cal := 1, ids := 1 }

/-- w0 with x5 to x9, x20 to x23 set. -/
def w1 (v5 v6 v7 v9 : Word) : State := (((w0.setX 5 v5).setX 6 v6).setX 7 v7).setX 9 v9

def wPhys (a n : Nat) : List Phys := (List.range n).map fun i => ⟨a + i, wE⟩


/-! ### Witnesses: what the statements assume is met

Each theorem gives a concrete state and operands that meet the hypotheses of a clause, at an end of its range where it has
one. -/

theorem witness_DecodeOfEncode :
    (Instr.add 31 31 (.imm 0xFFFFFFFF)).wf = true ∧ (encode (.add 31 31 (.imm 0xFFFFFFFF))).isSome = true := by decide

theorem witness_EncodeOfDecode : decode 0x000114000001000000004000#96 = some (.add 5 0 (.imm 0x4000#32)) := by decide

/-- A sheet at the last slot of a line that holds a word there. -/
def wAt (w : IWord) : State :=
  { w0 with sh := { w0.sh with
    pc := 0x200030
    lines := [⟨0x200000, List.replicate 48 0 ++ bytesOfWord w ++ List.replicate 4 0, []⟩] } }

theorem witness_WordsOfTheSpec :
    (wAt 0).sh.run ≠ .off ∧ (wAt 0).straight ∧ ((wAt 0).sh.lineAt (wAt 0).sh.pc).isSome = true ∧
      (wAt (BitVec.allOnes 96)).straight ∧
      (((wAt (BitVec.allOnes 96)).sh.lineAt 0x200030).elim false fun l =>
        l.recs = [] && (wordOfBytes (l.slot (slotOf 0x200030))).extractLsb' 92 4 = 0xF#4) = true ∧
      (((wAt 0).sh.lineAt 0x200030).elim false fun l => l.slot (slotOf 0x200030) = List.replicate 12 0) = true := by
  unfold State.straight; decide

theorem witness_StepRunsDecoded_scalar :
    (wAt 0x000114000001000000004000).agenda = [] ∧ (wAt 0x000114000001000000004000).sh.run = .ready ∧
      (wAt 0x000114000001000000004000).sh.irq = none ∧ (wAt 0x000114000001000000004000).straight ∧
      (wAt 0x000114000001000000004000).sh.spr.epos = 0 ∧
      (((wAt 0x000114000001000000004000).sh.lineAt 0x200030).bind fun l => decodeBytes (l.slot (slotOf 0x200030))) =
        some (.add 5 0 (.imm 0x4000)) ∧ vecOp (.add 5 0 (.imm 0x4000)) = none ∧
      (((wAt 0).sh.lineAt 0x200030).bind fun l => decodeBytes (l.slot (slotOf 0x200030))) = none := by
  unfold State.straight; decide

/-- A masked word that may not begin a group: its destination group is out of range. -/
def wVadd : Instr := .vadd ⟨.i32, .rne, false, .none⟩ 63 16 (.reg 24)

theorem witness_StepRunsDecoded_vector :
    ((encode wVadd).elim false fun w => (((wAt w).sh.lineAt 0x200030).bind fun l => decodeBytes (l.slot (slotOf 0x200030))) = some wVadd &&
      (vecOp wVadd).elim false fun op => !(op.joins && op.ok (wAt w).sh)) = true := by decide

/-- A sheet in a loop of 32 words at its last position, x4 counting. -/
def wLoop (pos : Nat) (x4 : Word) : State :=
  { w0.setX 4 x4 with sh := { (w0.setX 4 x4).sh with
    rbuf := List.replicate 32 0x200000000000000000000000#96
    spr := { w0.sh.spr with rpst := BitVec.ofNat 64 (32 + 2 ^ 7 + 4 * 2 ^ 8 + pos * 2 ^ 16) } } }

theorem witness_StepRunsDecoded_loop :
    (wLoop 31 1).agenda = [] ∧ (wLoop 31 1).sh.run = .ready ∧ rpDrives (wLoop 31 1).sh.spr.rpst = true ∧
      ((wLoop 31 1).sh.rbuf[rpPos (wLoop 31 1).sh.spr.rpst]?).bind decode = some .nop ∧ vecOp .nop = none := by decide

theorem witness_StepKeepsMemory : State.reset.Inv := by unfold State.Inv; decide

theorem witness_CompletionMovesThePc :
    rpDrives w0.sh.spr.rpst = false ∧
      (let r := (wLoop 30 1).sh.spr.rpst; rpDrives r = true ∧ rpPos r + 1 < rpLen r ∧ rpPos r + 1 < 32) ∧
      (let r := (wLoop 31 1).sh.spr.rpst; rpDrives r = true ∧ rpLen r ≤ rpPos r + 1 ∧
        0 < ((wLoop 31 1).xr (xreg (rpReg r))).toInt) ∧
      (let r := (wLoop 31 0).sh.spr.rpst; rpDrives r = true ∧ rpLen r ≤ rpPos r + 1 ∧
        ((wLoop 31 0).xr (xreg (rpReg r))).toInt ≤ 0) ∧
      (let pc : Word := 0x3FFFFFFFFFFFF0; slotStart pc = true ∧ pc.toInt < 2 ^ 54 ∧ -(2 ^ 54) ≤ pc.toInt ∧ ¬ pc.toInt + 16 < 2 ^ 54) ∧
      (let pc : Word := 0xFFC0000000000000; slotStart pc = true ∧ -(2 ^ 54) ≤ pc.toInt ∧ pc.toInt + 16 < 2 ^ 54) := by decide

theorem witness_IntegerBits :
    ((w1 0 0 0x3F00 0).xsrc (.reg 7)).toNat / 256 % 64 = 63 ∧ ((w1 0 0 0x003F 0).xsrc (.reg 7)).toNat % 64 = 63 ∧
      ((w1 0 0 0x003F 0).xsrc (.reg 7)).toNat / 256 % 64 = 0 ∧ Fmt.isN .n8 = true ∧ Fmt.isN .n64 = true := by decide

theorem witness_Division :
    ((w1 0 (1 <<< 63) (-1) 0).xr 6).toInt = -(2 ^ 63) ∧ ((w1 0 (1 <<< 63) (-1) 0).xsrc (.reg 7)).toInt = -1 ∧
      (w1 0 1 0 0).xsrc (.reg 7) = 0 ∧
      (let s := w1 0 (1 <<< 63) 1 0; s.xsrc (.reg 7) ≠ 0 ∧ ¬((s.xr 6).toInt = -(2 ^ 63) ∧ (s.xsrc (.reg 7)).toInt = -1)) := by decide

/-- A tie of 2.5, an exact value, and finite patterns of the largest and the smallest magnitude. -/
theorem witness_RoundingIsExactOrNearest :
    2 * (5 % 2 ^ 1) = 2 ^ 1 ∧ (rint .rne false 5 (-1)).2 = true ∧ (rint .rne false 4 (-1)).2 = false ∧
      fdecode .f16 0x7BFF = .fin false 2047 5 ∧ fdecode .f16 1 = .fin false 1 (-24) := by decide

theorem witness_FloatClass :
    Fmt.isF .f32 = true ∧ Fmt.isF .f64 = true ∧ (fdecode .f32 0x3F800000).isNan = false ∧ (fdecode .f32 0xFF800000).isNan = false ∧
      fLess (fdecode .f32 0xFF800000) (fdecode .f32 0x3F800000) = true ∧ fLess (fdecode .f32 0x80000001) (fdecode .f32 0) = true ∧
      Fmt.isFloat .e4m3 = true ∧ Fmt.isInt .n64 = true := by decide

/-- The branch of R159's example, one that falls through, targets past each end, and register targets of each kind. -/
theorem witness_ControlTransfers :
    Word.ofInt (pcOfSlot (slotIndex 0x200098 + 4)) = 0x2000CC#64 ∧ canonical 0x2000CC = true ∧
      condWord .leu ((w1 0 3 3 0).xr 6) ((w1 0 3 3 0).xr 7) = true ∧ condWord .leu ((w1 0 4 3 0).xr 6) ((w1 0 4 3 0).xr 7) = false ∧
      canonical (Word.ofInt (pcOfSlot (slotIndex 0x3FFFFFFFFFFFF0 + 1))) = false ∧
      canonical (Word.ofInt (pcOfSlot (slotIndex 0xFFC0000000000000 + -1))) = false ∧
      canonical 0x3FFFFFFFFFFFF0 = true ∧ slotStart 0x3FFFFFFFFFFFF0 = true ∧ canonical 0x40000000000000 = false ∧
      canonical 0x20003C = true ∧ slotStart 0x20003C = false := by decide

theorem witness_NopHaltEvwait :
    w0.sh.evq.words = [] ∧ ({ w0.sh with evq := ⟨[3, 4], 7, true⟩ } : Sheet).evq.words = 3 :: [4] := by decide

/-- Eight bytes at the end of the page, and 128 bytes there. -/
theorem witness_ScalarLoads :
    (w1 0 0x1DCD64FFFF0 0 0).Inv ∧ Fmt.isInt .n64 = true ∧ Fmt.is64 .i64 = true ∧
      (w1 0 0x1DCD64FFFF0 0 0).Reaches .load ((w1 0 0x1DCD64FFFF0 0 0).xr 6 + sext32 8) 8 8 (wPhys 0x1DCD64FFFF8 8) ∧
      (w1 0 0x1DCD64FFFF0 0 0).Reaches .load ((w1 0 0x1DCD64FFFF0 0 0).xr 6 + sext32 0) 16 8 (wPhys 0x1DCD64FFFF0 16) ∧
      (w1 0 0x40000 0 0).Reaches .load ((w1 0 0x40000 0 0).xr 6 + sext32 0xFFFFFF80) 128 16 (wPhys 0x3FF80 128) := by
  unfold State.Inv State.Reaches; decide

theorem witness_ScalarStores :
    Fmt.isF .f32 = true ∧ (w1 0 0x40000 0 0).Reaches .store ((w1 0 0x40000 0 0).xr 6 + sext32 0) 4 4 (wPhys 0x40000 4) ∧
      (w1 0 0x40000 0 0).Reaches .store ((w1 0 0x40000 0 0).xr 6 + sext32 0) 16 8 (wPhys 0x40000 16) ∧
      (w1 0 0x40000 0 0).Reaches .store ((w1 0 0x40000 0 0).xr 6 + sext32 0) 128 16 (wPhys 0x40000 128) := by
  unfold State.Reaches; decide

theorem witness_Atomics :
    Fmt.isWide .i32 = true ∧ Fmt.isWide .n64 = true ∧
      (w1 0 0x40000 0 0).Reaches .rmw ((w1 0 0x40000 0 0).xr 6 + sext32 8) 8 8 (wPhys 0x40008 8) := by
  unfold State.Reaches; decide

/-- An odd address; the first address past the page, for each kind of access. -/
theorem witness_ScalarTraps :
    ((w1 0 0x40001 0 0).xr 6 + sext32 0).toNat % 2 ≠ 0 ∧
      ((w1 0 0x1DCD6500000 0 0).range .load ((w1 0 0x1DCD6500000 0 0).xr 6 + sext32 0) 8) = .error (0x10, 0x1DCD6500000) ∧
      ((w1 0 0x1DCD6500000 0 0).range .store ((w1 0 0x1DCD6500000 0 0).xr 6 + sext32 0xFFFFFFF8) 16) = .error (0x11, 0x1DCD6500000) ∧
      ((w1 0 0x40000000000000 0 0).range .rmw ((w1 0 0x40000000000000 0 0).xr 6 + sext32 0) 4) = .error (0x11, 0x40000000000000) := by
  decide

/-! The vector state: VL 4, AEC 3, eight registers of 16384 bytes, each a group. -/

theorem witness_ConfigurationOfVectors :
    (let v : Word := 0xF3 &&& ~~~(0x40#64); v &&& ~~~(0xF3#64) = 0#64 ∧ fld v 5 3 ≠ 7 ∧ 2 ^ fld v 5 3 ≤ 8 * 2 ^ fld v 0 2) ∧
      (let v : Word := 0x60; v &&& ~~~(0xF3#64) = 0#64 ∧ fld v 5 3 ≠ 7 ∧ 2 ^ fld v 5 3 ≤ 8 * 2 ^ fld v 0 2) ∧
      ¬(let v : Word := 0x80; v &&& ~~~(0xF3#64) = 0#64 ∧ fld v 5 3 ≠ 7 ∧ 2 ^ fld v 5 3 ≤ 8 * 2 ^ fld v 0 2) ∧
      w0.sh.vstore.wf = true ∧ w0.sh.spr.nreg = 8 := by decide

theorem witness_vectors :
    w0.vecReady ∧ w0.sh.spr.epos = 0 ∧ w0.grp 0 .i8 ∧ w0.grp 7 .i64 ∧ w0.grpB (.reg 7) .n64 ∧ w0.grpB (.imm 0) .i32 ∧ w0.apart 6 7 ∧
      w0.grp 7 .ing ∧ w0.grp 3 .f32 ∧ w0.grp 4 .bf16 ∧ ¬ w0.grp 8 .i8 ∧ ¬ w0.apart 7 7 ∧
      Fmt.narrow .i32 = true ∧ Fmt.narrow .f32 = true ∧ Fmt.wide .i32 = .i64 ∧ Fmt.isNum .e5m2 = true := by
  unfold State.vecReady State.unbound State.grpB State.grp State.apart; decide

/-- VL and AEC 8 and 5, as fp4b wants them. -/
def w8 : State := { w0 with sh := { w0.sh with spr := { w0.sh.spr with vl := 8, aec := 5 } } }

theorem witness_VectorFloats : w8.vecReady ∧ w8.grp 7 .fp4b ∧ w8.grp 0 .fp4b ∧ w8.grp 3 .f32 ∧ w8.apart 7 3 ∧ Fmt.isFloat .f16 = true := by
  unfold State.vecReady State.unbound State.grp State.apart; decide

/-- Ingots whose sum stays inside the format by one, and the invalid one. -/
theorem witness_Conversions :
    w8.grp 2 .fp4b ∧ (let a := 2 ^ 190; let b := 2 ^ 190 - 1; a < 2 ^ 192 ∧ a ≠ 2 ^ 191 ∧ b ≠ 2 ^ 191 ∧
      (toSigned 192 a + toSigned 192 b).natAbs < 2 ^ 191) ∧ (2 ^ 191 < 2 ^ 192) := by
  unfold State.grp; decide

/-- w0 with m1 = 0b110 and m2 = 0b1. -/
def wMask : State := { w0 with sh := { w0.sh with m := (w0.sh.m.set 1 6).set 2 1 } }

theorem witness_Masks :
    wMask.vecReady ∧ vlAecOk wMask.sh.spr.rc wMask.sh.spr.vln wMask.sh.spr.aecn = true ∧
      (Finset.range wMask.sh.spr.aecn).filter (fun i => wMask.sh.maskBit (.by 2 true) i = true ∧ wMask.sh.mbit 1 i = true) = ∅ ∧
      (let hits := (Finset.range wMask.sh.spr.aecn).filter fun i => wMask.sh.maskBit (.by 1 false) i = true ∧ wMask.sh.mbit 1 i = true
       1 ∈ hits ∧ ∀ j ∈ hits, 1 ≤ j) := by
  unfold State.vecReady State.unbound; decide +kernel

theorem witness_VectorPermutes :
    (w1 0 0 0 0).vecReady ∧ (w1 0 0 0 0).grp 5 .i16 ∧ (w1 0 0 0 0).grp 6 .n16 ∧ (w1 0 0 0 0).apart 5 6 ∧
      ((w1 0 0 3 0).xsrc (.reg 7)).toNat < w0.sh.spr.flat ∧ ¬ ((w1 0 0 4 0).xsrc (.reg 7)).toNat < w0.sh.spr.flat := by
  unfold State.vecReady State.unbound State.grp State.apart; decide

theorem witness_Reductions :
    (⟨.i32, .rne, true, .none⟩ : VMod).red .add = true ∧ (⟨.f32, .rne, false, .none⟩ : VMod).red .max = true ∧
      (⟨.n8, .rne, false, .none⟩ : VMod).red .xor = true ∧ w0.vecReady ∧ w0.grp 5 .i32 ∧ w0.grp 6 .i32 ∧ w0.apart 5 6 ∧
      (2 ≤ [1, 2, 3].length ∧ [1, 2, 3].length % 2 = 1) ∧ Fmt.isInt .n8 = true ∧ (∀ v ∈ [0, 255], v < 2 ^ Fmt.width .n8) := by
  unfold State.vecReady State.unbound State.grp State.apart; decide

/-- x5 at the flat index count, and one past it; a mask with candidates and one with none. -/
theorem witness_SegmentsAndMaxima :
    wMask.vecReady ∧ wMask.grp 3 .i32 ∧ ((w1 4 0 0 0).xr 5).toNat ≤ w0.sh.spr.flat ∧ ¬ ((w1 5 0 0 0).xr 5).toNat ≤ w0.sh.spr.flat ∧
      (∃ j, j < wMask.sh.spr.aecn ∧ wMask.sh.mbit 1 j = true) ∧ (∀ j < wMask.sh.spr.aecn, ¬ wMask.sh.mbit 3 j = true) ∧
      (1 : MReg) ≠ 2 ∧ (1 : MReg) ≠ 3 ∧ (2 : MReg) ≠ 3 := by
  refine ⟨?_, ?_, by decide, by decide, ⟨1, by decide +kernel⟩, by decide +kernel⟩
  · unfold State.vecReady State.unbound; decide +kernel
  · unfold State.grp; decide

/-- A tile of 64 bytes under handle 5 of drove 1. -/
def wTile : Tile := ⟨1, 0, 5, 1, 0, 4, 16, .i32, 1, []⟩

/-- x6 at 0x40000, x7 a stride of 8, v3 zeros; the tile. -/
def wV : State := { w1 0 0x40000 8 0 with tiles := [wTile] }

/-- The state with stores in stream V. -/
def wQ (s : State) (l : List VStore) : State := { s with sh := { s.sh with vq := l } }

theorem wEx (e : Eff) (h : e.toOption.isSome = true) : ∃ u, e = .ok u := by
  cases e with
  | ok u => exact ⟨u, rfl⟩
  | error _ => cases h

theorem wFind (e : Eff) (p : WLoad → Bool) (w : WLoad) (h : (e.toOption.bind fun u => u.core.wloads.find? p) = some w) :
    ∃ u, e = .ok u ∧ u.core.wloads.find? p = some w := by
  cases e with
  | ok u => exact ⟨u, rfl, h⟩
  | error _ => cases h

/-- The effect waits. -/
def wIsWait (e : Eff) : Bool :=
  match e with
  | .error (.wait _) => true
  | _ => false

theorem wStops (e : Eff) (h : e.toOption.isNone = true) : ∃ t, e = .error t := by
  cases e with
  | ok _ => cases h
  | error t => exact ⟨t, rfl⟩

theorem wWaits (e : Eff) (h : wIsWait e = true) : ∃ t, e = .error (.wait t) := by
  unfold wIsWait at h
  split at h
  · exact ⟨_, rfl⟩
  · cases h

/-- A store of another tile and one of a range just past the elements hold nothing back. -/
def wPast : List VStore := [⟨.tile 6 0 [1], none⟩, ⟨.mem false [(0x40040, 7)], some (0x4000C, 0x40040)⟩]

theorem witness_VectorLoadsAndFaults_loads :
    wV.vecReady ∧ (wQ wV wPast).loadsSettled (touchOf .i32 false (wV.sh.addrsOf .i32 .none (wV.sh.vldAt .i32 (wV.xr 6 + sext32 0))) none) ∧
      (wQ wV wPast).loadsSettled (touchOf .i32 true (wV.sh.addrsOf .i32 .none (wV.sh.vldxAt .i32 (wV.xr 6 + sext32 0) 3)) none) ∧
      (wQ wV wPast).loadsSettled (touchOf .i32 false (wV.sh.addrsOf .i32 .none (wV.sh.vldAt .i32 52)) (some 5)) ∧
      wV.grp 2 .i32 ∧ wV.grp 3 .i32 ∧
      (∀ j < wV.sh.spr.below .i32, wV.readAt .i32 none ((wV.xr 6 + sext32 0) + BitVec.ofNat 64 (4 * j)).toNat = .val 0 ∧
        wV.busyAt .i32 none ((wV.xr 6 + sext32 0) + BitVec.ofNat 64 (4 * j)).toNat = false) ∧
      (∀ j < wV.sh.spr.below .i32, wV.readAt .i32 none ((wV.xr 6 + sext32 0) + BitVec.ofNat 64 j * wV.xr 7).toNat = .val 0) ∧
      (∀ j < wV.sh.spr.below .i32, wV.sh.elem 3 .i32 j < wV.sh.spr.flat ∧
        wV.readAt .i32 none ((wV.xr 6 + sext32 0) + BitVec.ofNat 64 (wV.sh.elem 3 .i32 j)).toNat = .val 0) ∧
      (wV.xr 6 + sext32 0).toNat % Fmt.align .i32 = 0 ∧ (wV.xr 7).toNat % Fmt.align .i32 = 0 ∧
      wV.resolve 5 = .ok wTile ∧ (∀ j < wV.sh.spr.below .i32, wV.readAt .i32 (some wTile) (52 + 4 * j) = .val 0 ∧
        wV.busyAt .i32 (some wTile) (52 + 4 * j) = false) ∧ 60 + 4 ≤ wTile.rows * wTile.rb ∧
      wV.range .load 0x1DCD64FFFFC 4 = .ok (wPhys 0x1DCD64FFFFC 4) ∧ wV.firstPoison (wPhys 0x1DCD64FFFFC 4) = none := by
  refine ⟨?_, ?_, ?_, ?_, ?_, ?_, by decide, by decide, by decide, by decide, by decide, by decide, by decide, by decide, by decide, by decide⟩
  · unfold State.vecReady State.unbound; decide
  · unfold State.loadsSettled; decide
  · unfold State.loadsSettled; decide
  · unfold State.loadsSettled; decide
  · unfold State.grp; decide
  · unfold State.grp; decide

/-- The last word of the page is element 0; element 1 is not mapped. -/
theorem witness_VectorLoadsAndFaults_faults :
    let s := w1 0 0x1DCD64FFFFC 0 0
    s.vecReady ∧ s.loadsSettled (touchOf .f32 false (s.sh.addrsOf .f32 .none (s.sh.vldAt .f32 (s.xr 6 + sext32 0))) none) ∧
      s.grp 2 .f32 ∧ 0x10 ≠ walkWaits ∧ s.startItem .f32 = 0 ∧ (s.xr 6 + sext32 0).toNat % Fmt.align .f32 = 0 ∧ 1 < s.sh.spr.aecn ∧
      s.sh.maskBit .none 1 = true ∧ s.readElem (s.xr 6 + 4) 4 = .flt 0x10 0x1DCD6500000 ∧ (∀ j < 1, s.sh.maskBit .none j = true →
        s.readElem (s.xr 6 + BitVec.ofNat 64 (4 * j)) 4 = .val 0 ∧ s.elemBusy (s.xr 6 + BitVec.ofNat 64 (4 * j)) 4 = false) := by
  refine ⟨?_, ?_, ?_, by decide, by decide, by decide, by decide, by decide, by decide, by decide⟩
  · unfold State.vecReady State.unbound; decide
  · unfold State.loadsSettled; decide
  · unfold State.grp; decide

/-- A tile's end, a start at an item above 0, and loads that stores in flight hold back. -/
theorem witness_VectorLoadsAndFaults_after :
    wV.readAt .i32 (some wTile) 64 = .flt 0x14 0 ∧ wV.readAt .i32 (some wTile) 60 = .val 0 ∧
      (let s := { wV with sh := { wV.sh with spr := { wV.sh.spr with epos := 2 } } }; s.startItem .i32 = 2 ∧ s.startItem .fp4b = 0) ∧
      (let s := wQ wV [⟨.mem false [(0x40008, 7)], some (0x40000, 0x4000B)⟩, ⟨.tile 5 0 [1], none⟩]
       let base := s.xr 6 + sext32 0
       s.sh.ahead = [] ∧ (∃ o ∈ s.sh.addrsOf .i32 .none (s.sh.vldAt .i32 base), o.isSome = true) ∧
       (∃ u, (s.settleW.bind fun w => w.interlock (touchOf .i32 false (s.sh.addrsOf .i32 .none (s.sh.vldAt .i32 base)) none)) = .ok u) ∧
       (∃ u, (s.settleW.bind fun w => w.interlock (touchOf .i32 false (s.sh.addrsOf .i32 .none (s.sh.vldsAt base (s.xr 7))) none)) = .ok u) ∧
       (∃ u, (s.settleW.bind fun w => w.interlock (touchOf .i32 true (s.sh.addrsOf .i32 .none (s.sh.vldxAt .i32 base 3)) none)) = .ok u) ∧
       (∃ u, (s.settleW.bind fun w => w.interlock (touchOf .i32 false (s.sh.addrsOf .i32 .none (s.sh.vldAt .i32 0)) (some 5))) = .ok u)) :=
  ⟨by decide, by decide, by decide, by decide, by decide, wEx _ (by decide), wEx _ (by decide), wEx _ (by decide), wEx _ (by decide)⟩

/-- The keys of n bytes at an address that maps to itself. -/
def wKeys (a n : Nat) : List Nat := (List.range n).map (a + ·)

theorem wHeld (s : State) (m : Acc1) (va : Word) (a n : Nat) 
    (h : ∀ k < n, (tlbFind s.sh.tlb s.sh.spr.sad (va + BitVec.ofNat 64 k)).isSome = true)
    (h2 : ((wKeys a n).map addrOf).Nodup) (l : List Phys) (h3 : s.range m va n = .ok l) (h4 : wKeys a n = physKeys l)
    (h5 : s.firstPoison l = none) (h6 : ∀ k ∈ wKeys a n, s.owned (lineOf k) = false) : s.heldAt m va n (wKeys a n) :=
  ⟨h, h2, l, h3, h4, fun _ => h5, h6⟩

theorem witness_VectorStores :
    wV.vecReady ∧ wV.Inv ∧ wV.grp 2 .i32 ∧ wV.grp 3 .i32 ∧
      wV.heldAt .store ((wV.xr 6 + sext32 0) + BitVec.ofNat 64 (4 * 2)) 4 (wKeys 0x40008 4) ∧
      wV.heldAt .store ((wV.xr 6 + sext32 0) + BitVec.ofNat 64 2 * wV.xr 7) 4 (wKeys 0x40010 4) ∧
      wV.heldAt .store ((wV.xr 6 + sext32 0) + BitVec.ofNat 64 (wV.sh.elem 3 .i32 2)) 4 (wKeys 0x40000 4) ∧
      (∀ l, wV.range .store ((wV.xr 6 + sext32 0) + BitVec.ofNat 64 (4 * 2)) 4 = .ok l → false = physUc l) ∧
      wV.resolve 5 = .ok wTile ∧ wTile.data.wf = true ∧ (∀ j < 3, 52 + 4 * (j + 1) ≤ wTile.rows * wTile.rb ∧
        wV.tileBusy wTile (52 + 4 * j) 4 = false) ∧ wTile.rows * wTile.rb < 2 ^ 64 := by
  refine ⟨?_, ?_, ?_, ?_, wHeld _ _ _ _ _ (by decide) (by decide) (wPhys 0x40008 4) (by decide) (by decide) (by decide) (by decide),
    wHeld _ _ _ _ _ (by decide) (by decide) (wPhys 0x40010 4) (by decide) (by decide) (by decide) (by decide),
    wHeld _ _ _ _ _ (by decide) (by decide) (wPhys 0x40000 4) (by decide) (by decide) (by decide) (by decide), ?_, by decide, by decide,
    by decide, by decide⟩
  · unfold State.vecReady State.unbound; decide
  · unfold State.Inv; decide
  · unfold State.grp; decide
  · unfold State.grp; decide
  · intro l h
    rw [(by decide : wV.range .store ((wV.xr 6 + sext32 0) + BitVec.ofNat 64 (4 * 2)) 4 = .ok (wPhys 0x40008 4))] at h
    cases h
    decide

/-- A copy engine that is writing the line at 0x40000, and the tile 5's first row. -/
def wBusy (s : State) (l : List VStore) : State :=
  { wQ s l with engines := s.engines.set 0 { s.engines[0] with
      queue := [⟨0, 1, 1, 0, 0, 0, 0, 0, none, 0, .rne, false, .graph 0, [lineOf 0x40000, lineOf 0x40100], [(5, 0)], [], none, ⟨0, []⟩,
        none⟩] } }

/-- Stores that a turn performs, in memory and in a tile; ones that wait for a copy engine; and the turn itself. -/
theorem witness_VectorStores_performed :
    let kvs : List (Nat × Byte) := [(0x4003F, 7), (0x40040, 8)]
    let m : VStore := ⟨.mem false kvs, none⟩
    let t : VStore := ⟨.tile 5 60 [1, 2, 3, 4], none⟩
    (wQ wV [m, t]).Inv ∧ (∀ e ∈ kvs, (wQ wV [m, t]).owned (lineOf e.1) = false) ∧ (∃ e ∈ kvs, (wBusy wV [m, t]).owned (lineOf e.1) = true) ∧
      (wQ wV [t]).tile? 5 = some wTile ∧ wTile.data.wf = true ∧ (wQ wV [t]).tileBusy wTile 60 4 = false ∧
      (wBusy wV [t]).tileBusy wTile 60 4 = true ∧ (∃ w, (wQ wV [m, t]).settleV = .ok w) ∧
      (let s : State := { wQ wV [m, t] with agenda := [.stores wV.sh.place 2] }
       s.planted = [] ∧ s.due = [] ∧ s.agenda = .stores s.sh.place 2 :: [] ∧ s.sh.run ≠ .off) := by
  refine ⟨?_, by decide, by decide, by decide, by decide, by decide, by decide, wEx _ (by decide), by decide⟩
  unfold State.Inv; decide

/-- Every element at one word: each sees what the ones before it wrote. -/
theorem witness_VectorAtomics :
    wV.vecReady ∧ wV.Inv ∧ Fmt.isNum .i32 = true ∧ wV.sh.spr.epos = 0 ∧ wV.grp 2 .i32 ∧ wV.grp 3 .i32 ∧ wV.apart 2 3 ∧ wV.settleV = .ok wV ∧
      (∀ j < 3, wV.heldAt .rmw (wV.xr 6 + sext32 0 + BitVec.ofNat 64 (wV.sh.elem 3 .i32 j)) 4 (wKeys 0x40000 4)) := by
  refine ⟨?_, ?_, by decide, by decide, ?_, ?_, ?_, rfl, ?_⟩
  · unfold State.vecReady State.unbound; decide
  · unfold State.Inv; decide
  · unfold State.grp; decide
  · unfold State.grp; decide
  · unfold State.apart; decide
  · intro j h
    have e : wV.sh.elem 3 .i32 j = 0 := by
      revert j; decide
    rw [e]
    exact wHeld _ _ _ _ _ (by decide) (by decide) (wPhys 0x40000 4) (by decide) (by decide) (by decide) (by decide)

/-- One element, a number of ten bytes at 0x40000: nine of 0x80 and 0x01. -/
def wAssay : State :=
  { w1 0 0x40000 0 0 with
    mem := (List.range 9).map (fun k => (0x40000 + k, 0x80)) ++ (0x40009, 1) :: w0.mem
    sh := { (w1 0 0x40000 0 0).sh with spr := { w0.sh.spr with aec := 1 } } }

def wAssayByte (j : Nat) : Nat := if j < 9 then 128 else 1

theorem witness_Assay_numbers :
    wAssay.vecReady ∧ wAssay.loadsSettled (touchOf .n8 false (assayAddrs (wAssay.xr 6) (assayBytes 0 (assayW 0) wAssay.sh.spr.aecn)) none) ∧ Fmt.isInt .n64 = true ∧ wAssay.grp 2 .n64 ∧ wAssay.sh.spr.epos = 0 ∧
      (∀ j < 10, wAssay.readElem (wAssay.xr 6 + BitVec.ofNat 64 j) 1 = .val (wAssayByte j) ∧
        wAssay.elemBusy (wAssay.xr 6 + BitVec.ofNat 64 j) 1 = false ∧ wAssayByte j < 256) ∧
      (∀ q < 9, 128 ≤ wAssayByte (0 + q)) ∧
      ((Finset.range (9 + 1)).sum fun q => wAssayByte (0 + q) % 128 * 2 ^ (7 * q)) % 2 ^ 64 = 2 ^ 63 := by
  refine ⟨?_, ?_, by decide, ?_, by decide, by decide, by decide, by decide⟩
  · unfold State.vecReady State.unbound; decide
  · unfold State.loadsSettled; decide
  · unfold State.grp; decide

/-- Fields of 64 bits: eight bytes from bit 0. -/
theorem witness_Assay_fields :
    (∀ j < (64 + 7) / 8, wAssay.readElem (wAssay.xr 6 + BitVec.ofNat 64 j) 1 = .val (wAssayByte j)) ∧
      ((Finset.range 64).sum fun q => if (wAssayByte ((0 + q) / 8)).testBit ((0 + q) % 8) then 2 ^ q else 0) = 0x8080808080808080 := by
  decide

/-- A window of four counters, and an operand 0, 1, 4 in v3. -/
def wGate (x5 x6 : Word) : State :=
  { w1 x5 x6 0 0 with
    windows := [⟨1, 0, 0, 0, 4, [(1, 5)]⟩]
    sh := { (w1 x5 x6 0 0).sh with vstore := [(49156, 1), (49160, 4)] } }

theorem witness_GateCounters :
    (wGate 1 0).vecReady ∧ (∀ q ∈ (wGate 1 0).windows, (q.ctr.map Prod.fst).Pairwise (· < ·)) ∧
      (wGate 1 0).windowOf (wGate 1 0).sh.spr.gDie = ⟨1, 0, 0, 0, 4, [(1, 5)]⟩ ∧ (wGate 1 0).grp 3 .n32 ∧ (wGate 1 0).grp 2 .n64 ∧
      (∀ i < 3, (wGate 1 0).sh.elem 2 .n32 i < 4) ∧ 4 ≤ (wGate 1 0).sh.elem 3 .n32 2 ∧ (∀ j < 2, (wGate 1 0).sh.elem 3 .n32 j < 4) ∧
      ((wGate 1 0).xr 5).toNat + 3 ≤ 4 ∧ 4 < ((wGate 2 0).xr 5).toNat + 3 ∧
      (let s := wGate 1 5; s.xr 5 &&& ~~~(0x700000FFF#64) = 0#64 ∧ fld (s.xr 5) 32 3 < nDies s.sh.spr.drove ∧ fld (s.xr 5) 0 12 < 4 ∧
        (s.xr 6).toNat ≤ 5) ∧ (5 < ((wGate 1 6).xr 6).toNat) ∧
      ((wGate 0x1000 0).xr 5 &&& ~~~(0x700000FFF#64) ≠ 0#64) ∧
      (nDies w0.sh.spr.drove ≤ fld ((wGate (1 <<< 32) 0).xr 5) 32 3) ∧ ((wGate 4 0).windowOf 0).len ≤ fld ((wGate 4 0).xr 5) 0 12 := by
  refine ⟨?_, by decide, by decide, ?_, ?_, by decide, by decide, by decide, by decide, by decide, by decide, by decide, by decide,
    by decide, by decide⟩
  · unfold State.vecReady State.unbound; decide
  · unfold State.grp; decide
  · unfold State.grp; decide

/-- A queue header at 0x40000: entries at 0x40040, room for two; with `top` in its last byte. -/
def wQueue (top : Byte) : State :=
  { w1 0 0x40000 0 0 with
    mem := [(0x40000, 0x40), (0x40002, 4), (0x40008, 2)] ++ (if top = 0 then [] else [(0x4003F, top)]) ++ w0.mem }

theorem witness_Append :
    (let s := wQueue 0
     s.Inv ∧ (s.xr 6).toNat % 64 = 0 ∧ s.held (s.xr 6) 64 ∧ s.range .store (s.xr 6) 64 = .ok (wPhys 0x40000 64) ∧
      s.firstPoison (wPhys 0x40000 64) = none ∧ (∀ q ∈ physKeys (wPhys 0x40000 64), s.owned (lineOf q) = false) ∧
      (let hb := (physKeys (wPhys 0x40000 64)).map s.view
       let f := fun o n => leNat ((hb.drop o).take n)
       (∀ q ∈ hb.drop 48, q = 0#8) ∧ f 44 4 < 8 ∧ f 0 8 % 4 = 0 ∧ f 0 8 = 0x40040 ∧ f 8 8 = 2 ∧ f 16 8 = 0 ∧ f 32 8 = 0) ∧
      ((List.range s.sh.spr.aecn).filter fun i => s.sh.active (.by 3 false) i) = [] ∧
      ((List.range s.sh.spr.aecn).filter fun i => s.sh.active .none i) = [0, 1, 2] ∧
      s.heldAt .store 0x40044 4 (wKeys 0x40044 4) ∧ (∀ r ∈ s.reserves, r.hdr ≠ 0x40000) ∧
      (s.reserves.filter fun r => r.unit = homeDie (lineOf 0x40000)).length < 64 ∧ s.settleV = .ok s) ∧
    ((physKeys (wPhys 0x40000 64)).map (wQueue 1).view).getD 63 0 = 1 := by
  refine ⟨⟨?_, by decide, ?_, by decide, by decide, by decide, by decide, by decide +kernel, by decide, wHeld _ _ _ _ _ (by decide) (by decide)
    (wPhys 0x40044 4) (by decide) (by decide) (by decide) (by decide), by decide, by decide, rfl⟩, by decide⟩
  · unfold State.Inv; decide
  · unfold State.held; decide

/-- Lines of NOPs, with a word in the last place of the eighth. -/
def wBody (w : IWord) (x5 : Word) : State :=
  let nop := bytesOfWord 0x200000000000000000000000#96
  { w1 x5 0 0 0 with sh := { (w1 x5 0 0 0).sh with
    lines := ((List.range 7).map fun i => ⟨0x200000 + 64 * i, (List.range 5).flatMap (fun _ => nop) ++ List.replicate 4 0, []⟩) ++
      [⟨0x2001C0, (List.range 4).flatMap (fun _ => nop) ++ bytesOfWord w ++ List.replicate 4 0, []⟩] } }

/-- The PC seven slots before a word that no body may hold. -/
def wBodyEnd : State :=
  { wBody 0x400400000000000000000001 0 with sh := { (wBody 0x400400000000000000000001 0).sh with pc := 0x200198 } }

theorem wSlots {ε : Type} {r : Except ε (List IWord × State)} {ws : List IWord} (h : r.toOption.map Prod.fst = some ws) :
    ∃ u, r = .ok (ws, u) := by
  cases r with
  | error e => simp [Except.toOption] at h
  | ok q =>
    obtain ⟨a, b⟩ := q
    simp [Except.toOption] at h
    exact ⟨b, by rw [h]⟩

theorem witness_ReplayLoops :
    (∃ u, (wBody 0 0).slotWords (slotIndex (wBody 0 0).sh.pc + 1) 32 = .ok (List.replicate 32 0x200000000000000000000000#96, u)) ∧
      (∃ u, (wBody 0 0).slotWords (slotIndex (wBody 0 0).sh.pc + 1) 1 = .ok ([0x200000000000000000000000#96], u)) ∧
      (∃ u, wBodyEnd.slotWords (slotIndex 0x200198 + 1) 7 =
          .ok (List.replicate 6 0x200000000000000000000000#96 ++ [0x400400000000000000000001#96], u)) ∧
      rpAct (wBody 0 0).sh.spr.rpst = false ∧
      (∃ ln ∈ (wBody 0 0).sh.lines, ln.near (wBody 0 0).sh.pc = true) ∧
      (let pc := Word.ofInt (pcOfSlot (slotIndex (wBody 0 0).sh.pc + 1 + 0)); lineAddr pc = lineAddr (wBody 0 0).sh.pc) ∧
      ((wBody 0 0).xr 5).toInt ≤ 0 ∧ 0 < ((wBody 0 1).xr 5).toInt ∧
      ((0x400400000000000000000001#96).extractLsb' 80 16 = 0x4004#16) ∧ ((0xE00000000000000000000000#96).extractLsb' 92 4 = 0xE#4) ∧
      ((0x200600000000000000000000#96).extractLsb' 92 4 = 2#4 ∧ (0x200600000000000000000000#96) ≠ (0x200000000000000000000000#96)) ∧
      ((0x200000000000000000000001#96).extractLsb' 92 4 = 2#4 ∧ (0x200000000000000000000001#96) ≠ (0x200000000000000000000000#96)) := by
  have h := wSlots (r := wBodyEnd.slotWords (slotIndex 0x200198 + 1) 7)
    (ws := List.replicate 6 0x200000000000000000000000#96 ++ [0x400400000000000000000001#96]) (by decide)
  refine ⟨wSlots ?_, wSlots ?_, h, ?_⟩ <;> decide

/-- A stream on i32 of stride 4, bound to v7 when `bit` is 1, with a filled slot of three elements. -/
def wStream (bit : Nat) : State :=
  { w1 0 0x40000 4 0 with sh := { (w1 0 0x40000 4 0).sh with
    o := w0.sh.o.set 1 (BitVec.ofNat 256 (0x40000 + 4 * 2 ^ 64 + Fmt.code .i32 * 2 ^ 128 + 7 * 2 ^ 136 + bit * 2 ^ 143))
    bslots := w0.sh.bslots.set 1 [⟨0, 3, [.val 7, .val 8, .val 9], false⟩] } }

theorem witness_Streams :
    osBound w0.sh.o[1] = false ∧ (let s := w1 0 0x40000 4 0; (s.xr 6 + sext32 0).toNat % min (Fmt.ew .i32) 8 = 0 ∧
      (s.xr 7).toNat % min (Fmt.ew .i32) 8 = 0) ∧
      osBound (wStream 1).sh.o[1] = true ∧ osBound (wStream 0).sh.o[1] = false ∧ wfld (wStream 0).sh.o[1] 128 8 ≠ 0 ∧
      (7 : VReg).val < (wStream 0).sh.spr.nreg ∧ (∀ q : OReg, osBound (wStream 0).sh.o[q.val] = false) ∧
      vcfgOk (wStream 1).sh.spr.vcfg = true ∧ vlAecOk (wStream 1).sh.spr.rc (wStream 1).sh.spr.vln (wStream 1).sh.spr.aecn = true ∧
      (wStream 1).sh.vstore.wf = true ∧ (wStream 1).sh.spr.epos = 0 ∧ (wStream 1).grp 2 .i32 ∧ (wStream 1).grp 7 .i32 ∧
      (wStream 1).apart 2 7 ∧ osReg (wStream 1).sh.o[1] = 7 ∧ osFmt (wStream 1).sh.o[1] = some .i32 ∧
      (∀ q : OReg, q ≠ 1 → osBound (wStream 1).sh.o[q.val] = false) ∧
      (wStream 1).sh.bslots[1] = ⟨0, 3, [.val 7, .val 8, .val 9], false⟩ :: [] ∧ 0 = osNext (wStream 1).sh.o[1] ∧
      3 = (wStream 1).sh.spr.aecn ∧ [ElemRes.val 7, .val 8, .val 9] = (List.range 3).map fun j => .val (7 + j) := by
  unfold State.grp State.apart; decide

/-! Arrays: descriptors of dense arrays in memory. -/

/-- A descriptor: base, format, lengths, capacity. -/
def wDesc (base : Nat) (t : Fmt) (shape : List Nat) (cap : Nat) : BitVec 1024 :=
  resultDesc (BitVec.ofNat 1024 (base + t.code * 2 ^ 72 + cap * 2 ^ 512)) shape (prodL shape)

/-- The operand that such a descriptor names. -/
def wArr (base : Nat) (t : Fmt) (shape : List Nat) (cap : Nat) : Arr :=
  ⟨t, BitVec.ofNat 64 base, none, shape, denseStrides shape, cap⟩

def wDst (base : Nat) (t : Fmt) (cap : Nat) : Arr := ⟨t, BitVec.ofNat 64 base, none, [], [], cap⟩

/-- d0 a destination of i32 with room for 12; d1 and d2 of i32, 2 × 3; d3 of n32, length 3; d4 of i32, 2; d5 a destination of f32;
d6 of f32, 2 × 3; d7 a destination with room for 1; d8 a shape 0. -/
def wA (x5 x6 : Word) : State :=
  { w1 x5 x6 0 0 with sh := { (w1 x5 x6 0 0).sh with
    d := (((((((((w0.sh.d.set 0 (wDesc 0x43000 .i32 [] 12)).set 1 (wDesc 0x40000 .i32 [2, 3] 6)).set 2 (wDesc 0x41000 .i32 [2, 3] 6)).set 3
      (wDesc 0x42000 .n32 [3] 3)).set 4 (wDesc 0x44000 .i32 [2] 2)).set 5 (wDesc 0x45000 .f32 [] 12)).set 6 (wDesc 0x46000 .f32 [2, 3] 6)).set 7
      (wDesc 0x43000 .i32 [] 1)).set 8 (wDesc 0x47000 .i32 [0] 0)) } }

def wX : Arr := wArr 0x40000 .i32 [2, 3] 6
def wY : Arr := wArr 0x41000 .i32 [2, 3] 6
def wN : Arr := wArr 0x42000 .n32 [3] 3
def wT : Arr := wArr 0x44000 .i32 [2] 2
def wF : Arr := wArr 0x46000 .f32 [2, 3] 6
def wD : Arr := wDst 0x43000 .i32 12
def wG : Arr := wDst 0x45000 .f32 12
def wD1 : Arr := wDst 0x43000 .i32 1

theorem witness_descriptors :
    (wA 0 0).srcD 1 1 (fun _ => true) = .ok wX ∧ (wA 0 0).srcD 2 2 Fmt.isInt = .ok wY ∧ (wA 0 0).srcD 2 3 Fmt.isInt = .ok wN ∧
      (wA 0 0).srcD 1 6 Fmt.isFloat = .ok wF ∧ (wA 0 0).dstD 0 true (fun t => t.isInt) = .ok wD ∧
      (wA 0 0).dstD 5 false (fun t => t != .ing) = .ok wG ∧ (wA 0 0).dstD 7 false (· == .i32) = .ok wD1 :=
  by decide

/-- The places of an element in memory that maps to itself. -/
def wCell (a : Arr) (off : Int) : List Cell := (wKeys (a.at_ off).toNat a.t.ew).map fun k => (none, k)

def wApart (l m : List Cell) : Bool := (l.map Cell.at_).all fun c => !(m.map Cell.at_).contains c

/-- What makes an access to an element pass, as a check. -/
def wOk (s : State) (m : Acc1) (a : Arr) (off : Int) : Bool :=
  let n := a.t.ew
  let b := (a.at_ off).toNat
  decide (a.tile = none) && decide (∀ k < n, (tlbFind s.sh.tlb s.sh.spr.sad (a.at_ off + BitVec.ofNat 64 k)).isSome = true) &&
    decide ((wKeys b n).map addrOf).Nodup && decide (s.range m (a.at_ off) n = .ok (wPhys b n)) && decide (wKeys b n = physKeys (wPhys b n)) &&
    decide (s.firstPoison (wPhys b n) = none) && decide (∀ k ∈ wKeys b n, s.owned (lineOf k) = false)

theorem wOk_cells (s : State) (m : Acc1) (a : Arr) (off : Int) (h : wOk s m a off = true) : s.CellsAt m a off (wCell a off) := by
  simp only [wOk, Bool.and_eq_true, decide_eq_true_eq] at h
  obtain ⟨⟨⟨⟨⟨⟨ht, h1⟩, h2⟩, h3⟩, h4⟩, h5⟩, h6⟩ := h
  simp only [State.CellsAt, ht]
  exact ⟨_, ⟨h1, h2, _, h3, h4, fun _ => h5, h6⟩, rfl⟩

theorem wOk_elem (s : State) (a : Arr) (off : Int) (h : wOk s .load a off = true) :
    s.ElemIs a off (leNat ((wCell a off).map s.cellByte)) := ⟨_, wOk_cells s _ a off h, rfl⟩

theorem wApart_disjoint (l m : List Cell) (h : wApart l m = true) : cellsApart l m := by
  intro c hl hm
  have := (List.all_eq_true.1 h) c hl
  simp [hm] at this

theorem wReady (s : State) (d : Arr) (n : Nat) (reads : Nat → List (Arr × Int))
    (h : ((List.range n).all fun i => wOk s .store d i && (List.range i).all fun j => wApart (wCell d i) (wCell d j)) = true)
    (h2 : ((List.range (n + 1)).all fun i => (reads i).all fun q => wOk s .load q.1 q.2 &&
      (List.range i).all fun j => wApart (wCell q.1 q.2) (wCell d j)) = true) : s.ArrReady d n (fun i => wCell d i) reads := by
  simp only [List.all_eq_true, List.mem_range, Bool.and_eq_true] at h h2
  exact ⟨fun i hi => wOk_cells s _ d i (h i hi).1, fun i hi j hj => wApart_disjoint _ _ ((h i hi).2 j hj), fun i hi q hq =>
    ⟨_, wOk_cells s _ _ _ (h2 i (by omega) q hq).1, fun j hj => wApart_disjoint _ _ ((h2 i (by omega) q hq).2 j hj)⟩⟩

theorem wFresh (x5 x6 : Word) : (wA x5 x6).arrFresh :=
  ⟨rfl, rfl, rfl, rfl, rfl, rfl, fun _ h => absurd h List.not_mem_nil, (by unfold State.Inv; exact (by decide : w0.mem.wf = true ∧ w0.seals.wf = true)), fun _ h => absurd h (by simp [wA, w1, w0, State.reset, State.setX])⟩

theorem witness_Descriptors :
    (wA 0 0).srcD 1 1 (fun _ => true) = .ok wX ∧ 1 < wX.shape.length ∧ ((1#3).toNat = 1 ∨ (1#3 = 7#3 ∧ 1 + 1 = wX.shape.length)) ∧
      ((7#3).toNat = 1 ∨ (7#3 = 7#3 ∧ 1 + 1 = wX.shape.length)) ∧
      (let shape := [2 ^ 32 - 1, 2, 2, 2, 2, 2 ^ 27 - 1]; shape.length ≤ 6 ∧ (∀ n ∈ shape, n < 2 ^ 32) ∧ (2 ^ 64 - 1 < 2 ^ 64) ∧
        (shape.drop 1).prod < 2 ^ 31) := by decide

/-- `amap.add` of d1 and d2 into d0, cells of rank 2. -/
theorem witness_ArrayMapsAndFunctions_amap :
    let s := wA 0 0
    let at_ := fun i : Nat => [(wX, (i : Int)), (wY, (i : Int))]
    s.arrFresh ∧ s.srcD 1 1 (mapOpFmt (.bin .add 2)) = .ok wX ∧ s.srcDs (mapArgs (.bin .add 2) wX.t) = .ok [(2, wY)] ∧
      s.dstD 0 false (mapDstFmt (.bin .add 2)) = .ok wD ∧
      (agreeAll s 0 (splitRank wX.shape 7).1 [(splitRank wY.shape 7).1] = .ok [] ∧
      agreeAll s 0 (splitRank wX.shape 7).2 [(splitRank wY.shape 7).2] = .ok [2, 3]) ∧
      s.fitsD wD 6 = .ok () ∧ overlapE s wD 6 ([(1, wX), (2, wY)].filter fun q => !alias_ wD [2, 3] q.2) = .ok () ∧
      (∀ i < 6, (wX.off (unravel [2, 3] i) = i ∧ wY.off (unravel [2, 3] i) = i)) ∧
      s.ArrReady wD 6 (fun i => wCell wD i) (fun i => if i < 6 then at_ i else []) ∧
      (∀ i : Nat, i < 6 → s.ElemIs wX i (leNat ((wCell wX i).map s.cellByte)) ∧ s.ElemIs wY i (leNat ((wCell wY i).map s.cellByte))) := by
  refine ⟨wFresh 0 0, by decide, by decide, by decide, by decide, by decide, by decide, by decide, wReady _ _ _ _ (by decide) (by decide), ?_⟩
  have : ∀ i : Nat, i < 6 → wOk (wA 0 0) .load wX i = true ∧ wOk (wA 0 0) .load wY i = true := by decide
  exact fun i h => ⟨wOk_elem _ _ _ (this i h).1, wOk_elem _ _ _ (this i h).2⟩

/-- `aouter.add` of d4 and d2, cells of rank 0: twelve results fill d0. -/
theorem witness_ArrayMapsAndFunctions_aouter :
    let s := wA 0 0
    let xo := fun i : Nat => wT.off ((unravel [2, 2, 3] i).take 1)
    let yo := fun i : Nat => wY.off (((unravel [2, 2, 3] i).drop 1).take 2)
    s.arrFresh ∧ s.srcD 1 4 (mapOpFmt (.bin .add 2)) = .ok wT ∧ s.srcDs (mapArgs (.bin .add 2) wT.t) = .ok [(2, wY)] ∧
      s.dstD 0 false (mapDstFmt (.bin .add 2)) = .ok wD ∧
      (splitRank wT.shape 0 = ([2], []) ∧ splitRank wY.shape 0 = ([2, 3], [])) ∧ agreeE s 3 [] [] = .ok [] ∧
      resultD s wD [2, 2, 3] [(1, wT), (2, wY)] = .ok () ∧
      s.ArrApart wD 12 (fun i => wCell wD i) ((List.range 12).flatMap fun i => [(wT, xo i), (wY, yo i)]) ∧
      (∀ i < 12, s.ElemIs wT (xo i) (leNat ((wCell wT (xo i)).map s.cellByte)) ∧ s.ElemIs wY (yo i) (leNat ((wCell wY (yo i)).map s.cellByte))) := by
  refine ⟨wFresh 0 0, by decide, by decide, by decide, by decide, by decide, by decide, wReady _ _ _ _ (by decide) (by decide), ?_⟩
  have : ∀ i < 12, wOk (wA 0 0) .load wT (wT.off ((unravel [2, 2, 3] i).take 1)) = true ∧
    wOk (wA 0 0) .load wY (wY.off (((unravel [2, 2, 3] i).drop 1).take 2)) = true := by decide
  exact fun i h => ⟨wOk_elem _ _ _ (this i h).1, wOk_elem _ _ _ (this i h).2⟩

/-- All elements of an array can be read. -/
def wElems (s : State) (x : Arr) : Bool := (List.range (prodL x.shape)).all fun i => wOk s .load x (x.off (unravel x.shape i))

theorem wElems_is (s : State) (x : Arr) (h : wElems s x = true) (i : Nat) (hi : i < prodL x.shape) :
    s.ElemIs x (x.off (unravel x.shape i)) (leNat ((wCell x (x.off (unravel x.shape i))).map s.cellByte)) :=
  wOk_elem _ _ _ (List.all_eq_true.1 h i (List.mem_range.2 hi))

def wAll (x : Arr) : List (Arr × Int) := (List.range (prodL x.shape)).map fun i => (x, x.off (unravel x.shape i))

/-- `ared` along the last axis of d1, and an empty line (d8); `ascan` of d6 with no segments, and of d1 with the segments of d2. -/
theorem witness_ArrayReductions :
    let s := wA 0 0
    let o := wArr 0x47000 .i32 [0] 0
    s.arrFresh ∧ s.srcD 1 1 (redFmt .add) = .ok wX ∧ axisE s 1 wX.shape 7 7 = .ok 1 ∧ wElems s wX = true ∧
      (s.dstD 0 false (redDst .add wX.t) = .ok wD ∧ s.fitsD wD (prodL [2]) = .ok () ∧ overlapE s wD (prodL [2]) [(1, wX)] = .ok () ∧
      wX.shape.eraseIdx 1 = [2]) ∧ s.ArrApart wD (prodL [2]) (fun i => wCell wD i) (wAll wX) ∧
      (s.srcD 1 8 (redFmt .add) = .ok o ∧ axisE s 1 o.shape 7 0 = .ok 0 ∧ o.shape.eraseIdx 0 = [] ∧ s.fitsD wD (prodL []) = .ok () ∧
      overlapE s wD (prodL []) [(1, o)] = .ok ()) ∧ s.ArrApart wD (prodL []) (fun i => wCell wD i) (wAll o) ∧
      (s.srcD 3 2 Fmt.isInt = .ok wY ∧ sameShapeE s wY.shape wX.shape = .ok () ∧ wElems s wY = true ∧
      s.dstD 0 false (fun t => t != .ing && redDst .add wX.t t) = .ok wD ∧ s.fitsD wD (prodL wX.shape) = .ok () ∧
      overlapE s wD (prodL wX.shape) [(1, wX), (3, wY)] = .ok ()) ∧ s.ArrApart wD (prodL wX.shape) (fun i => wCell wD i) (wAll wX ++ wAll wY) ∧
      (s.srcD 1 6 (redFmt .max) = .ok wF ∧ s.dstD 5 false (fun t => t != .ing && redDst .max wF.t t) = .ok wG ∧
      s.fitsD wG (prodL wF.shape) = .ok () ∧ overlapE s wG (prodL wF.shape) [(1, wF)] = .ok ()) ∧
      s.ArrApart wG (prodL wF.shape) (fun i => wCell wG i) (wAll wF ++ []) :=
  ⟨wFresh 0 0, by decide, by decide, by decide, by decide, wReady _ _ _ _ (by decide) (by decide), by decide, wReady _ _ _ _ (by decide) (by decide),
    by decide, wReady _ _ _ _ (by decide) (by decide), by decide, wReady _ _ _ _ (by decide) (by decide)⟩

/-- The placements of d1: rotation by −1 and by a vector, the last 4 of 3 along an axis, a drop of all, a reshape to d2's shape and of
the empty d8, a transpose, a selection by d3, a join with d2. -/
theorem witness_ArrayPlacement :
    let s := wA (-4) 0x01
    let o := wArr 0x47000 .i32 [0] 0
    let ready := fun (shape : List Nat) (srcs : List (Nat × Arr)) => resultD s wD shape srcs = .ok () ∧
      s.ArrApart wD (prodL shape) (fun i => wCell wD i) (srcs.flatMap fun q => wAll q.2)
    s.arrFresh ∧ (s.srcD 1 1 (fun _ => true) = .ok wX ∧ s.dstD 0 false (· == wX.t) = .ok wD ∧ wElems s wX = true ∧
      axisE s 1 wX.shape 7 1 = .ok 1 ∧ axisE s 1 wX.shape 7 0 = .ok 0 ∧ (s.xr 5).toInt = -4) ∧
      ready [2, 3] [(1, wX)] ∧
      (s.srcD 2 3 Fmt.isInt = .ok wN ∧ wElems s wN = true ∧ sameShapeE s wN.shape (wX.shape.eraseIdx 0) = .ok ()) ∧
      ready [2, 3] [(1, wX), (2, wN)] ∧ ready [2, 4] [(1, wX)] ∧ ready [2, 0] [(1, wX)] ∧
      (s.shapeOperand 2 2 = .ok [2, 3] ∧ s.srcD 1 8 (fun _ => true) = .ok o ∧ prodL o.shape = 0) ∧ ready [2, 3] [(1, o)] ∧
      permOf 2 (s.xr 6) = some [1, 0] ∧ ready [3, 2] [(1, wX)] ∧
      (∀ i < prodL wN.shape, leNat ((wCell wN (wN.off (unravel wN.shape i))).map s.cellByte) < 2) ∧ ready [3, 3] [(1, wX), (2, wN)] ∧
      (s.srcD 2 2 (· == wX.t) = .ok wY ∧ wElems s wY = true) ∧ ready [4, 3] [(1, wX), (2, wY)] ∧
      (s.shapeOperand 1 2 = .ok [2, 3] ∧ s.dstD 0 false (· != .ing) = .ok wD ∧ s.dstD 0 true (fun _ => true) = .ok wD ∧
      axisE s 1 [2, 3] 7 1 = .ok 1) ∧ ready [2, 3] [] ∧ ready [] [] :=
  ⟨wFresh _ _, by decide, ⟨by decide, wReady _ _ _ _ (by decide) (by decide)⟩, by decide, ⟨by decide, wReady _ _ _ _ (by decide) (by decide)⟩,
    ⟨by decide, wReady _ _ _ _ (by decide) (by decide)⟩, ⟨by decide, wReady _ _ _ _ (by decide) (by decide)⟩, by decide,
    ⟨by decide, wReady _ _ _ _ (by decide) (by decide)⟩, by decide, ⟨by decide, wReady _ _ _ _ (by decide) (by decide)⟩, by decide,
    ⟨by decide, wReady _ _ _ _ (by decide) (by decide)⟩, by decide, ⟨by decide, wReady _ _ _ _ (by decide) (by decide)⟩, by decide,
    ⟨by decide, wReady _ _ _ _ (by decide) (by decide)⟩, ⟨by decide, wReady _ _ _ _ (by decide) (by decide)⟩⟩

/-- A grade of d1's lines, and of lines of 4097 elements of which there are none. -/
theorem witness_ArrayGradesAndSelects_grade :
    let s := wA 0 0
    s.arrFresh ∧ (s.srcD 1 1 (fun _ => true) = .ok wX ∧ s.dstD 0 false Fmt.isInt = .ok wD ∧ axisE s 1 wX.shape 7 7 = .ok 1 ∧
      ((3 - 1 : Nat) : Int) ≤ intMax wD.t ∧ s.fitsD wD 6 = .ok () ∧ overlapE s wD 6 [(1, wX)] = .ok () ∧ wElems s wX = true) ∧
      s.ArrApart wD 6 (fun i => wCell wD i) (wAll wX) ∧
      (let x := wArr 0x40000 .i32 [0, 4097] 0
       axisE s 1 x.shape 7 7 = .ok 1 ∧ x.shape.getD 1 0 > 4096 ∧ prodL x.shape = 0 ∧ ((4097 - 1 : Nat) : Int) ≤ intMax wD.t ∧
        s.fitsD wD (2 * prodL x.shape) = .ok () ∧ overlapE s wD (2 * prodL x.shape) [(1, x)] = .ok ()) :=
  ⟨wFresh 0 0, by decide, wReady _ _ _ _ (by decide) (by decide), by decide⟩

/-- Selections into room for one, by a limit, by d2, and of an axis by d3. -/
theorem witness_ArrayGradesAndSelects_selects :
    let s := wA 0 0
    let ready := fun (srcs : List (Nat × Arr)) => s.insideTile wD1.tile (extent wD1.t.ew (baseInt wD1.tile.isSome wD1.base) [wD1.cap] [1]) = true ∧
      overlapE s wD1 (min (prodL wX.shape) wD1.cap) srcs = .ok () ∧
      s.ArrApart wD1 (min (prodL wX.shape) wD1.cap) (fun i => wCell wD1 i) (srcs.flatMap fun q => wAll q.2)
    s.arrFresh ∧ (s.dstD 7 false (· == wX.t) = .ok wD1 ∧ wElems s wX = true ∧ s.srcD 1 1 (fun t => t != .ing) = .ok wX ∧
      s.srcD 2 2 Fmt.isInt = .ok wY ∧ sameShapeE s wY.shape wX.shape = .ok () ∧ s.srcD 2 3 Fmt.isInt = .ok wN ∧
      axisE s 1 wX.shape 7 1 = .ok 1 ∧ sameShapeE s wN.shape [3] = .ok () ∧ wElems s wN = true) ∧
      ready [(1, wX)] ∧ ready [(1, wX), (2, wY)] ∧ ready [(1, wX), (2, wN)] :=
  ⟨wFresh 0 0, by decide, ⟨by decide, by decide, wReady _ _ _ _ (by decide) (by decide)⟩,
    ⟨by decide, by decide, wReady _ _ _ _ (by decide) (by decide)⟩, ⟨by decide, by decide, wReady _ _ _ _ (by decide) (by decide)⟩⟩

/-- d0 a destination of 2 ^ 32 elements in a tile, d1 a source of 2 ^ 33 whose strides are 0. -/
def wHuge : State :=
  { w0 with
    tiles := [⟨1, 0, 5, 1, 0, 65536, 65536, .i8, 1, []⟩]
    sh := { w0.sh with
      d := (w0.sh.d.set 0 (BitVec.ofNat 1024 (2 ^ 64 + Fmt.code .i8 * 2 ^ 72 + 5 * 2 ^ 96 + 2 ^ 32 * 2 ^ 512))).set 1 (BitVec.ofNat 1024
        (0x40000 + Fmt.code .i8 * 2 ^ 72 + 3 * 2 ^ 80 + 65536 * 2 ^ 128 + 65536 * 2 ^ 160 + 2 * 2 ^ 192)) } }

def wHugeX : Arr := ⟨.i8, 0x40000, none, [65536, 65536, 2], [0, 0, 0], 0⟩
def wHugeD : Arr := ⟨.i8, 0, some 5, [], [], 2 ^ 32⟩

theorem wHuge_off (i : Nat) : wHugeX.off (unravel wHugeX.shape i) = 0 := by simp [Arr.off, wHugeX, unravel, dotInt]

theorem wHuge_cells (m : Acc1) (i : Nat) : wHuge.CellsAt m wHugeD i [(some 5, i)] := by
  have h : ∀ a b c n, wHuge.tileOwned a b c n = false := fun _ _ _ _ => rfl
  refine ⟨_, rfl, ?_, ?_⟩
  · simp [State.tileBusy, h]
  · simp [wHugeD, Arr.tileOff, Fmt.ew]

/-- A selection of 2 ^ 33 elements into room for 2 ^ 32: its axis has no place in SHAPE. -/
theorem witness_ArrayGradesAndSelects_long :
    let s := wHuge
    let x := wHugeX
    let n := min (prodL x.shape) wHugeD.cap
    let all := (List.range (prodL x.shape)).map fun i => (x, x.off (unravel x.shape i))
    (s.arrFresh ∧ s.dstD 0 false (· == x.t) = .ok wHugeD ∧ s.srcD 1 1 (fun t => t != .ing) = .ok x) ∧
      (∀ i < prodL x.shape, s.ElemIs x (x.off (unravel x.shape i)) 0) ∧
      s.insideTile wHugeD.tile (extent wHugeD.t.ew (baseInt wHugeD.tile.isSome wHugeD.base) [wHugeD.cap] [1]) = true ∧
      overlapE s wHugeD n [(1, x)] = .ok () ∧ s.ArrApart wHugeD n (fun i => [(some 5, i)]) all ∧
      wHugeD.cap < (((List.range (prodL x.shape)).filter fun _ => iCondP (selCond 1) x.t 0 ((s.xr 0).toNat % 2 ^ x.t.width)).map fun _ => 0).length ∧
      2 ^ 32 ≤ wHugeD.cap := by
  have hx : wOk wHuge .load wHugeX 0 = true := by decide
  refine ⟨⟨⟨rfl, rfl, rfl, rfl, rfl, rfl, fun _ h => absurd h List.not_mem_nil, ?_, by decide⟩, by decide, by decide⟩, ?_, by decide, by decide, ⟨?_, ?_, ?_⟩, ?_, Nat.le_refl _⟩
  · unfold State.Inv
    exact (by decide : w0.mem.wf = true ∧ w0.seals.wf = true)
  · intro i _
    rw [wHuge_off]
    have := wOk_elem _ _ _ hx
    rwa [show leNat ((wCell wHugeX 0).map wHuge.cellByte) = 0 by decide] at this
  · exact fun i _ => wHuge_cells _ i
  · intro i _ j hj
    simp [cellsApart, Cell.at_]
    omega
  · intro i _ q hq
    refine ⟨wCell wHugeX 0, ?_, fun j _ => ?_⟩
    · dsimp only at hq
      split at hq
      · obtain ⟨k, _, rfl⟩ := List.mem_map.1 hq
        dsimp only
        rw [wHuge_off]
        exact wOk_cells _ _ _ _ hx
      · cases hq
    · intro c hc hd
      simp only [List.map_cons, List.map_nil, List.mem_singleton] at hd
      subst hd
      revert hc
      simp [wCell, Cell.at_, wKeys]
  · rw [List.length_map, show (fun _ : Nat => iCondP (selCond 1) wHugeX.t 0 ((wHuge.xr 0).toNat % 2 ^ wHugeX.t.width)) = fun _ => true by
      funext; decide, List.filter_true, List.length_range]
    decide

/-! Matrix state: MM 1, MN 4, MK 4 (32 for `mmuls`, under VL 8), vector registers and weight slots as reset leaves them. -/

/-- A shape, a VL, vector storage, and the token of k3. -/
def wMat (mk vl : Nat) (v : Memory) (k3 : Tok) : State :=
  { w0 with sh := { w0.sh with
    vstore := v, k := w0.sh.k.set 3 k3
    spr := { w0.sh.spr with vl := BitVec.ofNat 64 vl, aec := BitVec.ofNat 64 vl, mshape := BitVec.ofNat 64 (1 + 4 * 2 ^ 8 + mk * 2 ^ 16) } } }

theorem witness_MatrixTokens :
    (let s := w1 0 64 0 0; min (min (s.xr 5).toNat 64) (2 ^ fld s.sh.spr.vcfg 5 3) = 0 ∧ min (s.xr 6).toNat 64 = 64) ∧
      (w1 1 64 512 0).calOk .e4m3 ∧ w0.core.zuse[7] = none ∧
      ({ w0 with core := { w0.core with zuse := w0.core.zuse.set 7 (some (2, 15)) } } : State).core.zuse[7] = some (2, 15) ∧
      (wMat 4 4 [] ⟨.pending, 0, 0, 0⟩).sh.k[3].st = .pending ∧ (wMat 4 4 [] Tok.idle).sh.k[3].st = .idle ∧
      ((wMat 4 4 [] ⟨.complete, 63, 0, 0⟩).sh.k[3].st = .complete ∧ (wMat 4 4 [] ⟨.complete, 63, 0, 0⟩).sh.k[3].cause = 0) ∧
      ((wMat 4 4 [] ⟨.complete, 0, 0x10, 5⟩).sh.k[3].st = .complete ∧ (wMat 4 4 [] ⟨.complete, 0, 0x10, 5⟩).sh.k[3].cause ≠ 0) := by
  unfold State.calOk; decide

/-- A control group in v3 for `mgrp`: one group of row 0 with slot 15. -/
def wCtl : Memory := [(49156, 1), (49412, 1), (49424, 15)]

theorem witness_MatrixIssue_mmul :
    let s := wMat 4 4 [] Tok.idle
    s.stageable .f32 2 s.sh.spr.mk_ ∧ s.issuable .f32 3 7 [15] ∧
      (let t := wMat 4 4 [] ⟨.pending, 0, 0, 0⟩; t.stageable .f32 2 t.sh.spr.mk_ ∧ t.unbound ∧ t.sh.k[3].st ≠ .idle) := by
  unfold State.stageable State.issuable State.unbound State.calOk State.grp; decide

/-- The masks keep 8 of the first 32 k. -/
theorem witness_MatrixIssue_mmuls :
    let s := wMat 32 8 [(49152, 0xFF)] Tok.idle
    8 = 16 / 2 ^ (1 : Fin 4).val ∧ (1 : Fin 4) ≠ 3 ∧ s.sh.spr.mk_ % 32 = 0 ∧ (3 : VReg).val = (2 : VReg).val + s.sh.spr.rc ∧ 3 < s.sh.spr.nreg ∧
      s.grp 3 .n32 ∧ (0#6).toNat + s.sh.spr.mk_ / 32 ≤ s.sh.spr.vln ∧ s.stageable .f32 2 (s.sh.spr.mk_ * 8 / 32) ∧ s.issuable .f32 3 7 [15] ∧
      (∀ i < s.sh.spr.mm, ∀ g < s.sh.spr.mk_ / 32,
        ((Finset.range 32).filter fun q => (s.sh.elem 3 .n32 (i * s.sh.spr.vln + (0#6).toNat + g)).testBit q = true).card = 8) := by
  unfold State.stageable State.issuable State.unbound State.calOk State.grp; decide

/-- A row of adapter 0, which stands on the shelf and fills it, and a row of none. -/
theorem witness_MatrixIssue_mmula :
    let ad : Adapter := ⟨0, 0, 0, 1, 4, 4, [0, 0, 0, 0], [0, 0, 0, 0], 4096, false⟩
    let s := { wMat 4 4 [] Tok.idle with adapters := [ad], saddles := w0.saddles.set 0 { wSaddle with shelf := 4096 } }
    let byte := fun (s : State) o n => leNat ((List.range n).map fun i => s.sh.vstore.byte (3 * s.sh.spr.rbytes + o + i))
    (BitVec.ofNat 32 (byte s 0 4)).toInt = 0 ∧ s.stageable .f32 2 s.sh.spr.mk_ ∧ s.issuable .f32 3 7 [15] ∧ s.shelfAd s.pdie s.sh.spr.sad 0 = some ad ∧ s.adTableBusy s.sh.spr.sad = false ∧
      ((s.shelfAd s.pdie s.sh.spr.sad 0).map Adapter.size).getD 0 ≤ s.sad.shelf.toNat ∧
      (BitVec.ofNat 32 (byte (wMat 4 4 ((List.range 4).map fun k => (49152 + k, 0xFF)) Tok.idle) 0 4)).toInt = -1 := by
  unfold State.stageable State.issuable State.unbound State.calOk State.grp; decide

theorem witness_MatrixIssue_mgrp :
    let s := wMat 4 4 wCtl Tok.idle
    let byte := fun o n => leNat ((List.range n).map fun i => s.sh.vstore.byte (3 * s.sh.spr.rbytes + o + i))
    s.stageable .f32 2 s.sh.spr.mk_ ∧ byte 260 4 = 1 ∧ byte 0 4 = 0 ∧ byte 4 4 = 1 ∧ byte 264 4 = 0 ∧ byte 272 1 = 15 ∧ s.sh.spr.mm = 1 ∧
      s.issuable .f32 3 7 [15] := by
  unfold State.stageable State.issuable State.unbound State.calOk State.grp; decide

/-- A dense source of 2 × 4, and a sparse one of 16 × 1 with a side block at 0x48000 whose mask keeps 16 of 32. -/
def wLd (x6 : Word) : State :=
  { w1 0 x6 0 0 with
    mem := [(0x48040, 0xFF), (0x48041, 0xFF)] ++ w0.mem
    sh := { (w1 0 x6 0 0).sh with d := (w0.sh.d.set 1 (wDesc 0x40000 .f32 [2, 4] 8)).set 2 (wDesc 0x40000 .f32 [16, 1] 16) } }

theorem witness_WeightLoads_dense :
    let s := wLd 0
    let q := wArr 0x40000 .f32 [2, 4] 8
    s.calOk .f32 ∧ (∀ w ∈ s.core.wloads, w.sheet = s.pos → w.got.isSome = true) ∧ dFmt s.sh.d[1] = Fmt.code .f32 ∧ s.copyD 1 1 false = .ok q ∧ 2 ≤ Fmt.kmax .f32 ∧ 4 ≤ 64 ∧
      s.sh.k[3].st = .idle ∧ s.core.wuse[15] = none ∧ q.tile = none ∧ s.xr 6 = 0 ∧
      (∀ i < 2, ∀ j < 4, s.range .load (q.bytesAt (q.off [i, j])).1 4 = .ok (wPhys (0x40000 + 16 * i + 4 * j) 4)) := by
  unfold State.calOk; decide

theorem witness_WeightLoads_sparse :
    let s := wQ (wLd 0x48000) [⟨.mem false [(0x48044, 1)], some (0x48044, 0x48044)⟩]
    let q := wArr 0x40000 .f32 [16, 1] 16
    ((∀ w ∈ s.core.wloads, w.sheet = s.pos → w.got.isSome = true) ∧ (∀ v ∈ s.sh.vq, v.holds (.mem [((s.xr 6).toNat, (s.xr 6).toNat + 68 - 1)]) = false) ∧
      s.copyD 1 2 false = .ok q ∧ 32 ≤ Fmt.kmax .f32 ∧ 32 % 32 = 0 ∧ s.xr 6 ≠ 0 ∧ s.held (s.xr 6) 68 ∧ (s.xr 6).toNat % 64 = 0) ∧
      s.range .load (s.xr 6) 68 = .ok (wPhys 0x48000 68) ∧ s.firstPoison (wPhys 0x48000 68) = none ∧
      (∀ n ∈ physKeys (wPhys 0x48000 68), s.owned (lineOf n) = false) ∧
      ((List.range 32).filter (leNat ((((physKeys (wPhys 0x48000 68)).map s.homeByte).drop 64).take 4)).testBit).length = 16 := by
  refine ⟨?_, by decide, by decide, by decide, by decide⟩
  unfold State.held; decide

/-- Loads in flight into slot 15, of 2 × 4 and sparse of 16 × 1. -/
def wLoad (w : WLoad) (kw : Nat) : State :=
  { w0 with core := { w0.core with wloads := [w], w := w0.core.w.set 15 ⟨kw, w.nw, some .f32, Vector.replicate 4 0, []⟩ } }

theorem witness_WeightLoads_ends :
    (let w : WLoad := ⟨15, .f32, none, 0x40000, 4, 1, 2, 4, [], 0, 3, none, 0, 0⟩
     let s := wLoad w 2
     w ∈ s.core.wloads ∧ w.sheet = s.pos ∧ s.begunAt 0 3 = none ∧ s.begunAt 1 3 = none ∧
      (∃ u, s.release = .ok u ∧ u.core.wloads.find? (fun q => q.sheet = s.pos && q.tok = 3) =
        some { w with got := some [], cause := 0 }) ∧
      (let b := { wBusy s [] with core := s.core }; ∃ e, b.release = .error (.wait e)) ∧ s.core.w[15].kw = 2 ∧ s.core.w[15].nw = 4 ∧
      (∀ v ∈ (wQ s [⟨.mem false [(0x40020, 1)], some (0x40020, 0x40020)⟩]).sh.vq, v.holds w.touch = false) ∧
      (∀ r < 2, ∀ j < 4, s.wElem w r j = .val 0 ∧ s.wBusy w r j = false)) ∧
    (let w : WLoad := ⟨15, .f32, none, 0x40000, 1, 1, 16, 1, [0xFFFF0000], 0, 3, none, 0, 0⟩
     let s := wLoad w 32
     16 % 16 = 0 ∧ w.metas.length = 32 / 32 * 1 ∧ (∀ m ∈ w.metas, ((List.range 32).filter m.testBit).length = 16) ∧ s.core.w[15].kw = 32 ∧
      (∀ r < 16, ∀ j < 1, s.wElem w r j = .val 0 ∧ s.wBusy w r j = false)) := by
  refine ⟨⟨by decide, by decide, by decide, by decide, ?_, wWaits _ (by decide), by decide, by decide, by decide, by decide⟩, by decide⟩
  exact wFind _ _ _ (by decide)

/-- A drain of three elements, z7 not in use. -/
theorem witness_MatrixDrains :
    let s := w1 0 0x40000 16 0
    s.vecReady ∧ s.calOk .bf16 ∧ Fmt.isDrain .f32 = true ∧ s.core.zuse[7] = none ∧ s.sh.spr.vln ≤ 64 ∧ s.grp 3 .n32 ∧ s.grp 2 .f32 ∧
      s.heldAt .store (s.xr 6 + sext32 0 + BitVec.ofNat 64 (2 / 4) * s.xr 7 + BitVec.ofNat 64 (2 % 4 * 4)) 4 (wKeys 0x40008 4) ∧
      s.heldAt .store (s.xr 6 + sext32 0 + BitVec.ofNat 64 (s.sh.elem 3 .n32 2)) 4 (wKeys 0x40000 4) := by
  refine ⟨?_, ?_, by decide, by decide, by decide, ?_, ?_, wHeld _ _ _ _ _ (by decide) (by decide) (wPhys 0x40008 4) (by decide) (by decide)
    (by decide) (by decide), wHeld _ _ _ _ _ (by decide) (by decide) (wPhys 0x40000 4) (by decide) (by decide) (by decide) (by decide)⟩
  · unfold State.vecReady State.unbound; decide
  · unfold State.calOk; decide
  · unfold State.grp; decide
  · unfold State.grp; decide

/-- A queue with one operation of a kind and of some waves, begun or not, on a row of four. -/
def wQueued (kind : MatKind) (waves : Nat) (prog : Option OpProg) : State :=
  { w0 with core := { w0.core with queue := w0.core.queue.set 1 [⟨kind, .f32, 7, 1, 1, 4, [[0, 0, 0, 0]], waves, 0, 3, prog⟩] } }

/-- An adapter of rank 1, 1 × 1, in a table at 0x40000, and a shelf of one page. -/
def wTable : State :=
  { w0 with
    mem := [(0x40004, 1), (0x40008, 1), (0x4000C, 1)] ++ w0.mem
    saddles := w0.saddles.set 0 { wSaddle with shelf := 4096, adaptBase := 0x40000, adaptN := 1 } }

theorem wOkP {e : Eff} (p : State → Bool) (h : e.toOption.any p = true) : ∃ v, e = .ok v ∧ p v = true := by
  cases e with
  | ok v => exact ⟨v, rfl, h⟩
  | error _ => cases h

/-- A store into what a pending weight load reads: the load is read first, or what it meets makes the store wait. An increment of a
counter in flight. -/
theorem witness_stores_after_reads :
    let w : WLoad := ⟨15, .f32, none, 0x40000, 4, 1, 2, 4, [], 0, 3, none, 0, 0⟩
    let s := wLoad w 2
    ¬ s.weightsRead ∧ wV.weightsRead ∧ (wQueue 0).weightsRead ∧ (w1 0 0x40000 16 0).weightsRead ∧
      (∃ u, s.settleFor [.mem false [(0x40000, 1)]] = .ok u ∧ (u.core.wloads.all (fun q => q.got.isSome)) = true) ∧
      (∃ u, s.beforeStore 0x40000 (wPhys 0x40000 4) [1, 2, 3, 4] = .ok u) ∧
      (∃ e, ({ wBusy s [] with core := s.core } : State).beforeStore 0x40000 (wPhys 0x40000 4) [1, 2, 3, 4] = .error (.wait e)) ∧
      (∃ u, (wGate 1 0).settleV = .ok u) ∧ (∃ q ∈ (wGate 1 0).windows, q.drove = 1 ∧ q.die = 0) ∧
      (wQ (wGate 1 0) [⟨.gate 0 1 1, none⟩]).sh.vq = ⟨.gate 0 1 1, none⟩ :: [] := by
  refine ⟨by decide, by decide, by decide, by decide, wOkP _ (by decide), wEx _ (by decide), wWaits _ (by decide), wEx _ (by decide), by decide, rfl⟩

theorem witness_MatrixOperations_starts :
    (∀ kind ∈ [MatKind.mmul 15, .mmuls 15 [], .mgrp [], .mmulc 15 63, .pack [⟨0, 0, 0⟩], .mmula 15 [-1] 0 0],
      ∃ o, (wQueued kind 32 none).core.queue[1] = o :: [] ∧ o.prog = none ∧ (wQueued kind 32 none).adsHere o = true ∧ o.mm ≤ 64 ∧ o.mn ≤ 64 ∧
        (wQueued kind 32 none).core.z[o.z.val].cells.wf = true) ∧
    (∃ o, (wQueued (.mmula 15 [0] 0 0) 42 none).core.queue[1] = o :: [] ∧ (wQueued (.mmula 15 [0] 0 0) 42 none).adsHere o = false) := by
  refine ⟨?_, _, rfl, by decide⟩
  intro kind h
  refine ⟨_, rfl, rfl, ?_, Nat.le_of_ble_eq_true rfl, Nat.le_of_ble_eq_true rfl, ?_⟩
  · revert kind; decide
  · exact (by decide : w0.core.z[7].cells.wf = true)

/-- Operations with one step, or the adapter's steps, still to be made. -/
theorem witness_MatrixOperations_ends :
    (∀ q ∈ [(MatKind.mmul 15, 32), (.mmuls 15 [[0, 1, 2, 3]], 32), (.mgrp [some (0, 15)], 32), (.mmulc 15 63, 32), (.mmula 15 [-1] 0 0, 32)],
      let s := wQueued q.1 q.2 (some ⟨3, 0, []⟩)
      let o := (s.core.queue[1].headD ⟨q.1, .f32, 0, 0, 0, 0, [], 0, 0, 0, none⟩)
      o.prog = some ⟨3, 0, []⟩ ∧ o.sheet = s.pos ∧ s.begunAt 0 o.tok = none ∧ s.release.toOption.isSome = true ∧
        (∀ r ∈ s.adapters, r.stale = false) ∧ s.adsHere o = true ∧ 3 < o.steps ∧ o.mm ≤ 64 ∧ o.mn ≤ 64 ∧
        (∀ i < o.mm, 0 * stepsOf o.ty o.kk < o.steps ∧ ∀ j < o.mn,
          (cellSteps (fun _ => false) .f32 s.core.w[15] (o.rows.getD i []) (List.range o.kk) j).length ≤ o.steps)) ∧
    (let ad : Adapter := ⟨0, 0, 0, 1, 4, 1, [0, 0, 0, 0], [0], 4096, false⟩
     let s := { wQueued (.mmula 15 [0] 0 0) 42 (some ⟨8, 0, [[0]]⟩) with adapters := [ad] }
     let o := (s.core.queue[1].headD ⟨.mmul 0, .f32, 0, 0, 0, 0, [], 0, 0, 0, none⟩)
     s.adsHere o = true ∧ 8 < o.steps ∧ o.mainSteps + o.kk ≤ o.steps ∧
       (let d := ad.down .f32 (o.rows.getD 0 []) 0 (8 - o.mainSteps) (o.steps - o.mainSteps) [0]
        o.mainSteps + o.kk + (ad.upSteps (downRound d.1).1 0 0).length ≤ o.steps)) ∧
    (let s := wQueued (.pack [⟨0, 0, 0⟩]) 1 (some ⟨0, 0, []⟩)
     (∀ o ∈ s.core.queue[1], o.prog = some ⟨0, 0, []⟩ ∧ 0 < o.steps) ∧ s.release.toOption.isSome = true) ∧
    (∃ e, (wBusy (wQueued (.mmul 15) 32 (some ⟨0, 0, []⟩)) [⟨.mem false [(0x40000, 1)], none⟩]).release = .error (.wait e)) := by
  refine ⟨by decide, by decide, by decide, ?_⟩
  exact wWaits _ (by decide)

theorem witness_MatrixOperations_prefetch :
    (∀ q ∈ wTable.adapters, q.stale = false) ∧
    (let e : AdEnt := ⟨0, 1, 1, 1, 0, 0, 0⟩
     wTable.adFind 0 0 = some e ∧ wTable.adTableBusy 0 = false ∧ wTable.adBusy 0 e = false ∧
      wTable.readBf 0 e.dn (e.kh * e.rank) = some [0] ∧ wTable.readBf 0 e.up (e.rank * e.nh) = some [0] ∧
      ((wTable.adapters.filter fun q => q.die = 0 ∧ q.sad = 0).map Adapter.size).sum + (2 * (e.kh * e.rank + e.rank * e.nh) + 4095) / 4096 * 4096 ≤
        wTable.saddles[(sadOf 0).val].shelf.toNat) := by
  decide

/-- One row of one entry: row pointers 0, 1 at 0x41000, its column 0 at 0x42000, values at 0x43000; bounds in x20 and x24. -/
def wCut (row0 k budget : Word) : State :=
  let s := (((((((w0.setX 20 row0).setX 22 0).setX 24 0x41000).setX 25 0x42000).setX 26 0x43000).setX 27 (1 + k <<< 32)).setX 28 budget)
  { s with mem := (0x41004, 1) :: w0.mem }

theorem wHome (s : State) (va : Word) (n v : Nat) (l : List Phys)
    (h : (∀ k < n, (tlbFind s.sh.tlb s.sh.spr.sad (va + BitVec.ofNat 64 k)).isSome = true) ∧ s.range .load va n = .ok l ∧ s.firstPoison l = none ∧
      (∀ k ∈ physKeys l, s.owned (lineOf k) = false) ∧ v = leNat ((physKeys l).map s.homeByte)) : s.homeIs va n v :=
  ⟨h.1, l, h.2.1, h.2.2.1, h.2.2.2.1, h.2.2.2.2⟩

theorem witness_CutsAndBounds_cut :
    let s := wCut 0 8 8
    let u := s
    s.calOk .f32 ∧ s.release = .ok u ∧ fld s.sh.spr.cutst 0 2 = 0 ∧ (s.xr 28).toNat % 2 ^ 14 = 8 ∧ (s.xr 20).toNat < (s.xr 27).toNat % 2 ^ 32 ∧
      (s.xr 22).toNat < (s.xr 27).toNat / 2 ^ 32 ∧ s.holder 0 = none ∧ s.sh.k[3].st = .idle ∧ s.core.suse[0] = none ∧ s.core.queue[0].length < 4 ∧
      u.homeIs (s.xr 24) 4 0 ∧ u.homeIs (s.xr 24 + BitVec.ofNat 64 (4 * 1)) 4 1 ∧ u.homeIs (s.xr 25) 4 0 ∧ u.homeIs (s.xr 26) 4 0 ∧
      cutBounds false [(0, [0])] 8 1 0 8 8 = (1, 8, false) ∧ cutBounds true [(0, [0])] 8 1 0 8 8 = (1, 8, false) ∧
      cutBounds false [(0, [])] 8 1 0 8 8 = (1, 8, true) := by
  refine ⟨?_, rfl, by decide, by decide, by decide, by decide, by decide, by decide, by decide, by decide, wHome _ _ _ _ (wPhys 0x41000 4) (by decide),
    wHome _ _ _ _ (wPhys 0x41004 4) (by decide), wHome _ _ _ _ (wPhys 0x42000 4) (by decide), wHome _ _ _ _ (wPhys 0x43000 4) (by decide),
    by decide, by decide, by decide⟩
  unfold State.calOk; decide

/-- The least budget, one row, and the widest range of columns. -/
theorem witness_CutsAndBounds_bounds :
    (∀ r ∈ [(0, [0, 255])], r.2.Pairwise (· < ·)) ∧ 8 ≤ 8 ∧ 1 ≤ 1 ∧ 1 ≤ 64 ∧ 0 < 256 ∧ 256 ≤ 0 + 256 ∧ 256 ≤ 256 := by decide

/-- A sheet with a cut of columns 1 to 3 in CUTST state 1 or 2, x20 to x23 its bounds, and a partner of 2 × 1 in d1. -/
def wCo (st x20 : Nat) : State :=
  let s := (((w0.setX 20 (BitVec.ofNat 64 x20)).setX 21 1).setX 22 1).setX 23 3
  { s with
    sh := { s.sh with d := w0.sh.d.set 1 (wDesc 0x40000 .f32 [2, 1] 2), spr := { s.sh.spr with cutst := BitVec.ofNat 64 st } }
    core := { s.core with cut := s.core.cut.set 0 ⟨0, .f32, 0, 1, 1, 3, 15⟩ } }

theorem witness_MatchedProducts :
    (let s := wCo 1 0
     let q := wArr 0x40000 .f32 [2, 1] 2
     fld s.sh.spr.cutst 0 2 = 1 ∧ s.xr 22 = (s.core.cut[s.pos.val]).col0 ∧ s.xr 23 = (s.core.cut[s.pos.val]).col1 ∧ dFmt s.sh.d[1] = Fmt.code .f32 ∧
      dKind s.sh.d[1] = 0 ∧ s.srcD 1 1 (fun _ => true) = .ok q ∧ q.shape.length = 2 ∧ s.sh.k[3].st = .idle ∧ s.core.wuse[15] = none ∧
      (∀ w ∈ s.core.wloads, w.sheet = s.pos → w.got.isSome = true) ∧
      (∀ e ∈ (wQ s [⟨.mem false [(0x40008, 1)], some (0x40008, 0x40008)⟩]).sh.vq, e.holds (.mem [(0x40004, 0x40004 + 4 - 1)]) = false) ∧
      s.homeIs (q.bytesAt (q.off [1, 0])).1 4 0) ∧
    (let s := wCo 2 0
     fld s.sh.spr.cutst 0 2 = 2 ∧ arrOf 3 = (s.core.cut[s.pos.val]).arr ∧ (15 : WReg) = (s.core.cut[s.pos.val]).slot ∧
      s.xr 20 = (s.core.cut[s.pos.val]).row0 ∧ s.xr 21 = (s.core.cut[s.pos.val]).row1 ∧ s.xr 23 = (s.core.cut[s.pos.val]).col1 &&& ~~~(1#64 <<< 63) ∧
      s.core.zuse[3] = none ∧ s.core.suse[0] = none ∧ s.core.queue[0].length < 4) ∧
    ¬ (wCo 2 1).xr 20 = ((wCo 2 1).core.cut[(wCo 2 1).pos.val]).row0 := by
  refine ⟨⟨by decide, by decide, by decide, by decide, by decide, by decide, by decide, by decide, by decide, by decide, by decide,
    wHome _ _ _ _ (wPhys 0x40004 4) (by decide)⟩, by decide, by decide⟩

/-! Tiles, copies, barriers. -/

/-- x6 rows and x7 bytes a row; the tile of handle 5, of the sheet's own core or another; a copy and a weight load that name it. -/
def wTl (x6 x7 : Word) (inst : Nat) (busy : Bool) : State :=
  { w1 0 x6 x7 0 with
    tiles := [{ wTile with inst := inst }]
    core := { w0.core with wloads := if busy then [⟨0, .f32, some 5, 0, 1, 1, 1, 1, [], 0, 0, none, 0, 0⟩] else [] } }

theorem witness_Tiles :
    let mine := fun (s : State) (h : BitVec 12) (t : Tile) => decide (t.drove = s.sh.droveId ∧ t.die = s.sh.spr.gDie ∧ t.handle = h)
    let sized := fun (s : State) (ty : Fmt) => decide (1 ≤ (s.xr 6).toNat ∧ (s.xr 6).toNat ≤ 65536 ∧ 1 ≤ (s.xr 7).toNat ∧ (s.xr 7).toNat ≤ 65536 ∧
      (s.xr 7).toNat % ty.ew = 0)
    (let s := w1 0 128 16384 0
     (∀ t ∈ s.tiles, mine s 5 t = false) ∧ sized s .f64 = true ∧ (128 * 16384 + 4095) / 4096 * 4096 ≤ s.storeFree 1 (s.site 1)) ∧
    (let s := w1 0 65536 65536 0; sized s .i8 = true ∧ s.storeFree 3 (s.site 3) < (65536 * 65536 + 4095) / 4096 * 4096) ∧
    sized (w1 0 0 8 0) .i8 = false ∧ sized (w1 0 65537 8 0) .i8 = false ∧ sized (w1 0 1 7 0) .i16 = false ∧
    (let s := wTl 4 16 0 false
     (∃ t ∈ s.tiles, mine s 5 t = true) ∧ s.tile? 5 = some wTile ∧ s.sh.spr.instOf wTile.level = wTile.inst) ∧
    (let s := wTl 4 16 0 true
     (s.core.wloads.any fun w => w.sheet = s.pos && w.tile = some 5) = true) ∧
    (wTl 4 16 0 false).tile? 6 = none ∧
    (let s := wTl 4 16 1 false
     s.tile? 5 = some { wTile with inst := 1 } ∧ ¬ s.sh.spr.instOf 1 = 1) := by
  decide

/-- d1 a source of i32, 2 × 3; d0 a destination of 2 × 3 and d2 one of 3 × 3; a stamp at 0x45000; v3 = 0; engine 0's queue. -/
def wCp (q : List Cmd) : State :=
  { w1 0 0x45000 7 0 with
    engines := w0.engines.set 0 ⟨q, none, []⟩
    sh := { (w1 0 0x45000 7 0).sh with
      d := ((w0.sh.d.set 0 (wDesc 0x43000 .i32 [2, 3] 6)).set 1 (wDesc 0x40000 .i32 [2, 3] 6)).set 2 (wDesc 0x44000 .i32 [3, 3] 9) } }

def wCmd (dst : BitVec 1024) (idx : Option (List Int)) : Cmd :=
  ⟨0, 1, 1, 0, 0, 0, wDesc 0x40000 .i32 [2, 3] 6, dst, idx, 3, .rne, false, .stamp 0x45000 7, [], [], [⟨0, 0, 42, wE⟩],
    none, ⟨0, []⟩, none⟩

def wSrc : Arr := wArr 0x40000 .i32 [2, 3] 6
def wTo : Arr := wArr 0x43000 .i32 [2, 3] 6
def wTo3 : Arr := wArr 0x44000 .i32 [3, 3] 9

theorem witness_Copies_copy :
    let s := wCp []
    let c := wCmd (wDesc 0x43000 .i32 [2, 3] 6) none
    s.copyD 1 1 false = .ok wSrc ∧ s.copyD 0 0 true = .ok wTo ∧ copyPair wSrc.t wTo.t = true ∧ copyClash wTo wSrc = false ∧
      s.reportOf (.st 6) = .ok (.stamp 0x45000 7) ∧ s.pdie * 4 + (0#2).toNat < 24 ∧ prodL wSrc.shape = prodL wTo.shape ∧ s.Inv ∧ c.items = 6 ∧
      wTo.tile = none ∧
      (∀ i < 6, (let p := wTo.bytesAt (wTo.off (unravel wTo.shape i)); rangeOf .store (s.xlateAs c.who .store) p.1 p.2) =
          .ok (wPhys (0x43000 + 4 * i) 4) ∧ wKeys (0x43000 + 4 * i) 4 = physKeys (wPhys (0x43000 + 4 * i) 4)) ∧
      (∀ i < 6, ∀ k ∈ wKeys (0x43000 + 4 * i) 4, s.owned (lineOf k) = false) ∧ (s.engineAt 0).queue.length < 64 := by
  unfold State.Inv; decide

theorem witness_Copies_full : 64 ≤ ((wCp (List.replicate 64 (wCmd 0 none))).engineAt 0).queue.length := by decide

theorem witness_Copies_cgath :
    let s := wCp []
    let c := wCmd (wDesc 0x44000 .i32 [3, 3] 9) (some [0, 0, 0])
    s.copyD 0 2 true = .ok wTo3 ∧ copyClash wTo3 wSrc = false ∧ s.unbound ∧ s.grp 3 .n32 ∧
      (List.range s.sh.spr.aecn).map (fun i => ival .n32 (s.sh.elem 3 .n32 i)) = [0, 0, 0] ∧ wSrc.shape.length = 2 ∧ 3 * 3 = prodL wTo3.shape ∧
      (∀ i < 9, (let p := wTo3.bytesAt (wTo3.off (unravel wTo3.shape i)); rangeOf .store (s.xlateAs c.who .store) p.1 p.2) =
        .ok (wPhys (0x44000 + 4 * i) 4)) ∧ c.items = 9 := by
  unfold State.unbound State.grp; decide

/-- A destination whose third element lies past the local memory: the first page that fails at issue. -/
theorem witness_Copies_bad :
    let s := wCp []
    let c := wCmd (wDesc 2047999999992 .i32 [2, 3] 6) none
    let y := wArr 2047999999992 .i32 [2, 3] 6
    let dest := fun i => let p := y.bytesAt (y.off (unravel y.shape i)); rangeOf .store (s.xlateAs c.who .store) p.1 p.2
    (∀ i < 2, dest i = .ok (wPhys (2047999999992 + 4 * i) 4) ∧ ∀ k ∈ physKeys (wPhys (2047999999992 + 4 * i) 4), s.owned (lineOf k) = false) ∧
      2 < c.items ∧ dest 2 = .error (0x11, 2048000000000) ∧ 0x11 ≠ walkWaits := by decide

theorem witness_Copies_facet_swait :
    (wCp []).Reaches .load ((w1 0 0x40000 0 0).xr 6) 512 64 (wPhys 0x40000 512) ∧ ((wCp []).engineAt 0).queue = [] ∧
      ((wCp [wCmd 0 none]).engineAt 0).queue ≠ [] ∧ (wCp []).Reaches .load ((wCp []).xr 6) 8 8 (wPhys 0x45000 8) ∧
      leNat ((physKeys (wPhys 0x45000 8)).map (wCp []).homeByte) = (0#64).toNat ∧ ((wCp []).xr 5).toNat % 2 ^ 48 ≤ (0#64).toNat % 2 ^ 48 ∧
      (0#64).toNat % 2 ^ 48 < ((wCp []).xr 7).toNat % 2 ^ 48 := by
  unfold State.Reaches; decide

theorem wTables (keys : List Nat) (h : ∀ k ∈ keys.map addrOf, k < 0x100000) (s : State) (hs : s.saddles = w0.saddles) (hm : s.mem = w0.mem)
    (ho : ∀ n, s.owned n = false) : s.tablesApart 0 keys := by
  intro m hk va
  have hr : ∀ t : State, t.saddles = w0.saddles → t.saddles[(sadOf 0).val].ptRoot.toNat = 0x100000 := by
    intro t ht
    rw [ht]
    decide
  have hb : ∀ a, 0x100000 ≤ a → m.byte a = w0.mem.byte a := by
    intro a ha
    rw [hk a fun q => by have := h a q; omega, hm]
  have hn : ∀ a, 0x100000 ≤ a → m.nat a 8 = w0.mem.nat a 8 := by
    intro a ha
    simp [Memory.nat, Memory.bytes, hb _ ha, hb (a + 1) (by omega), hb (a + 1 + 1) (by omega), hb (a + 1 + 1 + 1) (by omega),
      hb (a + 1 + 1 + 1 + 1) (by omega), hb (a + 1 + 1 + 1 + 1 + 1) (by omega), hb (a + 1 + 1 + 1 + 1 + 1 + 1) (by omega),
      hb (a + 1 + 1 + 1 + 1 + 1 + 1 + 1) (by omega)]
  have h0 : ∀ a, 0x100008 ≤ a → w0.mem.byte a = 0 := by
    intro a ha
    simp only [w0, Memory.byte]
    split <;> [omega; split <;> [rfl; (split <;> [omega; split <;> [rfl; (split <;> [omega; split <;> rfl])]])]]
  have hz : ∀ a, 0x100008 ≤ a → w0.mem.nat a 8 = 0 := by
    intro a ha
    simp [Memory.nat, Memory.bytes, leNat, h0 _ ha, h0 (a + 1) (by omega), h0 (a + 1 + 1) (by omega), h0 (a + 1 + 1 + 1) (by omega),
      h0 (a + 1 + 1 + 1 + 1) (by omega), h0 (a + 1 + 1 + 1 + 1 + 1) (by omega), h0 (a + 1 + 1 + 1 + 1 + 1 + 1) (by omega),
      h0 (a + 1 + 1 + 1 + 1 + 1 + 1 + 1) (by omega)]
  have e : w0.mem.nat 0x100000 8 = wE.toNat := by decide
  have ho2 : ∀ n, ({ s with mem := m } : State).owned n = false := ho
  simp only [State.walk, State.entryAt, ho, ho2, Bool.false_eq_true, if_false]
  rw [hr s hs, hn _ (by omega), hm]
  by_cases hi : fld va 42 13 = 0
  · rw [hi]
    have p : w0.mem.nat (0x100000 + 8 * 0) 8 = wE.toNat := e
    have v : peV (BitVec.ofNat 64 wE.toNat) = true := by decide
    have f : peLeaf (BitVec.ofNat 64 wE.toNat) = true := by decide
    simp only [p, v, f, Bool.not_true, Bool.false_eq_true, if_false, if_true]
  · have v : peV (BitVec.ofNat 64 0) = false := by decide
    simp only [hz (0x100000 + 8 * fld va 42 13) (by omega), v, Bool.not_false, if_true]

theorem witness_Copies_execute :
    let c := wCmd (wDesc 0x43000 .i32 [2, 3] 6) none
    let s := wCp [c]
    let dst := fun i => wCell wTo i
    let keys := ((List.range c.items).flatMap fun i => dst i).filterMap fun q => if q.1 = none then some q.2 else none
    (s.engineAt 0).queue = c :: [] ∧ c.ended = none ∧ s.Inv ∧ (∀ t ∈ s.tiles, t.data.wf = true) ∧ s.posted = [] ∧ s.tablesApart c.sad keys ∧ s.cleanAt keys ∧ (keys.map addrOf).Nodup ∧
      (∀ i ∈ List.range c.items, s.cmdPlaces c .store (cmdArr c.dst) ((cmdArr c.dst).off (unravel (cmdArr c.dst).shape i)) (dst i)) ∧
      (∀ i ∈ List.range c.items, ∀ j ∈ List.range c.items, j < i → cellsApart (dst i) (dst j)) ∧
      (∀ i ∈ List.range c.items, s.cmdItem (s.engineAt 0) c i = .ok (0, 0)) ∧
      (∀ i ∈ List.range c.items, ∀ ix, c.srcIx i = some ix → ∃ l, s.cmdPlaces c .load (cmdArr c.src) ((cmdArr c.src).off ix) l ∧
        ∀ j ∈ List.range c.items, cellsApart l (dst j)) := by
  refine ⟨by decide, rfl, ?_, by decide, rfl, wTables _ (by decide) _ rfl rfl fun _ => rfl, ?_, by decide, ?_, ?_, by decide, ?_⟩
  · unfold State.Inv; decide
  · unfold State.cleanAt; decide
  · have h : ∀ i ∈ List.range 6, (let c := wCmd (wDesc 0x43000 .i32 [2, 3] 6) none
        rangeOf .store (fun va => checkPage .store c.who va (c.page va)) (wTo.bytesAt (wTo.off (unravel [2, 3] i))).1 4 =
          .ok (wPhys (0x43000 + 4 * i) 4)) ∧
        wCell wTo i = (physKeys (wPhys (0x43000 + 4 * i) 4)).map (fun k => (none, k)) := by decide
    intro i hi
    refine ⟨_, ?_, (h i hi).2⟩
    simp only [if_true, State.cmdDst]
    rw [show ((cmdArr (wCmd (wDesc 0x43000 .i32 [2, 3] 6) none).dst).bytesAt ((cmdArr (wCmd (wDesc 0x43000 .i32 [2, 3] 6) none).dst).off
      (unravel (cmdArr (wCmd (wDesc 0x43000 .i32 [2, 3] 6) none).dst).shape i))) = ((wTo.bytesAt (wTo.off (unravel [2, 3] i))).1, 4) from rfl,
      (h i hi).1]
    rfl
  · have h : ∀ i ∈ List.range 6, ∀ j ∈ List.range 6, j < i → wApart (wCell wTo i) (wCell wTo j) = true := by decide
    exact fun i hi j hj k => wApart_disjoint _ _ (h i hi j hj k)
  · have h : ∀ i ∈ List.range 6, rangeOf .load ((wCp [wCmd (wDesc 0x43000 .i32 [2, 3] 6) none]).xlateAs ⟨0, 1, 0⟩ .load)
        (wSrc.at_ (wSrc.off (unravel [2, 3] i))) 4 = .ok (wPhys (0x40000 + 4 * i) 4) ∧
        (wCp [wCmd (wDesc 0x43000 .i32 [2, 3] 6) none]).firstPoison (wPhys (0x40000 + 4 * i) 4) = none ∧
        ∀ j ∈ List.range 6, wApart ((physKeys (wPhys (0x40000 + 4 * i) 4)).map fun k => (none, k)) (wCell wTo j) = true := by decide
    intro i hi ix hx
    obtain rfl : unravel [2, 3] i = ix := Option.some.inj hx
    exact ⟨_, ⟨_, ⟨(h i hi).1, (h i hi).2.1⟩, rfl⟩, fun j hj => wApart_disjoint _ _ ((h i hi).2.2 j hj)⟩

/-- A copy whose payload is done, with one store before it still in flight. -/
def wEnded (s : State) (l : List VStore) : State × Cmd :=
  let c : Cmd := { wCmd (wDesc 0x43000 .i32 [2, 3] 6) none with before := ⟨1, [3]⟩, ended := some ⟨0, 6, none⟩ }
  (wQ { s with engines := s.engines.set 0 ⟨[c], none, []⟩ } l, c)

/-- No engine owns a line. -/
def wNone (v : State) : Bool := v.engines.toList.all fun e => e.queue.all fun c => c.owned.isEmpty

theorem wNone_owned (v : State) (h : wNone v = true) (n line : Nat) : v.owned line = false ∧ (v.popCopy n).owned line = false := by
  have e : ∀ e ∈ v.engines.toList, ∀ c ∈ e.queue, line ∉ c.owned := by
    intro e he c hc
    have := (List.all_eq_true.1 ((List.all_eq_true.1 h) e he)) c hc
    simp only [List.isEmpty_iff] at this
    simp [this]
  refine ⟨?_, ?_⟩
  · simp only [State.owned, List.any_eq_false]
    intro a ha
    simp only [List.any_eq_true, decide_eq_true_eq, not_exists, not_and]
    exact e a ha
  · simp only [State.owned, State.popCopy, State.setEngine, List.any_eq_false]
    intro a ha
    simp only [Vector.toList_map, List.mem_map, Vector.toList_zipIdx] at ha
    obtain ⟨⟨b, i⟩, hb, rfl⟩ := ha
    have hm : b ∈ v.engines.toList := by
      have := List.mem_zipIdx hb
      exact this.2.2 ▸ List.getElem_mem _
    simp only [List.any_eq_true, decide_eq_true_eq, not_exists, not_and]
    intro c hc
    split at hc
    · exact e b hm c (List.mem_of_mem_tail hc)
    · exact e b hm c hc

theorem wNone_xlate (v : State) (h : wNone v = true) (n : Nat) (w : Who) (m : Acc1) : (v.popCopy n).xlateAs w m = v.xlateAs w m := by
  funext va
  simp only [State.xlateAs, State.pageOf, State.walk, State.entryAt, (wNone_owned v h n _).1, (wNone_owned v h n _).2]
  rfl

theorem witness_Copies_report :
    (let q := wEnded (wCp []) [⟨.mem false [(0x40000, 1)], none⟩]
     (q.1.engineAt 0).queue = q.2 :: [] ∧ q.2.ended = some ⟨0, 6, none⟩ ∧ q.2.report = .stamp 0x45000 7 ∧ q.2.report.releases = true ∧
       q.1.sh.run ≠ .off ∧ q.1.sh.droveId = q.2.drove ∧ q.1.sh.spr.flatIx = q.2.flat ∧
       q.2.before.stores ≤ q.1.sh.vdone + q.1.sh.vq.length ∧
       ∃ v, q.1.beforeReport q.2 = .ok v ∧ (v.mem.wf && v.seals.wf && v.posted.isEmpty && (v.core :: v.cores).all fun c => c.l1.isEmpty) ∧
         rangeOf .store ((v.popCopy 0).xlateAs q.2.who .store) 0x45000 8 = .ok (wPhys 0x45000 8) ∧
         ∀ k ∈ physKeys (wPhys 0x45000 8), (v.popCopy 0).owned (lineOf k) = false) ∧
    (let q := wEnded (wCp []) [⟨.mem false [(0x40000, 1)], none⟩]
     let b : State := { q.1 with engines := q.1.engines.set 1 ⟨[{ q.2 with owned := [lineOf 0x40000], ended := none }], none, []⟩ }
     (b.engineAt 0).queue = q.2 :: [] ∧ ∃ u, b.beforeReport q.2 = .error (.wait u)) := by
  refine ⟨⟨by decide, rfl, rfl, rfl, by decide, rfl, by decide, by decide, ?_⟩, by decide, wWaits _ (by decide)⟩
  obtain ⟨v, hv, hp⟩ := wOkP (e := (wEnded (wCp []) [⟨.mem false [(0x40000, 1)], none⟩]).1.beforeReport
      (wEnded (wCp []) [⟨.mem false [(0x40000, 1)], none⟩]).2)
    (fun v => (v.mem.wf && v.seals.wf && v.posted.isEmpty && (v.core :: v.cores).all fun c => c.l1.isEmpty) && wNone v &&
      decide (rangeOf .store (v.xlateAs ⟨0, 1, 0⟩ .store) 0x45000 8 = .ok (wPhys 0x45000 8))) (by decide)
  simp only [Bool.and_eq_true, decide_eq_true_eq] at hp
  refine ⟨v, hv, ?_, ?_, fun k _ => (wNone_owned v hp.1.2 0 _).2⟩
  · simp only [Bool.and_eq_true]
    exact hp.1.1
  · rw [wNone_xlate v hp.1.2]
    exact hp.2

/-- A barrier at phase `p`; a record with one predecessor at 0x41000; the pool of one record, or none. -/
def wBar (p : Bool) (n : Word) : State :=
  { w1 0 0x41000 1 0 with
    bars := [⟨1, 1, 0, 9, p, 0, 0⟩]
    saddles := w0.saddles.set 0 { wSaddle with graphN := n, marks := [(7, 1)] }
    mem := [(0x41000, 2), (0x41002, 1)] ++ w0.mem }

/-- Streams that may be performed, and ones that wait for a copy engine; an `stl` or an `amo` among them. -/
theorem witness_releases :
    (∃ u, (wQ (w1 0 0x40000 0 0) [⟨.mem false [(0x40000, 1)], none⟩]).releasedTo 0x40000 4 u) ∧
      (∃ e, ((wBusy (w1 0 0x40000 0 0) [⟨.mem false [(0x40000, 1)], none⟩]).fillAll (pageStarts 0x40000 4)).release = .error e) ∧
    (wBar false 5).release = .ok (wBar false 5) ∧ (∃ e, (wBusy w0 [⟨.mem false [(0x40000, 1)], none⟩]).release = .error e) ∧
      (∃ u, (wQ (wBar false 5) [⟨.mem false [(0x40000, 1)], none⟩]).release = .ok u) :=
  ⟨wEx _ (by decide), wStops _ (by decide), rfl, wStops _ (by decide), wEx _ (by decide)⟩

theorem witness_Barriers :
    (wBar false 5).drove? (wBar false 5).sh.droveId = some wDrove ∧
      (let b := fun p => (wBar p 5).barrier 1 (levelOf .co) 0 9; (b false).phase = ((wBar false 5).xr 5).getLsbD 0 ∧
        (b false).phase ≠ ((wBar false 5).xr 7).getLsbD 0 ∧ (b true).phase = ((wBar true 5).xr 7).getLsbD 0) ∧
      (((wBar false 5).sad.marks.map Prod.fst).Pairwise (· < ·) ∧ (sparseGet (wBar false 5).sad.marks 8).toNat < ((wBar false 5).xr 7).toNat ∧
        ((wBar false 5).xr 7).toNat ≤ (sparseGet (wBar false 5).sad.marks 7).toNat) ∧
      ((0x2F#6).getLsbD 3 = true ∧ w0.copiesOut = false ∧ w0.chunksOut 1 = false ∧ (wCp [wCmd 0 none]).copiesOut = true ∧
        (∃ v, (w0.flushOwn.settleW.bind fun v => v.settleV) = .ok v) ∧
        ∃ e, (((wBusy w0 [⟨.mem false [(0x40000, 1)], none⟩]).flushOwn.settleW.bind fun v => v.settleV) = .error e)) ∧
      ((wBar false 5).Reaches .load ((wBar false 5).xr 6) 64 64 (wPhys 0x41000 64) ∧ (wBar false 5).Inv ∧
        (wBar false 5).releasedTo ((wBar false 5).xr 6) 64 (wBar false 5) ∧ (wBar false 4).poolBusy 0 = false ∧
        (wBar false 4).freeRecord 0 = none ∧ (wBusy (wBar false 5) []).poolBusy 0 = true) ∧
      (let u := wBar false 5
       let r := wsetFld (BitVec.ofNat 512 (leNat ((physKeys (wPhys 0x41000 64)).map u.homeByte))) 480 8 1
       u.poolBusy 0 = false ∧ u.freeRecord 0 = some 5 ∧ u.posted = [] ∧ (∀ k ∈ physKeys (wPhys 0x40100 64), u.owned (lineOf k) = false) ∧ recOk r = true ∧ recPred r ≠ 0 ∧
        rangeOf .store (u.xlateAs (runtimeWho 0) .store) (u.recVa 0 5) 64 = .ok (wPhys 0x40100 64)) := by
  refine ⟨by decide, by decide, by decide, ⟨by decide, by decide, by decide, by decide, wEx _ (by decide),
    wStops _ (by decide)⟩, ⟨?_, ?_, ?_, by decide, by decide, by decide⟩, by decide⟩
  · unfold State.Reaches; decide
  · unfold State.Inv; decide
  · unfold State.releasedTo; exact rfl

/-! Spans: two members, ranks 0 and 1, in their last chunk. -/

def wItems : List (Nat × Bool) := [(1, true), (2, true), (3, true)]

/-- The span for an operation in hand at a rank, with a chunk that holds both parts and a result. -/
def wSp (o : XOp) (rank : Nat) (pair : Option (Nat × Nat)) : Span :=
  ⟨0, 7, 3, .qd, false, 1, 1, [0, 1], [], none, [(0, pair, 0, o.sig 3)],
    [⟨pair, 0, 0, o.sig 3, [(0, wItems), (1, wItems)], some wItems, 1⟩], [(rank, 0x20000C)], [], [], [], [], 0⟩

def wXs (o : XOp) (rank : Nat) (pair : Option (Nat × Nat)) (act : Bool) : State :=
  { w0 with
    spans := [wSp o rank pair]
    sh := { w0.sh with
      g := w0.sh.g.set 7 (mkG (wSp o rank pair) rank)
      spr := { w0.sh.spr with xpos := if act then mkXpos 0 7 else 0 } } }

def wCx (o : XOp) (rank : Nat) (pair : Option (Nat × Nat)) : XCtx := ⟨o, rank, 2, 3, 4, pair, 0, o.sig 3⟩

/-- What `joins` asks beside the pair, as a check. -/
def wJoinOk (s : State) (o : XOp) (sp : Span) (x : XCtx) : Bool :=
  let g := s.sh.g[o.g.val]
  gValid g && !gAbort g && decide (s.span? s.sh.spr.sad (gId g) (gGen g) = some sp) && decide (sp.abort = none) && decide (sp.freed = []) &&
    o.fieldsOk s.sh && o.groupsOk s.sh && decide (x.rank = gRank g ∧ x.count = sp.members.length ∧ x.n = s.sh.spr.aecn ∧ x.vl = s.sh.spr.vln) &&
    decide (x.sig = o.sig s.sh.spr.aecn) && !x.clash sp s.sh.spr.flat

theorem wJoins (s : State) (o : XOp) (sp : Span) (x : XCtx) (h : wJoinOk s o sp x = true) (hv : s.vecReady) (hx : x.o = o)
    (hm : match o.kind with
      | .send => x.pair = some (gRank s.sh.g[o.g.val], o.peer) ∧ x.seq = countOf sp.sent (gRank s.sh.g[o.g.val]) o.peer ∧ o.peer ≠ gRank s.sh.g[o.g.val]
      | .recv => x.pair = some (o.peer, gRank s.sh.g[o.g.val]) ∧ x.seq = countOf sp.got o.peer (gRank s.sh.g[o.g.val]) ∧ o.peer ≠ gRank s.sh.g[o.g.val]
      | .all => x.pair = none ∧ x.seq = gSeq s.sh.g[o.g.val]
      | _ => x.pair = none ∧ x.seq = gSeq s.sh.g[o.g.val] ∧ o.peer < sp.members.length) : s.joins o sp x := by
  simp only [wJoinOk, Bool.and_eq_true, decide_eq_true_eq, Bool.not_eq_true'] at h
  obtain ⟨⟨⟨⟨⟨⟨⟨⟨⟨h1, h2⟩, h3⟩, h4⟩, h5⟩, h0⟩, h6⟩, h7⟩, h8⟩, h9⟩ := h
  exact ⟨h1, h2, h3, h4, h5, hv, h0, h6, hx, h7.1, h7.2.1, h7.2.2.1, h7.2.2.2, h8, h9, hm⟩

def wAllOp : XOp := ⟨.all, .add, true, .i32, .rne, some 2, some 3, 7, 0⟩
def wOp (k : XKind) (peer : Nat) (d a : Option VReg) : XOp := ⟨k, .add, false, .i32, .rne, d, a, 7, peer⟩

/-- What `atLast` asks beside `joins`, the chunk, and the sizes, as a check. -/
def wLastOk (s : State) (sp : Span) (x : XCtx) : Bool :=
  s.sh.spr.xAct && decide (s.sh.spr.xChunk = 0 ∧ 0 + 1 = x.nch) && !x.begins sp 0 &&
    (x.sends.all fun q => ((sp.chunk? x.pair x.seq 0).bind fun ch => ch.part q.1).isSome) &&
    (x.pair.isSome || decide (x.rank = 0) || sp.sigs.any fun e => e.1 = 0 && e.2.1 = none && e.2.2.1 = x.seq) &&
    ((sp.chunk? x.pair x.seq 0).elim false fun ch => ch.result = some wItems && ch.part 0 = some wItems && ch.part 1 = some wItems) &&
    decide (wItems.length = s.sh.spr.aecn)

/-- Every kind, with its rank, peer and pair: the root and another member where there is a root. -/
theorem witness_Collectives :
    (∀ p ∈ [(wAllOp, 0, none), (wAllOp, 1, none), (wOp .red 1 (some 2) (some 3), 1, none), (wOp .red 1 (some 2) (some 3), 0, none),
        (wOp .gath 1 (some 2) (some 3), 0, none), (wOp .scat 1 (some 2) (some 3), 0, none), (wOp .bcast 1 (some 2) (some 3), 0, none),
        (wOp .send 1 none (some 3), 0, some (0, 1)), (wOp .recv 1 (some 2) none, 0, some (1, 0))],
      let s := wXs p.1 p.2.1 p.2.2 true
      let x := wCx p.1 p.2.1 p.2.2
      s.joins p.1 (wSp p.1 p.2.1 p.2.2) x ∧ wLastOk s (wSp p.1 p.2.1 p.2.2) x = true) ∧
    (let sp := { wSp wAllOp 0 none with chunks := [], waiters := [], sigs := [] }
     let s := { wXs wAllOp 0 none false with spans := [sp] }
     s.joins wAllOp sp (wCx wAllOp 0 none) ∧ s.sh.spr.xAct = false ∧ sp.chunk? none 0 0 = none ∧ (wCx wAllOp 0 none).pairDone sp = false ∧
       (∀ p ∈ s.packets, ¬ (p.sad = sp.sad ∧ p.id = sp.id ∧ p.gen = sp.gen ∧ p.pair = none ∧ p.seq = 0 ∧ p.chunk = 0))) ∧
    (wAllOp.fieldsOk w0.sh = true ∧ gValid w0.sh.g[7] = false ∧ (wOp .send 1 none (some 8)).fieldsOk w0.sh = false) ∧
    (wCx (wOp .send 1 none (some 3)) 0 (some (0, 1))).seq <
      countOf ({ wSp (wOp .send 1 none (some 3)) 0 (some (0, 1)) with got := [(0, 1, 1)] }).got 0 1 := by
  refine ⟨?_, ⟨wJoins _ _ _ _ (by decide) (by unfold State.vecReady State.unbound; decide) rfl (show _ ∧ _ from ⟨by decide, by decide⟩),
    by decide⟩, by decide, by decide⟩
  simp only [List.forall_mem_cons, List.not_mem_nil, false_implies, implies_true, and_true]
  refine ⟨⟨wJoins _ _ _ _ (by decide) (by unfold State.vecReady State.unbound; decide) rfl ?_, by decide⟩, ⟨wJoins _ _ _ _ (by decide) (by unfold State.vecReady State.unbound; decide) rfl ?_, by decide⟩,
    ⟨wJoins _ _ _ _ (by decide) (by unfold State.vecReady State.unbound; decide) rfl ?_, by decide⟩, ⟨wJoins _ _ _ _ (by decide) (by unfold State.vecReady State.unbound; decide) rfl ?_, by decide⟩,
    ⟨wJoins _ _ _ _ (by decide) (by unfold State.vecReady State.unbound; decide) rfl ?_, by decide⟩, ⟨wJoins _ _ _ _ (by decide) (by unfold State.vecReady State.unbound; decide) rfl ?_, by decide⟩,
    ⟨wJoins _ _ _ _ (by decide) (by unfold State.vecReady State.unbound; decide) rfl ?_, by decide⟩, ⟨wJoins _ _ _ _ (by decide) (by unfold State.vecReady State.unbound; decide) rfl ?_, by decide⟩,
    ⟨wJoins _ _ _ _ (by decide) (by unfold State.vecReady State.unbound; decide) rfl ?_, by decide⟩⟩ <;>
    first | exact (show _ ∧ _ ∧ _ from ⟨by decide, by decide, by decide⟩) | exact (show _ ∧ _ from ⟨by decide, by decide⟩)

/-- The last of two sheets of a quad to arrive, with a choice and without. -/
def wXa (choice : Option (Nat × Nat)) : State :=
  { wXs wAllOp 0 none false with xwaits := [⟨1, .qd, 0, choice, [1], []⟩] }

/-- A packet of member 1 at a SEQ and a generation, of a brand. -/
def wPkt (gen seq : Nat) (brand : BitVec 12) (member : Nat) : Packet :=
  ⟨0, 7, gen, seq, 1, member, none, 1, brand, wAllOp.sig 3, wItems, false, 0⟩

theorem witness_SpanEvents :
    (let s := wXa none
     ∀ w, w ∈ s.xwaits → (s.xwaits.find? fun w => w.is s.sh.droveId .qd 0 && !w.taken.contains s.sh.spr.flatIx) = some w) ∧
    (insertNat 0 [1]).length = 2 ∧ (wXa (some (7, 3))).span? 0 7 3 = some (wSp wAllOp 0 none) ∧ (7 < 2 ^ 16 ∧ 3 < 2 ^ 8 ∧ 2 < 2 ^ 20) ∧
    (let s := wXs wAllOp 0 none false
     gValid s.sh.g[7] = true ∧ s.span? s.sh.spr.sad (gId s.sh.g[7]) (gGen s.sh.g[7]) = some (wSp wAllOp 0 none) ∧
      (s.spans.filter fun q => q.sad = 0 ∧ q.id = 7) = [wSp wAllOp 0 none] ∧ gValid s.sh.g[6] = false) ∧
    (let s := wXs wAllOp 0 none false
     s.span? 0 7 4 = none ∧ s.seqInHand (wSp wAllOp 0 none) 0 = true ∧ s.seqInHand (wSp wAllOp 0 none) (2 ^ 31) = false ∧
      ((wSp wAllOp 0 none).chunk? none 0 1 = none) ∧ (((wSp wAllOp 0 none).chunk? none 0 0).bind fun c => c.part 1).isSome = true ∧
      (wPkt 3 0 2 1).brand ≠ (wSp wAllOp 0 none).brand ∧ (wPkt 3 0 1 1).brand = (wSp wAllOp 0 none).brand ∧ (wPkt 3 0 1 1).lost = false ∧
      (wPkt 3 0 1 1).lost = false ∧ ¬ (wPkt 3 0 1 1).born + 4200000 < s.time.toNat ∧
      (let s := { s with time := 4200001, packets := [wPkt 3 0 1 1] }; s.packets[0]? = some (wPkt 3 0 1 1) ∧ (wPkt 3 0 1 1).born + 4200000 < s.time.toNat) ∧
      (wPkt 3 0 1 1).brand = (wSp wAllOp 0 none).brand) ∧
    (∃ t : Fmt, ∃ op : RedOp, (wPkt 3 0 1 1).sig = [3, t.code, op.code, 1, 0, (wPkt 3 0 1 1).sig.getD 5 0, 0] ∧ t.isInt = true ∧ op ≠ .swap) ∧
    (w0.spans.find? fun q => q.sad = 0 ∧ q.id = 7) = none ∧
    (let s := { wXs wAllOp 0 none true with sh := { (wXs wAllOp 0 none true).sh with run := .waiting } }
     let s2 := { s with spans := [{ wSp wAllOp 0 none with clock := 8400000 }] }
     (s.spans.find? fun q => q.sad = 0 && q.id = 7) = some (wSp wAllOp 0 none) ∧ (0, 0x20000C) ∈ (wSp wAllOp 0 none).waiters ∧
      (wSp wAllOp 0 none).abort = none ∧ s.waitsIn (wSp wAllOp 0 none) (0, 0x20000C) = true ∧
      s.saddles[(sadOf 0).val].spanTmo = 0 ∧ (wSp wAllOp 0 none).clock < 4 * 2100000 ∧
      ((s2.spans.find? fun q => q.sad = 0 && q.id = 7).map Span.clock) = some (4 * 2100000) ∧
      ∃ h ∈ s.sheets, h.droveId = 1 ∧ h.run = .waiting ∧ some h.spr.flatIx = (wSp wAllOp 0 none).members[0]?) := by
  refine ⟨by decide, by decide, by decide, by decide, by decide, by decide, ⟨.i32, .add, by decide⟩, by decide, by decide⟩

/-! The system class. -/

/-- The sheet at a level. -/
def wLvl (lvl : Nat) (x6 : Word) : State :=
  { w1 0 x6 0 0 with sh := { (w1 0 x6 0 0).sh with spr := { w0.sh.spr with status := BitVec.ofNat 64 lvl, tpc := 0x200000, tstatus := BitVec.ofNat 64 lvl } } }

/-- Allowed and refused values at the ends of the ranges of the `swr` table, and the levels that meet its rows. -/
theorem witness_SpecialRegisters :
    (fld (wLvl 1 0).sh.spr.status 0 2 = 1 ∧ fld (wLvl 0 0).sh.spr.status 0 2 < 1 ∧ fld (wLvl 3 0).sh.spr.status 0 2 = 3) ∧
      (∀ q ∈ [0x000, 0x033, 0x040, 0x061], q ≠ 0x007) ∧
      (let p := w0.sh.spr; p.vl.toNat = 4 ∧ 16384 ≤ 16384 / 2 ^ fld p.vcfg 5 3 ∧ ¬ 16385 ≤ 16384 / 2 ^ fld p.vcfg 5 3 ∧ 4 ≤ 2 ^ fld p.vcfg 5 3 * 4 ∧
        ¬ 5 ≤ 2 ^ fld p.vcfg 5 3 * 4) ∧
      ((0x3FFF#64).toNat < 2 ^ 14 ∧ ¬ (0x4000#64).toNat < 2 ^ 14 ∧ (63#64).toNat < 2 ^ 6 ∧ (255#64).toNat < 2 ^ 8 ∧ (4#64).toNat ≤ 4) ∧
      (let v : Word := 64 + 64 * 2 ^ 8 + 256 * 2 ^ 16; v &&& ~~~(0x1FF7F7F#64) = 0#64 ∧ fld v 0 7 ≤ 64 ∧ fld v 8 7 ≤ 64 ∧ fld v 16 9 ≤ 256) ∧
      ¬ (let v : Word := 257 * 2 ^ 16; fld v 16 9 ≤ 256) ∧
      ((63#64).toNat < 2 ^ 6 ∧ fld (63#64) 0 2 ≠ 2 ∧ ¬ fld (63#64) 0 2 ≤ 1 ∧ fld (33#64) 0 2 ≤ 1) ∧
      (canonical 0x3FFFFFFFFFFFF0 = true ∧ slotStart 0x3FFFFFFFFFFFF0 = true) ∧
      (let v := mkRpst 32 4 31 true true; v &&& ~~~(0x1F1FFF#64) = 0#64 ∧ rpLen v ≤ 32 ∧ rpAct v = true ∧ rpPos v < rpLen v) ∧
      ¬ (let v := mkRpst 31 4 31 true true; rpPos v < rpLen v) ∧
      (∀ k : KReg, (wLvl 1 0).sh.ctok.getLsbD k.val = true → (wLvl 1 0).sh.k[k.val].st = .idle) ∧
      (∃ k : KReg, ({ (wMat 4 4 [] ⟨.pending, 0, 0, 0⟩).sh with ctok := 8 } : Sheet).ctok.getLsbD k.val = true ∧
        (wMat 4 4 [] ⟨.pending, 0, 0, 0⟩).sh.k[k.val].st ≠ .idle) ∧ ((wLvl 1 0).xr 6 = 0 ∧ (wLvl 1 1).xr 6 ≠ 0) ∧
      (w0.timeOn = false ∧ (w0.core.queue[1].filter fun o => o.sheet = w0.pos) = []) := by decide

theorem witness_TrapsAndReturns :
    ((wAt 0).sh.lineAt (wAt 0).sh.pc).isSome = true ∧ ((wAt 0).sh.run ≠ .off ∧ (wAt 0).nextWord.bind decode = none ∧ 255 < 256) ∧
      (let p := (wLvl 1 0).sh.spr; 1 ≤ fld p.status 0 2 ∧ fld p.tstatus 0 2 ≠ 2 ∧ fld p.tstatus 0 2 ≤ 1 ∧ canonical p.tpc = true ∧ slotStart p.tpc = true) ∧
      (let p := (wLvl 3 0).sh.spr; 3 ≤ fld p.status 0 2 ∧ fld p.tstatus 0 2 ≠ 2 ∧ fld p.tstatus 0 2 ≤ 3 ∧ 1 < fld p.tstatus 0 2 ∧ 1 ≤ fld p.status 0 2) ∧
      (fld (wLvl 2 0).sh.spr.tstatus 0 2 = 2) ∧ (fld w0.sh.spr.status 0 2 < 1) ∧ ¬ (canonical 0x40000000000000 = true ∧ slotStart 0x40000000000000 = true) ∧
      (wLvl 1 0).sh.evq.words = [] ∧ ({ (wLvl 1 0).sh with evq := ⟨[1], 0, false⟩ } : Sheet).evq.words ≠ [] := by decide

theorem witness_SystemClass :
    1 ≤ fld (wLvl 1 0).sh.spr.status 0 2 ∧ canonical 0x3FFFFFFFFFFFFF = true ∧ canonical 0x40000000000000 = false ∧
      fld (wLvl 3 0).sh.spr.status 0 2 = 3 ∧ fld (wLvl 0 0).sh.spr.status 0 2 = 0 ∧ ((wLvl 1 0x80001).xr 6).toNat % 4096 ≠ 0 ∧
      (injOk 8 0 = true ∧ (wLvl 3 0).injResident 8 0 = false ∧ injOk 0 0 = true ∧ (wLvl 3 0).injResident 0 0 = true ∧ injOk 0 (1 <<< 48) = false) ∧
      (({ wLvl 3 0 with engines := w0.engines.set 3 ⟨[], some (1, 0), []⟩ } : State).injResident 8 (3 <<< 53) = true) := by decide

/-- `tlbi` finds every stream empty, or one whose store must wait; `ctxsave` finds one that must wait. -/
theorem witness_SystemClass_streams :
    let s := wQ (wLvl 3 0) [⟨.mem false [(0x40040, 1)], none⟩]
    let b := wBusy (wLvl 3 0) [⟨.mem false [(0x40000, 1)], none⟩]
    (∀ h ∈ s.drainAll.sheets, h.vq = []) ∧ (∃ h ∈ b.drainAll.sheets, h.vq ≠ []) ∧
      (¬ ∃ e ∈ s.engines.toList, ∃ c ∈ e.queue, ∃ x ∈ c.pages, x.sad = 0) ∧
      (∃ e ∈ (wCp [wCmd 0 none]).engines.toList, ∃ c ∈ e.queue, ∃ x ∈ c.pages, x.sad = 0) ∧ (∃ st, b.release = .error st) := by
  refine ⟨by decide +kernel, by decide +kernel, by decide, by decide, wStops _ (by decide)⟩

/-! The record of `ctxsave` and `ctxrest`, 187648 bytes at 0x80000 that map to themselves. -/

/-- Its bytes are those of an idle sheet of brand 0: all zero but the version. -/
def wRec : State := { wLvl 1 0x80000 with mem := (0x80000, 1) :: w0.mem }

def wFrom (a : Nat) : Nat → List Phys
  | 0 => []
  | n + 1 => ⟨a, wE⟩ :: wFrom (a + 1) n

theorem wFrom_keys (n : Nat) : ∀ a, physKeys (wFrom a n) = List.range' a n := by
  induction n with
  | zero => intro a; rfl
  | succ n ih => intro a; simp [wFrom, physKeys, List.range'_succ] at ih ⊢; exact ih (a + 1)

theorem wPage (va : Word) (h : va.toNat < 2 ^ 42) : wRec.page 0 va = .leaf 42 wE := by
  have hc : canonical va = true := by
    unfold canonical
    have : va.extractLsb' 54 10 = 0#10 := by
      apply BitVec.eq_of_toNat_eq
      simp [Nat.shiftRight_eq_div_pow]
      omega
    simp [this]
  have ht : tlbFind wRec.sh.tlb 0 va = some (42, wE) := by
    show tlbFind [⟨0, 0, 42, wE⟩] 0 va = _
    simp [tlbFind]
    omega
  simp [State.page, hc, ht]

theorem wXl (m : Acc1) (hm : m = .load ∨ m = .store) (va : Word) (h : va.toNat < 2 ^ 40) : wRec.xlate m va = .ok ⟨va.toNat, wE⟩ := by
  have hp : wRec.page wRec.sh.spr.sad va = .leaf 42 wE := wPage va (by omega)
  have hk : keyOf 42 wE va = va.toNat := by
    unfold keyOf
    rw [show peFrame wE = 0 by decide, show peHome wE = false by decide, show fld wE 8 8 = 0 by decide,
      Nat.mod_eq_of_lt (by omega : va.toNat < 2 ^ 42)]
    simp
  have hi : installed va.toNat = true := by
    unfold installed addrOf localBytes
    rw [Nat.mod_eq_of_lt (by omega : va.toNat < 2 ^ 53), if_pos (by omega)]
    simp
    omega
  have hb : brandOk wE wRec.who = true := by decide
  simp only [State.xlate, hp, checkPage, hk, hb, hi]
  rcases hm with rfl | rfl
  · simp [show Acc1.load.permits wE = true by decide]
  · simp [show Acc1.store.permits wE = true by decide]

theorem wRange (m : Acc1) (hm : m = .load ∨ m = .store) (n : Nat) : ∀ va : Word, va.toNat + n ≤ 2 ^ 40 →
    rangeKeys (wRec.xlate m) va n = .ok (wFrom va.toNat n) := by
  induction n with
  | zero => intro va _; rfl
  | succ n ih =>
    intro va h
    have e : (va + 1).toNat = va.toNat + 1 := by
      rw [BitVec.toNat_add]
      simp
      omega
    have := ih (va + 1) (by omega)
    simp only [rangeKeys, wXl m hm va (by omega), this, e, wFrom]

theorem wRec_range (m : Acc1) (hm : m = .load ∨ m = .store) : wRec.range m 0x80000 187648 = .ok (wFrom 0x80000 187648) := by
  have h : pagesFail m (wRec.xlate m) (pageStarts 0x80000 187648) = none := by
    rcases hm with rfl | rfl <;> decide
  unfold State.range rangeOf
  rw [h]
  exact wRange m hm 187648 0x80000 (by decide)

theorem wRec_owned (k : Nat) : wRec.owned k = false := by
  have : ∀ e ∈ wRec.engines.toList, e.queue = [] := by decide
  simp only [State.owned, List.any_eq_false]
  intro e he
  simp [this e he]

theorem wRec_clean (l : List Phys) : wRec.firstPoison l = none := by
  have : ∀ k, wRec.poisoned k = false := by
    intro k
    have h1 : wRec.poison = [] := rfl
    have h2 : wRec.deadChannels = [] := rfl
    have h3 : wRec.deadPorts = [] := rfl
    simp [State.poisoned, h1, h2, h3]
  simp [State.firstPoison, this]

theorem witness_SystemClass_context :
    1 ≤ fld wRec.sh.spr.status 0 2 ∧ (wRec.xr 6).toNat % 4096 = 0 ∧ wRec.release = .ok wRec ∧ wRec.Inv ∧ (∀ k : KReg, wRec.sh.k[k.val].st ≠ .pending) ∧
      wRec.xr 6 = 0x80000 ∧ wRec.range .store 0x80000 187648 = .ok (wFrom 0x80000 187648) ∧
      wRec.range .load 0x80000 187648 = .ok (wFrom 0x80000 187648) ∧ ((physKeys (wFrom 0x80000 187648)).map addrOf).Nodup ∧
      (∀ k ∈ physKeys (wFrom 0x80000 187648), wRec.owned (lineOf k) = false) ∧ wRec.firstPoison (wFrom 0x80000 187648) = none := by
  refine ⟨by decide, by decide, rfl, ?_, by decide, by decide, wRec_range _ (.inr rfl), wRec_range _ (.inl rfl), ?_,
    fun k _ => wRec_owned _, wRec_clean _⟩
  · unfold State.Inv; decide
  · rw [wFrom_keys]
    have e : ∀ k ∈ List.range' 0x80000 187648, addrOf k = id k := by
      intro k h
      have := List.mem_range'.1 h
      unfold addrOf
      simp
      omega
    rw [List.map_congr_left e, List.map_id]
    exact List.nodup_range'

theorem witness_SystemClass_record :
    ((wRec.recChecks ((physKeys (wFrom 0x80000 187648)).map wRec.homeByte)).all fun q => q.2) = true := by
  have e : ∀ k ∈ physKeys (wFrom 0x80000 187648), wRec.homeByte k = wRec.mem.byte k := by
    intro k h
    rw [wFrom_keys] at h
    have := List.mem_range'.1 h
    have a : addrOf k = k := by unfold addrOf; omega
    have z : sealOf k = 0 := by unfold sealOf; omega
    have m : wRec.seals.byte k = 0 := rfl
    simp only [State.homeByte, a, z, m, decipher]
    rfl
  rw [List.map_congr_left e]
  decide +kernel

theorem witness_LevelsRiseByTraps : fld w0.sh.spr.status 0 2 = 0 ∧ (encode (.trap 0xFFF)).isSome = true := by decide

/-! Events. -/

/-- A line of zeros at 0x200000 that is not fetched yet, with a seal. -/
def wFetch (crc : List Byte) (tvec : Word) : State :=
  { w0 with
    mem := w0.mem ++ crc.zipIdx.map fun q => (0x20003C + q.2, q.1)
    sh := { w0.sh with spr := { w0.sh.spr with tvec := tvec } } }

/-- The next word loads the page's first line, or reads v7, bound to a stream. -/
def wAhead (w : IWord) (bit : Nat) (ahead : List Ahead) : State :=
  { wStream bit with sh := { (wStream bit).sh with
    pc := 0x200000, ahead := ahead, bslots := Vector.replicate 4 []
    lines := [⟨0x200000, bytesOfWord (if bit = 1 then w else 0x200000000000000000000000#96) ++ bytesOfWord w ++ List.replicate 40 0, []⟩] } }

def wVld : Instr := .vld .i32 .none false 2 6 0
def wVmov : Instr := .vmov ⟨.i32, .rne, false, .none⟩ 2 (.reg 7)

theorem witness_CoreEvents_fetch :
    let fetches := fun s : State => decide (s.sh.run ≠ .off) && (s.sh.lineAt s.sh.pc).isNone && (s.packedLine (lineAddr s.sh.pc)).isNone &&
      decide (s.xlate .fetch (lineAddr s.sh.pc) = .ok ⟨0x200000, wE⟩) && !s.poisoned (lineOf 0x200000) && !s.owned (lineOf 0x200000)
    let crc := (crc32c (((keysFrom 0x200000 64).map (wFetch [] 0).homeByte).take 60)).toNat
    fetches (wFetch [0x31, 0x05, 0x0B, 0x5A] 0x300000) = true ∧
      leNat (((keysFrom 0x200000 64).map (wFetch [0x31, 0x05, 0x0B, 0x5A] 0x300000).homeByte).drop 60) = crc ∧
      fetches (wFetch [0x30] 0x300000) = true ∧ leNat (((keysFrom 0x200000 64).map (wFetch [0x30] 0x300000).homeByte).drop 60) ≠ crc ∧
      w0.sh.pc ≠ 0x300000 ∧ fetches (wFetch [0x30] 0x20000C) = true ∧ w0.posted = [] := by decide

theorem witness_CoreEvents_other :
    (w0.sheetAt 0).isSome = true ∧ w0.sheetAt 9 = none ∧ w0.Inv := by unfold State.Inv; decide

theorem witness_CoreEvents_ahead :
    ((encode wVld).elim false fun w =>
      let s := wAhead w 0 []
      (s.loadAhead 1).elim false fun q =>
        let e := q.1.entry q.2 1 []
        let slots := slotsFor q.1.ty q.2.s.sh.spr.aecn
        let t := wAhead w 0 [e]
        let far := wAhead w 0 [{ e with dist := 2, slots := 24 }]
        s.sh.ahead.isEmpty && s.slotsHeld + slots ≤ 24 && ((far.loadAhead 1).elim false fun p =>
          24 < far.slotsHeld + slotsFor p.1.ty p.2.s.sh.spr.aecn) &&
        ((t.loadAhead 1).elim false fun p =>
          let todo := p.1.addrs.zipIdx.filterMap fun r => if (e.got.getD r.2 none).isSome then none else r.1.map fun a => (r.2, a)
          let now := readNext p.1.ty todo 1 todo.length
          (t.sh.ahead.find? fun a => { a with got := [] } = p.1.entry p.2 1 []) = some e && !p.2.waits && !p.1.held p.2.locks &&
          t.core.wloads.isEmpty &&
          !t.readHeld p.1.ty (p.1.tile.bind t.tile?) p.1.ranges (p.1.addrs.zipIdx.map fun r => if now.contains r.2 then r.1 else none)))
      = true := by decide

theorem witness_CoreEvents_fill :
    ((encode wVmov).elim false fun w =>
      let s := wAhead w 1 []
      osFmt s.sh.o[1] = some .i32 && s.sh.bslots[1].isEmpty && ((s.readAhead 1 0).elim false fun l =>
        let addrs := (List.range l.s.sh.spr.aecn).map fun j =>
          some (osBase s.sh.o[1] + BitVec.ofNat 64 (osNext s.sh.o[1] + j) * osStride s.sh.o[1]).toNat
        l.cfg && !l.waits && s.slotsHeld + slotsFor .i32 l.s.sh.spr.aecn ≤ 24 && !(LoadAt.whole .i32 addrs none).held l.locks &&
          !s.readHeld .i32 none (LoadAt.whole .i32 addrs none).ranges addrs)) = true := by decide

/-- A ready launch node of one core, and room in the deficit. -/
def wPlace : State :=
  { w0 with
    nodes := [⟨0, 5, 0, 2, 0, 7⟩]
    saddles := w0.saddles.set 0 { wSaddle with deficit := 1 } }

/-- The drove at a state, with or without a timer; the sheet of another drove in focus, or its own. -/
def wDr (st : DSt) (timer : Bool) (focus : Nat) (run : Run) : State :=
  { w0 with
    droves := [{ wDrove with st := st, timer := timer }]
    sh := { w0.sh with droveId := focus, run := run } }

/-- The drove saved, one sheet and one core, and room to restore it. -/
def wSaved : State :=
  { wPlace with
    nodes := []
    sh := { wPlace.sh with run := .off, droveId := 0 }
    droves := [{ wDrove with st := .saved, missed := true }]
    saved := [⟨1, [⟨0x31, w0.sh⟩], [Core.reset]⟩] }

theorem witness_DroveEvents_placement :
    let s := wPlace
    s.timeOn = false ∧ s.elapse = s ∧
      (let c : Cand := ⟨0, 0, 7, 0, 0, false, 5⟩
       s.cands.find? (fun q => q.sad = 0 && !q.saved && q.num = 5) = some c ∧ (s.node? 0 5).isSome = true ∧ s.freeSlot 0 = some 2 ∧
        (s.grantWindows 2 c.shape c.cwin [63] (fun _ => [])).isSome = true ∧ s.mayPlace 0 = true ∧ s.firstOf c = true ∧
        s.coresOk c.shape [63] = true ∧ s.coresOk c.shape [0] = false) := by decide +kernel

theorem witness_DroveEvents_stops :
    (let s := wDr .resident false 1 .ready
     s.resident? 1 = some wDrove ∧ (s.stopSheets ((s.sheets.filter fun h => h.droveId = 1).map Sheet.place)).isOk = true ∧ s.sh.droveId = 1 ∧
      s.sh.run = .ready ∧ s.resident? 2 = none) ∧
    (let d := { wDrove with timer := true }
     (wDr .resident true 2 .ready).drove? 1 = some d ∧ (wDr .resident true 2 .ready).sh.droveId ≠ 1 ∧ (wDr .resident true 1 .ready).drove? 1 = some d) ∧
    (wDr .saved true 2 .ready).drove? 1 = some { wDrove with timer := true, st := .saved } ∧
    (wDr .resident false 1 .halted).quiet wDrove = true ∧ (wDr .resident false 1 .ready).quiet wDrove = false := by decide

theorem witness_DroveEvents_restore :
    let s := wSaved
    let c : Cand := ⟨0, 0, 1, 0, 4, true, 1⟩
    s.elapse = s ∧ (s.saved.find? fun i => i.drove = 1).isSome = true ∧ s.cands.find? (fun q => q.saved && q.num = 1) = some c ∧
      (s.grantWindows 1 0 4 [63] (s.countersOf 1)).isSome = true ∧ s.mayPlace 0 = true ∧ s.firstOf c = true ∧ s.coresOk 0 [63] = true ∧
      (∀ q ∈ s.tiles, q.drove ≠ 1) := by decide +kernel

theorem witness_DroveEvents_round :
    (let s := { w0 with timeOn := true, coolantOk := false, time := 2100000 }
     s.time.toNat ≤ s.roundAt.toNat + 2100000 ∧ s.roundAt.toNat + 2100000 < 2 ^ 64 ∧ s.hasWork 0 = true ∧ s.hasWork 63 = false) ∧
    (let s := { w0 with timeOn := true, time := 2100000, up := 63, cal := 63 }
     s.time.toNat ≤ s.roundAt.toNat + 2100000 ∧ s.coolantOk = true ∧ s.svc ≠ 0 ∧ ∀ q ∈ s.droves, q.sad < 64) ∧
    w0.timeOn = false := by decide

/-- A record at 0x40000: a host event with one predecessor, STATE 1; a node of a state and a count of predecessors. -/
def wGr (st pred : Nat) (body : BitVec 512) : State :=
  { w0 with
    mem := [(0x40000, 2), (0x40002, 1), (0x4003C, 1)] ++ w0.mem
    nodes := [⟨0, 3, body, st, pred, 0⟩] }

theorem witness_GraphEvents_go :
    let s := wGr 1 1 0
    s.timeOn = false ∧ 4 ≤ (s.saddles[(sadOf 0).val]).devBase.toNat ∧ 8 ≤ (s.saddles[(sadOf 0).val]).graphN.toNat ∧
      ((s.readRec 0 1).elim false fun b => recState b = 1 && recOk b && recPred b != 0) = true ∧
      s.readBusy (runtimeWho 0) (s.recVa 0 1) 64 = false ∧ (wBusy s []).readBusy (runtimeWho 0) ((wBusy s []).recVa 0 1) 64 = true ∧
      (({ s with mem := [(0x40000, 2), (0x4003C, 1)] ++ w0.mem } : State).readRec 0 1).elim false (fun b =>
        recState b = 1 && recOk b && recPred b = 0) = true ∧
      ((s.readRec 0 2).elim false fun b => recState b = 0) = true ∧
      (s.saddles[(sadOf 0).val]).devBase.toNat < 5 := by decide

theorem witness_GraphEvents_nodes :
    ((wGr 4 0 0).node? 0 3 = some ⟨0, 3, 0, 4, 0, 0⟩ ∧ (wGr 4 0 0).posted = [] ∧ (wGr 4 0 0).owned (lineOf 0x400BC) = false ∧
      rangeOf .store ((wGr 4 0 0).xlateAs (runtimeWho 0) .store) ((wGr 4 0 0).recVa 0 3 + 60) 1 = .ok [⟨0x400BC, wE⟩]) ∧
      (wGr 1 2 0).node? 0 3 = some ⟨0, 3, 0, 1, 2, 0⟩ ∧ (wGr 1 1 0).node? 0 3 = some ⟨0, 3, 0, 1, 1, 0⟩ ∧ (wGr 1 0 0).node? 0 3 = some ⟨0, 3, 0, 1, 0, 0⟩ ∧
      (wGr 1 1 0).node? 0 4 = none := by decide

/-- A node of the device pool, whose byte lies in no page table. -/
theorem witness_GraphEvents_pool :
    let s := { wGr 4 0 0 with nodes := [⟨0, 5, 0, 4, 0, 0⟩], mem := w0.mem }
    s.node? 0 5 = some ⟨0, 5, 0, 4, 0, 0⟩ ∧ s.Inv ∧ s.posted = [] ∧ s.owned (lineOf 0x4013C) = false ∧
      rangeOf .store (s.xlateAs (runtimeWho 0) .store) (s.recVa 0 5 + 60) 1 = .ok [⟨0x4013C, wE⟩] ∧
      s.saddles[(sadOf 0).val].devBase.toNat < 5 ∧ s.tablesApart 0 [0x4013C] := by
  refine ⟨by decide, ?_, rfl, by decide, by decide, by decide, wTables _ (by decide) _ rfl rfl fun _ => rfl⟩
  unfold State.Inv; decide

/-- A copy node: its descriptors at 0x50000 (one byte at 0x61000) and 0x50080 (one byte at 0x60000), or with its queue full. -/
def wCopyNode (full : Bool) : State :=
  { wGr 2 0 (BitVec.ofNat 512 (1 + 0x50000 * 2 ^ 64 + 0x50080 * 2 ^ 128)) with
    mem := [(0x50001, 0x10), (0x50002, 6), (0x50009, 5), (0x5000A, 1), (0x50010, 1), (0x50028, 1), (0x50040, 1), (0x50048, 1),
      (0x50082, 6), (0x50089, 5), (0x5008A, 1), (0x50090, 1), (0x500A8, 1), (0x500C0, 1), (0x500C8, 1)] ++ w0.mem
    engines := if full then w0.engines.set 0 ⟨List.replicate 64 (wCmd 0 none), none, []⟩ else w0.engines }

theorem witness_GraphEvents_copy :
    let n : Node := ⟨0, 3, BitVec.ofNat 512 (1 + 0x50000 * 2 ^ 64 + 0x50080 * 2 ^ 128), 2, 0, 0⟩
    let c : Cmd := ⟨0, 63, 0, 1, 0, 0, wDesc 0x60000 .n8 [1] 1, wDesc 0x61000 .n8 [1] 1, none, 0, .rne, false, .node 3, [], [], [], none,
      ⟨0, []⟩, none⟩
    (wCopyNode false).node? 0 3 = some n ∧ recKind n.body = 1 ∧ (wCopyNode false).nodeCmd n = .ok c ∧ c.items ≠ 0 ∧
      ((wCopyNode false).enqueue 0 c).isOk = true ∧ (wCopyNode true).nodeCmd n = .ok c ∧ ((wCopyNode true).enqueue 0 c).isOk = false :=
  ⟨by decide +kernel, by decide +kernel, by decide +kernel, by decide +kernel, by decide +kernel, by decide +kernel, by decide +kernel⟩

theorem witness_GraphEvents_post :
    (let n : Node := ⟨0, 3, BitVec.ofNat 512 (2 + 1 * 2 ^ 128), 2, 0, 0⟩
     (wGr 2 0 n.body).node? 0 3 = some n ∧ recKind n.body = 2 ∧
      (wGr 2 0 n.body).droves.find? (fun d => d.sad = 0 && d.node = fld (recP1 n.body) 0 32) = some wDrove ∧
      fld (recP1 n.body) 32 20 < participants wDrove.shape 5 ∧ participants wDrove.shape 5 = 1) := by decide

/-- A trigger on the header at 0x50000. -/
theorem witness_GraphEvents_trigger :
    let n : Node := ⟨0, 3, BitVec.ofNat 512 (3 + 0x50000 * 2 ^ 64 + 9 * 2 ^ 128), 2, 0, 0⟩
    let s := { wGr 2 0 n.body with mem := w0.mem }
    let l := wPhys 0x50020 16
    s.node? 0 3 = some n ∧ recKind n.body = 3 ∧ s.Inv ∧ s.readAs (runtimeWho 0) (recP0 n.body + 44) 4 = some [0, 0, 0, 0] ∧
      s.readBusy (runtimeWho 0) (recP0 n.body) 48 = false ∧ s.posted = [] ∧ (∀ k ∈ physKeys l, s.owned (lineOf k) = false) ∧
      ({ s with posted := [⟨0, 63, 1, 0, [], none⟩] } : State).posted ≠ [] ∧
      l.length = 16 ∧ ((physKeys l).map addrOf).Nodup ∧ rangeOf .store (s.xlateAs (runtimeWho 0) .store) (recP0 n.body + 32) 12 = .ok (l.take 12) ∧
      s.tablesApart 0 (physKeys l) ∧ s.cleanAt (physKeys l) ∧
      rangeOf .store (s.xlateAs (runtimeWho 0) .store) (recP0 n.body + 44) 4 = .ok (l.drop 12) := by
  refine ⟨by decide, by decide, ?_, by decide, by decide, by decide, by decide, by decide, by decide, by decide, by decide,
    wTables _ (by decide) _ rfl rfl fun _ => rfl, ?_, by decide⟩
  · unfold State.Inv; decide
  · unfold State.cleanAt; decide

/-- Values at the ends of the ranges of the saddle's registers, with the saddle idle and busy; TIMER for a drove and for none. -/
theorem witness_ModuleAndHost_registers :
    State.reset.sadBusy 0 = false ∧ w0.sadBusy 0 = true ∧ ((64#64).toNat % 64 = 0 ∧ (63#64).toNat % 64 ≠ 0) ∧
      ((1048576#64).toNat ≤ 2 ^ 20 ∧ ¬ (1048577#64).toNat ≤ 2 ^ 20) ∧ ((64#64).toNat ≤ 64 ∧ ¬ (65#64).toNat ≤ 64) ∧
      (∃ k, 4 ≤ k ∧ k ≤ 16 ∧ (65536#64).toNat = 2 ^ k) ∧ (32#64).toNat % 32 = 0 ∧ ((4096#64).toNat % 4096 = 0 ∧ (4096#64).toNat ≤ 4096 ∧ 4096 < (4097#64).toNat) ∧
      w0.adapters = [] ∧ (fld (1 + 1 <<< 32 : Word) 0 32 ≠ 0 ∧ ∃ d ∈ w0.droves, d.sad = 0 ∧ d.node = fld (1 + 1 <<< 32 : Word) 32 32) ∧
      (∀ d ∈ w0.droves, ¬ (d.sad = 0 ∧ d.node = fld (1 + 2 <<< 32 : Word) 32 32)) := by
  refine ⟨by decide, by decide, by decide, by decide, by decide, ⟨16, by decide⟩, by decide, by decide, by decide, ⟨by decide, wDrove, by decide⟩, by decide⟩

/-- The event ring of 16 entries at 0x50000, full or with its last place free; host writes to mapped and unmapped addresses. -/
def wRing (tail : Word) : State :=
  { w0 with saddles := w0.saddles.set 0 { wSaddle with evqBase := 0x50000, evqLen := 16, evqTail := tail } }

theorem witness_ModuleAndHost_host :
    (let g := fun t : Word => (wRing t).saddles[(sadOf 0).val]
     (g 16).evqTail - (g 16).evqHead = (g 16).evqLen ∧ (g 15).evqLen ≠ 0 ∧ (g 15).evqTail - (g 15).evqHead ≠ (g 15).evqLen ∧
      rangeOf .store ((wRing 15).xlateAs (runtimeWho 0) .store)
        ((g 15).evqBase + BitVec.ofNat 64 (32 * ((g 15).evqTail.toNat % (g 15).evqLen.toNat))) 32 = .ok (wPhys 0x501E0 32)) ∧
      w0.saddles[(sadOf 0).val].evqLen = 0 ∧
      rangeOf .store (w0.xlateAs (runtimeWho 0) .store) 0x1DCD64FFFFF 1 = .ok [⟨0x1DCD64FFFFF, wE⟩] ∧
      w0.posted = [] ∧ w0.owned (lineOf 0x1DCD64FFFFF) = false ∧ (wBusy w0 []).owned (lineOf 0x40000) = true ∧
      rangeOf .store ((wBusy w0 []).xlateAs (runtimeWho 0) .store) 0x40000 1 = .ok [⟨0x40000, wE⟩] ∧
      rangeOf .store (w0.xlateAs (runtimeWho 0) .store) 0x1DCD6500000 1 = .error (0x11, 0x1DCD6500000) ∧ 0x11 ≠ walkWaits ∧
      (0x0B0 ∉ [0x000, 0x008, 0x0A8] ∧ 0x068 ∉ [0x060, 0x070]) := by decide

/-- A flit of zeros with a right CRC, number 0. -/
def wFlit : BitVec 2048 := BitVec.ofNat 2048 ((crc32c (leBytes 252 0)).toNat * 2 ^ (8 * 252))

theorem witness_ModuleAndHost_flits :
    let seq := fun f : BitVec 2048 => f.toNat / 2 ^ (8 * 248) % 2 ^ 32
    let good := fun f : BitVec 2048 => decide (f.toNat / 2 ^ (8 * 252) = (crc32c (leBytes 252 f.toNat)).toNat)
    w0.ports[3].failed = false ∧ good wFlit = true ∧ seq wFlit = w0.ports[3].seq.toNat ∧ good 0 = false ∧
      seq wFlit ≠ ({ w0 with ports := w0.ports.set 3 ⟨false, 1, 16, true⟩ } : State).ports[3].seq.toNat ∧
      17 ≤ ({ w0 with ports := w0.ports.set 3 ⟨false, 1, 17, true⟩ } : State).ports[3].fails := by decide +kernel

theorem witness_ModuleAndHost_errors :
    w0.planted = [] ∧ (∀ d ∈ w0.droves, (1#12) ≠ 0 ∧ d.sad = (1#12).toNat / 64 ∧ ((63#12).toNat % 64 = 63 ∧ d.slot = (1#12).toNat % 64)) ∧
      191 < 192 ∧ 3 < 4 ∧ State.reset.fw = .off ∧ w0.fw ≠ .off ∧ ({ w0 with fw := .recovery } : State).fw = .recovery ∧
      (w0.fw = .running ∧ 5 < 6 ∧ w0.up.getLsbD 5 = false ∧ w0.up.getLsbD 0 = true ∧ ({ w0 with cal := 0 } : State).cal.getLsbD 0 = false) := by decide

/-! ### Single steps

The expected values are the examples of the rules named, or worked out by hand from them. -/

/-- A value read from the next state. -/
def after {α : Type} (o : Out3) (f : State → α) : Option α :=
  match o with
  | .next t => some (f t)
  | .fault _ => none
  | .refused _ => none

theorem test_add_wraps : after (exec (.add 5 6 (.imm 1)) (w1 0 (-1) 0 0)) (fun t => (t.xr 5, t.sh.pc)) = some (0, 0x200018) := by decide

theorem test_sub_immediate_is_signed : after (exec (.sub 5 6 (.imm 0xFFFFFFFF)) (w1 0 4 0 0)) (·.xr 5) = some 5 := by decide

theorem test_x0_stays_zero : after (exec (.add 0 6 (.imm 1)) (w1 0 4 0 0)) (·.xr 0) = some 0 := by decide

/-- The last slot of a line is followed by the first of the next (R48). -/
theorem test_pc_leaves_line : after (exec .nop (wAt 0)) (·.sh.pc) = some 0x200040 := by decide

/-- R150's constant. -/
theorem test_movh : after (exec (.movh 7 6 (.imm 0x38373635)) (w1 0 0x34333231 0 0)) (·.xr 7) = some 0x3837363534333231 := by decide

theorem test_bext : after (exec (.bext 5 6 (.imm 0x0408)) (w1 0 0xABCD 0 0)) (·.xr 5) = some 0xB := by decide
theorem test_bins_cut_at_63 : after (exec (.bins 5 6 (.imm 0x083C)) (w1 0 0xFF 0 0)) (·.xr 5) = some 0xF000000000000000 := by decide

/-- The third step of R153's table, from the state that the second leaves. -/
theorem test_crcw :
    (after (exec (.crcw .n64 5 6 (.reg 7)) (w1 0 0xFFFFFFFF 0x3837363534333231 0)) (·.xr 5)).bind
      (fun v => after (exec (.crcw .n8 5 6 (.imm 0x39)) (w1 0 v 0 0)) (·.xr 5)) = some 0x1CF96D7C := by decide

theorem test_div_by_zero : after (exec (.div .i64 5 6 (.reg 7)) (w1 0 7 0 0)) (·.xr 5) = some (-1) := by decide
theorem test_rem_sign : after (exec (.rem .i64 5 6 (.reg 7)) (w1 0 (-7) 2 0)) (·.xr 5) = some (-1) := by decide
theorem test_mulh_signs : after (exec (.mulh .i64 5 6 (.reg 7)) (w1 0 (-1) 1 0)) (·.xr 5) = some (-1) := by decide
theorem test_sar : after (exec (.sar 5 6 (.imm 1)) (w1 0 (-3) 0 0)) (·.xr 5) = some (-2) := by decide
theorem test_clz_of_zero : after (exec (.clz 5 6) (w1 0 0 0 0)) (·.xr 5) = some 64 := by decide

/-- 1 + 2^-24 in f32 is a tie, to even (R73). -/
theorem test_fadd_tie :
    after (exec (.fadd .f32 .rne 5 6 (.imm 0x33800000)) { w0 with sh := { w0.sh with f := w0.sh.f.set 6 0x3F800000 } })
      (fun t => (t.fr 5, t.sh.spr.fstat)) = some (0x3F800000, 0x10) := by decide

theorem test_fcvti_saturates :
    after (exec (.fcvti .i8 .f32 .rne true 5 6) { w0 with sh := { w0.sh with f := w0.sh.f.set 6 0x43960000 } }) (·.xr 5) = some 127 := by decide

/-- The branch of R159's example, taken and not. -/
theorem test_br :
    after (exec (.br .leu 6 7 4) { w1 0 3 3 0 with sh := { (w1 0 3 3 0).sh with pc := 0x200098 } }) (·.sh.pc) = some 0x2000CC ∧
      after (exec (.br .leu 6 7 4) { w1 0 4 3 0 with sh := { (w1 0 4 3 0).sh with pc := 0x200098 } }) (·.sh.pc) = some 0x2000A4 := by decide

/-- `jalr` reads its target before it writes the link (R159). -/
theorem test_jalr_same_register : after (exec (.jalr 6 6) (w1 0 0x200100 0 0)) (fun t => (t.sh.pc, t.xr 6)) = some (0x200100, 0x200018) := by decide

/-- A store of two bytes and the load of what it left, sign-extended (R5, R164, R165). -/
theorem test_st_ld :
    (after (exec (.st .i16 7 6 0) (w1 0 0x40000 0x8081 0)) id).bind (fun t => after (exec (.ld .i8 5 6 1) t) (·.xr 5)) = some (-128) := by decide

theorem test_ld_misaligned :
    after (exec (.ld .i16 5 6 1) (w1 0 0x40000 0 0)) (fun t => (t.sh.spr.tcause, t.sh.spr.tval, t.sh.pc)) = some (0x04, 0x40001, 0x300000) := by decide

theorem test_amo_add_old :
    (after (exec (.st .i32 7 6 0) (w1 0 0x40000 0xFFFFFFFF 0)) id).bind
      (fun t => after (exec (.amoAdd .i32 .di 5 7 6 0) t) (fun t => (t.xr 5, t.view 0x40000, t.view 0x40003))) = some (-1, 0xFE, 0xFF) := by decide

/-- R281: a trap at U raises the level to S and keeps STATUS; `trap` resumes at the next slot. -/
theorem test_trap_entry :
    after (exec (.trap 0x123) w0) (fun t => (t.sh.spr.tcause, t.sh.spr.tval, t.sh.spr.tpc, fld t.sh.spr.status 0 2, t.sh.pc)) =
      some (0x70, 0x123, 0x200018, 1, 0x300000) := by decide

theorem test_sret :
    after (exec .sret { wLvl 1 0 with sh := { (wLvl 1 0).sh with spr := { (wLvl 1 0).sh.spr with tstatus := 0 } } })
      (fun t => (t.sh.pc, fld t.sh.spr.status 0 2)) = some (0x200000, 0) := by decide

theorem test_tlbi_at_u : after (exec .tlbiSad w0) (·.sh.spr.tcause) = some 0x02 := by decide

/-- The first strips of R43's example: NREG 16, RC 8, 200 elements of f32 with a cap of 16, with none, and 5 rows of 40. -/
def wStrip (x6 x7 : Word) : State := { w1 0 x6 x7 0 with sh := { (w1 0 x6 x7 0).sh with spr := { w0.sh.spr with vcfg := 0x61, vl := 0, aec := 0 } } }
theorem test_vset :
    after (exec (.vset .f32 5 6 7) (wStrip 200 16)) (fun t => (t.sh.spr.vl, t.sh.spr.aec, t.xr 5)) = some (16, 128, 128) ∧
      after (exec (.vset .f32 5 6 7) (wStrip 200 0)) (fun t => (t.sh.spr.vl, t.sh.spr.aec)) = some (2048, 200) := by decide
theorem test_vset2d : after (exec (.vset2d .f32 5 6 7) (wStrip 5 40)) (fun t => (t.sh.spr.vl, t.sh.spr.aec)) = some (40, 200) := by decide

/-- R39's example of SHEETID and DROVE: 2 sheets × 4 cores × 2 quads × 1 die × 1 package; core 7 of the drove, sheet 1. -/
theorem test_coordinates :
    mkSheetId 0x1D 7 1 = 0x0000000F0000001D ∧ mkDrove 0x1D = 0x000000100000001D := by decide

/-- An element beyond AEC is kept, and one that the mask leaves out is filled under MP 1 (R33). -/
theorem test_vadd_policies :
    after (exec (.vadd ⟨.i32, .rne, false, .by 1 true⟩ 2 3 (.imm 5)) wMask)
      (fun t => [t.sh.elem 2 .i32 0, t.sh.elem 2 .i32 1, t.sh.elem 2 .i32 2, t.sh.elem 2 .i32 3]) = some [0xFFFFFFFF, 5, 5, 0] := by decide +kernel

theorem test_vadd_saturates :
    after (exec (.vadd ⟨.i8, .rne, true, .none⟩ 2 3 (.imm 100)) { w0 with sh := { w0.sh with vstore := [(49152, 100)] } })
      (fun t => [t.sh.elem 2 .i8 0, t.sh.elem 2 .i8 1]) = some [127, 100] := by decide

/-- R180's values: 2^0.5 rounds to 0x3FB504F3, and the logarithm of 8 is 3. -/
theorem test_vfexp2 : (fround .f32 .rne false (fExp2 (fdecode .f32 0x3F000000)).1).1 = 0x3FB504F3 := by decide +kernel
theorem test_vflog2 : (fround .f32 .rne false (fLog2 (fdecode .f32 0x41000000)).1).1 = 0x40400000 := by decide +kernel

/-- R87's ingots of 1.5 and −1.5; their sum is zero. -/
theorem test_ingot :
    ingAcc 0 (fdecode .f32 0x3FC00000) (fdecode .f32 0x3F800000) = (0x000000000000000180000000000000000000000000000000, 0) ∧
      ingAcc 0 (fdecode .f32 0xBFC00000) (fdecode .f32 0x3F800000) = (0xFFFFFFFFFFFFFFFE80000000000000000000000000000000, 0) ∧
      ingAdd 0x000000000000000180000000000000000000000000000000 0xFFFFFFFFFFFFFFFE80000000000000000000000000000000 = (0, 0) := by decide

/-- The packed image of R66: its words, and its two expansion faults. -/
def wStream66 (b18 : Byte) (n : Nat) : Packed :=
  ⟨0, (([0x00, 0x00, 0x40, 0x00, 0x00, 0x00, 0x00, 0x01, 0x00, 0x00, 0x14, 0x01, 0x00, 0x40, 0x05, 0x00, 0x00, 0x00, b18, 0x00, 0x00, 0x01,
    0x00, 0x00, 0x1C, 0x01, 0x00, 0xC0] : List Byte).take n)⟩

def wPacked (p : Packed) : State :=
  { w0 with packed := [p], sh := { w0.sh with pc := 0, spr := { w0.sh.spr with brand := 0 } } }

theorem test_packed_words :
    (((wStream66 0x80 28).line 0).bind Except.toOption).map (fun l => ((List.range 5).map fun n => decode (l.word n), l.recs)) =
      some ([some (.add 5 0 (.imm 0x4000)), some (.add 5 0 (.imm 5)), some (.add 7 0 (.imm 5)), some .nop, some .nop], [0, 13, 18, 27, 27]) := by
  decide

theorem test_packed_faults :
    after (exec (.lineFetch false) (wPacked (wStream66 0x81 28))) (fun t => (t.sh.spr.tcause, t.sh.spr.faddr)) = some (0x05, 18) ∧
      after (exec (.lineFetch false) (wPacked (wStream66 0x80 16))) (fun t => (t.sh.spr.tcause, t.sh.spr.faddr)) = some (0x05, 13) := by decide

/-- One step from a word placed at the PC runs it. -/
theorem test_withFetchWord :
    after (step (State.reset.withFetchWord 96 0x000114000001000000004000)) (fun t => (t.xr 5, t.sh.pc)) = some (0x4000, 12) := by decide +kernel

/-- `talloc` of two megabytes fills the core's own store (R230), and the next finds no room. -/
theorem test_talloc_full :
    (after (exec (.talloc .i8 .co 5 6 7 1) (w1 0 128 16384 0)) id).bind
      (fun t => after (exec (.talloc .i8 .co 5 6 7 2) t) (fun u => (t.xr 5, u.xr 5))) = some (0, 1) := by decide

/-- A barrier of a drove of one sheet: arrival ends the phase (R244). -/
theorem test_barv_last : after (exec (.barv .co 9) (wBar false 5)) (fun t => (t.barrier 1 1 0 9).phase) = some true := by decide

/-- `gslot` below its limit takes the counter's value and counts it up (R367). -/
theorem test_gslot :
    after (exec (.gslot 7 5 9 6) (wGate 1 6)) (fun t => (t.xr 7, sparseGet (t.windowOf 0).ctr 1)) = some (5, 6) := by decide

end Sys2Proof
end

section
/-! Instruction words: the words that the spec writes out, and the words that decode to nothing (R58, R60, R61, R66).
-/
namespace Sys2Proof

/-! ### Words that decode to nothing -/

/-- The class is the high half of OPC (R60). -/
theorem Fields.ofWord_class (w : IWord) : (Fields.ofWord w).opc.extractLsb' 4 4 = w.extractLsb' 92 4 := by
  ext i hi
  have hlow : 4 + i < 8 := by omega
  simp [Fields.ofWord, hlow, ← Nat.add_assoc]

theorem opc_ge_of_classF {o : BitVec 8} (h : o.extractLsb' 4 4 = 0xF#4) : 0xF0 ≤ o.toNat := by
  have hn := congrArg BitVec.toNat h
  simp only [BitVec.extractLsb'_toNat, Nat.shiftRight_eq_div_pow, BitVec.toNat_ofNat] at hn
  omega

/-- The opcode map ends below class 0xF (R61). -/
theorem decodeOpc_classF {f : Fields} (h : f.opc.extractLsb' 4 4 = 0xF#4) : decodeOpc f = none := by
  have hge := opc_ge_of_classF h
  unfold decodeOpc
  split
  any_goals omega
  rfl

theorem decodeFields_of_decodeOpc_none {f : Fields} (h : decodeOpc f = none) : decodeFields f = none := by
  simp [decodeFields, h]

theorem decode_classF {w : IWord} (h : w.extractLsb' 92 4 = 0xF#4) : decode w = none :=
  decodeFields_of_decodeOpc_none (decodeOpc_classF ((Fields.ofWord_class w).trans h))

theorem decode_zero : decode 0#96 = none := by decide

theorem decodeBytes_zeros : decodeBytes (List.replicate 12 0) = none := by decide

namespace Machine

/-! ### What the slot at the PC comes to -/

theorem State.nextWord_of_straight {s : State} {l : Line} (hs : s.straight) (hl : s.sh.lineAt s.sh.pc = some l) :
    s.nextWord = some (wordOfBytes (l.slot (slotOf s.sh.pc))) := by
  unfold State.straight at hs
  simp [State.nextWord, hs, hl, Line.word]

theorem exec_illegalInstruction (s : State) : exec .illegalInstruction s = execIllegalInstruction s := rfl

/-- A placed sheet whose next word decodes to nothing takes trap 0x01 (R58). -/
theorem illegalInstruction_traps {s : State} (hr : s.sh.run ≠ .off) (hw : s.nextWord.bind decode = none) :
    Traps .illegalInstruction s 0x01 0 0 := by
  rw [Traps, exec_illegalInstruction]
  simp [execIllegalInstruction, hr, hw]

/-- Outside a loop, the slot at the PC traps 0x01 when its bytes decode to nothing. -/
theorem undecodable_slot_traps {s : State} {l : Line} (hr : s.sh.run ≠ .off) (hs : s.straight)
    (hl : s.sh.lineAt s.sh.pc = some l) (hd : decodeBytes (l.slot (slotOf s.sh.pc)) = none) :
    Traps .illegalInstruction s 0x01 0 0 :=
  illegalInstruction_traps hr (by rw [State.nextWord_of_straight hs hl]; exact hd)

/-! ### NOP -/

theorem exec_nop (s : State) : exec .nop s = .next s.finish := rfl

theorem done_finish (s : State) : Done s s.finish := ⟨rfl, rfl⟩

/-- Completion by itself changes nothing but what it moves. -/
theorem onlyOf_finish (s : State) : OnlyOf s s.finish id := ⟨rfl, rfl⟩

/-- NOP completes and changes nothing else (R60). -/
theorem nop_changes_only_pc (s : State) : Gives .nop s fun t => Done s t ∧ OnlyOf s t id :=
  ⟨s.finish, exec_nop s, done_finish s, onlyOf_finish s⟩

/-! ### The statement -/

/-- Settles O3: the words written out are decoded by evaluation; class 0xF lies past the end of the opcode map, and a slot whose
bytes decode to nothing traps. -/
theorem wordsOfTheSpec : Obligations.WordsOfTheSpec := by
  refine ⟨by decide, by decide, by decide, by decide, by decide, by decide, nop_changes_only_pc, decode_zero,
    fun _ => decode_classF, ?_⟩
  intro s l b hr hs hl _ hb hword
  subst hb
  refine undecodable_slot_traps hr hs hl ?_
  rcases hword with hzero | hclass
  · rw [hzero]; exact decodeBytes_zeros
  · exact decode_classF hclass

end Machine
end Sys2Proof
end

section
/-! Scalar instructions: how an instruction that writes one x or f register completes, division (R151), and the moves of bits
between the register files (R157).
-/
namespace Sys2Proof
namespace Machine

/-! ### Completion with one register written (R28, R48, R79) -/

/-- Putting the x registers back undoes a write of one. -/
theorem Sheet.setX_restore_x (h : Sheet) (d : XReg) (v : Word) : { h.setX d v with x := h.x } = h := by
  by_cases hd : d = 0
  · subst hd; rfl
  · simp [Sheet.setX, hd]

/-- An instruction that ends in `putX` writes xD and changes nothing else. -/
theorem xDone_of_putX {i : Instr} {s : State} {d : XReg} {v : Word} (h : exec i s = s.putX d v) : XDone i s d v := by
  refine ⟨(s.setX d v).finish, h, ⟨rfl, ?_⟩, fun r => ?_, rfl, ?_⟩
  · change advance (s.sh.setX d v).spr (s.sh.setX d v).xr (s.sh.setX d v).pc 1 = advance s.sh.spr (s.sh.setX d v).xr s.sh.pc 1
    rw [Sheet.setX_spr, Sheet.setX_pc]
  · exact s.xr_setX d r v
  · exact congrArg (·.moved (s.setX d v).finish.sh) (s.sh.setX_restore_x d v).symm

/-- An instruction that ends in `putF` writes fD, adds its flags to FSTAT and changes nothing else. -/
theorem fDone_of_putF {i : Instr} {s : State} {d : FReg} {q : Nat × Flags} (h : exec i s = s.putF d q) : FDone i s d q :=
  ⟨((s.orFlags q.2).setF d (BitVec.ofNat 64 q.1)).finish, h, ⟨rfl, rfl⟩, fun r => (s.orFlags q.2).fr_setF d r _, rfl, rfl, rfl⟩

/-! ### Division (R151) -/

theorem exec_div (ty : Fmt) (d a : XReg) (b : XSrc) (s : State) :
    exec (.div ty d a b) s = s.putX d (divWord ty (s.xr a) (s.xsrc b)) := rfl
theorem exec_rem (ty : Fmt) (d a : XReg) (b : XSrc) (s : State) :
    exec (.rem ty d a b) s = s.putX d (remWord ty (s.xr a) (s.xsrc b)) := rfl

@[simp] theorem divWord_by_zero (ty : Fmt) (x : Word) : divWord ty x 0 = BitVec.allOnes 64 := rfl
@[simp] theorem remWord_by_zero (ty : Fmt) (x : Word) : remWord ty x 0 = x := rfl

section
variable {x y : Word}

theorem divWord_i64 (hy : y ≠ 0) : divWord .i64 x y = x.sdiv y := by
  apply BitVec.eq_of_toInt_eq
  rw [BitVec.toInt_sdiv, divWord, if_neg hy, if_pos rfl, BitVec.toInt_ofInt]

theorem remWord_i64 (hy : y ≠ 0) : remWord .i64 x y = x.srem y := by
  rw [remWord, if_neg hy, if_pos rfl, ← BitVec.toInt_srem, BitVec.ofInt_toInt]

theorem divWord_n64 (hy : y ≠ 0) : divWord .n64 x y = x / y := by
  rw [divWord, if_neg hy, if_neg (by decide), ← BitVec.toNat_udiv, BitVec.ofNat_toNat, BitVec.setWidth_eq]

theorem remWord_n64 (hy : y ≠ 0) : remWord .n64 x y = x % y := by
  rw [remWord, if_neg hy, if_neg (by decide), ← BitVec.toNat_umod, BitVec.ofNat_toNat, BitVec.setWidth_eq]

theorem word_eq_intMin_iff : x = BitVec.intMin 64 ↔ x.toInt = -(2 ^ 63) := by
  rw [← BitVec.toInt_inj, show (BitVec.intMin 64).toInt = -(2 ^ 63) by decide]

theorem word_eq_neg_one_iff : y = -1#64 ↔ y.toInt = -1 := by
  rw [← BitVec.toInt_inj, show (-1#64).toInt = -1 by decide]

/-- The one signed quotient that does not fit wraps to the dividend, with remainder 0. -/
theorem division_i64_overflow (hx : x.toInt = -(2 ^ 63)) (hy : y.toInt = -1) :
    divWord .i64 x y = x ∧ remWord .i64 x y = 0 := by
  rw [word_eq_intMin_iff.mpr hx, word_eq_neg_one_iff.mpr hy, divWord_i64 (by decide), remWord_i64 (by decide)]
  exact ⟨BitVec.intMin_sdiv_neg_one, by decide⟩

/-- A remainder of truncating division has the sign of the dividend. -/
theorem tmod_mul_dividend_nonneg (m n : Int) : 0 ≤ m.tmod n * m := by
  rcases le_total 0 m with hm | hm
  · exact mul_nonneg (Int.tmod_nonneg n hm) hm
  · have hneg : 0 ≤ -m.tmod n := Int.neg_tmod m n ▸ Int.tmod_nonneg n (neg_nonneg.mpr hm)
    exact mul_nonneg_of_nonpos_of_nonpos (neg_nonneg.mp hneg) hm

/-- Signed division truncates toward zero: the remainder is smaller than the divisor and has the sign of the dividend. -/
theorem division_i64_truncates (hy : y ≠ 0) (hfit : ¬(x.toInt = -(2 ^ 63) ∧ y.toInt = -1)) :
    x.toInt = (divWord .i64 x y).toInt * y.toInt + (remWord .i64 x y).toInt ∧
      (remWord .i64 x y).toInt.natAbs < y.toInt.natAbs ∧ 0 ≤ (remWord .i64 x y).toInt * x.toInt := by
  have hq : (x.sdiv y).toInt = x.toInt.tdiv y.toInt :=
    BitVec.toInt_sdiv_of_ne_or_ne x y (by rwa [← not_and_or, word_eq_intMin_iff, word_eq_neg_one_iff])
  have hpos : 0 < y.toInt.natAbs := Int.natAbs_pos.mpr fun h => hy (BitVec.eq_of_toInt_eq h)
  rw [divWord_i64 hy, remWord_i64 hy, hq, BitVec.toInt_srem]
  refine ⟨(Int.tdiv_mul_add_tmod _ _).symm, ?_, tmod_mul_dividend_nonneg _ _⟩
  rw [Int.natAbs_tmod]
  exact Nat.mod_lt _ hpos

theorem division_n64_truncates (hy : y ≠ 0) :
    x.toNat = (divWord .n64 x y).toNat * y.toNat + (remWord .n64 x y).toNat ∧ (remWord .n64 x y).toNat < y.toNat := by
  have hpos : 0 < y.toNat := Nat.pos_of_ne_zero fun h => hy (BitVec.eq_of_toNat_eq h)
  rw [divWord_n64 hy, remWord_n64 hy, BitVec.toNat_udiv, BitVec.toNat_umod]
  exact ⟨(Nat.div_add_mod' _ _).symm, Nat.mod_lt _ hpos⟩

end

/-- Settles O10: `div` and `rem` complete with the words of truncating division, whose three cases are those of R151. -/
theorem division : Obligations.Division := by
  rintro s d a b x y rfl rfl
  refine ⟨_, _, _, _, xDone_of_putX (exec_div .i64 d a b s), xDone_of_putX (exec_rem .i64 d a b s),
    xDone_of_putX (exec_div .n64 d a b s), xDone_of_putX (exec_rem .n64 d a b s),
    fun hzero => ?_, division_i64_overflow, division_i64_truncates, division_n64_truncates⟩
  rw [hzero]
  exact ⟨divWord_by_zero _ _, remWord_by_zero _ _, divWord_by_zero _ _, remWord_by_zero _ _⟩

/-! ### Moves between the register files (R157) -/

theorem exec_fmvx (ty : Fmt) (d : XReg) (a : FReg) (s : State) :
    exec (.fmvx ty d a) s = s.putX d (BitVec.ofNat 64 ((s.fr a).toNat % 2 ^ ty.width)) := rfl
theorem exec_fmvf (ty : Fmt) (d : FReg) (a : XReg) (s : State) :
    exec (.fmvf ty d a) s = s.putF d ((s.xr a).toNat % 2 ^ ty.width, 0) := rfl

theorem ofNat_mod_two_pow_64 (v : Word) : BitVec.ofNat 64 (v.toNat % 2 ^ 64) = v := by
  rw [Nat.mod_eq_of_lt v.isLt, BitVec.ofNat_toNat, BitVec.setWidth_eq]

/-- The low 32 bits of a word, zero above. -/
theorem ofNat_mod_two_pow_32 (v : Word) : BitVec.ofNat 64 (v.toNat % 2 ^ 32) = (v.setWidth 32).zeroExtend 64 := by
  rw [← BitVec.toNat_setWidth, BitVec.ofNat_toNat]

/-- Settles O13: each move ends in a write of the low bits of its source, 64 or 32 of them by the format, with no flag. -/
theorem movesBetweenFiles : Obligations.MovesBetweenFiles := by
  intro s dx ax df af
  refine ⟨xDone_of_putX ?_, xDone_of_putX ?_, fDone_of_putF ?_, fDone_of_putF (exec_fmvf .f32 df ax s)⟩
  · rw [exec_fmvx, show Fmt.f64.width = 64 from rfl, ofNat_mod_two_pow_64]
  · rw [exec_fmvx, show Fmt.f32.width = 32 from rfl, ofNat_mod_two_pow_32]
  · rw [exec_fmvf, show Fmt.f64.width = 64 from rfl, Nat.mod_eq_of_lt (s.xr ax).isLt]

end Machine
end Sys2Proof
end
